-- ==== Sys2Proof/Word.lean ====
section
/-! DEFINITION. The word types of FT8CORE: bytes of LDM, 32-bit CSRs and bus data (spec/10_state.md R22), and
binary32 values by their bit pattern (spec/00_scope.md R8). -/

namespace Sys2Proof

/-- One byte of LDM (spec/20_memory.md R61). -/
abbrev Byte := BitVec 8

/-- A CSR, a command word or the data of a bus access (spec/10_state.md R22, spec/30_encoding.md R90). -/
abbrev Word := BitVec 32

/-- An IEEE 754 binary32 value, held as its 32-bit pattern (spec/00_scope.md R8). -/
abbrev F32 := BitVec 32

end Sys2Proof
end

