-- ==== Sys2Proof/Syntax.lean ====
section
/-! DEFINITION. The command set of FT8CORE: one constructor per row of spec/opcode_table.json
(spec/30_encoding.md R96). The only operand a command word carries is ITER, the LDPC iteration cap field
(spec/30_encoding.md R90, R92, R95); every other operand comes from CSRs. -/

namespace Sys2Proof

/-- A command of the FT8CORE command set, version 1 (spec/00_scope.md R1, spec/30_encoding.md R96).
`iter` is the ITER field as the word holds it; its 8-bit range is checked by `Instr.wellFormed`. -/
inductive Instr where
  | nop
  | crc14
  | crcAppend
  | crcCheck
  | ft4Xor
  | ldpcEncode
  | ldpcDecode (iter : Nat)
  | tonemapFt8
  | tonemapFt4
  | encodeFt8
  | encodeFt4
  | gfskSynth
  | spectrogram
  | syncSearchFt8
  | syncSearchFt4
  | llrExtractFt8Lse
  | llrExtractFt4Lse
  | llrExtractFt8Max
  | llrExtractFt4Max
  | decodeFt8Lse (iter : Nat)
  | decodeFt4Lse (iter : Nat)
  | decodeFt8Max (iter : Nat)
  | decodeFt4Max (iter : Nat)
  deriving DecidableEq, Repr

end Sys2Proof
end

