-- ==== Sys2Proof/WellFormed.lean ====
section
/-! DEFINITION. Which command terms a command word can hold: ITER is an 8-bit field (spec/30_encoding.md R90). -/

namespace Sys2Proof

/-- ITER fits its field, bits 23:16 of the command word (spec/30_encoding.md R90, R92). -/
def iterFits (iter : Nat) : Bool := iter < 256

/-- The command is one that some command word encodes. -/
def Instr.wellFormed : Instr → Bool
  | .nop => true
  | .crc14 => true
  | .crcAppend => true
  | .crcCheck => true
  | .ft4Xor => true
  | .ldpcEncode => true
  | .ldpcDecode iter => iterFits iter
  | .tonemapFt8 => true
  | .tonemapFt4 => true
  | .encodeFt8 => true
  | .encodeFt4 => true
  | .gfskSynth => true
  | .spectrogram => true
  | .syncSearchFt8 => true
  | .syncSearchFt4 => true
  | .llrExtractFt8Lse => true
  | .llrExtractFt4Lse => true
  | .llrExtractFt8Max => true
  | .llrExtractFt4Max => true
  | .decodeFt8Lse iter => iterFits iter
  | .decodeFt4Lse iter => iterFits iter
  | .decodeFt8Max iter => iterFits iter
  | .decodeFt4Max iter => iterFits iter

end Sys2Proof
end

