-- ==== Sys2Proof/Decode.lean ====
section
/-! DEFINITION. Decoding and encoding of command words (spec/30_encoding.md R90 to R99). `decode` is total on 32-bit
words and rejects by name in the order of R96: first the opcode, then the reserved and unused fields. -/

namespace Sys2Proof

/-- Why a word is no legal command (spec/30_encoding.md R96, R97). Starting such a word is not a stop of the machine: the
command completes with the fault of this name (spec/60_exceptions.md R261, R262). -/
inductive DecodeError where
  /-- bits 7:0 are no OPC of the opcode map (R97, R261). -/
  | illegalOpcode
  /-- RSV0, RSV1 or a field the opcode does not use is non-zero (R91, R262). -/
  | reservedField
  /-- fewer than the four bytes of a word: only `decodeBytes` answers this; a CMD write always carries 32 bits (R99). -/
  | truncated
  deriving DecidableEq, Repr

/-- The fourteen opcodes of the opcode map (spec/30_encoding.md R96). -/
inductive Opcode where
  | nop | crc14 | crcAppend | crcCheck | ft4Xor
  | ldpcEncode | ldpcDecode
  | tonemap | encode
  | gfskSynth
  | spectrogram
  | syncSearch | llrExtract | decode
  deriving DecidableEq, Repr

/-- OPC of an opcode (spec/30_encoding.md R96). -/
def Opcode.code : Opcode → Nat
  | .nop => 0x00
  | .crc14 => 0x01
  | .crcAppend => 0x02
  | .crcCheck => 0x03
  | .ft4Xor => 0x04
  | .ldpcEncode => 0x10
  | .ldpcDecode => 0x11
  | .tonemap => 0x20
  | .encode => 0x21
  | .gfskSynth => 0x30
  | .spectrogram => 0x40
  | .syncSearch => 0x50
  | .llrExtract => 0x51
  | .decode => 0x52

/-- The opcode whose OPC is the given number, if the map has one (spec/30_encoding.md R96, R97). -/
def opcodeOf (n : Nat) : Option Opcode :=
  match n with
  | 0x00 => some .nop
  | 0x01 => some .crc14
  | 0x02 => some .crcAppend
  | 0x03 => some .crcCheck
  | 0x04 => some .ft4Xor
  | 0x10 => some .ldpcEncode
  | 0x11 => some .ldpcDecode
  | 0x20 => some .tonemap
  | 0x21 => some .encode
  | 0x30 => some .gfskSynth
  | 0x40 => some .spectrogram
  | 0x50 => some .syncSearch
  | 0x51 => some .llrExtract
  | 0x52 => some .decode
  | _ => none

/-- The opcode uses field P (spec/30_encoding.md R96, column "uses"). -/
def Opcode.usesP : Opcode → Bool
  | .tonemap | .encode | .syncSearch | .llrExtract | .decode => true
  | .nop | .crc14 | .crcAppend | .crcCheck | .ft4Xor | .ldpcEncode | .ldpcDecode | .gfskSynth | .spectrogram => false

/-- The opcode uses field L (spec/30_encoding.md R96, column "uses"). -/
def Opcode.usesL : Opcode → Bool
  | .llrExtract | .decode => true
  | .nop | .crc14 | .crcAppend | .crcCheck | .ft4Xor | .ldpcEncode | .ldpcDecode | .tonemap | .encode | .gfskSynth
  | .spectrogram | .syncSearch => false

/-- The opcode uses field ITER (spec/30_encoding.md R96, column "uses"). -/
def Opcode.usesIter : Opcode → Bool
  | .ldpcDecode | .decode => true
  | .nop | .crc14 | .crcAppend | .crcCheck | .ft4Xor | .ldpcEncode | .tonemap | .encode | .gfskSynth | .spectrogram
  | .syncSearch | .llrExtract => false

/-- The number in `bits` bits of w from bit `lo` up (weight numbering, spec/00_scope.md R6). -/
def field (w : Word) (lo bits : Nat) : Nat := w.toNat / 2 ^ lo % 2 ^ bits

/-- OPC, bits 7:0 (spec/30_encoding.md R90). -/
def fieldOpc (w : Word) : Nat := field w 0 8
/-- P, bit 8 (spec/30_encoding.md R90). -/
def fieldP (w : Word) : Nat := field w 8 1
/-- L, bit 9 (spec/30_encoding.md R90). -/
def fieldL (w : Word) : Nat := field w 9 1
/-- RSV0, bits 15:10 (spec/30_encoding.md R90). -/
def fieldRsv0 (w : Word) : Nat := field w 10 6
/-- ITER, bits 23:16 (spec/30_encoding.md R90). -/
def fieldIter (w : Word) : Nat := field w 16 8
/-- RSV1, bits 31:24 (spec/30_encoding.md R90). -/
def fieldRsv1 (w : Word) : Nat := field w 24 8

/-- Every field the opcode does not use is 0, and so are RSV0 and RSV1 (spec/30_encoding.md R91). -/
def fieldsLegal (o : Opcode) (w : Word) : Bool :=
  fieldRsv0 w == 0 && fieldRsv1 w == 0 && (o.usesP || fieldP w == 0) && (o.usesL || fieldL w == 0)
    && (o.usesIter || fieldIter w == 0)

/-- The command an opcode selects with fields P, L and ITER: P = 0 is FT8, P = 1 is FT4 (spec/30_encoding.md R93); L = 0
is LSE, L = 1 is MAX (R94). -/
def select (o : Opcode) (p l : Bool) (iter : Nat) : Instr :=
  match o with
  | .nop => .nop
  | .crc14 => .crc14
  | .crcAppend => .crcAppend
  | .crcCheck => .crcCheck
  | .ft4Xor => .ft4Xor
  | .ldpcEncode => .ldpcEncode
  | .ldpcDecode => .ldpcDecode iter
  | .tonemap => if p then .tonemapFt4 else .tonemapFt8
  | .encode => if p then .encodeFt4 else .encodeFt8
  | .gfskSynth => .gfskSynth
  | .spectrogram => .spectrogram
  | .syncSearch => if p then .syncSearchFt4 else .syncSearchFt8
  | .llrExtract =>
    if l then (if p then .llrExtractFt4Max else .llrExtractFt8Max)
    else (if p then .llrExtractFt4Lse else .llrExtractFt8Lse)
  | .decode =>
    if l then (if p then .decodeFt4Max iter else .decodeFt8Max iter)
    else (if p then .decodeFt4Lse iter else .decodeFt8Lse iter)

/-- Decode a command word: ILLEGAL_OPCODE, then RESERVED_FIELD, else the command (spec/30_encoding.md R96). -/
def decode (w : Word) : Except DecodeError Instr :=
  match opcodeOf (fieldOpc w) with
  | none => .error .illegalOpcode
  | some o =>
    if fieldsLegal o w then .ok (select o (fieldP w == 1) (fieldL w == 1) (fieldIter w))
    else .error .reservedField

/-- The word four bytes form, the byte at the lowest address being bits 7:0 (spec/20_memory.md R62). -/
def wordOfBytes (b0 b1 b2 b3 : Byte) : Word :=
  BitVec.ofNat 32 (b0.toNat + 2 ^ 8 * b1.toNat + 2 ^ 16 * b2.toNat + 2 ^ 24 * b3.toNat)

/-- Decode the command word at the front of a byte sequence, in the byte order of a 32-bit bus access
(spec/20_memory.md R62), with the bytes that follow it. -/
def decodeBytes : List Byte → Except DecodeError (Instr × List Byte)
  | b0 :: b1 :: b2 :: b3 :: rest =>
    match decode (wordOfBytes b0 b1 b2 b3) with
    | .ok i => .ok (i, rest)
    | .error e => .error e
  | _ => .error .truncated

/-- The k-th byte, in address order, of an instruction whose bits are w (bit 0 the least significant of the word). -/
def tableByte (nbits w k : Nat) : Byte := BitVec.ofNat 8 (w % 2 ^ nbits / 2 ^ (8 * k))

/-- The instruction the decoder reads from an opcode-table word of nbits bits: one 32-bit command word
(spec/30_encoding.md R99), laid out low byte first. A row longer than a command word names nothing. -/
def decodeTableWord (nbits w : Nat) : Option Instr :=
  if 32 < nbits then none
  else match decodeBytes [tableByte nbits w 0, tableByte nbits w 1, tableByte nbits w 2, tableByte nbits w 3] with
    | .ok (i, _) => some i
    | .error _ => none

/-- The opcode, P, L and ITER of a command (spec/30_encoding.md R96, "Mnemonic variants"). -/
def Instr.fields : Instr → Opcode × Bool × Bool × Nat
  | .nop => (.nop, false, false, 0)
  | .crc14 => (.crc14, false, false, 0)
  | .crcAppend => (.crcAppend, false, false, 0)
  | .crcCheck => (.crcCheck, false, false, 0)
  | .ft4Xor => (.ft4Xor, false, false, 0)
  | .ldpcEncode => (.ldpcEncode, false, false, 0)
  | .ldpcDecode iter => (.ldpcDecode, false, false, iter)
  | .tonemapFt8 => (.tonemap, false, false, 0)
  | .tonemapFt4 => (.tonemap, true, false, 0)
  | .encodeFt8 => (.encode, false, false, 0)
  | .encodeFt4 => (.encode, true, false, 0)
  | .gfskSynth => (.gfskSynth, false, false, 0)
  | .spectrogram => (.spectrogram, false, false, 0)
  | .syncSearchFt8 => (.syncSearch, false, false, 0)
  | .syncSearchFt4 => (.syncSearch, true, false, 0)
  | .llrExtractFt8Lse => (.llrExtract, false, false, 0)
  | .llrExtractFt4Lse => (.llrExtract, true, false, 0)
  | .llrExtractFt8Max => (.llrExtract, false, true, 0)
  | .llrExtractFt4Max => (.llrExtract, true, true, 0)
  | .decodeFt8Lse iter => (.decode, false, false, iter)
  | .decodeFt4Lse iter => (.decode, true, false, iter)
  | .decodeFt8Max iter => (.decode, false, true, iter)
  | .decodeFt4Max iter => (.decode, true, true, iter)

/-- The word with the given fields and zero reserved fields (spec/30_encoding.md R90). -/
def assemble (o : Opcode) (p l : Bool) (iter : Nat) : Word :=
  BitVec.ofNat 32 (o.code + 2 ^ 8 * p.toNat + 2 ^ 9 * l.toNat + 2 ^ 16 * iter)

/-- The command word of a command (spec/30_encoding.md R90, R96). -/
def encode (i : Instr) : Word :=
  match i.fields with
  | (o, p, l, iter) => assemble o p l iter

/-- The command word as it lies in memory order, low byte first (spec/20_memory.md R62). -/
def encodeBytes (i : Instr) : List Byte :=
  let w := (encode i).toNat
  [tableByte 32 w 0, tableByte 32 w 1, tableByte 32 w 2, tableByte 32 w 3]

/-- A row of the opcode table: a word w matches when `w & mask = pattern` (spec/30_encoding.md R96, opcode_table.json). -/
structure TableRow where
  pattern : Word
  mask    : Word
  deriving DecidableEq, Repr

/-- The 23 rows of spec/opcode_table.json, in its order. -/
def opcodeTable : List TableRow :=
  [⟨0x00000000, 0xFFFFFFFF⟩, ⟨0x00000001, 0xFFFFFFFF⟩, ⟨0x00000002, 0xFFFFFFFF⟩, ⟨0x00000003, 0xFFFFFFFF⟩,
   ⟨0x00000004, 0xFFFFFFFF⟩, ⟨0x00000010, 0xFFFFFFFF⟩, ⟨0x00000011, 0xFF00FFFF⟩, ⟨0x00000020, 0xFFFFFFFF⟩,
   ⟨0x00000120, 0xFFFFFFFF⟩, ⟨0x00000021, 0xFFFFFFFF⟩, ⟨0x00000121, 0xFFFFFFFF⟩, ⟨0x00000030, 0xFFFFFFFF⟩]
  ++
  [⟨0x00000040, 0xFFFFFFFF⟩, ⟨0x00000050, 0xFFFFFFFF⟩, ⟨0x00000150, 0xFFFFFFFF⟩, ⟨0x00000051, 0xFFFFFFFF⟩,
   ⟨0x00000151, 0xFFFFFFFF⟩, ⟨0x00000251, 0xFFFFFFFF⟩, ⟨0x00000351, 0xFFFFFFFF⟩, ⟨0x00000052, 0xFF00FFFF⟩,
   ⟨0x00000152, 0xFF00FFFF⟩, ⟨0x00000252, 0xFF00FFFF⟩, ⟨0x00000352, 0xFF00FFFF⟩]

/-- A word matches a row of the opcode table. -/
def TableRow.matches (r : TableRow) (w : Word) : Bool := w &&& r.mask == r.pattern

end Sys2Proof
end

