-- ==== Sys2Proof/Config.lean ====
section
/-! DEFINITION. What an FT8CORE implementation fixes and the spec leaves open (spec/00_scope.md R5, R8;
spec/10_state.md R54; spec/93_implementation_defined.md part 2): the constant tables, LDM_SIZE, the NUM record, the
command latency, and the free values. Every `opaque` below has no body: no proof can see a value of it. -/

namespace Sys2Proof

/-- The OPEN constant tables of spec/10_state.md R54: read-only, not addressable, the same after every reset. -/
structure Tables where
  /-- FT4_COSTAS: four sequences of four tones (R54, R181). -/
  ft4Costas : List (List Nat)
  /-- FT4_XOR_MASK: ten bytes, of which stream bits 0..76 are the mask (R54, R135). -/
  ft4XorMask : List Byte
  /-- LDPC_G: 83 generator rows of 91 bits, bit k of row i being `LDPC_G[i][k]` (R54, R137). -/
  ldpcG : List (List Bool)
  /-- LDPC_NM: for each of the 83 checks its ordered list of variables (R54, R160). -/
  ldpcNM : List (List Nat)
  /-- LDPC_MN: for each of the 174 variables its ordered list of checks (R54, R160). -/
  ldpcMN : List (List Nat)
  deriving DecidableEq, Repr, Inhabited

/-- The parameters of one FT8CORE instance that are plain data: LDM_SIZE (spec/20_memory.md R61) and the constant
tables (spec/10_state.md R20 (e), R54). State carries them unchanged, so a statement about every state is a statement
for every choice of them.
DESIGN CHOICE: the spec has instances with 2^16 ≤ LDM_SIZE ≤ 2^24 only (spec/00_scope.md R5); the type admits every size, and
a size outside that range gets the same rules (log entry 18). -/
structure Params where
  ldmSize : Nat
  tables  : Tables
  deriving DecidableEq, Repr

/-- The configuration record NUM of spec/00_scope.md R8: the transcendental functions and the FFT, each a function of
its operands alone (P5).  `fft x f` is the pair (re, im) of `NUM.fft(x)[f]`. -/
structure Num where
  sin   : F32 → F32
  cos   : F32 → F32
  erf   : F32 → F32
  tanh  : F32 → F32
  atanh : F32 → F32
  exp   : F32 → F32
  log   : F32 → F32
  log10 : F32 → F32
  exp10 : F32 → F32
  fft   : List F32 → Nat → F32 × F32
  deriving Inhabited

/-- Where, in the step in which a running command completes, the completion stands to the host's access of that step. The
spec lets an access fall in the step of a completion (spec/60_exceptions.md R268) and leaves the completion's time open
(spec/40_control.md R125), so both occur (log entry 8). -/
inductive CompletionOrder where
  /-- the access comes first and meets the engine BUSY -/
  | afterAccess
  /-- the completion comes first and the access meets the engine IDLE -/
  | beforeAccess
  deriving DecidableEq, Repr, Inhabited

namespace Config

/-- The constant tables of the instance (OPEN, D39, D40, D41): no value is known. -/
opaque tables : Tables

/-- The default LDM_SIZE, 2^24 bytes (spec/00_scope.md R5). -/
def defaultLdmSize : Nat := 2 ^ 24

/-- The parameters `State.reset` starts with (log entry 2). -/
def params : Params := { ldmSize := defaultLdmSize, tables := tables }

/-- The functions an instance computes, before the properties P1 to P4 are imposed (`Machine.Num.constrain`): OPEN, D6. -/
opaque rawNum : Num

/-- Byte `a` of LDM as the `d`-th draw leaves it: draw 0 is power-on (spec/20_memory.md R82), a later draw is the
destination of a command that a soft reset abandoned, or a later power-on (spec/70_reset_and_hazards.md R291). -/
opaque freeByte : Nat → Nat → Byte

/-- The `k`-th unspecified read value: LDM read while BUSY (spec/20_memory.md R74), or data of a bus error (R71). -/
opaque freeWord : Nat → Word

/-- LAT of the `k`-th free value drawn: the number of host steps between a command's start step and its completion step,
finite and otherwise free (spec/70_reset_and_hazards.md R298). -/
opaque latency : Nat → Nat

/-- The order of completion and host access in the last step of the command started at the `k`-th draw: free like LAT, so
that the next access after a start may meet the engine BUSY or IDLE (spec/70_reset_and_hazards.md R298, log entry 8). -/
opaque completionOrder : Nat → CompletionOrder

end Config

end Sys2Proof
end

