-- ==== Sys2Proof/Machine/Memory.lean ====
section
/-! DEFINITION. Memory as plain data: a list of (address, byte) pairs in one canonical form, addresses strictly rising.
An unlisted address holds no value here (`Memory.unlisted`): nothing has written it, and Machine/Ops.lean reads it as a
free byte (spec/20_memory.md R82; log entry 3). -/

namespace Sys2Proof.Machine

/-- The bytes of LDM something has written, by LDM offset (spec/20_memory.md R61). -/
abbrev Memory := List Host.Cell

/-- What the list says of an address it does not name: no written value. -/
def Memory.unlisted : Option Byte := none

/-- The written byte at an address. -/
def Memory.byteAt : Memory → Nat → Option Byte
  | [], _ => Memory.unlisted
  | (k, v) :: m, a => if k = a then some v else Memory.byteAt m a

/-- The cells of a block of bytes at rising addresses from a. -/
def cellsFrom : Nat → List Byte → Memory
  | _, [] => []
  | a, b :: bs => (a, b) :: cellsFrom (a + 1) bs

/-- The cells below an address. -/
def Memory.below (m : Memory) (a : Nat) : Memory := m.filter fun c => decide (c.1 < a)

/-- The cells at or above an address. -/
def Memory.above (m : Memory) (a : Nat) : Memory := m.filter fun c => decide (a ≤ c.1)

/-- The memory after the bytes are written at addresses a, a + 1, … -/
def Memory.store (m : Memory) (a : Nat) (bs : List Byte) : Memory :=
  m.below a ++ (cellsFrom a bs ++ m.above (a + bs.length))

/-- The memory after n bytes from a have lost their written values. -/
def Memory.forget (m : Memory) (a n : Nat) : Memory := m.below a ++ m.above (a + n)

/-- Addresses are above `lo` and strictly rise. -/
def Memory.risesFrom : Nat → Memory → Bool
  | _, [] => true
  | lo, (k, _) :: m => decide (lo ≤ k) && Memory.risesFrom (k + 1) m

/-- The canonical form: addresses strictly rise, and no entry equals what an unlisted address reads as. -/
def Memory.wf (m : Memory) : Bool :=
  Memory.risesFrom 0 m && m.all fun c => decide (some c.2 ≠ Memory.unlisted)

/-- Every listed address is below n. -/
def Memory.within (m : Memory) (n : Nat) : Bool := m.all fun c => decide (c.1 < n)

end Sys2Proof.Machine
end

