-- ==== Sys2Proof/Machine/State.lean ====
section
/-! DEFINITION. The state of FT8CORE (spec/10_state.md R20 to R54), the reasons a step can stop, and the state after
power-on reset (spec/70_reset_and_hazards.md R290). Plain data throughout. -/

namespace Sys2Proof.Machine

/-- The 32-bit CSRs that are stored whole (spec/10_state.md R22, R28 to R51). ID, VERSION and CTRL are hard-wired
(R23 to R25) and STATUS and IRQ_EN are stored by field; the one CSR read is `readCsr`. -/
structure Csrs where
  cmd        : Word
  srcAddr    : Word
  dstAddr    : Word
  len        : Word
  result0    : Word
  result1    : Word
  errinfo    : Word
  fsHz       : Word
  tsym       : F32
  bt         : F32
  f0Hz       : F32
  nfft       : Word
  nstep      : Word
  fminHz     : Word
  fmaxHz     : Word
  syncThresh : F32
  maxCand    : Word
  llrScale   : F32
  wfAddr     : Word
  wfT        : Word
  wfF        : Word
  binhz      : F32
  steps      : F32
  nspsym     : Word
  deriving DecidableEq, Repr

/-- The stored fields of STATUS (spec/10_state.md R26); BUSY is the engine state and the reserved bits read 0. -/
structure Status where
  done      : Bool
  err       : Bool
  overrun   : Bool
  violation : Bool
  errcode   : BitVec 4
  deriving DecidableEq, Repr

/-- The stored fields of IRQ_EN (spec/10_state.md R27). -/
structure IrqEn where
  doneIe : Bool
  errIe  : Bool
  deriving DecidableEq, Repr

/-- The engine state (spec/10_state.md R53). BUSY carries the host steps still to pass before the completion step
(spec/70_reset_and_hazards.md R298; log entry 5), and on which side of the host's access of that step the completion falls
(log entry 8). -/
inductive Eng where
  | idle
  | busy (remaining : Nat) (order : CompletionOrder)
  deriving DecidableEq, Repr

/-- One thing the host does in one host step (spec/20_memory.md R60, R71, R75). -/
inductive HostStep where
  /-- no access in this step -/
  | wait
  /-- a bus read of `bytes` bytes at a bus address -/
  | read (addr : Word) (bytes : Nat)
  /-- a bus write of the low `bytes` bytes of `data` at a bus address -/
  | write (addr : Word) (bytes : Nat) (data : Word)
  /-- a read of STATUS, repeated in the next host step while BUSY (spec/30_encoding.md R102, WAIT) -/
  | poll
  /-- power-on reset (spec/70_reset_and_hazards.md R290) -/
  | powerOn
  deriving DecidableEq, Repr

/-- The bus's answer to the last host access (spec/20_memory.md R71). -/
inductive Resp where
  /-- no access has been answered -/
  | none
  /-- a read's data, zero-extended to 32 bits -/
  | data (w : Word)
  /-- a write was performed or ignored without an error response -/
  | ack
  /-- an error response; the data a read returns with it is unspecified -/
  | busError (w : Word)
  deriving DecidableEq, Repr

/-- A span of LDM offsets, `size` bytes from `base`. -/
structure Span where
  base : Nat
  size : Nat
  deriving DecidableEq, Repr

/-- The span holds the offset. -/
def Span.covers (r : Span) (a : Nat) : Bool := decide (r.base ≤ a ∧ a < r.base + r.size)

/-- The state of the block and of its surroundings. The last four fields are the MODEL's own (INVENTORY.md, State). -/
structure State where
  /-- LDM_SIZE and the constant tables: no step changes them (spec/10_state.md R20 (e)). -/
  params  : Params
  csr     : Csrs
  status  : Status
  irqEn   : IrqEn
  eng     : Eng
  /-- the written bytes of LDM (spec/10_state.md R20 (b)) -/
  ldm     : Memory
  /-- spans whose unlisted bytes hold a later draw than power-on's, newest first (log entry 4) -/
  redraws : List Span
  /-- how many free values have been drawn (log entry 5) -/
  draws   : Nat
  /-- the host steps still to come, in bus order (spec/20_memory.md R75; log entry 7) -/
  bus     : List HostStep
  /-- the answer to the last host access (log entry 7) -/
  resp    : Resp
  deriving DecidableEq, Repr

/-- Why the machine stops with a fault: it never does. Every fault the spec describes is the completion of a command
(spec/60_exceptions.md R269) and every bad access is a bus error response (R273), after which the block goes on; so this
type has no constructor, and nobody raises one. Safe: no behaviour is cut off. -/
inductive Fault where
  deriving DecidableEq, Repr

/-- Why an instruction has no meaning. -/
inductive Refusal where
  /-- raised by an arm of `exec` for a command that has no meaning yet: no arm raises it. Safe. -/
  | notModelled (mnemonic : String)
  deriving DecidableEq, Repr

/-- The reset values of the stored CSRs (spec/10_state.md R22, spec/70_reset_and_hazards.md R290). -/
def Csrs.reset : Csrs where
  cmd        := 0x00000000
  srcAddr    := 0x00000000
  dstAddr    := 0x00000000
  len        := 0x00000000
  result0    := 0x00000000
  result1    := 0x00000000
  errinfo    := 0x00000000
  fsHz       := 0x00002EE0
  tsym       := 0x3E23D70A
  bt         := 0x40000000
  f0Hz       := 0x44BB8000
  nfft       := 0x00000800
  nstep      := 0x00000200
  fminHz     := 0x00000032
  fmaxHz     := 0x000009C4
  syncThresh := 0x00000000
  maxCand    := 0x00000100
  llrScale   := 0x3F800000
  wfAddr     := 0x00000000
  wfT        := 0x00000000
  wfF        := 0x00000000
  binhz      := 0x00000000
  steps      := 0x00000000
  nspsym     := 0x00000000

/-- STATUS after reset (spec/10_state.md R26). -/
def Status.reset : Status := { done := false, err := false, overrun := false, violation := false, errcode := 0 }

/-- IRQ_EN after reset (spec/10_state.md R27). -/
def IrqEn.reset : IrqEn := { doneIe := false, errIe := false }

/-- The state after power-on reset of an instance with the given parameters (spec/70_reset_and_hazards.md R290): no LDM
byte is written, and the model's own fields are empty. -/
def State.resetWith (p : Params) : State where
  params  := p
  csr     := Csrs.reset
  status  := Status.reset
  irqEn   := IrqEn.reset
  eng     := .idle
  ldm     := []
  redraws := []
  draws   := 0
  bus     := []
  resp    := .none

/-- The machine right after power-on reset (spec/70_reset_and_hazards.md R290), with LDM_SIZE at its default and the OPEN
tables (log entry 2). -/
def State.reset : State := State.resetWith Config.params

end Sys2Proof.Machine
end

