-- ==== Sys2Proof/Machine/Flags.lean ====
section
/-! DEFINITION. The flags of the block: STATUS, IRQ_EN, the fault codes and the interrupt output
(spec/10_state.md R26, R27; spec/60_exceptions.md R260, R274). -/

namespace Sys2Proof.Machine

/-- The fault codes a command can end with (spec/60_exceptions.md R260). -/
inductive FaultCode where
  | illegalOpcode | reservedField | addressRange | misaligned | invalidParam | invalidValue | overlap
  deriving DecidableEq, Repr

/-- The ERRCODE number of a fault (spec/60_exceptions.md R260). -/
def faultNumber : FaultCode → BitVec 4
  | .illegalOpcode => 1
  | .reservedField => 2
  | .addressRange => 3
  | .misaligned => 4
  | .invalidParam => 5
  | .invalidValue => 6
  | .overlap => 7

/-- STATUS.BUSY reads 1 exactly when eng = BUSY (spec/10_state.md R26, R53). -/
def isBusy (s : State) : Bool :=
  match s.eng with
  | .idle => false
  | .busy _ _ => true

/-- STATUS as software reads it (spec/10_state.md R26). -/
def statusWord (s : State) : Word :=
  BitVec.ofNat 32 ((isBusy s).toNat + 2 * s.status.done.toNat + 4 * s.status.err.toNat + 8 * s.status.overrun.toNat
    + 16 * s.status.violation.toNat + 256 * s.status.errcode.toNat)

/-- IRQ_EN as software reads it (spec/10_state.md R27). -/
def irqEnWord (s : State) : Word := BitVec.ofNat 32 (s.irqEn.doneIe.toNat + 2 * s.irqEn.errIe.toNat)

/-- The level of the interrupt output (spec/60_exceptions.md R274). -/
def irq (s : State) : Bool :=
  (s.status.done && s.irqEn.doneIe) || ((s.status.err || s.status.overrun || s.status.violation) && s.irqEn.errIe)

/-- A host write to STATUS: write-1-to-clear; clearing ERR also clears ERRCODE and ERRINFO (spec/10_state.md R26). -/
def writeStatus (w : Word) (s : State) : State :=
  { s with
    status :=
      { done := s.status.done && !w.getLsbD 1
        err := s.status.err && !w.getLsbD 2
        overrun := s.status.overrun && !w.getLsbD 3
        violation := s.status.violation && !w.getLsbD 4
        errcode := if w.getLsbD 2 then 0 else s.status.errcode }
    csr := { s.csr with errinfo := if w.getLsbD 2 then 0 else s.csr.errinfo } }

/-- A host write to IRQ_EN (spec/10_state.md R27). -/
def writeIrqEn (w : Word) (s : State) : State :=
  { s with irqEn := { doneIe := w.getLsbD 0, errIe := w.getLsbD 1 } }

/-- STATUS.OVERRUN is set (spec/60_exceptions.md R272). -/
def setOverrun (s : State) : State := { s with status := { s.status with overrun := true } }

/-- STATUS.VIOLATION is set (spec/60_exceptions.md R272). -/
def setViolation (s : State) : State := { s with status := { s.status with violation := true } }

end Sys2Proof.Machine
end

