-- ==== Sys2Proof/Machine/Float.lean ====
section
/-! DEFINITION. IEEE 754 binary32 arithmetic, round-to-nearest-even only, subnormals kept, one canonical NaN
(spec/00_scope.md R8, R12). Every finite value is an integer number of units of 2^-149, so each operator is exact integer
arithmetic followed by one rounding. -/

namespace Sys2Proof.Machine

/-- The canonical quiet NaN (spec/00_scope.md R12 (c)). -/
def qNaN : F32 := 0x7FC00000#32
/-- +0.0 -/
def fZero : F32 := 0x00000000#32
/-- 0.5 -/
def fHalf : F32 := 0x3F000000#32
/-- 1.0 -/
def fOne : F32 := 0x3F800000#32
/-- 1.5 -/
def fOneHalf : F32 := 0x3FC00000#32
/-- 2.0 -/
def fTwo : F32 := 0x40000000#32
/-- 10.0 -/
def fTen : F32 := 0x41200000#32
/-- 24.0 -/
def fTwentyFour : F32 := 0x41C00000#32
/-- PI32 (spec/00_scope.md R8) -/
def PI32 : F32 := 0x40490FDB#32
/-- TWOPI32 (spec/00_scope.md R8) -/
def TWOPI32 : F32 := 0x40C90FDB#32
/-- KG32 (spec/00_scope.md R8) -/
def KG32 : F32 := 0x40AAC42B#32
/-- EPS6 (spec/00_scope.md R8) -/
def EPS6 : F32 := 0x358637BD#32
/-- ACLAMP (spec/00_scope.md R8) -/
def ACLAMP : F32 := 0x3F7FFFEF#32
/-- MCLAMP (spec/00_scope.md R8) -/
def MCLAMP : F32 := 0x41A00000#32

/-- The sign bit. -/
def signBit (x : F32) : Bool := 2 ^ 31 ≤ x.toNat

/-- The exponent and fraction fields as one number: it orders the magnitudes. -/
def magBits (x : F32) : Nat := x.toNat % 2 ^ 31

/-- The magnitude field of infinity; a larger one is a NaN. -/
def infBits : Nat := 0x7F800000

def isNaN (x : F32) : Bool := infBits < magBits x
def isInf (x : F32) : Bool := magBits x == infBits
def isFinite (x : F32) : Bool := magBits x < infBits
def isZero (x : F32) : Bool := magBits x == 0

/-- The value with the given sign and magnitude field. -/
def mkF32 (neg : Bool) (mag : Nat) : F32 := BitVec.ofNat 32 (mag + if neg then 2 ^ 31 else 0)

/-- A value as a command sees it: NaNs are not distinguished by their bits (spec/00_scope.md R12 (c)). -/
def canon (x : F32) : F32 := if isNaN x then qNaN else x

/-- The units of 2^-149 of a finite magnitude field. -/
def scaledMag (m : Nat) : Nat := if m < 2 ^ 23 then m else (2 ^ 23 + m % 2 ^ 23) * 2 ^ (m / 2 ^ 23 - 1)

/-- `exact(x)` of a finite x, in units of 2^-149 (spec/00_scope.md R8). -/
def scaled (x : F32) : Int := if signBit x then -(scaledMag (magBits x) : Int) else (scaledMag (magBits x) : Int)

/-- p/d rounded to the nearest integer, ties to even. -/
def roundEven (p d : Nat) : Nat :=
  if 2 * (p % d) < d then p / d
  else if d < 2 * (p % d) then p / d + 1
  else p / d + p / d % 2

/-- The magnitude field of the binary32 value nearest p/q units of 2^-149, ties to even, infinity when out of range:
`fl` on magnitudes (spec/00_scope.md R8, R12 (a), (g)). -/
def roundMag (p q : Nat) : Nat :=
  let sh := Nat.log2 (p / q) - 23
  min (sh * 2 ^ 23 + roundEven p (q * 2 ^ sh)) infBits

/-- Negation, exact. -/
def fneg (x : F32) : F32 := if isNaN x then qNaN else mkF32 (!signBit x) (magBits x)

/-- x + y -/
def fadd (x y : F32) : F32 :=
  if isNaN x || isNaN y then qNaN
  else if isInf x then (if isInf y && signBit x != signBit y then qNaN else x)
  else if isInf y then y
  else
    let z := scaled x + scaled y
    if z = 0 then mkF32 (signBit x && signBit y) 0
    else mkF32 (decide (z < 0)) (roundMag z.natAbs 1)

/-- x − y -/
def fsub (x y : F32) : F32 := fadd x (fneg y)

/-- x × y -/
def fmul (x y : F32) : F32 :=
  let neg := signBit x != signBit y
  if isNaN x || isNaN y then qNaN
  else if isInf x then (if isZero y then qNaN else mkF32 neg infBits)
  else if isInf y then (if isZero x then qNaN else mkF32 neg infBits)
  else mkF32 neg (roundMag (scaledMag (magBits x) * scaledMag (magBits y)) (2 ^ 149))

/-- x ÷ y -/
def fdiv (x y : F32) : F32 :=
  let neg := signBit x != signBit y
  if isNaN x || isNaN y then qNaN
  else if isInf x then (if isInf y then qNaN else mkF32 neg infBits)
  else if isInf y then mkF32 neg 0
  else if isZero y then (if isZero x then qNaN else mkF32 neg infBits)
  else mkF32 neg (roundMag (scaledMag (magBits x) * 2 ^ 149) (scaledMag (magBits y)))

/-- The integer square root, two bits of the operand a step; `fuel` steps serve operands below 4^fuel. -/
def isqrtAux : Nat → Nat → Nat
  | 0, _ => 0
  | fuel + 1, n =>
    let r := 2 * isqrtAux fuel (n / 4)
    if (r + 1) * (r + 1) ≤ n then r + 1 else r

/-- The integer square root. -/
def isqrt (n : Nat) : Nat := isqrtAux (Nat.log2 n / 2 + 1) n

/-- The IEEE square root (spec/00_scope.md R12 (f)): the integer square root of x·2^149 units, one bit of it below the
last place standing for everything the integer root leaves out. -/
def fsqrt (x : F32) : F32 :=
  if isNaN x then qNaN
  else if isZero x then x
  else if signBit x then qNaN
  else if isInf x then x
  else
    let n := scaledMag (magBits x) * 2 ^ 149
    let r := isqrt n
    mkF32 false (roundMag (2 * r + if r * r = n then 0 else 1) 2)

/-- An integer converted to binary32: exact up to 2^24 (spec/00_scope.md R12 (e)). -/
def fofNat (n : Nat) : F32 := mkF32 false (roundMag (n * 2 ^ 149) 1)

/-- A magnitude field with its sign: it orders the non-NaN values, and the two zeros are equal. -/
def orderKey (x : F32) : Int := if signBit x then -(magBits x : Int) else (magBits x : Int)

/-- x < y; a NaN makes it false, and −0.0 = +0.0 (spec/00_scope.md R12 (b)). -/
def flt (x y : F32) : Bool := !isNaN x && !isNaN y && decide (orderKey x < orderKey y)

/-- x > y -/
def fgt (x y : F32) : Bool := flt y x

/-- x = y, IEEE -/
def feq (x y : F32) : Bool := !isNaN x && !isNaN y && decide (orderKey x = orderKey y)

/-- max(a, b) = (a > b) ? a : b (spec/00_scope.md R12 (b)) -/
def fmax (a b : F32) : F32 := if fgt a b then a else b

/-- min(a, b) = (a < b) ? a : b (spec/00_scope.md R12 (b)) -/
def fmin (a b : F32) : F32 := if flt a b then a else b

/-- min(max(x, −c), c): a NaN x gives −c (spec/00_scope.md R12 (b)). -/
def fclamp (x c : F32) : F32 := fmin (fmax x (fneg c)) c

/-- acc ← x0, then for each later x, acc ← x when x > acc (spec/44_demodulator.md R223, `seqmax`). -/
def seqmax : List F32 → F32
  | [] => qNaN
  | x :: xs => xs.foldl (fun acc y => if fgt y acc then y else acc) x

/-- The sum of a list from +0.0, one rounding per term, in list order. -/
def fsum (xs : List F32) : F32 := xs.foldl fadd fZero

end Sys2Proof.Machine
end

