-- ==== Sys2Proof/Machine/Ops.lean ====
section
/-! DEFINITION. The named operations over memory and registers (spec/00_scope.md R9, spec/20_memory.md R62 to R68, R73,
R82), and the steps of a command's life: start, completion, taking a fault, soft and power-on reset
(spec/40_control.md R120 to R123, spec/60_exceptions.md R269, spec/70_reset_and_hazards.md R290, R291). -/

namespace Sys2Proof.Machine

/-! ### Reading LDM -/

/-- Which draw an unwritten byte holds: the newest span that covers it counts, power-on (draw 0) if none does. -/
def drawAt : List Span → Nat → Nat
  | [], _ => 0
  | r :: rs, a => if r.covers a then rs.length + 1 else drawAt rs a

/-- The byte of LDM at an offset: the written byte, else a free one (spec/20_memory.md R61, R82). -/
def readByte (s : State) (a : Nat) : Byte :=
  match s.ldm.byteAt a with
  | some b => b
  | none => Config.freeByte (drawAt s.redraws a) a

/-- The n bytes of LDM from an offset. -/
def readBytes (s : State) (a n : Nat) : List Byte := (List.range n).map fun k => readByte s (a + k)

/-- The unsigned integer little-endian bytes form (spec/20_memory.md R62). -/
def leNat : List Byte → Nat
  | [] => 0
  | b :: bs => b.toNat + 256 * leNat bs

/-- The n little-endian bytes of an unsigned integer; its bits from 8n up are dropped (spec/00_scope.md R9). -/
def leBytes : Nat → Nat → List Byte
  | 0, _ => []
  | n + 1, v => BitVec.ofNat 8 v :: leBytes n (v / 256)

/-- `MemRead(a, n)` (spec/00_scope.md R9). -/
def memRead (s : State) (a n : Nat) : Nat := leNat (readBytes s a n)

/-- `F32Read(a)`, a NaN read without its bits (spec/00_scope.md R9, R12 (c)). -/
def f32Read (s : State) (a : Nat) : F32 := canon (BitVec.ofNat 32 (memRead s a 4))

/-- The n values of an f32 array at a base offset (spec/20_memory.md R68). -/
def f32Array (s : State) (a n : Nat) : List F32 := (List.range n).map fun k => f32Read s (a + 4 * k)

/-- Stream bit i of a byte, bit 0 the most significant (spec/00_scope.md R6 (a)). -/
def byteBit (b : Byte) (i : Nat) : Bool := b.getLsbD (7 - i)

/-- `BitRead(a, i)` (spec/00_scope.md R9). -/
def bitRead (s : State) (a i : Nat) : Bool := byteBit (readByte s (a + i / 8)) (i % 8)

/-- The first n stream bits of the buffer at an offset (spec/20_memory.md R63). -/
def readBits (s : State) (a n : Nat) : List Bool := (List.range n).map (bitRead s a)

/-- Stream bit i of a constant byte sequence (spec/41_channel_codec.md R135, `BitRead_T`). -/
def bitOfBytes (bs : List Byte) (i : Nat) : Bool := byteBit (bs.getD (i / 8) 0) (i % 8)

/-- The byte whose stream bits are the given function's values at 0..7. -/
def byteOf (f : Nat → Bool) : Byte :=
  BitVec.ofNat 8 ((List.range 8).foldl (fun acc k => 2 * acc + (f k).toNat) 0)

/-- n bytes whose stream bits are the given bits, then 0: the pad bits of an output are 0 (spec/20_memory.md R63). -/
def packBits (n : Nat) (bits : List Bool) : List Byte :=
  (List.range n).map fun j => byteOf fun k => bits.getD (8 * j + k) false

/-- The number bits form, most significant first (spec/00_scope.md R6). -/
def bitsToNat (bits : List Bool) : Nat := bits.foldl (fun acc b => 2 * acc + b.toNat) 0

/-- The n bits of a number, most significant first. -/
def natToBits (n v : Nat) : List Bool := (List.range n).map fun k => v.testBit (n - 1 - k)

/-- The little-endian bytes of f32 values at a 4-byte stride (spec/20_memory.md R68). -/
def f32Bytes (xs : List F32) : List Byte := xs.flatMap fun x => leBytes 4 x.toNat

/-- `zext_32` (spec/00_scope.md R9), and the low 32 bits of a larger number. -/
def toWord (n : Nat) : Word := BitVec.ofNat 32 n

/-- The least index at which a predicate holds. -/
def firstIndex {α : Type} (p : α → Bool) : List α → Option Nat
  | [] => none
  | x :: xs => if p x then some 0 else (firstIndex p xs).map (· + 1)

/-! ### What a command does at its completion -/

/-- `Fault(code, info)` (spec/00_scope.md R9, spec/60_exceptions.md R260). -/
structure CmdFault where
  code : FaultCode
  info : Nat
  deriving DecidableEq, Repr

/-- The waterfall registers SPECTROGRAM writes (spec/30_encoding.md R100, spec/44_demodulator.md R214). -/
structure WfRegs where
  addr  : Word
  t     : Word
  f     : Word
  binhz : F32
  steps : F32
  deriving DecidableEq, Repr

/-- The writes a command collects (spec/40_control.md R122): one block of LDM bytes, and the registers its rule names
(spec/30_encoding.md R100). -/
structure Effect where
  base    : Nat := 0
  bytes   : List Byte := []
  result0 : Option Word := none
  result1 : Option Word := none
  nspsym  : Option Word := none
  wf      : Option WfRegs := none
  deriving DecidableEq, Repr

/-- The CSRs after a command's register writes. -/
def Effect.applyCsrs (e : Effect) (c : Csrs) : Csrs :=
  { c with
    result0 := e.result0.getD c.result0
    result1 := e.result1.getD c.result1
    nspsym := e.nspsym.getD c.nspsym
    wfAddr := (e.wf.map WfRegs.addr).getD c.wfAddr
    wfT := (e.wf.map WfRegs.t).getD c.wfT
    wfF := (e.wf.map WfRegs.f).getD c.wfF
    binhz := (e.wf.map WfRegs.binhz).getD c.binhz
    steps := (e.wf.map WfRegs.steps).getD c.steps }

/-- The completion step of a command without a fault (spec/40_control.md R122). -/
def completeOk (e : Effect) (s : State) : State :=
  { s with
    ldm := s.ldm.store e.base e.bytes
    csr := e.applyCsrs s.csr
    eng := .idle
    status := { s.status with done := true } }

/-- Taking a fault: the completion step of a command that raises `Fault(code, info)`. The first fault since ERR was last
cleared is recorded (spec/40_control.md R123, spec/60_exceptions.md R269, R270). There is no return operation (R270). -/
def takeFault (f : CmdFault) (s : State) : State :=
  { s with
    csr := { s.csr with errinfo := if s.status.err then s.csr.errinfo else toWord f.info }
    status :=
      { s.status with
        errcode := if s.status.err then s.status.errcode else faultNumber f.code
        err := true
        done := true }
    eng := .idle }

/-- A command's outcome, collected writes or a fault (spec/40_control.md R121, R125), takes effect. -/
def finish (r : Except CmdFault Effect) (s : State) : State :=
  match r with
  | .ok e => completeOk e s
  | .error f => takeFault f s

/-- The start step of a command: CMD ← w, DONE ← 0, eng ← BUSY with a free finite delay and a free order of the completion
and the host's access at its end (spec/40_control.md R120, spec/70_reset_and_hazards.md R298; log entries 5, 8). -/
def startCommand (w : Word) (s : State) : State :=
  { s with
    csr := { s.csr with cmd := w }
    status := { s.status with done := false }
    eng := .busy (Config.latency s.draws) (Config.completionOrder s.draws)
    draws := s.draws + 1 }

/-- The bytes of a span hold unspecified values: nothing is written there, and the next draw counts. -/
def forgetSpan (r : Span) (s : State) : State :=
  { s with ldm := s.ldm.forget r.base r.size, redraws := r :: s.redraws }

/-- Every CSR takes its reset value and eng is IDLE. -/
def resetRegisters (s : State) : State :=
  { s with csr := Csrs.reset, status := Status.reset, irqEn := IrqEn.reset, eng := .idle }

/-- Soft reset, given the span an abandoned command writes (spec/70_reset_and_hazards.md R291). -/
def softReset (abandoned : Option Span) (s : State) : State :=
  match abandoned with
  | none => resetRegisters s
  | some r => resetRegisters (forgetSpan r s)

/-- Power-on reset in the middle of a run: every LDM byte is unspecified again (spec/70_reset_and_hazards.md R290, R292). -/
def powerOnReset (s : State) : State :=
  resetRegisters { s with ldm := [], redraws := ⟨0, s.params.ldmSize⟩ :: s.redraws }

/-- The fault of a word that is no legal command, with the word as its information (spec/60_exceptions.md R261, R262). -/
def decodeFault (e : DecodeError) (w : Word) : CmdFault :=
  match e with
  | .illegalOpcode => ⟨.illegalOpcode, w.toNat⟩
  | .reservedField => ⟨.reservedField, w.toNat⟩
  | .truncated => ⟨.illegalOpcode, w.toNat⟩

end Sys2Proof.Machine
end

