-- ==== Sys2Proof/Machine/Csr.lean ====
section
/-! DEFINITION. The CSR file (spec/10_state.md R22 to R52): names, offsets, the one read of every CSR and the write of an
operand register. -/

namespace Sys2Proof.Machine

/-- The CSRs by name (spec/10_state.md R22). -/
inductive Csr where
  | id | version | ctrl | status | irqEn | cmd
  | srcAddr | dstAddr | len | result0 | result1 | errinfo
  | fsHz | tsym | bt | f0Hz | nfft | nstep | fminHz | fmaxHz | syncThresh | maxCand | llrScale
  | wfAddr | wfT | wfF | binhz | steps | nspsym
  deriving DecidableEq, Repr

/-- The byte offset of a CSR (spec/10_state.md R22). -/
def csrOffset : Csr → Nat
  | .id => 0x000 | .version => 0x004 | .ctrl => 0x008 | .status => 0x00C | .irqEn => 0x010 | .cmd => 0x014
  | .srcAddr => 0x018 | .dstAddr => 0x01C | .len => 0x020 | .result0 => 0x024 | .result1 => 0x028 | .errinfo => 0x02C
  | .fsHz => 0x030 | .tsym => 0x034 | .bt => 0x038 | .f0Hz => 0x03C | .nfft => 0x040 | .nstep => 0x044
  | .fminHz => 0x048 | .fmaxHz => 0x04C | .syncThresh => 0x050 | .maxCand => 0x054 | .llrScale => 0x058
  | .wfAddr => 0x05C | .wfT => 0x060 | .wfF => 0x064 | .binhz => 0x068 | .steps => 0x06C | .nspsym => 0x070

/-- Every CSR, in the order of the map. -/
def allCsrs : List Csr :=
  [.id, .version, .ctrl, .status, .irqEn, .cmd, .srcAddr, .dstAddr, .len, .result0, .result1, .errinfo, .fsHz, .tsym, .bt]
  ++ [.f0Hz, .nfft, .nstep, .fminHz, .fmaxHz, .syncThresh, .maxCand, .llrScale, .wfAddr, .wfT, .wfF, .binhz, .steps, .nspsym]

/-- The CSR at an offset; none at a reserved offset (spec/10_state.md R52). -/
def csrAt (off : Nat) : Option Csr := allCsrs.find? fun r => csrOffset r == off

/-- The value a read of a CSR returns (spec/10_state.md R23 to R51). -/
def readCsr (r : Csr) (s : State) : Word :=
  match r with
  | .id => 0x46543843
  | .version => 0x00010007
  | .ctrl => 0
  | .status => statusWord s
  | .irqEn => irqEnWord s
  | .cmd => s.csr.cmd
  | .srcAddr => s.csr.srcAddr
  | .dstAddr => s.csr.dstAddr
  | .len => s.csr.len
  | .result0 => s.csr.result0
  | .result1 => s.csr.result1
  | .errinfo => s.csr.errinfo
  | .fsHz => s.csr.fsHz
  | .tsym => s.csr.tsym
  | .bt => s.csr.bt
  | .f0Hz => s.csr.f0Hz
  | .nfft => s.csr.nfft
  | .nstep => s.csr.nstep
  | .fminHz => s.csr.fminHz
  | .fmaxHz => s.csr.fmaxHz
  | .syncThresh => s.csr.syncThresh
  | .maxCand => s.csr.maxCand
  | .llrScale => s.csr.llrScale
  | .wfAddr => s.csr.wfAddr
  | .wfT => s.csr.wfT
  | .wfF => s.csr.wfF
  | .binhz => s.csr.binhz
  | .steps => s.csr.steps
  | .nspsym => s.csr.nspsym

/-- The operand registers (spec/10_state.md R26, row VIOLATION). -/
def isOperand : Csr → Bool
  | .srcAddr | .dstAddr | .len | .fsHz | .tsym | .bt | .f0Hz | .nfft | .nstep | .fminHz | .fmaxHz | .syncThresh | .maxCand
  | .llrScale | .wfAddr | .wfT | .wfF => true
  | .id | .version | .ctrl | .status | .irqEn | .cmd | .result0 | .result1 | .errinfo | .binhz | .steps | .nspsym => false

/-- The stored CSRs after an operand register is written whole (access RW, spec/10_state.md R22); any other register
keeps its value (RO, or written elsewhere). -/
def setOperand (r : Csr) (w : Word) (c : Csrs) : Csrs :=
  match r with
  | .srcAddr => { c with srcAddr := w }
  | .dstAddr => { c with dstAddr := w }
  | .len => { c with len := w }
  | .fsHz => { c with fsHz := w }
  | .tsym => { c with tsym := w }
  | .bt => { c with bt := w }
  | .f0Hz => { c with f0Hz := w }
  | .nfft => { c with nfft := w }
  | .nstep => { c with nstep := w }
  | .fminHz => { c with fminHz := w }
  | .fmaxHz => { c with fmaxHz := w }
  | .syncThresh => { c with syncThresh := w }
  | .maxCand => { c with maxCand := w }
  | .llrScale => { c with llrScale := w }
  | .wfAddr => { c with wfAddr := w }
  | .wfT => { c with wfT := w }
  | .wfF => { c with wfF := w }
  | .id | .version | .ctrl | .status | .irqEn | .cmd | .result0 | .result1 | .errinfo | .binhz | .steps | .nspsym => c

end Sys2Proof.Machine
end

