-- ==== Sys2Proof/Machine/Operands.lean ====
section
/-! DEFINITION. The operands of commands: parameter checks with their CSR (spec/60_exceptions.md R265), LDM regions and
their checks (spec/20_memory.md R73), and the evaluation order every command shares (spec/40_control.md R121). -/

namespace Sys2Proof.Machine

/-! ### Regions -/

/-- An operand region `[base, base + size)`; `words` says that its elements are u32 or f32 (spec/20_memory.md R73). -/
structure Region where
  base  : Nat
  size  : Nat
  words : Bool
  deriving DecidableEq, Repr

/-- The regions a command reads and writes, in the order of spec/30_encoding.md R100: the read ones stand first in
every row of the table. -/
structure Plan where
  reads  : List Region
  writes : List Region
  deriving DecidableEq, Repr

/-- `fits(base, size)` (spec/00_scope.md R9). -/
def regionFits (ldmSize : Nat) (r : Region) : Bool := decide (r.base + r.size ≤ ldmSize)

/-- A region of u32 or f32 elements has a base that is a multiple of 4; one of size 0 always passes (spec/20_memory.md R73). -/
def regionAligned (r : Region) : Bool := !r.words || r.size == 0 || r.base % 4 == 0

/-- `[a, a+n)` and `[b, b+m)` overlap (spec/20_memory.md R73 (c)). -/
def regionsOverlap (x y : Region) : Bool :=
  decide (0 < x.size ∧ 0 < y.size ∧ x.base < y.base + y.size ∧ y.base < x.base + x.size)

/-- The region checks: ADDRESS_RANGE, then MISALIGNED, then OVERLAP (spec/20_memory.md R73, spec/60_exceptions.md R263,
R264, R267). -/
def checkRegions (ldmSize dst : Nat) (p : Plan) : Option CmdFault :=
  match (p.reads ++ p.writes).find? fun r => !regionFits ldmSize r with
  | some r => some ⟨.addressRange, r.base⟩
  | none =>
    match (p.reads ++ p.writes).find? fun r => !regionAligned r with
    | some r => some ⟨.misaligned, r.base⟩
    | none =>
      if p.writes.any fun w => p.reads.any fun r => regionsOverlap w r then some ⟨.overlap, dst⟩ else none

/-! ### Parameter checks -/

/-- The first failing check names its CSR: INVALID_PARAM with the CSR's offset (spec/60_exceptions.md R265, R268). -/
def firstBadParam : List (Bool × Csr) → Option CmdFault
  | [] => none
  | (ok, r) :: rest => if ok then firstBadParam rest else some ⟨.invalidParam, csrOffset r⟩

/-- The plan a list of parameter checks guards. -/
def guarded (checks : List (Bool × Csr)) (p : Plan) : Except CmdFault Plan :=
  match firstBadParam checks with
  | some f => .error f
  | none => .ok p

/-- FS_HZ as an integer. -/
def fs (s : State) : Nat := s.csr.fsHz.toNat

/-- 1 ≤ FS_HZ ≤ 2^24 (spec/10_state.md R35). -/
def fsOk (s : State) : Bool := decide (1 ≤ fs s ∧ fs s ≤ 2 ^ 24)

/-- An f32 operand is finite and > 0 (spec/10_state.md R36, R37, R45). -/
def finitePositive (x : F32) : Bool := isFinite x && !signBit x && !isZero x

/-- `rnd(fs × exact(t))` for a finite t ≥ 0, on exact rationals, half up: t is `scaled t` units of 2^-149
(spec/43_modulator.md R186). -/
def roundProduct (fsHz : Nat) (t : F32) : Nat := (2 * (fsHz * scaledMag (magBits t)) + 2 ^ 149) / (2 * 2 ^ 149)

/-- Nspsym (spec/43_modulator.md R186). -/
def nspsymOf (s : State) : Nat := roundProduct (fs s) s.csr.tsym

/-- TSYM is finite and > 0, and 1 ≤ Nspsym ≤ 2^20 (spec/10_state.md R36, spec/43_modulator.md R186). -/
def tsymOk (s : State) : Bool := finitePositive s.csr.tsym && decide (1 ≤ nspsymOf s ∧ nspsymOf s ≤ 2 ^ 20)

/-- exact(F0_HZ) ≥ 0 and exact(F0_HZ) + 7·FS_HZ/N ≤ FS_HZ/2, on exact rationals multiplied out by 2·N·2^149
(spec/10_state.md R38, spec/43_modulator.md R191). -/
def f0Ok (s : State) : Bool :=
  let n := nspsymOf s
  isFinite s.csr.f0Hz
    && decide (0 ≤ scaled s.csr.f0Hz)
    && decide (2 * n * scaled s.csr.f0Hz + 14 * fs s * 2 ^ 149 ≤ fs s * n * 2 ^ 149)

/-- NFFT as an integer. -/
def nfft (s : State) : Nat := s.csr.nfft.toNat

/-- NFFT is even and 16 ≤ NFFT ≤ 65536 (spec/10_state.md R39). -/
def nfftOk (s : State) : Bool := decide (nfft s % 2 = 0 ∧ 16 ≤ nfft s ∧ nfft s ≤ 65536)

/-- NSTEP as an integer. -/
def nstep (s : State) : Nat := s.csr.nstep.toNat

/-- 1 ≤ NSTEP ≤ 65536 (spec/10_state.md R40). -/
def nstepOk (s : State) : Bool := decide (1 ≤ nstep s ∧ nstep s ≤ 65536)

/-- WF_T as an integer: T of the waterfall readers. -/
def wfT (s : State) : Nat := s.csr.wfT.toNat

/-- WF_F as an integer: F of the waterfall readers. -/
def wfF (s : State) : Nat := s.csr.wfF.toNat

/-- LEN, SRC_ADDR, DST_ADDR and WF_ADDR as integers (spec/10_state.md R29 to R31, R46). -/
def len (s : State) : Nat := s.csr.len.toNat
def src (s : State) : Nat := s.csr.srcAddr.toNat
def dst (s : State) : Nat := s.csr.dstAddr.toNat
def wfAddr (s : State) : Nat := s.csr.wfAddr.toNat

/-- The waterfall readers' checks, in order (spec/44_demodulator.md R216). -/
def readerChecks (s : State) : List (Bool × Csr) :=
  [(fsOk s, .fsHz), (tsymOk s, .tsym), (nfftOk s, .nfft), (nstepOk s, .nstep), (decide (1 ≤ wfT s), .wfT),
   (wfF s == nfft s / 2 + 1, .wfF)]

/-- The waterfall region [WF_ADDR, 4·T·F) (spec/30_encoding.md R100). -/
def waterfallRegion (s : State) : Region := ⟨wfAddr s, 4 * (wfT s * wfF s), true⟩

/-! ### Evaluation -/

/-- A command: phases 2 and 3 of its evaluation are its plan, phases 4 and 5 its body (spec/40_control.md R121). -/
structure Command where
  plan : State → Except CmdFault Plan
  body : State → Except CmdFault Effect

/-- A command's outcome in the evaluation order of spec/40_control.md R121: parameters, regions, then values and the
computation. It is a function of the state (R125). -/
def evaluate (c : Command) (s : State) : Except CmdFault Effect :=
  match c.plan s with
  | .error f => .error f
  | .ok p =>
    match checkRegions s.params.ldmSize (dst s) p with
    | some f => .error f
    | none => c.body s

/-- The completion step of a command, with a fault or without (spec/40_control.md R122, R123). -/
def runCommand (c : Command) (s : State) : Host.Outcome State Fault Refusal := .next (finish (evaluate c s) s)

end Sys2Proof.Machine
end

