-- ==== Sys2Proof/Machine/Codec.lean ====
section
/-! DEFINITION. The channel codec: CRC-14, FT4 payload mask, LDPC encoder (spec/41_channel_codec.md R130 to R138). -/

namespace Sys2Proof.Machine

/-! ### CRC-14 -/

/-- One bit of the CRC register's life: feedback, shift, conditional xor of 0x2757 (spec/41_channel_codec.md R130). -/
def crcStep (r : BitVec 14) (b : Bool) : BitVec 14 :=
  if r.getLsbD 13 ^^ b then (r <<< 1) ^^^ 0x2757#14 else r <<< 1

/-- `crc14(bits)`: initial remainder 0, no reflection, no XOR-out (spec/41_channel_codec.md R130). -/
def crc14 (bits : List Bool) : BitVec 14 := bits.foldl crcStep 0

/-- `crc77(P)`: over the payload and five zero bits (spec/41_channel_codec.md R131). -/
def crc77 (p : List Bool) : BitVec 14 := crc14 (p ++ List.replicate 5 false)

/-- The 14 CRC bits, most significant first (spec/20_memory.md R65). -/
def crcBits (c : BitVec 14) : List Bool := natToBits 14 c.toNat

/-- The 91 bits of the PayloadWithCrc of a payload (spec/20_memory.md R65). -/
def withCrc (p : List Bool) : List Bool := p ++ crcBits (crc77 p)

/-- CRC14: CRC-14 of an arbitrary bit string (spec/41_channel_codec.md R132). -/
def cmdCrc14 : Command where
  plan s := .ok ⟨[⟨src s, (len s + 7) / 8, false⟩], []⟩
  body s := .ok { result0 := some (toWord (crc14 (readBits s (src s) (len s))).toNat) }

def execCrc14 (s : State) : Host.Outcome State Fault Refusal := runCommand cmdCrc14 s

/-- CRC_APPEND (spec/41_channel_codec.md R133). -/
def cmdCrcAppend : Command where
  plan s := .ok ⟨[⟨src s, 10, false⟩], [⟨dst s, 12, false⟩]⟩
  body s :=
    let p := readBits s (src s) 77
    .ok { base := dst s, bytes := packBits 12 (withCrc p), result0 := some (toWord (crc77 p).toNat) }

def execCrcAppend (s : State) : Host.Outcome State Fault Refusal := runCommand cmdCrcAppend s

/-- CRC_CHECK: a mismatch is a result, not a fault (spec/41_channel_codec.md R134). -/
def cmdCrcCheck : Command where
  plan s := .ok ⟨[⟨src s, 12, false⟩], []⟩
  body s :=
    let c := (crc77 (readBits s (src s) 77)).toNat
    let stored := bitsToNat ((readBits s (src s) 91).drop 77)
    .ok { result0 := some (if stored = c then 1 else 0), result1 := some (toWord c) }

def execCrcCheck (s : State) : Host.Outcome State Fault Refusal := runCommand cmdCrcCheck s

/-! ### FT4 payload mask -/

/-- `mask4(P)` (spec/41_channel_codec.md R135). -/
def mask4 (tb : Tables) (p : List Bool) : List Bool :=
  p.zipWith (fun b m => b ^^ m) ((List.range 77).map (bitOfBytes tb.ft4XorMask))

/-- FT4_XOR (spec/41_channel_codec.md R136). -/
def cmdFt4Xor : Command where
  plan s := .ok ⟨[⟨src s, 10, false⟩], [⟨dst s, 10, false⟩]⟩
  body s := .ok { base := dst s, bytes := packBits 10 (mask4 s.params.tables (readBits s (src s) 77)) }

def execFt4Xor (s : State) : Host.Outcome State Fault Refusal := runCommand cmdFt4Xor s

/-! ### LDPC(174,91) encoder -/

/-- The parity of a bit sequence. -/
def parity (bits : List Bool) : Bool := bits.foldl (fun p b => p ^^ b) false

/-- Parity bit 91 + i of the codeword: the parity of the message masked by generator row i (spec/41_channel_codec.md R137). -/
def parityBit (tb : Tables) (a : List Bool) (i : Nat) : Bool :=
  parity ((List.range 91).map fun k => (tb.ldpcG.getD i []).getD k false && a.getD k false)

/-- `ldpc_enc(a)` of a 91-bit vector (spec/41_channel_codec.md R137). -/
def ldpcEnc (tb : Tables) (a : List Bool) : List Bool := a ++ (List.range 83).map (parityBit tb a)

/-- LDPC_ENCODE (spec/41_channel_codec.md R138). -/
def cmdLdpcEncode : Command where
  plan s := .ok ⟨[⟨src s, 12, false⟩], [⟨dst s, 22, false⟩]⟩
  body s := .ok { base := dst s, bytes := packBits 22 (ldpcEnc s.params.tables (readBits s (src s) 91)) }

def execLdpcEncode (s : State) : Host.Outcome State Fault Refusal := runCommand cmdLdpcEncode s

end Sys2Proof.Machine
end

