-- ==== Sys2Proof/Machine/Control.lean ====
section
/-! DEFINITION. NOP (spec/40_control.md R124). -/

namespace Sys2Proof.Machine

/-- NOP reads and writes nothing. -/
def cmdNop : Command where
  plan _ := .ok ⟨[], []⟩
  body _ := .ok {}

/-- NOP (spec/40_control.md R124). -/
def execNop (s : State) : Host.Outcome State Fault Refusal := runCommand cmdNop s

end Sys2Proof.Machine
end

