-- ==== Sys2Proof/Machine/Num.lean ====
section
/-! DEFINITION. The NUM record (spec/00_scope.md R8): any functions with the properties P1 to P4, and nothing more.
`Num.constrain` turns an arbitrary record into one with these properties and leaves alone a record that has them, so
`NUM`, the constrained OPEN record, ranges over exactly the records R8 allows (log entry 9). -/

namespace Sys2Proof.Machine

/-- `|x| ≤ 1`, and x is no NaN. -/
def unitBounded (x : F32) : Bool := decide (magBits x ≤ magBits fOne)

/-- A value of magnitude at most 1: the given one if it is, else +0.0. -/
def clampUnit (x : F32) : F32 := if unitBounded x then x else fZero

/-- f with its value at +0.0 set to v (P1). -/
def fixZero (v : F32) (f : F32 → F32) (x : F32) : F32 := if x = fZero then v else canon (f x)

/-- f made odd: its values at operands with the sign bit set are the negations of those at the opposite operands (P2);
a NaN has no opposite. -/
def makeOdd (f : F32 → F32) (x : F32) : F32 := if signBit x && !isNaN x then fneg (f (fneg x)) else f x

/-- A zero of either sign, the sign taken from the given value (P4: "pairs of zeros"). -/
def zeroOf (x : F32) : F32 := mkF32 (signBit x) 0

/-- The properties of NUM a model may assume (spec/00_scope.md R8). P1 is read at the operand +0.0 (and 1.0 for log), with
result +0.0 where the result is 0; P2 holds at every operand but a NaN, P3 at every operand; results are never a
non-canonical NaN (R12 (c)). P5 holds by the type. -/
structure NumProps (nm : Num) : Prop where
  p1_sin : nm.sin fZero = fZero
  p1_cos : nm.cos fZero = fOne
  p1_erf : nm.erf fZero = fZero
  p1_tanh : nm.tanh fZero = fZero
  p1_atanh : nm.atanh fZero = fZero
  p1_exp : nm.exp fZero = fOne
  p1_log : nm.log fOne = fZero
  p1_exp10 : nm.exp10 fZero = fOne
  p2_tanh : ∀ x, isNaN x = false → nm.tanh (fneg x) = fneg (nm.tanh x)
  p2_atanh : ∀ x, isNaN x = false → nm.atanh (fneg x) = fneg (nm.atanh x)
  p2_erf : ∀ x, isNaN x = false → nm.erf (fneg x) = fneg (nm.erf x)
  p3_sin : ∀ x, unitBounded (nm.sin x) = true
  p3_cos : ∀ x, unitBounded (nm.cos x) = true
  p3_erf : ∀ x, unitBounded (nm.erf x) = true
  p3_tanh : ∀ x, unitBounded (nm.tanh x) = true
  p4_fft : ∀ xs, (∀ x ∈ xs, x = fZero) → ∀ f, isZero (nm.fft xs f).1 = true ∧ isZero (nm.fft xs f).2 = true
  canon_atanh : ∀ x, canon (nm.atanh x) = nm.atanh x
  canon_exp : ∀ x, canon (nm.exp x) = nm.exp x
  canon_log : ∀ x, canon (nm.log x) = nm.log x
  canon_log10 : ∀ x, canon (nm.log10 x) = nm.log10 x
  canon_exp10 : ∀ x, canon (nm.exp10 x) = nm.exp10 x
  canon_fft : ∀ xs f, canon (nm.fft xs f).1 = (nm.fft xs f).1 ∧ canon (nm.fft xs f).2 = (nm.fft xs f).2

/-- The FFT, its result on a vector of zeros made zeros (P4). -/
def constrainFft (fft : List F32 → Nat → F32 × F32) (xs : List F32) (f : Nat) : F32 × F32 :=
  if xs.all (fun x => x == fZero) then (zeroOf (fft xs f).1, zeroOf (fft xs f).2)
  else (canon (fft xs f).1, canon (fft xs f).2)

/-- The record with P1 to P4 imposed (spec/00_scope.md R8). -/
def Num.constrain (raw : Num) : Num where
  sin x := clampUnit (fixZero fZero raw.sin x)
  cos x := clampUnit (fixZero fOne raw.cos x)
  erf := makeOdd fun x => clampUnit (fixZero fZero raw.erf x)
  tanh := makeOdd fun x => clampUnit (fixZero fZero raw.tanh x)
  atanh := makeOdd (fixZero fZero raw.atanh)
  exp := fixZero fOne raw.exp
  log x := if x = fOne then fZero else canon (raw.log x)
  log10 x := canon (raw.log10 x)
  exp10 := fixZero fOne raw.exp10
  fft := constrainFft raw.fft

/-- NUM of this instance: the OPEN record with P1 to P4 (spec/00_scope.md R8). -/
def NUM : Num := Num.constrain Config.rawNum

end Sys2Proof.Machine
end

