-- ==== Sys2Proof/Machine/Ldpc.lean ====
section
/-! DEFINITION. The LDPC(174,91) belief-propagation decoder (spec/42_ldpc_decode.md R160 to R169), and the constraints on
the LDPC tables that claims about the code take as premises (spec/10_state.md R55). -/

namespace Sys2Proof.Machine

/-! ### The parity-check graph -/

/-- LDPC_NM[j] (spec/42_ldpc_decode.md R160). -/
def checkVars (tb : Tables) (j : Nat) : List Nat := tb.ldpcNM.getD j []

/-- LDPC_MN[i] (spec/42_ldpc_decode.md R160). -/
def varChecks (tb : Tables) (i : Nat) : List Nat := tb.ldpcMN.getD i []

/-- `syn(b)[j]` (spec/42_ldpc_decode.md R160). -/
def syndromeBit (tb : Tables) (b : List Bool) (j : Nat) : Bool := parity ((checkVars tb j).map fun i => b.getD i false)

/-- `nerr(b)`: how many of the 83 checks are odd (spec/42_ldpc_decode.md R160, R164). -/
def nerr (tb : Tables) (b : List Bool) : Nat := (List.range 83).countP (syndromeBit tb b)

/-- The constraints on the LDPC tables (spec/10_state.md R55), with their shapes (R54). -/
structure LdpcLegal (tb : Tables) : Prop where
  /-- 83 rows of 91 bits -/
  g_shape : tb.ldpcG.length = 83 ∧ ∀ row ∈ tb.ldpcG, row.length = 91
  nm_shape : tb.ldpcNM.length = 83 ∧ ∀ row ∈ tb.ldpcNM, ∀ i ∈ row, i < 174
  mn_shape : tb.ldpcMN.length = 174 ∧ ∀ col ∈ tb.ldpcMN, ∀ j ∈ col, j < 83
  /-- (a) -/
  mn_three : ∀ i < 174, (varChecks tb i).length = 3 ∧ (varChecks tb i).Nodup
  /-- (b) -/
  nm_distinct : ∀ j < 83, 2 ≤ (checkVars tb j).length ∧ (checkVars tb j).Nodup
  /-- (c) -/
  incident : ∀ i < 174, ∀ j < 83, i ∈ checkVars tb j ↔ j ∈ varChecks tb i
  /-- (d) -/
  consistent : ∀ a : List Bool, a.length = 91 → ∀ j < 83, syndromeBit tb (ldpcEnc tb a) j = false

/-! ### The algorithm -/

/-- One f32 per edge: row j holds the values of the edges (j, LDPC_NM[j][q]) in list order (spec/42_ldpc_decode.md R160). -/
abbrev Edges := List (List F32)

/-- The value on the edge (j, i). -/
def edgeAt (tb : Tables) (e : Edges) (j i : Nat) : F32 := (e.getD j []).getD ((checkVars tb j).idxOf i) fZero

/-- m[j][i] <- L[i] on every edge (spec/42_ldpc_decode.md R161). -/
def initialEdges (tb : Tables) (llr : List F32) : Edges :=
  (List.range 83).map fun j => (checkVars tb j).map fun i => llr.getD i fZero

/-- e[j][i1] of the edge at position q of a check whose messages are `row`: the product over the other positions in
order, clamped, through atanh (spec/42_ldpc_decode.md R162). -/
def checkMessage (nm : Num) (row : List F32) (q : Nat) : F32 :=
  let a := (List.range row.length).foldl
    (fun a r => if r = q then a else fmul a (nm.tanh (fmul (fclamp (row.getD r fZero) MCLAMP) fHalf))) fOne
  fmul fTwo (nm.atanh (fclamp a ACLAMP))

/-- Step 1, every check from the m of the previous iteration (spec/42_ldpc_decode.md R162). -/
def checkUpdate (nm : Num) (m : Edges) : Edges := m.map fun row => (List.range row.length).map (checkMessage nm row)

/-- Step 2: b[i] (spec/42_ldpc_decode.md R163). -/
def hardBit (tb : Tables) (llr : List F32) (e : Edges) (i : Nat) : Bool :=
  flt ((varChecks tb i).foldl (fun s j => fadd s (edgeAt tb e j i)) (llr.getD i fZero)) fZero

/-- Step 2: the hard decision (spec/42_ldpc_decode.md R163). -/
def hardDecision (tb : Tables) (llr : List F32) (e : Edges) : List Bool := (List.range 174).map (hardBit tb llr e)

/-- Step 4: m[j1][i], summed directly over the other checks of i (spec/42_ldpc_decode.md R166). -/
def varMessage (tb : Tables) (llr : List F32) (e : Edges) (j1 i : Nat) : F32 :=
  (varChecks tb i).foldl (fun acc j2 => if j2 = j1 then acc else fadd acc (edgeAt tb e j2 i)) (llr.getD i fZero)

/-- Step 4: the variable update (spec/42_ldpc_decode.md R166). -/
def varUpdate (tb : Tables) (llr : List F32) (e : Edges) : Edges :=
  (List.range 83).map fun j1 => (checkVars tb j1).map fun i => varMessage tb llr e j1 i

/-- What the decoder has found: the best codeword, its error count, the iterations run (spec/42_ldpc_decode.md R165, R167). -/
structure BpResult where
  best   : List Bool
  minErr : Nat
  iters  : Nat
  deriving DecidableEq, Repr

/-- Best tracking: strictly fewer errors replace the best (spec/42_ldpc_decode.md R165). -/
def trackBest (acc : BpResult) (b : List Bool) (err it : Nat) : BpResult :=
  if err < acc.minErr then ⟨b, err, it⟩ else { acc with iters := it }

/-- Iterations it, it + 1, … on messages m, at most the given number of them; a zero syndrome stops the loop
(spec/42_ldpc_decode.md R161, R165). -/
def bpLoop (nm : Num) (tb : Tables) (llr : List F32) : Nat → Nat → Edges → BpResult → BpResult
  | 0, _, _, acc => acc
  | left + 1, it, m, acc =>
    let e := checkUpdate nm m
    let b := hardDecision tb llr e
    let err := nerr tb b
    let acc' := trackBest acc b err it
    if err = 0 then acc' else bpLoop nm tb llr left (it + 1) (varUpdate tb llr e) acc'

/-- `bp(L, maxIter)` (spec/42_ldpc_decode.md R161, R167). -/
def bp (nm : Num) (tb : Tables) (llr : List F32) (maxIter : Nat) : BpResult :=
  bpLoop nm tb llr maxIter 1 (initialEdges tb llr) ⟨List.replicate 174 false, 84, 0⟩

/-- The iteration cap of an ITER field (spec/30_encoding.md R92). -/
def maxIter (iter : Nat) : Nat := if iter = 0 then 20 else iter

/-- LDPC_DECODE (spec/42_ldpc_decode.md R168). -/
def cmdLdpcDecode (nm : Num) (iter : Nat) : Command where
  plan s := .ok ⟨[⟨src s, 696, true⟩], [⟨dst s, 22, false⟩]⟩
  body s :=
    let llr := f32Array s (src s) 174
    match firstIndex isNaN llr with
    | some i => .error ⟨.invalidValue, i⟩
    | none =>
      let r := bp nm s.params.tables llr (maxIter iter)
      .ok { base := dst s, bytes := packBits 22 r.best, result0 := some (toWord r.minErr), result1 := some (toWord r.iters) }

def execLdpcDecode (iter : Nat) (s : State) : Host.Outcome State Fault Refusal := runCommand (cmdLdpcDecode NUM iter) s

end Sys2Proof.Machine
end

