-- ==== Sys2Proof/Machine/Modulator.lean ====
section
/-! DEFINITION. The modulator: symbol positions, tone maps, ENCODE, GFSK synthesis (spec/43_modulator.md R180 to R192). -/

namespace Sys2Proof.Machine

/-! ### Protocol constants -/

/-- The protocol field P selects (spec/30_encoding.md R93). -/
inductive Mode where
  | ft8 | ft4
  deriving DecidableEq, Repr

/-- NS, the symbols of a frame (spec/30_encoding.md R93). -/
def symbols : Mode → Nat
  | .ft8 => 79
  | .ft4 => 105

/-- M, the number of tones (spec/30_encoding.md R93). -/
def toneCount : Mode → Nat
  | .ft8 => 8
  | .ft4 => 4

/-- BPS, the bits of a data symbol (spec/30_encoding.md R93). -/
def bitsPerSymbol : Mode → Nat
  | .ft8 => 3
  | .ft4 => 2

/-- ND, the data symbols of a frame (spec/00_scope.md R4). -/
def dataSymbols : Mode → Nat
  | .ft8 => 58
  | .ft4 => 87

/-- COSTAS8 (spec/10_state.md R54). -/
def costas8 : List Nat := [3, 1, 4, 0, 6, 5, 2]

/-- GRAY8 (spec/10_state.md R54). -/
def gray8 : List Nat := [0, 1, 3, 2, 5, 6, 4, 7]

/-- GRAY4 (spec/10_state.md R54). -/
def gray4 : List Nat := [0, 1, 3, 2]

/-- The tone of a value (spec/10_state.md R54). -/
def gray (md : Mode) (v : Nat) : Nat :=
  match md with
  | .ft8 => gray8.getD v 0
  | .ft4 => gray4.getD v 0

/-- FT4_COSTAS[b], four tones (spec/10_state.md R54, spec/43_modulator.md R181). -/
def ft4Costas (tb : Tables) (b : Nat) : List Nat := (List.range 4).map fun k => (tb.ft4Costas.getD b []).getD k 0

/-- The constraints on the FT4 tables (spec/10_state.md R54): four distinct sequences of four tones in 0..3, ten mask bytes. -/
structure Ft4Legal (tb : Tables) : Prop where
  costas_shape : tb.ft4Costas.length = 4 ∧ ∀ row ∈ tb.ft4Costas, row.length = 4 ∧ ∀ t ∈ row, t < 4
  costas_distinct : tb.ft4Costas.Nodup
  mask_shape : tb.ft4XorMask.length = 10

/-- The sync blocks in order: offset and tones (spec/43_modulator.md R180, R181). -/
def syncBlocks (tb : Tables) : Mode → List (Nat × List Nat)
  | .ft8 => [(0, costas8), (36, costas8), (72, costas8)]
  | .ft4 => [(1, ft4Costas tb 0), (34, ft4Costas tb 1), (67, ft4Costas tb 2), (100, ft4Costas tb 3)]

/-- DATAPOS8 and DATAPOS4 (spec/43_modulator.md R180, R181). -/
def dataPos (md : Mode) (d : Nat) : Nat :=
  match md with
  | .ft8 => if d ≤ 28 then 7 + d else 43 + (d - 29)
  | .ft4 => if d ≤ 28 then 5 + d else if d ≤ 57 then 38 + (d - 29) else 71 + (d - 58)

/-! ### Tone mapping -/

/-- The value of data symbol d: BPS consecutive codeword bits, most significant first (spec/43_modulator.md R182, R183). -/
def symbolValue (md : Mode) (c : List Bool) (d : Nat) : Nat :=
  bitsToNat ((List.range (bitsPerSymbol md)).map fun b => c.getD (bitsPerSymbol md * d + b) false)

/-- The tones of data symbols d0, …, d0 + 28. -/
def dataTones (md : Mode) (c : List Bool) (d0 : Nat) : List Nat :=
  (List.range 29).map fun k => gray md (symbolValue md c (d0 + k))

/-- `tones8(c)` and `tones4(c)` (spec/43_modulator.md R180 to R183). -/
def tones (tb : Tables) (md : Mode) (c : List Bool) : List Nat :=
  match md with
  | .ft8 => costas8 ++ dataTones .ft8 c 0 ++ costas8 ++ dataTones .ft8 c 29 ++ costas8
  | .ft4 =>
    [0] ++ ft4Costas tb 0 ++ dataTones .ft4 c 0 ++ ft4Costas tb 1 ++ dataTones .ft4 c 29 ++ ft4Costas tb 2
      ++ dataTones .ft4 c 58 ++ ft4Costas tb 3 ++ [0]

/-- A tone sequence in LDM, one byte per symbol (spec/20_memory.md R67). -/
def toneBytes (ts : List Nat) : List Byte := ts.map (BitVec.ofNat 8)

/-- TONEMAP (spec/43_modulator.md R184). -/
def cmdTonemap (md : Mode) : Command where
  plan s := .ok ⟨[⟨src s, 22, false⟩], [⟨dst s, symbols md, false⟩]⟩
  body s := .ok { base := dst s, bytes := toneBytes (tones s.params.tables md (readBits s (src s) 174)) }

def execTonemapFt8 (s : State) : Host.Outcome State Fault Refusal := runCommand (cmdTonemap .ft8) s
def execTonemapFt4 (s : State) : Host.Outcome State Fault Refusal := runCommand (cmdTonemap .ft4) s

/-- The payload as the CRC and the code see it: masked for FT4 (spec/43_modulator.md R185); the same function takes the
mask off (spec/41_channel_codec.md R135). -/
def maskFor (tb : Tables) (md : Mode) (p : List Bool) : List Bool :=
  match md with
  | .ft8 => p
  | .ft4 => mask4 tb p

/-- ENCODE: payload to tones (spec/43_modulator.md R185). -/
def cmdEncode (md : Mode) : Command where
  plan s := .ok ⟨[⟨src s, 10, false⟩], [⟨dst s, symbols md, false⟩]⟩
  body s :=
    let p := maskFor s.params.tables md (readBits s (src s) 77)
    let c := ldpcEnc s.params.tables (withCrc p)
    .ok { base := dst s, bytes := toneBytes (tones s.params.tables md c), result0 := some (toWord (crc77 p).toNat) }

def execEncodeFt8 (s : State) : Host.Outcome State Fault Refusal := runCommand (cmdEncode .ft8) s
def execEncodeFt4 (s : State) : Host.Outcome State Fault Refusal := runCommand (cmdEncode .ft4) s

/-! ### GFSK synthesis -/

/-- The operands of a synthesis: samples per symbol N, FS_HZ, BT, F0_HZ and the tones (spec/43_modulator.md R187 to R191). -/
structure SynthOperands where
  n  : Nat
  fs : Nat
  bt : F32
  f0 : F32
  ts : List Nat
  deriving DecidableEq, Repr

/-- p[k], the Gaussian pulse (spec/43_modulator.md R187). -/
def pulse (nm : Num) (o : SynthOperands) (k : Nat) : F32 :=
  let kb := fmul KG32 o.bt
  let t := fsub (fdiv (fofNat k) (fofNat o.n)) fOneHalf
  fmul (fsub (nm.erf (fmul kb (fadd t fHalf))) (nm.erf (fmul kb (fsub t fHalf)))) fHalf

/-- (peak × s) × p[k], a symbol's contribution (spec/43_modulator.md R188). -/
def pulseTerm (nm : Num) (o : SynthOperands) (tone k : Nat) : F32 :=
  fmul (fmul (fdiv TWOPI32 (fofNat o.n)) (fofNat tone)) (pulse nm o k)

/-- D0, the increment of tone 0 (spec/43_modulator.md R188). -/
def tone0Step (o : SynthOperands) : F32 := fdiv (fmul TWOPI32 o.f0) (fofNat o.fs)

/-- dphi[x]: D0, then the symbols whose pulse covers x in order, then the leading dummy symbol, then the trailing one.
Each entry of the buffer of spec/43_modulator.md R188 receives its additions in the order of the rule's three passes. -/
def phaseStep (nm : Num) (o : SynthOperands) (x : Nat) : F32 :=
  let n := o.n
  let ns := o.ts.length
  let a := (List.range ns).foldl
    (fun acc i => if i * n ≤ x ∧ x < i * n + 3 * n then fadd acc (pulseTerm nm o (o.ts.getD i 0) (x - i * n)) else acc)
    (tone0Step o)
  let b := if x < 2 * n then fadd a (pulseTerm nm o (o.ts.getD 0 0) (x + n)) else a
  if ns * n ≤ x ∧ x < ns * n + 2 * n then fadd b (pulseTerm nm o (o.ts.getD (ns - 1) 0) (x - ns * n)) else b

/-- The conditional wrap of a phase (spec/43_modulator.md R189). -/
def wrapPhase (phi : F32) : F32 :=
  if fgt phi PI32 then fsub phi TWOPI32 else if flt phi (fneg PI32) then fadd phi TWOPI32 else phi

/-- The phase after `count` more samples than k, each sample emitted before the phase advances, newest last
(spec/43_modulator.md R189). -/
def integrate (nm : Num) (o : SynthOperands) : Nat → Nat → F32 → List F32
  | 0, _, _ => []
  | count + 1, k, phi => nm.sin phi :: integrate nm o count (k + 1) (wrapPhase (fadd phi (phaseStep nm o (k + o.n))))

/-- n_ramp (spec/43_modulator.md R190). -/
def rampLength (n : Nat) : Nat := n / 8

/-- env at i (spec/43_modulator.md R190). -/
def envelope (nm : Num) (n i : Nat) : F32 :=
  fmul (fsub fOne (nm.cos (fdiv (fmul PI32 (fofNat i)) (fofNat (rampLength n))))) fHalf

/-- Sample k of lw under the first and the last ramp (spec/43_modulator.md R190). -/
def shapeSample (nm : Num) (n lw k : Nat) (x : F32) : F32 :=
  let y := if k < rampLength n then fmul x (envelope nm n k) else x
  if lw - 1 - k < rampLength n then fmul y (envelope nm n (lw - 1 - k)) else y

/-- out[0..Lw−1] (spec/43_modulator.md R187 to R190). -/
def waveform (nm : Num) (o : SynthOperands) : List F32 :=
  let lw := o.ts.length * o.n
  (integrate nm o lw 0 fZero).mapIdx fun k x => shapeSample nm o.n lw k x

/-- The parameter checks of GFSK_SYNTH, in order (spec/43_modulator.md R191). -/
def synthChecks (s : State) : List (Bool × Csr) :=
  [(fsOk s, .fsHz), (tsymOk s, .tsym), (finitePositive s.csr.bt, .bt), (f0Ok s, .f0Hz), (decide (1 ≤ len s), .len)]

/-- The tones GFSK_SYNTH reads (spec/43_modulator.md R191). -/
def synthTones (s : State) : List Nat := (readBytes s (src s) (len s)).map BitVec.toNat

/-- GFSK_SYNTH (spec/43_modulator.md R191). -/
def cmdGfskSynth (nm : Num) : Command where
  plan s :=
    guarded (synthChecks s) ⟨[⟨src s, len s, false⟩], [⟨dst s, 4 * (len s * nspsymOf s), true⟩]⟩
  body s :=
    let ts := synthTones s
    match firstIndex (fun t => decide (7 < t)) ts with
    | some i => .error ⟨.invalidValue, i⟩
    | none =>
      let o : SynthOperands := { n := nspsymOf s, fs := fs s, bt := canon s.csr.bt, f0 := canon s.csr.f0Hz, ts := ts }
      .ok
        { base := dst s, bytes := f32Bytes (waveform nm o), result0 := some (toWord (len s * nspsymOf s))
          nspsym := some (toWord (nspsymOf s)) }

def execGfskSynth (s : State) : Host.Outcome State Fault Refusal := runCommand (cmdGfskSynth NUM) s

end Sys2Proof.Machine
end

