-- ==== Sys2Proof/Machine/Sync.lean ====
section
/-! DEFINITION. Index functions, candidate validity and the Costas sync search (spec/44_demodulator.md R215 to R221). -/

namespace Sys2Proof.Machine

/-! ### Index functions and validity -/

/-- The geometry of a waterfall reader: Nspsym, NSTEP, NFFT, and the waterfall's rows T and columns F
(spec/44_demodulator.md R215, R216). -/
structure Grid where
  n     : Nat
  nstep : Nat
  nfft  : Nat
  t     : Nat
  f     : Nat
  deriving DecidableEq, Repr

/-- The geometry the CSRs give. -/
def gridOf (s : State) : Grid := { n := nspsymOf s, nstep := nstep s, nfft := nfft s, t := wfT s, f := wfF s }

/-- TI(u), the waterfall row of symbol u: u·N/NSTEP rounded half up (spec/44_demodulator.md R215). -/
def timeIndex (g : Grid) (u : Nat) : Nat := (2 * u * g.n + g.nstep) / (2 * g.nstep)

/-- FIoff(k), the bin offset of tone k: k·NFFT/N rounded half up (spec/44_demodulator.md R215). -/
def binOffset (g : Grid) (k : Nat) : Nat := (2 * k * g.nfft + g.n) / (2 * g.n)

/-- FI(f0, k) (spec/44_demodulator.md R215). -/
def binIndex (g : Grid) (f0 k : Nat) : Nat := f0 + binOffset g k

/-- A candidate (n, f0) is valid (spec/44_demodulator.md R216). -/
def validCandidate (g : Grid) (md : Mode) (c : Nat × Nat) : Bool :=
  decide (2 ≤ c.2 ∧ binIndex g c.2 (toneCount md - 1) + 2 + 1 ≤ g.f ∧ timeIndex g (c.1 + symbols md - 1) + 1 ≤ g.t)

/-- mag[t][f] of the waterfall the CSRs name (spec/20_memory.md R68). -/
def magAt (s : State) (t f : Nat) : F32 := f32Read s (wfAddr s + 4 * (t * wfF s + f))

/-! ### The search grid -/

/-- How many symbol numbers u = 0, 1, … have a row TI(u) ≤ T − 1 (T ≥ 1). -/
def symbolsInside (g : Grid) : Nat := (g.nstep * (2 * g.t - 1) + 2 * g.n - 1) / (2 * g.n)

/-- The time origins n with TI(n + NS − 1) ≤ T − 1, ascending (spec/44_demodulator.md R217). -/
def timeOrigins (g : Grid) (md : Mode) : List Nat := List.range (symbolsInside g - (symbols md - 1))

/-- flo (spec/44_demodulator.md R217). -/
def lowBin (g : Grid) (fs fmin : Nat) : Nat := max 2 ((fmin * g.nfft + fs - 1) / fs)

/-- fhi + 1, or less than flo when no bin qualifies (spec/44_demodulator.md R217). -/
def highBin (g : Grid) (md : Mode) (fs fmax : Nat) : Nat :=
  min (g.f - 2 - binOffset g (toneCount md - 1)) (fmax * g.nfft / fs + 1 - binOffset g (toneCount md - 1))

/-- The grid points (n, f0) in ascending lexicographic order (spec/44_demodulator.md R217). -/
def gridPoints (g : Grid) (md : Mode) (fs fmin fmax : Nat) : List (Nat × Nat) :=
  (timeOrigins g md).flatMap fun n =>
    (List.range' (lowBin g fs fmin) (highBin g md fs fmax - lowBin g fs fmin)).map fun f0 => (n, f0)

/-! ### Scores, suppression and order -/

/-- Nc, the number of sync symbols (spec/44_demodulator.md R218). -/
def syncCount : Mode → Nat
  | .ft8 => 21
  | .ft4 => 16

/-- on − off ÷ (M − 1) of a sync symbol at row t with tone c (spec/44_demodulator.md R218). -/
def syncTerm (g : Grid) (md : Mode) (mag : Nat → Nat → F32) (f0 t c : Nat) : F32 :=
  let off := (List.range (toneCount md)).foldl
    (fun off k => if k = c then off else fadd off (mag t (binIndex g f0 k))) fZero
  fsub (mag t (binIndex g f0 c)) (fdiv off (fofNat (toneCount md - 1)))

/-- The sync symbols in order: symbol number and tone (spec/44_demodulator.md R218). -/
def syncSymbols (tb : Tables) (md : Mode) : List (Nat × Nat) :=
  (syncBlocks tb md).flatMap fun b => b.2.mapIdx fun k c => (b.1 + k, c)

/-- The Costas sync score of a grid point (spec/44_demodulator.md R218). -/
def syncScore (g : Grid) (md : Mode) (tb : Tables) (mag : Nat → Nat → F32) (p : Nat × Nat) : F32 :=
  fdiv
    ((syncSymbols tb md).foldl (fun acc uc => fadd acc (syncTerm g md mag p.2 (timeIndex g (p.1 + uc.1)) uc.2)) fZero)
    (fofNat (syncCount md))

/-- A grid point with its score. -/
structure Scored where
  n     : Nat
  f0    : Nat
  score : F32
  deriving DecidableEq, Repr

/-- (n, f0) of a is lexicographically smaller than that of b. -/
def lexBefore (a b : Scored) : Bool := decide (a.n < b.n ∨ a.n = b.n ∧ a.f0 < b.f0)

/-- b beats a (spec/44_demodulator.md R219). -/
def beats (b a : Scored) : Bool := fgt b.score a.score || (feq b.score a.score && lexBefore b a)

/-- b is another point of a's ±1-symbol ±1-bin neighbourhood (spec/44_demodulator.md R219). -/
def neighbours (b a : Scored) : Bool :=
  decide (b.n ≤ a.n + 1 ∧ a.n ≤ b.n + 1 ∧ b.f0 ≤ a.f0 + 1 ∧ a.f0 ≤ b.f0 + 1 ∧ (b.n ≠ a.n ∨ b.f0 ≠ a.f0))

/-- a is kept: above the threshold and beaten by no neighbour (spec/44_demodulator.md R219). -/
def kept (thresh : F32) (all : List Scored) (a : Scored) : Bool :=
  fgt a.score thresh && !(all.any fun b => neighbours b a && beats b a)

/-- a stands before b in the candidate list: score descending, equal scores by (n, f0) (spec/44_demodulator.md R220). -/
def listedBefore (a b : Scored) : Bool := fgt a.score b.score || (feq a.score b.score && lexBefore a b)

/-- Insertion into a sorted candidate list. -/
def insertCandidate (a : Scored) : List Scored → List Scored
  | [] => [a]
  | b :: bs => if listedBefore a b then a :: b :: bs else b :: insertCandidate a bs

/-- The candidates in the order of spec/44_demodulator.md R220. -/
def sortCandidates : List Scored → List Scored
  | [] => []
  | a :: as => insertCandidate a (sortCandidates as)

/-- A candidate record (spec/20_memory.md R69). -/
def candidateRecord (g : Grid) (a : Scored) : List Byte :=
  leBytes 4 a.n ++ leBytes 4 (timeIndex g a.n) ++ leBytes 4 a.f0 ++ leBytes 4 a.score.toNat

/-- The grid points with their scores. -/
def scoredGrid (md : Mode) (s : State) : List Scored :=
  let g := gridOf s
  (gridPoints g md (fs s) s.csr.fminHz.toNat s.csr.fmaxHz.toNat).map fun p =>
    ⟨p.1, p.2, syncScore g md s.params.tables (magAt s) p⟩

/-- K, the kept points in order (spec/44_demodulator.md R221). -/
def keptCandidates (md : Mode) (s : State) : List Scored :=
  let all := scoredGrid md s
  sortCandidates (all.filter (kept s.csr.syncThresh all))

/-- MAX_CAND as an integer (spec/10_state.md R44). -/
def maxCand (s : State) : Nat := s.csr.maxCand.toNat

/-- The parameter checks of SYNC_SEARCH, in order (spec/44_demodulator.md R221). -/
def syncChecks (s : State) : List (Bool × Csr) :=
  readerChecks s ++ [(!isNaN s.csr.syncThresh, .syncThresh), (decide (1 ≤ maxCand s ∧ maxCand s ≤ 65535), .maxCand)]

/-- SYNC_SEARCH (spec/44_demodulator.md R221). -/
def cmdSyncSearch (md : Mode) : Command where
  plan s := guarded (syncChecks s) ⟨[waterfallRegion s], [⟨dst s, 16 * maxCand s, true⟩]⟩
  body s :=
    let k := keptCandidates md s
    let listed := k.take (maxCand s)
    .ok
      { base := dst s, bytes := listed.flatMap (candidateRecord (gridOf s))
        result0 := some (toWord listed.length), result1 := some (toWord k.length), nspsym := some (toWord (nspsymOf s)) }

def execSyncSearchFt8 (s : State) : Host.Outcome State Fault Refusal := runCommand (cmdSyncSearch .ft8) s
def execSyncSearchFt4 (s : State) : Host.Outcome State Fault Refusal := runCommand (cmdSyncSearch .ft4) s

end Sys2Proof.Machine
end

