-- ==== Sys2Proof/Machine/Llr.lean ====
section
/-! DEFINITION. Soft-LLR extraction (spec/44_demodulator.md R222 to R225). -/

namespace Sys2Proof.Machine

/-- The metric field L selects (spec/30_encoding.md R94). -/
inductive Metric where
  | lse | max
  deriving DecidableEq, Repr

/-- V0(b) and V1(b): the values whose bit for codeword bit b of the symbol is the given one, ascending
(spec/44_demodulator.md R222). -/
def valuesWithBit (md : Mode) (b : Nat) (one : Bool) : List Nat :=
  (List.range (toneCount md)).filter fun v => v.testBit (bitsPerSymbol md - 1 - b) == one

/-- A(V) + log s(V) of the scaled metrics of a list of values (spec/44_demodulator.md R223). -/
def logSumExp (nm : Num) (z : List F32) : F32 :=
  let a := seqmax z
  fadd a (nm.log (z.foldl (fun acc x => fadd acc (nm.exp (fsub x a))) fZero))

/-- The LLR of bit b of a symbol with tone magnitudes y, scale sc (spec/44_demodulator.md R223, R224).
DESIGN CHOICE: on a symbol of zeros the log-sum-exp metric is x − x with x = NUM.log(M/2), as R223 computes it, a NaN where
that x is a NaN or infinite; R225's corner case says +0.0 there (log entry 20). -/
def bitLlr (nm : Num) (md : Mode) (mt : Metric) (sc : F32) (y : Nat → F32) (b : Nat) : F32 :=
  match mt with
  | .lse =>
    let z := fun one => (valuesWithBit md b one).map fun v => fmul sc (y (gray md v))
    fsub (logSumExp nm (z false)) (logSumExp nm (z true))
  | .max =>
    let m := fun one => seqmax ((valuesWithBit md b one).map fun v => y (gray md v))
    fmul sc (fsub (m false) (m true))

/-- The BPS LLRs of data symbol d of candidate (n, f0) (spec/44_demodulator.md R222). -/
def symbolLlrs (nm : Num) (g : Grid) (md : Mode) (mt : Metric) (sc : F32) (mag : Nat → Nat → F32) (c : Nat × Nat)
    (d : Nat) : List F32 :=
  let t := timeIndex g (c.1 + dataPos md d)
  (List.range (bitsPerSymbol md)).map (bitLlr nm md mt sc fun k => mag t (binIndex g c.2 k))

/-- The 174 LLRs of a candidate, in codeword-bit order (spec/44_demodulator.md R222 to R225). -/
def candidateLlrs (nm : Num) (g : Grid) (md : Mode) (mt : Metric) (sc : F32) (mag : Nat → Nat → F32) (c : Nat × Nat) :
    List F32 :=
  (List.range (dataSymbols md)).flatMap (symbolLlrs nm g md mt sc mag c)

/-- (n, f0) of the candidate record at an offset; its other fields are not read (spec/20_memory.md R69). -/
def candidateAt (s : State) (a : Nat) : Nat × Nat := (memRead s a 4, memRead s (a + 8) 4)

/-- The parameter checks LLR_EXTRACT and DECODE begin with (spec/44_demodulator.md R225, R229). -/
def llrChecks (s : State) : List (Bool × Csr) := readerChecks s ++ [(finitePositive s.csr.llrScale, .llrScale)]

/-- LLR_EXTRACT (spec/44_demodulator.md R225). -/
def cmdLlrExtract (nm : Num) (md : Mode) (mt : Metric) : Command where
  plan s := guarded (llrChecks s) ⟨[⟨src s, 16, true⟩, waterfallRegion s], [⟨dst s, 696, true⟩]⟩
  body s :=
    let c := candidateAt s (src s)
    if validCandidate (gridOf s) md c then
      .ok
        { base := dst s, bytes := f32Bytes (candidateLlrs nm (gridOf s) md mt s.csr.llrScale (magAt s) c)
          nspsym := some (toWord (nspsymOf s)) }
    else .error ⟨.invalidValue, 0⟩

def execLlrExtractFt8Lse (s : State) : Host.Outcome State Fault Refusal := runCommand (cmdLlrExtract NUM .ft8 .lse) s
def execLlrExtractFt4Lse (s : State) : Host.Outcome State Fault Refusal := runCommand (cmdLlrExtract NUM .ft4 .lse) s
def execLlrExtractFt8Max (s : State) : Host.Outcome State Fault Refusal := runCommand (cmdLlrExtract NUM .ft8 .max) s
def execLlrExtractFt4Max (s : State) : Host.Outcome State Fault Refusal := runCommand (cmdLlrExtract NUM .ft4 .max) s

end Sys2Proof.Machine
end

