-- ==== Sys2Proof/Machine/Pipeline.lean ====
section
/-! DEFINITION. The decode pipeline: SNR estimate, per-candidate outcome, duplicates, DECODE
(spec/44_demodulator.md R226 to R229). -/

namespace Sys2Proof.Machine

/-- The SNR estimate of a candidate with codeword c, before the clamp (spec/44_demodulator.md R226). -/
def rawSnr (nm : Num) (g : Grid) (md : Mode) (tb : Tables) (mag : Nat → Nat → F32) (p : Nat × Nat) (c : List Bool) : F32 :=
  let us := List.range (symbols md)
  let ts := tones tb md c
  let sig := us.foldl
    (fun acc u => fadd acc (nm.exp10 (mag (timeIndex g (p.1 + u)) (binIndex g p.2 (ts.getD u 0))))) fZero
  let noise := us.foldl
    (fun acc u =>
      let t := timeIndex g (p.1 + u)
      fadd (fadd acc (nm.exp10 (mag t (p.2 - 2)))) (nm.exp10 (mag t (binIndex g p.2 (toneCount md - 1) + 2)))) fZero
  fmul fTen (nm.log10 (fdiv (fdiv sig (fofNat (symbols md))) (fdiv noise (fofNat (2 * symbols md)))))

/-- The SNR estimate: clamped to [−24, 24], a NaN giving −24 (spec/44_demodulator.md R226). -/
def snr (nm : Num) (g : Grid) (md : Mode) (tb : Tables) (mag : Nat → Nat → F32) (p : Nat × Nat) (c : List Bool) : F32 :=
  let x := rawSnr nm g md tb mag p c
  if isNaN x then fneg fTwentyFour else fclamp x fTwentyFour

/-- How a candidate leaves the state machine before duplicate suppression (spec/44_demodulator.md R227, steps 3 to 5). -/
inductive CandOutcome where
  /-- a NaN LLR, or a decoder that leaves unsatisfied checks -/
  | ldpcFail
  /-- the codeword's CRC bits are not the CRC of its payload bits -/
  | crcFail
  /-- CrcOk with the codeword and the CRC it carries -/
  | crcOk (codeword : List Bool) (crc : Nat)
  deriving DecidableEq, Repr

/-- The CRC a codeword carries, bits 77..90 (spec/44_demodulator.md R229). -/
def carriedCrc (c : List Bool) : Nat := bitsToNat ((c.take 91).drop 77)

/-- The outcome of a candidate with the given LLRs (spec/44_demodulator.md R227, R229). -/
def candidateOutcome (nm : Num) (tb : Tables) (maxIter : Nat) (llr : List F32) : CandOutcome :=
  if llr.any isNaN then .ldpcFail
  else
    let r := bp nm tb llr maxIter
    if r.minErr ≠ 0 then .ldpcFail
    else if carriedCrc r.best ≠ (crc77 (r.best.take 77)).toNat then .crcFail
    else .crcOk r.best (carriedCrc r.best)

/-- A decode result record (spec/20_memory.md R70). -/
def resultRecord (index : Nat) (pay : List Bool) (crc : Nat) (snr : F32) : List Byte :=
  leBytes 4 index ++ packBits 10 pay ++ leBytes 2 crc ++ leBytes 4 snr.toNat

/-- What a DECODE has found so far: counts, the payloads decoded, and the records written (spec/44_demodulator.md R229). -/
structure DecodeAcc where
  ldpcFail : Nat
  crcFail  : Nat
  seen     : List (List Bool)
  records  : List (List Byte)
  deriving DecidableEq, Repr

/-- One candidate of a DECODE, with its outcome: a payload already decoded is rejected (spec/44_demodulator.md R228,
R229). -/
def decodeOne (tb : Tables) (md : Mode) (snrOf : List Bool → F32) (index : Nat) (o : CandOutcome) (acc : DecodeAcc) :
    DecodeAcc :=
  match o with
  | .ldpcFail => { acc with ldpcFail := acc.ldpcFail + 1 }
  | .crcFail => { acc with crcFail := acc.crcFail + 1 }
  | .crcOk c crc =>
    let pay := maskFor tb md (c.take 77)
    if acc.seen.contains pay then acc
    else { acc with seen := acc.seen ++ [pay], records := acc.records ++ [resultRecord index pay crc (snrOf c)] }

/-- Candidates index, index + 1, … of a DECODE, in list order (spec/44_demodulator.md R229). -/
def decodeFrom (nm : Num) (md : Mode) (mt : Metric) (maxIter : Nat) (s : State) : Nat → List (Nat × Nat) → DecodeAcc → DecodeAcc
  | _, [], acc => acc
  | index, p :: ps, acc =>
    let g := gridOf s
    let tb := s.params.tables
    let llr := candidateLlrs nm g md mt s.csr.llrScale (magAt s) p
    let acc' := decodeOne tb md (snr nm g md tb (magAt s) p) index (candidateOutcome nm tb maxIter llr) acc
    decodeFrom nm md mt maxIter s (index + 1) ps acc'

/-- The candidate list of a DECODE (spec/44_demodulator.md R229). -/
def decodeCandidates (s : State) : List (Nat × Nat) := (List.range (len s)).map fun k => candidateAt s (src s + 16 * k)

/-- DECODE (spec/44_demodulator.md R229). -/
def cmdDecode (nm : Num) (md : Mode) (mt : Metric) (iter : Nat) : Command where
  plan s :=
    guarded (llrChecks s ++ [(decide (len s ≤ 65535), .len)])
      ⟨[⟨src s, 16 * len s, true⟩, waterfallRegion s], [⟨dst s, 20 * len s, true⟩]⟩
  body s :=
    let cs := decodeCandidates s
    match firstIndex (fun c => !validCandidate (gridOf s) md c) cs with
    | some k => .error ⟨.invalidValue, k⟩
    | none =>
      let r := decodeFrom nm md mt (maxIter iter) s 0 cs ⟨0, 0, [], []⟩
      .ok
        { base := dst s, bytes := r.records.flatten
          result0 := some (toWord r.records.length), result1 := some (toWord (r.ldpcFail + r.crcFail * 2 ^ 16))
          nspsym := some (toWord (nspsymOf s)) }

def execDecodeFt8Lse (iter : Nat) (s : State) : Host.Outcome State Fault Refusal := runCommand (cmdDecode NUM .ft8 .lse iter) s
def execDecodeFt4Lse (iter : Nat) (s : State) : Host.Outcome State Fault Refusal := runCommand (cmdDecode NUM .ft4 .lse iter) s
def execDecodeFt8Max (iter : Nat) (s : State) : Host.Outcome State Fault Refusal := runCommand (cmdDecode NUM .ft8 .max iter) s
def execDecodeFt4Max (iter : Nat) (s : State) : Host.Outcome State Fault Refusal := runCommand (cmdDecode NUM .ft4 .max iter) s

end Sys2Proof.Machine
end

