-- ==== Sys2Proof/Machine/Spectrogram.lean ====
section
/-! DEFINITION. The spectrogram unit (spec/44_demodulator.md R210 to R214). -/

namespace Sys2Proof.Machine

/-- w[n], the periodic Hann window (spec/44_demodulator.md R210). -/
def hann (nm : Num) (nfft n : Nat) : F32 :=
  let sn := nm.sin (fdiv (fmul PI32 (fofNat n)) (fofNat nfft))
  fmul sn sn

/-- T' = ceil(LEN / NSTEP) (spec/44_demodulator.md R211). -/
def frameCount (len nstep : Nat) : Nat := (len + nstep - 1) / nstep

/-- F' = NFFT/2 + 1 (spec/44_demodulator.md R211). -/
def binCount (nfft : Nat) : Nat := nfft / 2 + 1

/-- x_t, the windowed and zero-padded frame t (spec/44_demodulator.md R211). -/
def frame (nm : Num) (nfft nstep : Nat) (smp : List F32) (t : Nat) : List F32 :=
  (List.range nfft).map fun n =>
    if t * nstep + n < smp.length then fmul (hann nm nfft n) (smp.getD (t * nstep + n) fZero) else fZero

/-- y[t][f] of a frame's FFT (spec/44_demodulator.md R212). -/
def logPower (nm : Num) (x : List F32) (f : Nat) : F32 :=
  let c := nm.fft x f
  nm.log10 (fadd (fadd (fmul c.1 c.1) (fmul c.2 c.2)) EPS6)

/-- mag[·][f] of the column y[·][f]: zero if constant, else standardised with the population variance
(spec/44_demodulator.md R213).
DESIGN CHOICE: a column of NaNs is not constant by R213's IEEE equality, so it stays NaN, for a zero input too where
NUM.log10(EPS6) is a NaN, and for a single frame (T' = 1) too where its log power is a NaN; R214's corner cases and R213's
remark on T' = 1 say +0.0 there whatever NUM is (log entry 19). -/
def standardise (ys : List F32) : List F32 :=
  let t' := fofNat ys.length
  if ys.all fun y => feq y (ys.headD fZero) then ys.map fun _ => fZero
  else
    let mu := fdiv (fsum ys) t'
    let sigma := fsqrt (fdiv (ys.foldl (fun acc y => fadd acc (fmul (fsub y mu) (fsub y mu))) fZero) t')
    if feq sigma fZero then ys.map fun _ => fZero else ys.map fun y => fdiv (fsub y mu) sigma

/-- The waterfall's columns, one for each bin (spec/44_demodulator.md R212, R213). -/
def waterfallColumns (nm : Num) (nfft nstep : Nat) (smp : List F32) : List (List F32) :=
  let frames := (List.range (frameCount smp.length nstep)).map (frame nm nfft nstep smp)
  (List.range (binCount nfft)).map fun f => standardise (frames.map fun x => logPower nm x f)

/-- The waterfall, row-major by time (spec/20_memory.md R68, spec/44_demodulator.md R214). -/
def waterfall (nm : Num) (nfft nstep : Nat) (smp : List F32) : List F32 :=
  let cols := waterfallColumns nm nfft nstep smp
  (List.range (frameCount smp.length nstep)).flatMap fun t => cols.map fun col => col.getD t fZero

/-- The parameter checks of SPECTROGRAM, in order (spec/44_demodulator.md R214). -/
def spectrogramChecks (s : State) : List (Bool × Csr) :=
  [(fsOk s, .fsHz), (nfftOk s, .nfft), (nstepOk s, .nstep), (decide (1 ≤ len s), .len)]

/-- SPECTROGRAM (spec/44_demodulator.md R214). -/
def cmdSpectrogram (nm : Num) : Command where
  plan s :=
    guarded (spectrogramChecks s)
      ⟨[⟨src s, 4 * len s, true⟩], [⟨dst s, 4 * (frameCount (len s) (nstep s) * binCount (nfft s)), true⟩]⟩
  body s :=
    let smp := f32Array s (src s) (len s)
    let t' := toWord (frameCount (len s) (nstep s))
    let f' := toWord (binCount (nfft s))
    match firstIndex (fun x => !isFinite x) smp with
    | some k => .error ⟨.invalidValue, k⟩
    | none =>
      .ok
        { base := dst s, bytes := f32Bytes (waterfall nm (nfft s) (nstep s) smp)
          result0 := some t', result1 := some f'
          wf := some
            { addr := s.csr.dstAddr, t := t', f := f'
              binhz := fdiv (fofNat (fs s)) (fofNat (nfft s)), steps := fdiv (fofNat (nstep s)) (fofNat (fs s)) } }

def execSpectrogram (s : State) : Host.Outcome State Fault Refusal := runCommand (cmdSpectrogram NUM) s

end Sys2Proof.Machine
end

