-- ==== Sys2Proof/Machine/Bus.lean ====
section
/-! DEFINITION. The host interface: bus map, access checks, reads and writes of CSRs and LDM, IDLE and BUSY
(spec/20_memory.md R60, R71 to R77; spec/60_exceptions.md R272, R273), and soft reset of a running command
(spec/70_reset_and_hazards.md R291). -/

namespace Sys2Proof.Machine

/-- The command whose plan and body give a command its meaning. -/
def commandOf (i : Instr) : Command :=
  match i with
  | .nop => cmdNop
  | .crc14 => cmdCrc14
  | .crcAppend => cmdCrcAppend
  | .crcCheck => cmdCrcCheck
  | .ft4Xor => cmdFt4Xor
  | .ldpcEncode => cmdLdpcEncode
  | .ldpcDecode iter => cmdLdpcDecode NUM iter
  | .tonemapFt8 => cmdTonemap .ft8
  | .tonemapFt4 => cmdTonemap .ft4
  | .encodeFt8 => cmdEncode .ft8
  | .encodeFt4 => cmdEncode .ft4
  | .gfskSynth => cmdGfskSynth NUM
  | .spectrogram => cmdSpectrogram NUM
  | .syncSearchFt8 => cmdSyncSearch .ft8
  | .syncSearchFt4 => cmdSyncSearch .ft4
  | .llrExtractFt8Lse => cmdLlrExtract NUM .ft8 .lse
  | .llrExtractFt4Lse => cmdLlrExtract NUM .ft4 .lse
  | .llrExtractFt8Max => cmdLlrExtract NUM .ft8 .max
  | .llrExtractFt4Max => cmdLlrExtract NUM .ft4 .max
  | .decodeFt8Lse iter => cmdDecode NUM .ft8 .lse iter
  | .decodeFt4Lse iter => cmdDecode NUM .ft4 .lse iter
  | .decodeFt8Max iter => cmdDecode NUM .ft8 .max iter
  | .decodeFt4Max iter => cmdDecode NUM .ft4 .max iter

/-! ### The destination of an abandoned command -/

/-- The command writes a region of LDM (spec/30_encoding.md R100). -/
def writesLdm : Instr → Bool
  | .nop | .crc14 | .crcCheck => false
  | .crcAppend | .ft4Xor | .ldpcEncode | .ldpcDecode _ | .tonemapFt8 | .tonemapFt4 | .encodeFt8 | .encodeFt4 | .gfskSynth
  | .spectrogram | .syncSearchFt8 | .syncSearchFt4 | .llrExtractFt8Lse | .llrExtractFt4Lse | .llrExtractFt8Max
  | .llrExtractFt4Max | .decodeFt8Lse _ | .decodeFt4Lse _ | .decodeFt8Max _ | .decodeFt4Max _ => true

/-- The size in bytes of the region at DST_ADDR a command writes, the column "LDM written" of spec/30_encoding.md R100;
0 for a command that writes none. -/
def writtenSize (i : Instr) (s : State) : Nat :=
  match i with
  | .nop | .crc14 | .crcCheck => 0
  | .crcAppend => 12
  | .ft4Xor => 10
  | .ldpcEncode | .ldpcDecode _ => 22
  | .tonemapFt8 | .encodeFt8 => 79
  | .tonemapFt4 | .encodeFt4 => 105
  | .gfskSynth => 4 * len s * nspsymOf s
  | .spectrogram => 4 * ((len s + nstep s - 1) / nstep s) * (nfft s / 2 + 1)
  | .syncSearchFt8 | .syncSearchFt4 => 16 * maxCand s
  | .llrExtractFt8Lse | .llrExtractFt4Lse | .llrExtractFt8Max | .llrExtractFt4Max => 696
  | .decodeFt8Lse _ | .decodeFt4Lse _ | .decodeFt8Max _ | .decodeFt4Max _ => 20 * len s

/-- The size in bytes of the region at DST_ADDR for operands of every kind, also those a check would stop: R100's column as
it stands, which is 0 with LEN = 0, and for GFSK_SYNTH with a finite TSYM of 0 or below, where N ≤ 0 (spec/43_modulator.md
R186). F' is the rational NFFT/2 + 1 for an odd NFFT. The rest of LDM from DST_ADDR on where N has no value (TSYM not finite)
or T' has none (NSTEP = 0) (log entry 4, DESIGN CHOICE). -/
def abandonedSize (i : Instr) (s : State) : Nat :=
  let rest := s.params.ldmSize - dst s
  match i with
  | .gfskSynth =>
    if isFinite s.csr.tsym then (if signBit s.csr.tsym then 0 else writtenSize i s) else if len s = 0 then 0 else rest
  | .spectrogram =>
    if len s = 0 then 0 else if nstep s = 0 then rest else 2 * ((len s + nstep s - 1) / nstep s) * (nfft s + 2)
  | .nop | .crc14 | .crcAppend | .crcCheck | .ft4Xor | .ldpcEncode | .ldpcDecode _ | .tonemapFt8 | .tonemapFt4 | .encodeFt8
  | .encodeFt4 | .syncSearchFt8 | .syncSearchFt4 | .llrExtractFt8Lse | .llrExtractFt4Lse | .llrExtractFt8Max
  | .llrExtractFt4Max | .decodeFt8Lse _ | .decodeFt4Lse _ | .decodeFt8Max _ | .decodeFt4Max _ => writtenSize i s

/-- What the row of spec/30_encoding.md R100 lets the command write, whatever its operands hold
(spec/70_reset_and_hazards.md R291; log entry 4). -/
def destination (i : Instr) (s : State) : Option Span :=
  if writesLdm i then some ⟨dst s, abandonedSize i s⟩ else none

/-- The span a soft reset leaves unspecified: the destination of the running command; none while IDLE, or for a word that
is no legal command and so has no row (spec/70_reset_and_hazards.md R291; log entry 4). -/
def abandonedSpan (s : State) : Option Span :=
  if isBusy s then
    match decode s.csr.cmd with
    | .ok i => destination i s
    | .error _ => none
  else none

/-! ### Bus map and access checks -/

/-- The bus address of LDM offset 0 (spec/20_memory.md R60). -/
def ldmBase : Nat := 0x01000000

/-- Where a bus access goes. -/
inductive Target where
  /-- the CSR at an offset -/
  | csr (off : Nat)
  /-- LDM from an offset -/
  | ldm (off : Nat)
  /-- a bus error (spec/20_memory.md R71) -/
  | error
  deriving DecidableEq, Repr

/-- A width LDM may be accessed with (spec/20_memory.md R71). -/
def ldmWidth (bytes : Nat) : Bool := bytes == 1 || bytes == 2 || bytes == 4

/-- The bus map with the width and alignment rules (spec/20_memory.md R60, R71, spec/60_exceptions.md R273). -/
def target (ldmSize addr bytes : Nat) : Target :=
  if addr < 0x1000 then
    if bytes = 4 ∧ addr % 4 = 0 then .csr addr else .error
  else if ldmBase ≤ addr ∧ ldmWidth bytes ∧ addr % bytes = 0 ∧ addr - ldmBase + bytes ≤ ldmSize then .ldm (addr - ldmBase)
  else .error

/-! ### Accesses -/

/-- A 32-bit read of a CSR offset; a reserved offset reads 0 (spec/10_state.md R22, R52). -/
def readCsrAt (off : Nat) (s : State) : Word :=
  match csrAt off with
  | some r => readCsr r s
  | none => 0

/-- A 32-bit write of a named CSR (spec/10_state.md R23 to R51, spec/20_memory.md R74). -/
def writeCsr (r : Csr) (w : Word) (s : State) : State :=
  match r with
  | .ctrl => if w.getLsbD 0 then softReset (abandonedSpan s) s else s
  | .status => writeStatus w s
  | .irqEn => writeIrqEn w s
  | .cmd => if isBusy s then setOverrun s else startCommand w s
  | r =>
    if isOperand r then (if isBusy s then setViolation s else { s with csr := setOperand r w s.csr }) else s

/-- A 32-bit write of a CSR offset; a reserved one ignores it (spec/10_state.md R52). -/
def writeCsrAt (off : Nat) (w : Word) (s : State) : State :=
  match csrAt off with
  | some r => writeCsr r w s
  | none => s

/-- A write of bytes to LDM: ignored with VIOLATION while BUSY (spec/20_memory.md R74). -/
def writeLdm (off : Nat) (bs : List Byte) (s : State) : State :=
  if isBusy s then setViolation s else { s with ldm := s.ldm.store off bs }

/-- A free value of the given number of bytes, and the next draw. -/
def drawData (bytes : Nat) (s : State) : Word × State :=
  (toWord ((Config.freeWord s.draws).toNat % 256 ^ bytes), { s with draws := s.draws + 1 })

/-- A read of LDM: unspecified while BUSY (spec/20_memory.md R74). -/
def readLdm (off bytes : Nat) (s : State) : Word × State :=
  if isBusy s then drawData bytes s else (toWord (memRead s off bytes), s)

/-- A bus read: the answer, and the state after it. No read has a side effect (spec/20_memory.md R72); a free value
counts as drawn. -/
def busRead (addr bytes : Nat) (s : State) : State :=
  match target s.params.ldmSize addr bytes with
  | .csr off => { s with resp := .data (readCsrAt off s) }
  | .ldm off => { (readLdm off bytes s).2 with resp := .data (readLdm off bytes s).1 }
  | .error => { (drawData 4 s).2 with resp := .busError (drawData 4 s).1 }

/-- A bus write: the answer, and the state after it (spec/20_memory.md R71, R72, R74). -/
def busWrite (addr bytes : Nat) (data : Word) (s : State) : State :=
  match target s.params.ldmSize addr bytes with
  | .csr off => { writeCsrAt off data s with resp := .ack }
  | .ldm off => { writeLdm off (leBytes bytes data.toNat) s with resp := .ack }
  | .error => { (drawData 4 s).2 with resp := .busError (drawData 4 s).1 }

/-- A host step taken from the list (spec/20_memory.md R75); a poll stays in the list while BUSY (spec/30_encoding.md R102). -/
def perform (h : HostStep) (s : State) : State :=
  match h with
  | .wait => s
  | .read a n => busRead a.toNat n s
  | .write a n w => busWrite a.toNat n w s
  | .poll =>
    let s' := busRead (csrOffset .status) 4 s
    if isBusy s then { s' with bus := .poll :: s.bus } else s'
  | .powerOn => { powerOnReset s with resp := .none }

/-- The next host step; with no access to come the host does nothing. -/
def hostStep (s : State) : State :=
  match s.bus with
  | [] => s
  | h :: rest => perform h { s with bus := rest }

end Sys2Proof.Machine
end

