-- ==== Sys2Proof/Machine/Dispatch.lean ====
section
/-! DEFINITION. The meaning of every command: its completion step (spec/40_control.md R121 to R123). One arm per
constructor. -/

namespace Sys2Proof.Machine

def exec (i : Instr) (s : State) : Host.Outcome State Fault Refusal :=
  match i with
  | .nop => Sys2Proof.Machine.execNop s
  | .crc14 => Sys2Proof.Machine.execCrc14 s
  | .crcAppend => Sys2Proof.Machine.execCrcAppend s
  | .crcCheck => Sys2Proof.Machine.execCrcCheck s
  | .ft4Xor => Sys2Proof.Machine.execFt4Xor s
  | .ldpcEncode => Sys2Proof.Machine.execLdpcEncode s
  | .ldpcDecode iter => Sys2Proof.Machine.execLdpcDecode iter s
  | .tonemapFt8 => Sys2Proof.Machine.execTonemapFt8 s
  | .tonemapFt4 => Sys2Proof.Machine.execTonemapFt4 s
  | .encodeFt8 => Sys2Proof.Machine.execEncodeFt8 s
  | .encodeFt4 => Sys2Proof.Machine.execEncodeFt4 s
  | .gfskSynth => Sys2Proof.Machine.execGfskSynth s
  | .spectrogram => Sys2Proof.Machine.execSpectrogram s
  | .syncSearchFt8 => Sys2Proof.Machine.execSyncSearchFt8 s
  | .syncSearchFt4 => Sys2Proof.Machine.execSyncSearchFt4 s
  | .llrExtractFt8Lse => Sys2Proof.Machine.execLlrExtractFt8Lse s
  | .llrExtractFt4Lse => Sys2Proof.Machine.execLlrExtractFt4Lse s
  | .llrExtractFt8Max => Sys2Proof.Machine.execLlrExtractFt8Max s
  | .llrExtractFt4Max => Sys2Proof.Machine.execLlrExtractFt4Max s
  | .decodeFt8Lse iter => Sys2Proof.Machine.execDecodeFt8Lse iter s
  | .decodeFt4Lse iter => Sys2Proof.Machine.execDecodeFt4Lse iter s
  | .decodeFt8Max iter => Sys2Proof.Machine.execDecodeFt8Max iter s
  | .decodeFt4Max iter => Sys2Proof.Machine.execDecodeFt4Max iter s

end Sys2Proof.Machine
end

