-- ==== Sys2Proof/Machine/Step.lean ====
section
/-! DEFINITION. One host step of the machine (spec/70_reset_and_hazards.md R298): the next host access or none, and, when
the delay of the running command has passed, the completion step of that command with it. -/

namespace Sys2Proof.Machine

/-- The completion step of the latched command word: the command's meaning, or the fault of a word that is no legal
command (spec/40_control.md R121 to R123). -/
def completion (s : State) : Host.Outcome State Fault Refusal :=
  match decode s.csr.cmd with
  | .ok i => exec i s
  | .error e => .next (takeFault (decodeFault e s.csr.cmd) s)

/-- The host's access after a completion, in the same step. -/
def thenHostStep (o : Host.Outcome State Fault Refusal) : Host.Outcome State Fault Refusal :=
  match o with
  | .next t => .next (hostStep t)
  | .fault f => .fault f
  | .refused r => .refused r

/-- One step: the host's next access, if there is one. While BUSY the delay runs down by one host step at a time; when it has
passed the command completes in the same step. Where the access comes first it meets the engine BUSY and can set OVERRUN or
VIOLATION (spec/60_exceptions.md R268), or is a reset that abandons the command; where the completion comes first the access
meets the engine IDLE (log entries 5, 8). -/
def step (s : State) : Host.Outcome State Fault Refusal :=
  match s.eng with
  | .busy 0 .afterAccess => if isBusy (hostStep s) then completion (hostStep s) else .next (hostStep s)
  | .busy 0 .beforeAccess => thenHostStep (completion s)
  | .busy (n + 1) o => .next (hostStep { s with eng := .busy n o })
  | .idle => .next (hostStep s)

/-- The host's list with no access in the next step. -/
def quietFirst : List HostStep → List HostStep
  | [] => []
  | h :: rest => .wait :: h :: rest

/-- The state in which the very next step completes the command word w: CMD holds it, it has been started (DONE cleared,
R120), its delay has passed, and the host makes no access in that step. A word of fewer bits has zeros above (log entry 10). -/
def State.withFetchWord (s : State) (nbits w : Nat) : State :=
  { s with
    csr := { s.csr with cmd := BitVec.ofNat 32 (w % 2 ^ nbits) }
    status := { s.status with done := false }
    eng := .busy 0 .afterAccess
    bus := quietFirst s.bus }

end Sys2Proof.Machine
end

