-- ==== Sys2Proof/Machine/HostNotation.lean ====
section
/-! DEFINITION. The host program notation and its pseudo-instructions (spec/30_encoding.md R101, R102): each line stands
for a sequence of host steps, which a host puts into the `bus` field of State. -/

namespace Sys2Proof.Machine

/-- A line of a host program (spec/30_encoding.md R101, R102). -/
inductive HostLine where
  /-- `W <CSR>, <value>` -/
  | w (reg : Csr) (value : Word)
  /-- `R <CSR>` -/
  | r (reg : Csr)
  /-- `WB <off>, <b0> <b1> ...` -/
  | wb (off : Nat) (bytes : List Byte)
  /-- `WW <off>, <u32>` -/
  | ww (off : Nat) (value : Word)
  /-- `WF <off>, <f32 literal>`, the literal by its bit pattern -/
  | wf (off : Nat) (value : F32)
  /-- `RB <off>, <n>` -/
  | rb (off n : Nat)
  /-- a command line: mnemonic, variant and `iter=<n>` -/
  | command (i : Instr)
  /-- `WAIT` -/
  | wait
  /-- `ACK` -/
  | ack
  /-- `SRST` -/
  | srst
  /-- `RUN <command line> [src=<a>] [dst=<b>] [len=<n>]` -/
  | run (i : Instr) (src dst len : Option Word)
  deriving DecidableEq, Repr

/-- The bus address of a CSR: its offset (spec/20_memory.md R60). -/
def csrAddress (r : Csr) : Word := BitVec.ofNat 32 (csrOffset r)

/-- The bus address of an LDM offset (spec/20_memory.md R60). -/
def ldmAddress (off : Nat) : Word := BitVec.ofNat 32 (ldmBase + off)

/-- A 32-bit write of a CSR. -/
def writeStep (r : Csr) (value : Word) : HostStep := .write (csrAddress r) 4 value

/-- The write of an operand register, if the line gives a value for it. -/
def operandStep (r : Csr) : Option Word → List HostStep
  | none => []
  | some v => [writeStep r v]

/-- A command line: the write of its command word to CMD. -/
def commandStep (i : Instr) : HostStep := writeStep .cmd (encode i)

/-- The bus accesses a line stands for (spec/30_encoding.md R101, R102). -/
def HostLine.expand : HostLine → List HostStep
  | .w reg value => [writeStep reg value]
  | .r reg => [.read (csrAddress reg) 4]
  | .wb off bytes => bytes.mapIdx fun k b => .write (ldmAddress (off + k)) 1 (toWord b.toNat)
  | .ww off value => [.write (ldmAddress off) 4 value]
  | .wf off value => [.write (ldmAddress off) 4 value]
  | .rb off n => (List.range n).map fun k => .read (ldmAddress (off + k)) 1
  | .command i => [commandStep i]
  | .wait => [.poll]
  | .ack => [writeStep .status 0x0000001E]
  | .srst => [writeStep .ctrl 0x00000001]
  | .run i src dst len =>
    operandStep .srcAddr src ++ operandStep .dstAddr dst ++ operandStep .len len ++ [commandStep i, .poll]

/-- The machine with a host program before it. -/
def State.load (s : State) (program : List HostLine) : State := { s with bus := program.flatMap HostLine.expand }

end Sys2Proof.Machine
end

