-- ==== Sys2Proof/Safety.lean ====
section
/-! DEFINITION. The terms claims are stated in: the invariant of the machine, safe runs, real values of binary32, what a
command may change (spec/30_encoding.md R100), the decoder's iterations. The machine itself uses none of them. -/

namespace Sys2Proof.Machine

/-! ### Invariant and runs -/

/-- What every step keeps: LDM is a canonical list of bytes inside LDM_SIZE (spec/20_memory.md R61), ERRCODE and ERRINFO
are 0 without ERR and a defined code with it (spec/10_state.md R26, R34, spec/60_exceptions.md R260), and DONE is 0 while
a command runs (spec/10_state.md R26). -/
structure State.Inv (s : State) : Prop where
  canonical : s.ldm.wf = true
  inside : s.ldm.within s.params.ldmSize = true
  noFault : s.status.err = false → s.status.errcode = 0 ∧ s.csr.errinfo = 0
  faultCode : s.status.err = true → 1 ≤ s.status.errcode.toNat ∧ s.status.errcode.toNat ≤ 7
  running : isBusy s = true → s.status.done = false

/-- A run of k steps that does not stop. -/
def SafeRun (k : Nat) (s : State) : Prop := ∃ t, Host.Core.run Sys2Proof.core k s = .next t

/-- A host step that is neither a reset nor can become one: not power-on, and no write of CTRL with SRST set
(spec/10_state.md R25). -/
def HostStep.keepsRunning : HostStep → Bool
  | .write addr bytes data => !(addr == csrAddress .ctrl && bytes == 4 && data.getLsbD 0)
  | .powerOn => false
  | .wait | .read _ _ | .poll => true

/-- The state in which a command that completes in this step is evaluated: after the host's access of the step, or before it
(log entry 8). -/
def atCompletion (o : CompletionOrder) (s : State) : State :=
  match o with
  | .afterAccess => hostStep s
  | .beforeAccess => s

/-- What the step makes of the state t that the completion leaves: the host's access follows if it has not come first. -/
def afterCompletion (o : CompletionOrder) (t : State) : State :=
  match o with
  | .afterAccess => t
  | .beforeAccess => hostStep t

/-! ### Binary32 as numbers -/

/-- `exact(x)` of a finite x (spec/00_scope.md R8). -/
def exact (x : F32) : ℚ := (scaled x : ℚ) / 2 ^ 149

/-- The least magnitude that rounds to infinity, halfway between the largest finite value and 2^128. -/
def overflowBound : ℚ := 2 ^ 128 - 2 ^ 103

/-- r is `fl(q)` for a real number q: the nearest binary32 value, of two equally near ones the one with an even fraction,
infinity from the overflow bound on, with the sign of q (spec/00_scope.md R8, R12). -/
def RoundsTo (q : ℝ) (r : F32) : Prop :=
  if (overflowBound : ℝ) ≤ |q| then r = mkF32 (decide (q < 0)) infBits
  else
    isFinite r = true ∧ (q ≠ 0 → signBit r = decide (q < 0))
      ∧ ∀ z, isFinite z = true →
          |(exact r : ℝ) - q| ≤ |(exact z : ℝ) - q|
            ∧ (|(exact r : ℝ) - q| = |(exact z : ℝ) - q| → exact z ≠ exact r → magBits r % 2 = 0)

/-! ### Command words -/

/-- The opcodes of the map of spec/30_encoding.md R96. -/
def mapOpcodes : List Nat := [0x00, 0x01, 0x02, 0x03, 0x04, 0x10, 0x11, 0x20, 0x21, 0x30, 0x40, 0x50, 0x51, 0x52]

/-- The reserved fields of a word are 0, and so is each of P, L and ITER that its opcode does not use
(spec/30_encoding.md R90, R91, R96). -/
def FieldsLegal (w : Word) : Prop :=
  w.toNat / 2 ^ 10 % 2 ^ 6 = 0 ∧ w.toNat / 2 ^ 24 = 0
    ∧ (w.toNat % 2 ^ 8 ∉ [0x20, 0x21, 0x50, 0x51, 0x52] → w.getLsbD 8 = false)
    ∧ (w.toNat % 2 ^ 8 ∉ [0x51, 0x52] → w.getLsbD 9 = false)
    ∧ (w.toNat % 2 ^ 8 ∉ [0x11, 0x52] → w.toNat / 2 ^ 16 % 2 ^ 8 = 0)

/-! ### What a command may change -/

/-- The protocol, where the command has one (spec/30_encoding.md R93). -/
def modeOf : Instr → Mode
  | .tonemapFt4 | .encodeFt4 | .syncSearchFt4 | .llrExtractFt4Lse | .llrExtractFt4Max | .decodeFt4Lse _ | .decodeFt4Max _ => .ft4
  | .nop | .crc14 | .crcAppend | .crcCheck | .ft4Xor | .ldpcEncode | .ldpcDecode _ | .tonemapFt8 | .encodeFt8 | .gfskSynth
  | .spectrogram | .syncSearchFt8 | .llrExtractFt8Lse | .llrExtractFt8Max | .decodeFt8Lse _ | .decodeFt8Max _ => .ft8

/-- The registers a command writes when it does not fault, the column "registers written" of spec/30_encoding.md R100. -/
def registersWritten : Instr → List Csr
  | .nop | .ft4Xor | .ldpcEncode | .tonemapFt8 | .tonemapFt4 => []
  | .crc14 | .crcAppend | .encodeFt8 | .encodeFt4 => [.result0]
  | .crcCheck | .ldpcDecode _ => [.result0, .result1]
  | .gfskSynth => [.result0, .nspsym]
  | .spectrogram => [.result0, .result1, .wfAddr, .wfT, .wfF, .binhz, .steps]
  | .syncSearchFt8 | .syncSearchFt4 => [.result0, .result1, .nspsym]
  | .llrExtractFt8Lse | .llrExtractFt4Lse | .llrExtractFt8Max | .llrExtractFt4Max => [.nspsym]
  | .decodeFt8Lse _ | .decodeFt4Lse _ | .decodeFt8Max _ | .decodeFt4Max _ => [.result0, .result1, .nspsym]

/-- The LDM regions a command reads, as (base, size in bytes): the column "LDM read" of spec/30_encoding.md R100. -/
def readSpans (i : Instr) (s : State) : List Span :=
  match i with
  | .nop => []
  | .crc14 => [⟨src s, (len s + 7) / 8⟩]
  | .crcAppend | .ft4Xor | .encodeFt8 | .encodeFt4 => [⟨src s, 10⟩]
  | .crcCheck | .ldpcEncode => [⟨src s, 12⟩]
  | .ldpcDecode _ => [⟨src s, 696⟩]
  | .tonemapFt8 | .tonemapFt4 => [⟨src s, 22⟩]
  | .gfskSynth => [⟨src s, len s⟩]
  | .spectrogram => [⟨src s, 4 * len s⟩]
  | .syncSearchFt8 | .syncSearchFt4 => [⟨wfAddr s, 4 * wfT s * wfF s⟩]
  | .llrExtractFt8Lse | .llrExtractFt4Lse | .llrExtractFt8Max | .llrExtractFt4Max =>
    [⟨src s, 16⟩, ⟨wfAddr s, 4 * wfT s * wfF s⟩]
  | .decodeFt8Lse _ | .decodeFt4Lse _ | .decodeFt8Max _ | .decodeFt4Max _ =>
    [⟨src s, 16 * len s⟩, ⟨wfAddr s, 4 * wfT s * wfF s⟩]

/-- Every region of a command, in the order of spec/30_encoding.md R100. -/
def allSpans (i : Instr) (s : State) : List Span :=
  readSpans i s ++ if writesLdm i then [⟨dst s, writtenSize i s⟩] else []

/-- The regions of a command whose elements are u32 or f32, in order (spec/30_encoding.md R100, spec/60_exceptions.md
R264). -/
def wordSpans (i : Instr) (s : State) : List Span :=
  match i with
  | .nop | .crc14 | .crcAppend | .crcCheck | .ft4Xor | .ldpcEncode | .tonemapFt8 | .tonemapFt4 | .encodeFt8 | .encodeFt4 => []
  | .ldpcDecode _ => readSpans i s
  | .gfskSynth => [⟨dst s, writtenSize i s⟩]
  | .spectrogram | .syncSearchFt8 | .syncSearchFt4 | .llrExtractFt8Lse | .llrExtractFt4Lse | .llrExtractFt8Max
  | .llrExtractFt4Max | .decodeFt8Lse _ | .decodeFt4Lse _ | .decodeFt8Max _ | .decodeFt4Max _ => allSpans i s

/-- The operand CSRs a command reads, the column "CSRs read" of spec/30_encoding.md R100. -/
def csrsRead : Instr → List Csr
  | .nop => []
  | .crc14 => [.srcAddr, .len]
  | .crcCheck => [.srcAddr]
  | .crcAppend | .ft4Xor | .ldpcEncode | .ldpcDecode _ | .tonemapFt8 | .tonemapFt4 | .encodeFt8 | .encodeFt4 =>
    [.srcAddr, .dstAddr]
  | .gfskSynth => [.srcAddr, .dstAddr, .len, .fsHz, .tsym, .bt, .f0Hz]
  | .spectrogram => [.srcAddr, .dstAddr, .len, .fsHz, .nfft, .nstep]
  | .syncSearchFt8 | .syncSearchFt4 =>
    [.dstAddr, .wfAddr, .wfT, .wfF, .fsHz, .tsym, .nfft, .nstep, .fminHz, .fmaxHz, .syncThresh, .maxCand]
  | .llrExtractFt8Lse | .llrExtractFt4Lse | .llrExtractFt8Max | .llrExtractFt4Max =>
    [.srcAddr, .dstAddr, .wfAddr, .wfT, .wfF, .fsHz, .tsym, .nfft, .nstep, .llrScale]
  | .decodeFt8Lse _ | .decodeFt4Lse _ | .decodeFt8Max _ | .decodeFt4Max _ =>
    [.srcAddr, .dstAddr, .len, .wfAddr, .wfT, .wfF, .fsHz, .tsym, .nfft, .nstep, .llrScale]

/-! ### When a command executes without a fault -/

/-- The CSR operands a command checks, in the order of its rule (spec/43_modulator.md R191; spec/44_demodulator.md R214,
R216, R221, R225, R229). -/
def paramChecks : Instr → List Csr
  | .gfskSynth => [.fsHz, .tsym, .bt, .f0Hz, .len]
  | .spectrogram => [.fsHz, .nfft, .nstep, .len]
  | .syncSearchFt8 | .syncSearchFt4 => [.fsHz, .tsym, .nfft, .nstep, .wfT, .wfF, .syncThresh, .maxCand]
  | .llrExtractFt8Lse | .llrExtractFt4Lse | .llrExtractFt8Max | .llrExtractFt4Max =>
    [.fsHz, .tsym, .nfft, .nstep, .wfT, .wfF, .llrScale]
  | .decodeFt8Lse _ | .decodeFt4Lse _ | .decodeFt8Max _ | .decodeFt4Max _ =>
    [.fsHz, .tsym, .nfft, .nstep, .wfT, .wfF, .llrScale, .len]
  | .nop | .crc14 | .crcAppend | .crcCheck | .ft4Xor | .ldpcEncode | .ldpcDecode _ | .tonemapFt8 | .tonemapFt4 | .encodeFt8
  | .encodeFt4 => []

/-- The legal values of LEN for a command that checks it: at most 65535 candidates (spec/44_demodulator.md R229), at least
one tone or sample (spec/43_modulator.md R191, spec/44_demodulator.md R214). -/
def LegalLen (i : Instr) (s : State) : Prop :=
  match i with
  | .decodeFt8Lse _ | .decodeFt4Lse _ | .decodeFt8Max _ | .decodeFt4Max _ => len s ≤ 65535
  | .gfskSynth | .spectrogram => 1 ≤ len s
  | .nop | .crc14 | .crcAppend | .crcCheck | .ft4Xor | .ldpcEncode | .ldpcDecode _ | .tonemapFt8 | .tonemapFt4 | .encodeFt8
  | .encodeFt4 | .syncSearchFt8 | .syncSearchFt4 | .llrExtractFt8Lse | .llrExtractFt4Lse | .llrExtractFt8Max
  | .llrExtractFt4Max => True

/-- Nspsym as the spec writes it, on exact rationals (spec/43_modulator.md R186). -/
def exactNspsym (s : State) : ℤ := ⌊(fs s : ℚ) * exact s.csr.tsym + 1 / 2⌋

/-- A CSR operand has a legal value for the command (spec/10_state.md R35 to R48). -/
def LegalParam (i : Instr) (s : State) : Csr → Prop
  | .fsHz => 1 ≤ fs s ∧ fs s ≤ 2 ^ 24
  | .tsym => isFinite s.csr.tsym = true ∧ 0 < exact s.csr.tsym ∧ 1 ≤ exactNspsym s ∧ exactNspsym s ≤ 2 ^ 20
  | .bt => isFinite s.csr.bt = true ∧ 0 < exact s.csr.bt
  | .f0Hz =>
    isFinite s.csr.f0Hz = true ∧ 0 ≤ exact s.csr.f0Hz
      ∧ exact s.csr.f0Hz + 7 * (fs s : ℚ) / (exactNspsym s : ℚ) ≤ (fs s : ℚ) / 2
  | .nfft => nfft s % 2 = 0 ∧ 16 ≤ nfft s ∧ nfft s ≤ 65536
  | .nstep => 1 ≤ nstep s ∧ nstep s ≤ 65536
  | .syncThresh => isNaN s.csr.syncThresh = false
  | .maxCand => 1 ≤ maxCand s ∧ maxCand s ≤ 65535
  | .llrScale => isFinite s.csr.llrScale = true ∧ 0 < exact s.csr.llrScale
  | .wfT => 1 ≤ wfT s
  | .wfF => wfF s = nfft s / 2 + 1
  | .len => LegalLen i s
  | .id | .version | .ctrl | .status | .irqEn | .cmd | .srcAddr | .dstAddr | .result0 | .result1 | .errinfo | .fminHz
  | .fmaxHz | .wfAddr | .binhz | .steps | .nspsym => True

/-- Every CSR operand the command checks is legal. -/
def ParamsLegal (i : Instr) (s : State) : Prop := ∀ r ∈ paramChecks i, LegalParam i s r

/-- `[a, a + n)` and `[b, b + m)` have no byte in common, or one of them is empty (spec/20_memory.md R73 (c)). -/
def Apart (a n b m : Nat) : Prop := n = 0 ∨ m = 0 ∨ a + n ≤ b ∨ b + m ≤ a

/-- Every region of the command fits, every word region that is not empty is aligned, and the written region is apart from
the read ones (spec/20_memory.md R73). -/
def AddressesLegal (i : Instr) (s : State) : Prop :=
  (∀ r ∈ allSpans i s, r.base + r.size ≤ s.params.ldmSize)
    ∧ (∀ r ∈ wordSpans i s, r.size = 0 ∨ r.base % 4 = 0)
    ∧ (writesLdm i = true → ∀ r ∈ readSpans i s, Apart (dst s) (writtenSize i s) r.base r.size)

/-- A candidate (n, f0) is valid: the three inequalities of spec/44_demodulator.md R216, in unbounded integers. -/
def ValidCandidate (g : Grid) (md : Mode) (n f0 : Nat) : Prop :=
  2 ≤ f0 ∧ (f0 : ℤ) + binOffset g (toneCount md - 1) + 2 ≤ (g.f : ℤ) - 1
    ∧ (timeIndex g (n + symbols md - 1) : ℤ) ≤ (g.t : ℤ) - 1

/-- Record k of the candidate list at SRC_ADDR is a valid candidate (spec/20_memory.md R69, spec/44_demodulator.md R216). -/
def ValidRecord (md : Mode) (s : State) (k : Nat) : Prop :=
  ValidCandidate (gridOf s) md (memRead s (src s + 16 * k) 4) (memRead s (src s + 16 * k + 8) 4)

/-- Datum k of the command's input is outside its legal values (spec/60_exceptions.md R266). -/
def BadDatum (i : Instr) (s : State) (k : Nat) : Prop :=
  match i with
  | .ldpcDecode _ => k < 174 ∧ isNaN (f32Read s (src s + 4 * k)) = true
  | .gfskSynth => k < len s ∧ 7 < (readByte s (src s + k)).toNat
  | .spectrogram => k < len s ∧ isFinite (f32Read s (src s + 4 * k)) = false
  | .llrExtractFt8Lse | .llrExtractFt4Lse | .llrExtractFt8Max | .llrExtractFt4Max =>
    k = 0 ∧ ¬ValidRecord (modeOf i) s k
  | .decodeFt8Lse _ | .decodeFt4Lse _ | .decodeFt8Max _ | .decodeFt4Max _ =>
    k < len s ∧ ¬ValidRecord (modeOf i) s k
  | .nop | .crc14 | .crcAppend | .crcCheck | .ft4Xor | .ldpcEncode | .tonemapFt8 | .tonemapFt4 | .encodeFt8 | .encodeFt4
  | .syncSearchFt8 | .syncSearchFt4 => False

/-- No datum of the command's input is outside its legal values. -/
def DataLegal (i : Instr) (s : State) : Prop := ∀ k, ¬BadDatum i s k

/-! ### The commands by protocol and metric -/

/-- TONEMAP.FT8 or TONEMAP.FT4. -/
def tonemapOf : Mode → Instr
  | .ft8 => .tonemapFt8
  | .ft4 => .tonemapFt4

/-- ENCODE.FT8 or ENCODE.FT4. -/
def encodeOf : Mode → Instr
  | .ft8 => .encodeFt8
  | .ft4 => .encodeFt4

/-- SYNC_SEARCH.FT8 or SYNC_SEARCH.FT4. -/
def syncSearchOf : Mode → Instr
  | .ft8 => .syncSearchFt8
  | .ft4 => .syncSearchFt4

/-- LLR_EXTRACT of a protocol and a metric. -/
def llrExtractOf : Mode → Metric → Instr
  | .ft8, .lse => .llrExtractFt8Lse
  | .ft4, .lse => .llrExtractFt4Lse
  | .ft8, .max => .llrExtractFt8Max
  | .ft4, .max => .llrExtractFt4Max

/-- DECODE of a protocol and a metric. -/
def decodeOf (md : Mode) (mt : Metric) (iter : Nat) : Instr :=
  match md, mt with
  | .ft8, .lse => .decodeFt8Lse iter
  | .ft4, .lse => .decodeFt4Lse iter
  | .ft8, .max => .decodeFt8Max iter
  | .ft4, .max => .decodeFt4Max iter

/-! ### Before and after -/

/-- Every byte outside `[base, base + size)` reads the same in t as in s. -/
def LdmKept (base size : Nat) (s t : State) : Prop :=
  ∀ a, ¬(base ≤ a ∧ a < base + size) → readByte t a = readByte s a

/-- t is s after a completion without a fault, as far as everything but the CSR file and LDM goes: DONE is set, eng is
IDLE, and the other flags, IRQ_EN, the parameters and the model's own fields are unchanged (spec/40_control.md R122). -/
def Completes (s t : State) : Prop :=
  t.eng = .idle ∧ t.status = { s.status with done := true } ∧ t.irqEn = s.irqEn ∧ t.params = s.params
    ∧ t.redraws = s.redraws ∧ t.draws = s.draws ∧ t.bus = s.bus ∧ t.resp = s.resp

/-- t is s after the completion of a command that raised Fault(code, info) (spec/40_control.md R123,
spec/60_exceptions.md R269, R270): LDM and every register but STATUS and ERRINFO are unchanged. -/
def Faults (code : BitVec 4) (info : Word) (s t : State) : Prop :=
  t.eng = .idle ∧ t.status.done = true ∧ t.status.err = true
    ∧ t.status.errcode = (if s.status.err then s.status.errcode else code)
    ∧ t.csr = { s.csr with errinfo := if s.status.err then s.csr.errinfo else info }
    ∧ t.status.overrun = s.status.overrun ∧ t.status.violation = s.status.violation ∧ t.irqEn = s.irqEn
    ∧ t.params = s.params ∧ (∀ a, readByte t a = readByte s a)
    ∧ t.redraws = s.redraws ∧ t.draws = s.draws ∧ t.bus = s.bus ∧ t.resp = s.resp

/-! ### The decoder's iterations -/

/-- The messages m at the start of iteration k + 1 (spec/42_ldpc_decode.md R161, R166). -/
def edgesAt (nm : Num) (tb : Tables) (llr : List F32) : Nat → Edges
  | 0 => initialEdges tb llr
  | k + 1 => varUpdate tb llr (checkUpdate nm (edgesAt nm tb llr k))

/-- The hard decision of iteration k + 1 (spec/42_ldpc_decode.md R163). -/
def decisionAt (nm : Num) (tb : Tables) (llr : List F32) (k : Nat) : List Bool :=
  hardDecision tb llr (checkUpdate nm (edgesAt nm tb llr k))

/-- e[j][i1] of an iteration from its messages m, both by check and variable, as spec/42_ldpc_decode.md R162 writes it. -/
def ruleCheck (nm : Num) (tb : Tables) (m : Nat → Nat → F32) (j i1 : Nat) : F32 :=
  let a := ((checkVars tb j).filter fun i2 => i2 ≠ i1).foldl
    (fun a i2 => fmul a (nm.tanh (fmul (fmin (fmax (m j i2) 0xC1A00000) 0x41A00000) 0x3F000000))) 0x3F800000
  fmul 0x40000000 (nm.atanh (fmin (fmax a 0xBF7FFFEF) 0x3F7FFFEF))

/-- m[j1][i] from the e of the iteration before, as spec/42_ldpc_decode.md R166 writes it. -/
def ruleVariable (tb : Tables) (llr : List F32) (e : Nat → Nat → F32) (j1 i : Nat) : F32 :=
  ((varChecks tb i).filter fun j2 => j2 ≠ j1).foldl (fun acc j2 => fadd acc (e j2 i)) (llr.getD i 0)

/-- The messages m at the start of iteration k + 1, by check and variable (spec/42_ldpc_decode.md R161, R162, R166). -/
def ruleMessages (nm : Num) (tb : Tables) (llr : List F32) : Nat → Nat → Nat → F32
  | 0 => fun _ i => llr.getD i 0
  | k + 1 => ruleVariable tb llr (ruleCheck nm tb (ruleMessages nm tb llr k))

/-- The sum s of variable i in iteration k + 1, as spec/42_ldpc_decode.md R163 writes it. -/
def ruleSum (nm : Num) (tb : Tables) (llr : List F32) (k i : Nat) : F32 :=
  (varChecks tb i).foldl (fun s j => fadd s (ruleCheck nm tb (ruleMessages nm tb llr k) j i)) (llr.getD i 0)

/-! ### The phase-increment buffer as the spec builds it -/

/-- One addition into a buffer. -/
def addAt (x : Nat) (v : F32) (buf : List F32) : List F32 := buf.modify x fun y => fadd y v

/-- p[k], the pulse as spec/43_modulator.md R187 writes it; 1.5 is 0x3FC00000 and 0.5 is 0x3F000000. -/
def rulePulse (nm : Num) (o : SynthOperands) (k : Nat) : F32 :=
  let kb := fmul KG32 o.bt
  let t := fsub (fdiv (fofNat k) (fofNat o.n)) 0x3FC00000
  fmul (fsub (nm.erf (fmul kb (fadd t 0x3F000000))) (nm.erf (fmul kb (fsub t 0x3F000000)))) 0x3F000000

/-- The buffer dphi built in the three passes of spec/43_modulator.md R188, one addition after another. -/
def phaseBuffer (nm : Num) (o : SynthOperands) : List F32 :=
  let n := o.n
  let ns := o.ts.length
  let d0 := fdiv (fmul TWOPI32 o.f0) (fofNat o.fs)
  let peak := fdiv TWOPI32 (fofNat n)
  let term := fun i k : Nat => fmul (fmul peak (fofNat (o.ts.getD i 0))) (rulePulse nm o k)
  let b0 := List.replicate ((ns + 2) * n) d0
  let b1 := (List.range ns).foldl
    (fun buf i => (List.range (3 * n)).foldl (fun buf k => addAt (i * n + k) (term i k) buf) buf) b0
  let b2 := (List.range (2 * n)).foldl (fun buf k => addAt k (term 0 (k + n)) buf) b1
  (List.range (2 * n)).foldl (fun buf k => addAt (ns * n + k) (term (ns - 1) k) buf) b2

/-! ### A candidate of DECODE, by the rules -/

/-- The 174 LLRs of candidate (n, f0) in codeword-bit order, as spec/44_demodulator.md R222 to R224 write them. -/
def ruleLlrs (nm : Num) (md : Mode) (mt : Metric) (s : State) (n f0 : Nat) : List F32 :=
  (List.range 174).map fun j =>
    let bit := bitsPerSymbol md - 1 - j % bitsPerSymbol md
    let row := timeIndex (gridOf s) (n + dataPos md (j / bitsPerSymbol md))
    let y := fun v => f32Read s (wfAddr s + 4 * (row * wfF s + (f0 + binOffset (gridOf s) (gray md v))))
    let z := fun v => fmul s.csr.llrScale (y v)
    let v0 := (List.range (toneCount md)).filter fun v => v / 2 ^ bit % 2 = 0
    let v1 := (List.range (toneCount md)).filter fun v => v / 2 ^ bit % 2 = 1
    let total := fun vs : List Nat => vs.foldl (fun acc v => fadd acc (nm.exp (fsub (z v) (seqmax (vs.map z))))) 0
    match mt with
    | .lse => fsub (fadd (seqmax (v0.map z)) (nm.log (total v0))) (fadd (seqmax (v1.map z)) (nm.log (total v1)))
    | .max => fmul s.csr.llrScale (fsub (seqmax (v0.map y)) (seqmax (v1.map y)))

/-- The SNR of candidate (n, f0) with codeword c, as spec/44_demodulator.md R226 writes it: 10.0 is 0x41200000, 24.0 is
0x41C00000 and −24.0 is 0xC1C00000. -/
def ruleSnr (nm : Num) (md : Mode) (s : State) (n f0 : Nat) (c : List Bool) : F32 :=
  let power := fun u f : Nat => nm.exp10 (f32Read s (wfAddr s + 4 * (timeIndex (gridOf s) (n + u) * wfF s + f)))
  let top := f0 + binOffset (gridOf s) (toneCount md - 1)
  let us := List.range (symbols md)
  let sig := us.foldl
    (fun acc u => fadd acc (power u (f0 + binOffset (gridOf s) ((tones s.params.tables md c).getD u 0)))) 0
  let noise := us.foldl (fun acc u => fadd (fadd acc (power u (f0 - 2))) (power u (top + 2))) 0
  let x := fmul 0x41200000 (nm.log10 (fdiv (fdiv sig (fofNat (symbols md))) (fdiv noise (fofNat (2 * symbols md)))))
  if isNaN x then 0xC1C00000 else fmin (fmax x 0xC1C00000) 0x41C00000

/-- What becomes of candidate k of a DECODE before duplicates are looked at (spec/44_demodulator.md R227): its codeword, the
decoder's verdict, and whether bits 77..90 are the CRC of bits 0..76, most significant first. -/
structure CandidateFate where
  codeword : List Bool
  ldpcOk   : Bool
  crcOk    : Bool
  deriving DecidableEq, Repr

/-- The fate of candidate (n, f0) by spec/44_demodulator.md R227, steps 2 to 4. -/
def ruleFate (nm : Num) (md : Mode) (mt : Metric) (cap : Nat) (s : State) (n f0 : Nat) : CandidateFate :=
  let llr := ruleLlrs nm md mt s n f0
  let r := bp nm s.params.tables llr cap
  { codeword := r.best
    ldpcOk := llr.all (fun x => !isNaN x) && r.minErr == 0
    crcOk := (List.range 14).all fun q => r.best.getD (77 + q) false == (crc77 (r.best.take 77)).getLsbD (13 - q) }

/-- The 77 payload bits of a codeword, with the FT4 mask removed (spec/44_demodulator.md R228, spec/41_channel_codec.md
R135). -/
def rulePayload (tb : Tables) (md : Mode) (c : List Bool) : List Bool :=
  (List.range 77).map fun j =>
    c.getD j false ^^ (md == .ft4 && (tb.ft4XorMask.getD (j / 8) 0).getLsbD (7 - j % 8))

end Sys2Proof.Machine
end

