-- ==== Sys2Proof/Certificates/Slice0/Obligations.lean ====
section
/-! DEFINITION. The statements for the provers. Each docstring names the rules of spec/ the statement is about; where a
clause rests on the model's own choice, the docstring names the log entry (notes/assumptions). -/

open Sys2Proof Sys2Proof.Machine

/-! ### Reset, registers and the host interface -/

/-- spec/70_reset_and_hazards.md R290: the state after power-on reset of an instance with parameters p. That an unspecified
byte is the free value of draw 0 is the model's form (log entry 3). -/
def Obligations.PowerOnResetState : Prop :=
  ∀ p : Params,
    let s := State.resetWith p
    (readCsr .id s = 0x46543843 ∧ readCsr .version s = 0x00010007 ∧ readCsr .ctrl s = 0 ∧ readCsr .status s = 0
      ∧ readCsr .irqEn s = 0 ∧ readCsr .cmd s = 0 ∧ readCsr .srcAddr s = 0 ∧ readCsr .dstAddr s = 0 ∧ readCsr .len s = 0
      ∧ readCsr .result0 s = 0 ∧ readCsr .result1 s = 0 ∧ readCsr .errinfo s = 0 ∧ readCsr .fsHz s = 12000
      ∧ readCsr .tsym s = 0x3E23D70A ∧ readCsr .bt s = 0x40000000 ∧ readCsr .f0Hz s = 0x44BB8000 ∧ readCsr .nfft s = 2048
      ∧ readCsr .nstep s = 512 ∧ readCsr .fminHz s = 50 ∧ readCsr .fmaxHz s = 2500 ∧ readCsr .syncThresh s = 0
      ∧ readCsr .maxCand s = 256 ∧ readCsr .llrScale s = 0x3F800000 ∧ readCsr .wfAddr s = 0 ∧ readCsr .wfT s = 0
      ∧ readCsr .wfF s = 0 ∧ readCsr .binhz s = 0 ∧ readCsr .steps s = 0 ∧ readCsr .nspsym s = 0)
      ∧ s.eng = .idle ∧ irq s = false ∧ (∀ a, readByte s a = Config.freeByte 0 a) ∧ s.params.tables = p.tables

/-- The invariant holds at reset (log entry 2 names the parameters of `State.reset`). -/
def Obligations.InvariantHoldsAtReset : Prop := State.reset.Inv

/-- Every step keeps the invariant: LDM stays a canonical list inside LDM_SIZE (spec/20_memory.md R61), ERRCODE and ERRINFO
are 0 without ERR and a code of 1 to 7 stands with it (spec/10_state.md R26, R34; spec/60_exceptions.md R260), DONE is 0
while BUSY (spec/10_state.md R26). -/
def Obligations.EveryStepKeepsInvariant : Prop := ∀ s t : State, s.Inv → step s = .next t → t.Inv

/-- Every command ends in a next state and every run goes on: a fault of the spec is a completion, and the block is usable
after it (spec/40_control.md R123, spec/60_exceptions.md R270). -/
def Obligations.MachineNeverStops : Prop := (∀ i s, ∃ t, exec i s = .next t) ∧ ∀ k s, SafeRun k s

/-- spec/10_state.md R23, R24, R52: in every state ID and VERSION read their constants and the reserved offsets read 0, and
all of them ignore writes without a flag. -/
def Obligations.ConstantAndReservedOffsets : Prop :=
  ∀ s : State,
    (busRead 0x000 4 s = { s with resp := .data 0x46543843 } ∧ busRead 0x004 4 s = { s with resp := .data 0x00010007 }
      ∧ (0x00010007#32).extractLsb' 16 16 = 0x0001#16 ∧ (0x00010007#32).extractLsb' 0 16 = 0x0007#16
      ∧ ∀ w, busWrite 0x000 4 w s = { s with resp := .ack } ∧ busWrite 0x004 4 w s = { s with resp := .ack })
    ∧ ∀ off : Nat, 0x74 ≤ off → off ≤ 0xFFC → off % 4 = 0 →
        busRead off 4 s = { s with resp := .data 0 } ∧ ∀ w, busWrite off 4 w s = { s with resp := .ack }

/-- The access codes RO and RW of spec/10_state.md R22: while IDLE a write of an operand register stores all 32 bits there
and changes nothing else the block holds; a write of a result register changes nothing in any engine state. -/
def Obligations.OperandRegistersStoreWhatIsWritten : Prop :=
  ∀ (s : State) (w : Word),
    (∀ r, isOperand r = true → isBusy s = false →
      let t := busWrite (csrOffset r) 4 w s
      readCsr r t = w ∧ (∀ q, q ≠ r → readCsr q t = readCsr q s) ∧ t = { s with csr := t.csr, resp := .ack })
      ∧ ∀ r ∈ [Csr.result0, .result1, .errinfo, .binhz, .steps, .nspsym],
          busWrite (csrOffset r) 4 w s = { s with resp := .ack }

/-- spec/10_state.md R28: the CMD register. How many host steps pass before the completion is free, and so
is its order with the access of its step (log entries 5, 8). -/
def Obligations.CommandRegister : Prop :=
  readCsr .cmd State.reset = 0
    ∧ ∀ (s : State) (w : Word),
        (isBusy s = false →
          ∃ n o, busWrite 0x014 4 w s =
              { s with
                csr := { s.csr with cmd := w }, status := { s.status with done := false }, eng := .busy n o
                draws := s.draws + 1, resp := .ack }
            ∧ readCsr .cmd (busWrite 0x014 4 w s) = w)
          ∧ (isBusy s = true →
              busWrite 0x014 4 w s = { s with status := { s.status with overrun := true }, resp := .ack }
                ∧ readCsr .cmd (busWrite 0x014 4 w s) = readCsr .cmd s)
          ∧ busRead 0x014 4 s = { s with resp := .data (readCsr .cmd s) }

/-- spec/10_state.md R26: a write to STATUS, in either engine state. -/
def Obligations.StatusWriteOneToClear : Prop :=
  ∀ (s : State) (w : Word),
    let t := busWrite 0x00C 4 w s
    (∀ b ∈ [1, 2, 3, 4], (readCsr .status t).getLsbD b = ((readCsr .status s).getLsbD b && !w.getLsbD b))
      ∧ (∀ b ∈ [8, 9, 10, 11], (readCsr .status t).getLsbD b = ((readCsr .status s).getLsbD b && !w.getLsbD 2))
      ∧ (readCsr .status t).getLsbD 0 = (readCsr .status s).getLsbD 0
      ∧ (∀ b, (5 ≤ b ∧ b ≤ 7) ∨ 12 ≤ b → (readCsr .status t).getLsbD b = false)
      ∧ readCsr .errinfo t = (if w.getLsbD 2 then 0 else readCsr .errinfo s)
      ∧ (∀ q, q ≠ .status → q ≠ .errinfo → readCsr q t = readCsr q s)
      ∧ t = { s with csr := t.csr, status := t.status, resp := .ack }

/-- spec/60_exceptions.md R274 and spec/10_state.md R27: the interrupt level as a function of STATUS and IRQ_EN as software
reads them, and the write of IRQ_EN in either engine state. -/
def Obligations.InterruptLevelAndEnable : Prop :=
  readCsr .irqEn State.reset = 0
    ∧ (∀ s : State,
        irq s =
          (((readCsr .status s).getLsbD 1 && (readCsr .irqEn s).getLsbD 0)
            || (((readCsr .status s).getLsbD 2 || (readCsr .status s).getLsbD 3 || (readCsr .status s).getLsbD 4)
                  && (readCsr .irqEn s).getLsbD 1)))
    ∧ ∀ (s : State) (w : Word),
        let t := busWrite 0x010 4 w s
        readCsr .irqEn t = w &&& 3 ∧ t = { s with irqEn := t.irqEn, resp := .ack }

/-- spec/60_exceptions.md R272: the host-access events. And the last sentence of R268: an event in the very step of a
completion is set beside it and changes nothing else of it, where the access comes first (log entry 8). -/
def Obligations.WritesWhileBusyAreFlagged : Prop :=
  ∀ (s : State) (w : Word), isBusy s = true →
    busWrite 0x014 4 w s = { s with status := { s.status with overrun := true }, resp := .ack }
      ∧ (∀ r, isOperand r = true →
          busWrite (csrOffset r) 4 w s = { s with status := { s.status with violation := true }, resp := .ack })
      ∧ (∀ off n, n ∈ [1, 2, 4] → off % n = 0 → off + n ≤ s.params.ldmSize →
          busWrite (0x01000000 + off) n w s = { s with status := { s.status with violation := true }, resp := .ack })
      ∧ (busWrite 0x00C 4 0x00000008 s).status.overrun = false ∧ (busWrite 0x00C 4 0x00000010 s).status.violation = false
      ∧ ∀ rest : List HostStep, s.eng = .busy 0 .afterAccess →
          ∃ u, step { s with bus := .wait :: rest } = .next u ∧ u.eng = .idle ∧ u.status.done = true
            ∧ step { s with bus := .write 0x014 4 w :: rest }
                = .next { u with status := { u.status with overrun := true }, resp := .ack }
            ∧ (∀ r, isOperand r = true →
                step { s with bus := .write (csrAddress r) 4 w :: rest }
                  = .next { u with status := { u.status with violation := true }, resp := .ack })
            ∧ ∀ (a : Word) (n : Nat), n ∈ [1, 2, 4] → 0x01000000 ≤ a.toNat → a.toNat % n = 0 →
                a.toNat + n ≤ 0x01000000 + s.params.ldmSize →
                step { s with bus := .write a n w :: rest }
                  = .next { u with status := { u.status with violation := true }, resp := .ack }

/-- spec/70_reset_and_hazards.md R291 and spec/10_state.md R25: CTRL reads 0 in every state, a write with bit 0 clear does
nothing, a write with bit 0 set is the soft reset. The draw that counts in an abandoned destination is the model's form of
an unspecified value, and that the destination runs to the end of LDM where TSYM or NSTEP give it no size is the model's
choice, as is reading R100's sizes as they stand for operands a check would stop (log entry 4). -/
def Obligations.SoftReset : Prop :=
  (∀ s : State, readCsr .ctrl s = 0 ∧ busRead 0x008 4 s = { s with resp := .data 0 })
    ∧ (∀ (s : State) (w : Word), w.getLsbD 0 = false → busWrite 0x008 4 w s = { s with resp := .ack })
    ∧ ∀ (s : State) (w : Word), w.getLsbD 0 = true →
        let t := busWrite 0x008 4 w s
        (∀ r, readCsr r t = readCsr r (State.resetWith s.params))
          ∧ t.eng = .idle ∧ irq t = false ∧ t.params = s.params ∧ t.resp = .ack
          ∧ (isBusy s = false → ∀ a, readByte t a = readByte s a)
          ∧ (∀ e, decode s.csr.cmd = .error e → ∀ a, readByte t a = readByte s a)
          ∧ ∀ i, decode s.csr.cmd = .ok i → isBusy s = true →
              let sized := len s = 0 ∨ (i = .gfskSynth → isFinite s.csr.tsym = true) ∧ (i = .spectrogram → 1 ≤ nstep s)
              let size :=
                if i = .gfskSynth then 4 * len s * ⌊(fs s : ℚ) * exact s.csr.tsym + 1 / 2⌋.toNat
                else if i = .spectrogram then 2 * ((len s + nstep s - 1) / nstep s) * (nfft s + 2)
                else writtenSize i s
              (writesLdm i = false → ∀ a, readByte t a = readByte s a)
                ∧ (∀ a, a < dst s → readByte t a = readByte s a)
                ∧ (writesLdm i = true → sized →
                    LdmKept (dst s) size s t
                      ∧ ∀ a, dst s ≤ a → a < dst s + size → readByte t a = Config.freeByte (s.redraws.length + 1) a)
                ∧ (writesLdm i = true → ¬sized →
                    ∀ a, dst s ≤ a → a < s.params.ldmSize → readByte t a = Config.freeByte (s.redraws.length + 1) a)

/-- spec/20_memory.md R62: every multi-byte value is little-endian, seen by reads of every width after a host write of any
width. -/
def Obligations.LittleEndian : Prop :=
  (∀ (s : State) (a n k : Nat), k < n → memRead s a n / 256 ^ k % 256 = (readByte s (a + k)).toNat)
    ∧ ∀ (s : State) (off n : Nat) (w : Word), isBusy s = false → n ∈ [1, 2, 4] → off % n = 0 →
        off + n ≤ s.params.ldmSize →
        let t := busWrite (0x01000000 + off) n w s
        (∀ k, k < n → readByte t (off + k) = (w >>> (8 * k)).setWidth 8)
          ∧ (∀ k, k < n → (busRead (0x01000000 + off + k) 1 t).resp = .data (((w >>> (8 * k)).setWidth 8).setWidth 32))
          ∧ (busRead (0x01000000 + off) n t).resp = .data (BitVec.ofNat 32 (w.toNat % 256 ^ n))
          ∧ LdmKept off n s t ∧ t = { s with ldm := t.ldm, resp := .ack }

/-- spec/20_memory.md R71 and spec/60_exceptions.md R273: which accesses are bus errors, and that a bus error changes no
state of the block; every other read is answered with the current value of the CSR or, while IDLE, with what LDM holds, and
no read has a side effect (R72, R74). A counter of the model counts the unspecified read data (log entry 13). -/
def Obligations.BusErrorsAndReads : Prop :=
  ∀ (s : State) (addr bytes : Nat) (w : Word),
    let csrAccess := addr < 0x1000 ∧ bytes = 4 ∧ addr % 4 = 0
    let ldmAccess :=
      0x01000000 ≤ addr ∧ bytes ∈ [1, 2, 4] ∧ addr % bytes = 0 ∧ addr + bytes ≤ 0x01000000 + s.params.ldmSize
    (¬(csrAccess ∨ ldmAccess) →
      ∃ d e, busRead addr bytes s = { s with draws := s.draws + 1, resp := .busError d }
        ∧ busWrite addr bytes w s = { s with draws := s.draws + 1, resp := .busError e })
    ∧ (csrAccess ∨ ldmAccess → (∃ d, (busRead addr bytes s).resp = .data d) ∧ (busWrite addr bytes w s).resp = .ack)
    ∧ busRead addr bytes s = { s with resp := (busRead addr bytes s).resp, draws := (busRead addr bytes s).draws }
    ∧ (∀ r, csrOffset r = addr → bytes = 4 → busRead addr bytes s = { s with resp := .data (readCsr r s) })
    ∧ (ldmAccess → isBusy s = false →
        busRead addr bytes s = { s with resp := .data (BitVec.ofNat 32 (memRead s (addr - 0x01000000) bytes)) })

/-! ### Command words -/

/-- Every well-formed command is read back from its word, from its bytes whatever follows them, and from its number in the
opcode table (spec/30_encoding.md R90, R96). -/
def Obligations.DecodeOfEncode : Prop :=
  ∀ i : Instr, i.wellFormed = true →
    decode (encode i) = .ok i ∧ decodeTableWord 32 (encode i).toNat = some i
      ∧ ∀ rest, decodeBytes (encodeBytes i ++ rest) = .ok (i, rest)

/-- spec/30_encoding.md R96 with R91: the order of decoding, what a legal word selects, and the one table row it matches. -/
def Obligations.DecodeOrder : Prop :=
  ∀ w : Word,
    (w.toNat % 2 ^ 8 ∉ mapOpcodes → decode w = .error .illegalOpcode)
      ∧ (w.toNat % 2 ^ 8 ∈ mapOpcodes → ¬FieldsLegal w → decode w = .error .reservedField)
      ∧ (w.toNat % 2 ^ 8 ∈ mapOpcodes → FieldsLegal w →
          ∃ i, decode w = .ok i ∧ i.wellFormed = true ∧ encode i = w ∧ (opcodeTable.filter fun r => r.matches w).length = 1)
      ∧ (¬(w.toNat % 2 ^ 8 ∈ mapOpcodes ∧ FieldsLegal w) → ∀ r ∈ opcodeTable, r.matches w = false)

/-- Words written out from the fields of spec/30_encoding.md R90 decode to the commands the map of R96 gives. -/
def Obligations.SampleWordsDecode : Prop :=
  decode 0x00000000 = .ok .nop ∧ decode 0x00000001 = .ok .crc14 ∧ decode 0x00000010 = .ok .ldpcEncode
    ∧ decode 0x00320011 = .ok (.ldpcDecode 50) ∧ decode 0x00000120 = .ok .tonemapFt4 ∧ decode 0x00000021 = .ok .encodeFt8
    ∧ decode 0x00000030 = .ok .gfskSynth ∧ decode 0x00000040 = .ok .spectrogram ∧ decode 0x00000150 = .ok .syncSearchFt4
    ∧ decode 0x00000251 = .ok .llrExtractFt8Max ∧ decode 0x00FF0352 = .ok (.decodeFt4Max 255)
    ∧ decode 0x00000100 = .error .reservedField ∧ decode 0x00000005 = .error .illegalOpcode

/-- What one step is (spec/70_reset_and_hazards.md R298, R290; spec/20_memory.md R75; spec/30_encoding.md R102): the host's
next access, and the meaning of the latched command when its delay has passed (spec/40_control.md R122): after the access,
unless that was a reset, or before it, so that the access meets the engine IDLE. The list of host steps, the delay's count,
the order as a field of the engine, the power-on step and the placing of a word are the model's form (log entries 1, 5, 7, 8,
10, 14). -/
def Obligations.StepRunsTheDecodedCommand : Prop :=
  (∀ (s : State) (i : Instr), s.eng = .busy 0 .afterAccess → (hostStep s).eng = .busy 0 .afterAccess →
      decode s.csr.cmd = .ok i → step s = exec i (hostStep s))
    ∧ (∀ s : State, s.eng = .busy 0 .afterAccess → (hostStep s).eng ≠ .busy 0 .afterAccess → step s = .next (hostStep s))
    ∧ (∀ (s : State) (i : Instr), s.eng = .busy 0 .beforeAccess → decode s.csr.cmd = .ok i →
        ∃ t, exec i s = .next t ∧ t.eng = .idle ∧ step s = .next (hostStep t))
    ∧ (∀ (s : State) (n : Nat) (o : CompletionOrder), s.eng = .busy (n + 1) o →
        step s = .next (hostStep { s with eng := .busy n o }))
    ∧ (∀ s : State, s.eng = .idle → step s = .next (hostStep s))
    ∧ (∀ s : State, s.bus = [] → hostStep s = s)
    ∧ (∀ (s : State) (h : HostStep) (rest : List HostStep), s.bus = h :: rest →
        let q := { s with bus := rest }
        (isBusy s = true → (hostStep s).eng = if h.keepsRunning then s.eng else .idle)
          ∧ (h = .wait → hostStep s = q)
          ∧ (∀ a n, h = .read a n → hostStep s = busRead a.toNat n q)
          ∧ (∀ a n w, h = .write a n w → hostStep s = busWrite a.toNat n w q)
          ∧ (h = .poll →
              hostStep s =
                { s with resp := .data (readCsr .status s), bus := if isBusy s then .poll :: rest else rest })
          ∧ (h = .powerOn →
              let t := hostStep s
              (∀ r, readCsr r t = readCsr r (State.resetWith s.params)) ∧ t.eng = .idle ∧ irq t = false
                ∧ t.params = s.params ∧ t.bus = rest ∧ t.resp = .none
                ∧ ∀ a, a < s.params.ldmSize → readByte t a = Config.freeByte (s.redraws.length + 1) a))
    ∧ ∀ (s : State) (i : Instr), i.wellFormed = true →
        step (s.withFetchWord 32 (encode i).toNat)
          = exec i { s.withFetchWord 32 (encode i).toNat with bus := s.bus }

/-- spec/60_exceptions.md R261, R262: an illegal word ends with its fault and the word as information, and changes nothing
else. The access of the same step comes before it, if it is no reset, or after it (log entry 8). -/
def Obligations.IllegalWordsFault : Prop :=
  (∀ (s : State) (o : CompletionOrder), s.eng = .busy 0 o → (atCompletion o s).eng = .busy 0 o →
      (s.csr.cmd.toNat % 2 ^ 8 ∉ mapOpcodes →
          ∃ t, step s = .next (afterCompletion o t) ∧ Faults 1 s.csr.cmd (atCompletion o s) t)
        ∧ (s.csr.cmd.toNat % 2 ^ 8 ∈ mapOpcodes → ¬FieldsLegal s.csr.cmd →
            ∃ t, step s = .next (afterCompletion o t) ∧ Faults 2 s.csr.cmd (atCompletion o s) t))
    ∧ decode 0x00000101 = .error .reservedField ∧ decode 0x00000152 = .ok (.decodeFt4Lse 0)

/-! ### Faults and completion, for every command -/

/-- spec/60_exceptions.md R269 with R270 and spec/40_control.md R123: a command whose evaluation raises a fault, and a word
that is no legal command, complete with that fault recorded, the first one since ERR was cleared kept, and no other register
and no LDM byte changed. The access of a completion step comes before it, if it is no reset, or after it (log entry 8). -/
def Obligations.FaultsArePrecise : Prop :=
  (∀ (i : Instr) (s : State) (f : CmdFault), evaluate (commandOf i) s = .error f →
      ∃ t, exec i s = .next t ∧ Faults (faultNumber f.code) (BitVec.ofNat 32 f.info) s t)
    ∧ ∀ (s : State) (o : CompletionOrder) (e : DecodeError), s.eng = .busy 0 o → (atCompletion o s).eng = .busy 0 o →
        decode s.csr.cmd = .error e →
        ∃ t, step s = .next (afterCompletion o t)
          ∧ Faults (faultNumber (decodeFault e s.csr.cmd).code) s.csr.cmd (atCompletion o s) t

/-- spec/60_exceptions.md R265: the first CSR operand, in the command rule's order, that is outside its legal values. -/
def Obligations.InvalidParamNamesTheFirstBadRegister : Prop :=
  ∀ (i : Instr) (s : State) (before : List Csr) (r : Csr) (after : List Csr),
    paramChecks i = before ++ r :: after → (∀ q ∈ before, LegalParam i s q) → ¬LegalParam i s r →
    ∃ t, exec i s = .next t ∧ Faults 5 (BitVec.ofNat 32 (csrOffset r)) s t

/-- spec/60_exceptions.md R263, R264, R267 in the order of spec/20_memory.md R73: the first region that does not fit, else
the first word region that is not aligned, else a written region that overlaps a read one. -/
def Obligations.AddressFaultsInOrder : Prop :=
  ∀ (i : Instr) (s : State), ParamsLegal i s →
    (∀ before r after, allSpans i s = before ++ r :: after → (∀ q ∈ before, q.base + q.size ≤ s.params.ldmSize) →
        s.params.ldmSize < r.base + r.size → ∃ t, exec i s = .next t ∧ Faults 3 (BitVec.ofNat 32 r.base) s t)
      ∧ ((∀ q ∈ allSpans i s, q.base + q.size ≤ s.params.ldmSize) →
          (∀ before r after, wordSpans i s = before ++ r :: after → (∀ q ∈ before, q.size = 0 ∨ q.base % 4 = 0) →
              r.size ≠ 0 → r.base % 4 ≠ 0 → ∃ t, exec i s = .next t ∧ Faults 4 (BitVec.ofNat 32 r.base) s t)
            ∧ ((∀ q ∈ wordSpans i s, q.size = 0 ∨ q.base % 4 = 0) → writesLdm i = true →
                (∃ r ∈ readSpans i s, ¬Apart (dst s) (writtenSize i s) r.base r.size) →
                ∃ t, exec i s = .next t ∧ Faults 7 s.csr.dstAddr s t))

/-- spec/60_exceptions.md R266: the least offending element of the input data. -/
def Obligations.InvalidValueNamesTheLeastIndex : Prop :=
  ∀ (i : Instr) (s : State) (k : Nat), ParamsLegal i s → AddressesLegal i s → BadDatum i s k → (∀ j, j < k → ¬BadDatum i s j) →
    ∃ t, exec i s = .next t ∧ Faults 6 (BitVec.ofNat 32 k) s t

/-- spec/30_encoding.md R100 with spec/40_control.md R122 and spec/20_memory.md R79: every command whose operands are legal
completes without a fault; LDM changes only inside its destination region, and only the registers of its row change. -/
def Obligations.LegalCommandsCompleteWithinTheirRow : Prop :=
  ∀ (i : Instr) (s : State), ParamsLegal i s → AddressesLegal i s → DataLegal i s →
    ∃ t, exec i s = .next t ∧ Completes s t ∧ LdmKept (dst s) (writtenSize i s) s t
      ∧ (writesLdm i = false → ∀ a, readByte t a = readByte s a)
      ∧ ∀ r, r ∉ registersWritten i → r ≠ .status → readCsr r t = readCsr r s

/-- spec/40_control.md R125 with spec/30_encoding.md R100: a command's outcome is a function of the CSRs its row reads, of
the LDM regions its row reads, and of the parameters. The FT4 tables meet the constraint of spec/10_state.md R54: for other
tables there is no rule (log entry 12), and the statement leaves them out. -/
def Obligations.OutcomeDependsOnTheRowAlone : Prop :=
  ∀ (i : Instr) (s t : State), Ft4Legal s.params.tables → t.params = s.params →
    (∀ r ∈ csrsRead i, readCsr r t = readCsr r s) →
    (∀ r ∈ readSpans i s, ∀ a, r.covers a = true → readByte t a = readByte s a) →
    evaluate (commandOf i) t = evaluate (commandOf i) s

/-- spec/70_reset_and_hazards.md R298, R294 and spec/20_memory.md R76: a started command, legal or not, completes after its
delay whatever the host does meanwhile short of a reset, with the outcome its operands had at the start. That the outcome is
evaluated in the completion step, that the delay is a count of host steps, and that the host's access of the completion step
comes before the completion or after it, by an order drawn at the start, are the model's (log entries 1, 5, 8). -/
def Obligations.RunningCommandIsUndisturbed : Prop :=
  ∀ (n : Nat) (o : CompletionOrder) (s : State), s.eng = .busy n o → (∀ h ∈ s.bus, h.keepsRunning = true) →
    ∃ t, Host.Core.run Sys2Proof.core (n + 1) s = .next (afterCompletion o t)
      ∧ t.eng = .idle ∧ t.status.done = true ∧ t.params = s.params
      ∧ let kept := fun c : Csrs =>
          ∀ r, r ≠ .status → r ≠ .irqEn → r ≠ .errinfo → readCsr r t = readCsr r { s with csr := c }
        let faulted := t.status.err = true ∧ (∀ a, readByte t a = readByte s a) ∧ kept s.csr
        match decode s.csr.cmd with
        | .error _ => faulted
        | .ok i =>
          match evaluate (commandOf i) s with
          | .error _ => faulted
          | .ok e =>
            (∀ a, readByte t a = if e.base ≤ a ∧ a < e.base + e.bytes.length then e.bytes.getD (a - e.base) 0 else readByte s a)
              ∧ kept (e.applyCsrs s.csr)

/-! ### NOP and the channel codec -/

/-- spec/40_control.md R124: NOP completes in every state and sets DONE alone. -/
def Obligations.NopSetsDoneOnly : Prop :=
  (∀ s : State, exec .nop s = .next { s with status := { s.status with done := true }, eng := .idle })
    ∧ decode 0x00000000 = .ok .nop
    ∧ ∀ w : Word, w.toNat % 2 ^ 8 = 0 → w ≠ 0 → decode w = .error .reservedField

/-- spec/41_channel_codec.md R130, spec/00_scope.md R10: the CRC-14 is the remainder of B(x)·x^14 divided by G(x), and is
linear over GF(2). -/
def Obligations.Crc14IsThePolynomialRemainder : Prop :=
  (∀ bits : List Bool,
    (∑ k ∈ Finset.range 14, if (crc14 bits).getLsbD k then (Polynomial.X : Polynomial (ZMod 2)) ^ k else 0) =
      ((∑ j ∈ Finset.range bits.length,
          if bits.getD j false then (Polynomial.X : Polynomial (ZMod 2)) ^ (bits.length - 1 - j) else 0)
        * Polynomial.X ^ 14)
      %ₘ (Polynomial.X ^ 14 + Polynomial.X ^ 13 + Polynomial.X ^ 10 + Polynomial.X ^ 9 + Polynomial.X ^ 8
          + Polynomial.X ^ 6 + Polynomial.X ^ 4 + Polynomial.X ^ 2 + Polynomial.X + 1))
    ∧ (∀ a b : List Bool, a.length = b.length → crc14 (a.zipWith (fun x y => x ^^ y) b) = crc14 a ^^^ crc14 b)
    ∧ ∀ n, crc14 (List.replicate n false) = 0

/-- spec/41_channel_codec.md R131: every single-bit change of the 91 bits of a PayloadWithCrc is detected. -/
def Obligations.SingleBitErrorsAreDetected : Prop :=
  ∀ (w : List Bool) (k : Nat), w.length = 91 → k < 91 → w.drop 77 = crcBits (crc77 (w.take 77)) →
    (w.modify k fun b => !b).drop 77 ≠ crcBits (crc77 ((w.modify k fun b => !b).take 77))

/-- spec/41_channel_codec.md R132: CRC14. -/
def Obligations.Crc14Command : Prop :=
  (∀ s : State, AddressesLegal .crc14 s →
    ∃ t, exec .crc14 s = .next t ∧ Completes s t ∧ (∀ a, readByte t a = readByte s a)
      ∧ t.csr = { s.csr with result0 := t.csr.result0 }
      ∧ t.csr.result0.toNat = (crc14 ((List.range (len s)).map fun j => bitRead s (src s) j)).toNat
      ∧ (len s = 0 → t.csr.result0 = 0))
    ∧ crc14 (natToBits 8 0x01) = 0x2757#14

/-- spec/41_channel_codec.md R133, spec/20_memory.md R65: CRC_APPEND. -/
def Obligations.CrcAppendCommand : Prop :=
  ∀ s : State, AddressesLegal .crcAppend s →
    let c := crc77 (readBits s (src s) 77)
    ∃ t, exec .crcAppend s = .next t ∧ Completes s t ∧ LdmKept (dst s) 12 s t
      ∧ t.csr = { s.csr with result0 := t.csr.result0 } ∧ t.csr.result0.toNat = c.toNat
      ∧ (∀ j, j < 77 → bitRead t (dst s) j = bitRead s (src s) j)
      ∧ (∀ k, k < 14 → bitRead t (dst s) (77 + k) = c.getLsbD (13 - k))
      ∧ ∀ j, 91 ≤ j → j < 96 → bitRead t (dst s) j = false

/-- spec/41_channel_codec.md R134: CRC_CHECK; a mismatch is a result. What CRC_APPEND leaves passes. -/
def Obligations.CrcCheckCommand : Prop :=
  (∀ s : State, AddressesLegal .crcCheck s →
    ∃ t, exec .crcCheck s = .next t ∧ Completes s t ∧ (∀ a, readByte t a = readByte s a)
      ∧ t.csr = { s.csr with result0 := t.csr.result0, result1 := t.csr.result1 }
      ∧ t.csr.result1.toNat = (crc77 (readBits s (src s) 77)).toNat
      ∧ ((∀ k, k < 14 → bitRead s (src s) (77 + k) = (crc77 (readBits s (src s) 77)).getLsbD (13 - k)) → t.csr.result0 = 1)
      ∧ ((∃ k, k < 14 ∧ bitRead s (src s) (77 + k) ≠ (crc77 (readBits s (src s) 77)).getLsbD (13 - k)) → t.csr.result0 = 0))
    ∧ ∀ s t u : State, AddressesLegal .crcAppend s → exec .crcAppend s = .next t → src u = dst s →
        (∀ a, readByte u a = readByte t a) → AddressesLegal .crcCheck u →
        ∃ v, exec .crcCheck u = .next v ∧ v.csr.result0 = 1 ∧ v.csr.result1 = t.csr.result0

/-- spec/41_channel_codec.md R135, R136: FT4_XOR applies the mask bit by bit, and the mask function is its own inverse. For a
mask of fewer than ten bytes, which R54 shuts out, the missing bytes are the model's 0 (log entry 12). -/
def Obligations.Ft4XorCommand : Prop :=
  (∀ s : State, AddressesLegal .ft4Xor s →
    ∃ t, exec .ft4Xor s = .next t ∧ Completes s t ∧ LdmKept (dst s) 10 s t ∧ t.csr = s.csr
      ∧ (∀ j, j < 77 →
          bitRead t (dst s) j =
            (bitRead s (src s) j ^^ (s.params.tables.ft4XorMask.getD (j / 8) 0).getLsbD (7 - j % 8)))
      ∧ ∀ j, 77 ≤ j → j < 80 → bitRead t (dst s) j = false)
    ∧ ∀ (tb : Tables) (p : List Bool), p.length = 77 →
        mask4 tb (mask4 tb p) = p
          ∧ ∀ j, j < 77 →
              (mask4 tb p).getD j false = (p.getD j false ^^ (tb.ft4XorMask.getD (j / 8) 0).getLsbD (7 - j % 8))

/-- spec/41_channel_codec.md R137: the LDPC encoding function, bit by bit and as a linear map. For tables that break
spec/10_state.md R54 the missing rows and bits are the model's 0 (log entry 12). -/
def Obligations.LdpcEncodingFunction : Prop :=
  ∀ (tb : Tables) (a : List Bool), a.length = 91 →
    (ldpcEnc tb a).length = 174
      ∧ (∀ k, k < 91 → (ldpcEnc tb a).getD k false = a.getD k false)
      ∧ (∀ i, i < 83 →
          (ldpcEnc tb a).getD (91 + i) false =
            decide (((Finset.range 91).filter fun k =>
              (tb.ldpcG.getD i []).getD k false = true ∧ a.getD k false = true).card % 2 = 1))
      ∧ (∀ b : List Bool, b.length = 91 →
          ldpcEnc tb (a.zipWith (fun x y => x ^^ y) b) = (ldpcEnc tb a).zipWith (fun x y => x ^^ y) (ldpcEnc tb b))
      ∧ ldpcEnc tb (List.replicate 91 false) = List.replicate 174 false

/-- spec/41_channel_codec.md R138, spec/20_memory.md R66: LDPC_ENCODE. -/
def Obligations.LdpcEncodeCommand : Prop :=
  ∀ s : State, AddressesLegal .ldpcEncode s →
    ∃ t, exec .ldpcEncode s = .next t ∧ Completes s t ∧ LdmKept (dst s) 22 s t ∧ t.csr = s.csr
      ∧ (∀ k, k < 91 → bitRead t (dst s) k = bitRead s (src s) k)
      ∧ readBits t (dst s) 174 = ldpcEnc s.params.tables (readBits s (src s) 91)
      ∧ bitRead t (dst s) 174 = false ∧ bitRead t (dst s) 175 = false

/-! ### The LDPC decoder -/

/-- spec/42_ldpc_decode.md R160: tables that meet spec/10_state.md R55 have 522 edges. -/
def Obligations.GraphHas522Edges : Prop :=
  ∀ tb : Tables, LdpcLegal tb → ((List.range 83).map fun j => (checkVars tb j).length).sum = 522

/-- spec/42_ldpc_decode.md R167 with R165: the decoder's result in terms of its iterations: the earliest hard decision with
the fewest odd checks, where iteration k + 1 runs on the messages of iteration k; the generator matrix plays no part. And for
tables that meet spec/10_state.md R55 the hard decision of each iteration is that of R163 on the messages of R161, R162 and
R166, written out by check and variable. For other tables a missing edge is the model's +0.0 (log entry 12). -/
def Obligations.DecoderKeepsTheEarliestBest : Prop :=
  (∀ (nm : Sys2Proof.Num) (tb : Tables) (llr : List F32) (cap : Nat), 1 ≤ cap →
    let r := bp nm tb llr cap
    ∃ k, k < r.iters ∧ r.best = decisionAt nm tb llr k ∧ r.minErr = nerr tb r.best
      ∧ (∀ j, j < k → r.minErr < nerr tb (decisionAt nm tb llr j))
      ∧ (∀ j, j < r.iters → r.minErr ≤ nerr tb (decisionAt nm tb llr j))
      ∧ r.iters ≤ cap
      ∧ (r.minErr = 0 → r.iters = k + 1 ∧ ∀ c, c < 83 → syndromeBit tb r.best c = false)
      ∧ (r.minErr ≠ 0 → r.iters = cap)
      ∧ ∀ g, bp nm { tb with ldpcG := g } llr cap = r)
    ∧ ∀ (nm : Sys2Proof.Num) (tb : Tables) (llr : List F32) (k : Nat), LdpcLegal tb →
        (decisionAt nm tb llr k).length = 174
          ∧ ∀ i, i < 174 → (decisionAt nm tb llr k).getD i false = flt (ruleSum nm tb llr k i) 0

/-- spec/42_ldpc_decode.md R168 with spec/30_encoding.md R92: LDPC_DECODE of 174 LLRs that are not NaNs. -/
def Obligations.LdpcDecodeCommand : Prop :=
  ∀ (iter : Nat) (s : State), AddressesLegal (.ldpcDecode iter) s → DataLegal (.ldpcDecode iter) s →
    let cap := if iter = 0 then 20 else iter
    let r := bp NUM s.params.tables ((List.range 174).map fun j => f32Read s (src s + 4 * j)) cap
    ∃ t, exec (.ldpcDecode iter) s = .next t ∧ Completes s t ∧ LdmKept (dst s) 22 s t
      ∧ t.csr = { s.csr with result0 := t.csr.result0, result1 := t.csr.result1 }
      ∧ readBits t (dst s) 174 = r.best ∧ bitRead t (dst s) 174 = false ∧ bitRead t (dst s) 175 = false
      ∧ t.csr.result0.toNat = nerr s.params.tables (readBits t (dst s) 174)
      ∧ t.csr.result1 = BitVec.ofNat 32 r.iters

/-- spec/42_ldpc_decode.md R168, corner case: 174 zeros decode to the zero codeword in one iteration, for tables whose
checks have at least two variables (spec/10_state.md R55 (b)). -/
def Obligations.ZeroLlrsDecodeToZero : Prop :=
  ∀ (iter : Nat) (s : State), AddressesLegal (.ldpcDecode iter) s →
    (∀ j, j < 174 → isZero (f32Read s (src s + 4 * j)) = true) →
    (∀ c, c < 83 → 2 ≤ (checkVars s.params.tables c).length) →
    ∃ t, exec (.ldpcDecode iter) s = .next t ∧ t.csr.result0 = 0 ∧ t.csr.result1 = 1
      ∧ ∀ k, k < 22 → readByte t (dst s + k) = 0

/-! ### The modulator -/

/-- spec/43_modulator.md R180, R182, R184: TONEMAP.FT8. -/
def Obligations.TonemapFt8Command : Prop :=
  ∀ s : State, AddressesLegal .tonemapFt8 s →
    ∃ t, exec .tonemapFt8 s = .next t ∧ Completes s t ∧ LdmKept (dst s) 79 s t ∧ t.csr = s.csr
      ∧ (∀ o ∈ [0, 36, 72], readBytes t (dst s + o) 7 = [3, 1, 4, 0, 6, 5, 2])
      ∧ (∀ d, d < 58 →
          (readByte t (dst s + (if d ≤ 28 then 7 + d else 43 + (d - 29)))).toNat =
            [0, 1, 3, 2, 5, 6, 4, 7].getD
              (4 * (bitRead s (src s) (3 * d)).toNat + 2 * (bitRead s (src s) (3 * d + 1)).toNat
                + (bitRead s (src s) (3 * d + 2)).toNat) 0)
      ∧ ∀ u, u < 79 → (readByte t (dst s + u)).toNat ≤ 7

/-- spec/43_modulator.md R181, R183, R184: TONEMAP.FT4, for tables that meet spec/10_state.md R54. -/
def Obligations.TonemapFt4Command : Prop :=
  ∀ s : State, Ft4Legal s.params.tables → AddressesLegal .tonemapFt4 s →
    ∃ t, exec .tonemapFt4 s = .next t ∧ Completes s t ∧ LdmKept (dst s) 105 s t ∧ t.csr = s.csr
      ∧ readByte t (dst s) = 0 ∧ readByte t (dst s + 104) = 0
      ∧ (∀ b, b < 4 → (readBytes t (dst s + (1 + 33 * b)) 4).map BitVec.toNat = s.params.tables.ft4Costas.getD b [])
      ∧ (∀ d, d < 87 →
          (readByte t (dst s + (if d ≤ 28 then 5 + d else if d ≤ 57 then 38 + (d - 29) else 71 + (d - 58)))).toNat =
            [0, 1, 3, 2].getD (2 * (bitRead s (src s) (2 * d)).toNat + (bitRead s (src s) (2 * d + 1)).toNat) 0)
      ∧ ∀ u, u < 105 → (readByte t (dst s + u)).toNat ≤ 3

/-- spec/43_modulator.md R185: ENCODE.FT8 and ENCODE.FT4 leave the tones of the codeword of the CRC-protected payload, and
the CRC in RESULT0. -/
def Obligations.EncodeCommand : Prop :=
  ∀ (md : Mode) (s : State), AddressesLegal (encodeOf md) s →
    let p := maskFor s.params.tables md (readBits s (src s) 77)
    let c := ldpcEnc s.params.tables (p ++ natToBits 14 (crc77 p).toNat)
    ∃ t, exec (encodeOf md) s = .next t ∧ Completes s t ∧ LdmKept (dst s) (symbols md) s t
      ∧ t.csr = { s.csr with result0 := t.csr.result0 } ∧ t.csr.result0.toNat = (crc77 p).toNat
      ∧ ∀ u, u < symbols md → readByte t (dst s + u) = BitVec.ofNat 8 ((tones s.params.tables md c).getD u 0)

/-- spec/43_modulator.md R185: ENCODE equals its parts run one after another: FT4_XOR where FT4 asks for it, CRC_APPEND,
LDPC_ENCODE, TONEMAP, each command's source holding what the one before it wrote. -/
def Obligations.EncodeIsTheChainOfItsParts : Prop :=
  ∀ (md : Mode) (s0 s s1 t1 s2 t2 s3 t3 t : State),
    s.params = s0.params → s1.params = s0.params → s2.params = s0.params → s3.params = s0.params →
    AddressesLegal (encodeOf md) s0 → exec (encodeOf md) s0 = .next t →
    readBits s (src s) 77 = readBits s0 (src s0) 77 →
    (md = .ft8 → readBits s1 (src s1) 77 = readBits s (src s) 77) →
    (md = .ft4 → AddressesLegal .ft4Xor s ∧ ∃ u, exec .ft4Xor s = .next u ∧ readBits s1 (src s1) 77 = readBits u (dst s) 77) →
    AddressesLegal .crcAppend s1 → exec .crcAppend s1 = .next t1 →
    AddressesLegal .ldpcEncode s2 → readBits s2 (src s2) 91 = readBits t1 (dst s1) 91 → exec .ldpcEncode s2 = .next t2 →
    AddressesLegal (tonemapOf md) s3 → readBits s3 (src s3) 174 = readBits t2 (dst s2) 174 →
    exec (tonemapOf md) s3 = .next t3 →
    t.csr.result0 = t1.csr.result0 ∧ readBytes t (dst s0) (symbols md) = readBytes t3 (dst s3) (symbols md)

/-- spec/43_modulator.md R186: Nspsym on exact rationals, with the two standard operating points. -/
def Obligations.SamplesPerSymbol : Prop :=
  (∀ s : State, isFinite s.csr.tsym = true → 0 < exact s.csr.tsym →
    (nspsymOf s : ℤ) = ⌊(fs s : ℚ) * exact s.csr.tsym + 1 / 2⌋)
    ∧ roundProduct 12000 0x3E23D70A = 1920 ∧ roundProduct 12000 0x3D449BA6 = 576

/-- spec/43_modulator.md R191: GFSK_SYNTH writes the samples of the waveform of its tones; RESULT0 and NSPSYM. -/
def Obligations.GfskSynthCommand : Prop :=
  ∀ s : State, ParamsLegal .gfskSynth s → AddressesLegal .gfskSynth s → DataLegal .gfskSynth s →
    let n := nspsymOf s
    let o : SynthOperands :=
      { n := n, fs := fs s, bt := s.csr.bt, f0 := s.csr.f0Hz
        ts := (List.range (len s)).map fun j => (readByte s (src s + j)).toNat }
    ∃ t, exec .gfskSynth s = .next t ∧ Completes s t ∧ LdmKept (dst s) (4 * (len s * n)) s t
      ∧ t.csr = { s.csr with result0 := t.csr.result0, nspsym := t.csr.nspsym }
      ∧ t.csr.result0 = BitVec.ofNat 32 (len s * n) ∧ t.csr.nspsym.toNat = n ∧ 14 ≤ n
      ∧ (waveform NUM o).length = len s * n
      ∧ ∀ k, k < len s * n → memRead t (dst s + 4 * k) 4 = ((waveform NUM o).getD k 0).toNat

/-- spec/43_modulator.md R188 with the pulse of R187: the increment the model computes for one entry alone (log entry 16) is
the entry the three passes leave in the buffer, D0, peak and pulse written out from the rules (Safety's phaseBuffer). -/
def Obligations.PhaseIncrementsAreTheBufferPasses : Prop :=
  ∀ (nm : Sys2Proof.Num) (o : SynthOperands) (x : Nat), 1 ≤ o.n → 1 ≤ o.ts.length → x < (o.ts.length + 2) * o.n →
    (phaseBuffer nm o)[x]? = some (phaseStep nm o x)

/-- spec/43_modulator.md R189, R190: there is a phase that starts at +0.0, advances by the increment of its sample and wraps
once; a sample is its sine before the advance, under the ramp of its end of the waveform. -/
def Obligations.WaveformFollowsThePhase : Prop :=
  ∀ (nm : Sys2Proof.Num) (o : SynthOperands), 1 ≤ o.n → 1 ≤ o.ts.length →
    let lw := o.ts.length * o.n
    let ramp := o.n / 8
    let env := fun i : Nat => fmul (fsub fOne (nm.cos (fdiv (fmul PI32 (fofNat i)) (fofNat ramp)))) fHalf
    ∃ phi : Nat → F32, phi 0 = fZero
      ∧ (∀ k, k + 1 < lw →
          let q := fadd (phi k) (phaseStep nm o (k + o.n))
          phi (k + 1) = if fgt q PI32 then fsub q TWOPI32 else if flt q (fneg PI32) then fadd q TWOPI32 else q)
      ∧ (waveform nm o).length = lw
      ∧ ∀ k, k < lw →
          (waveform nm o)[k]? =
            some (if k < ramp then fmul (nm.sin (phi k)) (env k)
              else if lw - 1 - k < ramp then fmul (nm.sin (phi k)) (env (lw - 1 - k)) else nm.sin (phi k))

/-- spec/43_modulator.md R192, R190: every sample has magnitude at most 1 whatever NUM meets P3; under NUM the first
sample is +0.0 and the last one a zero. -/
def Obligations.WaveformIsBounded : Prop :=
  (∀ (nm : Sys2Proof.Num) (o : SynthOperands), 1 ≤ o.n → 1 ≤ o.ts.length → (∀ x, unitBounded (nm.sin x) = true) →
      (∀ x, unitBounded (nm.cos x) = true) → ∀ x ∈ waveform nm o, unitBounded x = true)
    ∧ ∀ o : SynthOperands, 8 ≤ o.n → 1 ≤ o.ts.length →
        (waveform NUM o).head? = some fZero ∧ ∃ z, (waveform NUM o).getLast? = some z ∧ isZero z = true

/-! ### The demodulator -/

/-- spec/44_demodulator.md R210 to R214: SPECTROGRAM writes the standardised log power of its windowed frames, row-major by
time, and the registers of its row. For a column of NaNs it is R213 that counts (log entry 19). -/
def Obligations.SpectrogramCommand : Prop :=
  ∀ s : State, ParamsLegal .spectrogram s → AddressesLegal .spectrogram s → DataLegal .spectrogram s →
    let rows := (len s + nstep s - 1) / nstep s
    let cols := nfft s / 2 + 1
    let smp := fun k => f32Read s (src s + 4 * k)
    let window := fun n : Nat =>
      fmul (NUM.sin (fdiv (fmul PI32 (fofNat n)) (fofNat (nfft s)))) (NUM.sin (fdiv (fmul PI32 (fofNat n)) (fofNat (nfft s))))
    let x := fun r : Nat => (List.range (nfft s)).map fun n =>
      if r * nstep s + n < len s then fmul (window n) (smp (r * nstep s + n)) else fZero
    let y := fun r f : Nat =>
      NUM.log10 (fadd (fadd (fmul (NUM.fft (x r) f).1 (NUM.fft (x r) f).1) (fmul (NUM.fft (x r) f).2 (NUM.fft (x r) f).2)) EPS6)
    ∃ t, exec .spectrogram s = .next t ∧ Completes s t ∧ LdmKept (dst s) (4 * (rows * cols)) s t
      ∧ (∀ r f, r < rows → f < cols →
          let total := fun g : Nat → F32 => (List.range rows).foldl (fun acc q => fadd acc (g q)) fZero
          let mu := fdiv (total fun q => y q f) (fofNat rows)
          let sigma := fsqrt (fdiv (total fun q => fmul (fsub (y q f) mu) (fsub (y q f) mu)) (fofNat rows))
          memRead t (dst s + 4 * (r * cols + f)) 4 =
            BitVec.toNat
              (if ((List.range rows).all fun q => feq (y q f) (y 0 f)) || feq sigma fZero then fZero
                else fdiv (fsub (y r f) mu) sigma))
      ∧ t.csr =
          { s.csr with
            result0 := BitVec.ofNat 32 rows, result1 := BitVec.ofNat 32 cols, wfAddr := s.csr.dstAddr
            wfT := BitVec.ofNat 32 rows, wfF := BitVec.ofNat 32 cols
            binhz := fdiv (fofNat (fs s)) (fofNat (nfft s)), steps := fdiv (fofNat (nstep s)) (fofNat (fs s)) }

/-- spec/44_demodulator.md R214, corner case: an input of +0.0 gives a zero waterfall, for every NUM of spec/00_scope.md R8
whose log10 is a number at the power EPS6; the corner case has no such premise, R213 needs it (log entry 19). -/
def Obligations.SilenceGivesAZeroWaterfall : Prop :=
  ∀ (nm : Sys2Proof.Num) (nfftLen hop count : Nat), NumProps nm → isNaN (nm.log10 EPS6) = false →
    ∀ v ∈ waterfall nm nfftLen hop (List.replicate count fZero), v = fZero

/-- spec/44_demodulator.md R215, R217: the search grid, on exact rationals, and that each of its points is a valid
candidate (R216). -/
def Obligations.SearchGrid : Prop :=
  ∀ (g : Grid) (md : Mode) (rate fmin fmax : Nat), 1 ≤ g.n → 1 ≤ g.nstep → 1 ≤ g.t → 1 ≤ rate →
    (∀ u, (timeIndex g u : ℤ) = ⌊(u * g.n : ℚ) / g.nstep + 1 / 2⌋)
      ∧ (∀ k, (binOffset g k : ℤ) = ⌊(k * g.nfft : ℚ) / g.n + 1 / 2⌋)
      ∧ (∀ n f0 : Nat,
          (n, f0) ∈ gridPoints g md rate fmin fmax ↔
            (timeIndex g (n + symbols md - 1) : ℤ) ≤ (g.t : ℤ) - 1
              ∧ max 2 ⌈(fmin * g.nfft : ℚ) / rate⌉ ≤ (f0 : ℤ)
              ∧ (f0 : ℤ) ≤ min ((g.f : ℤ) - 3 - binOffset g (toneCount md - 1))
                  (⌊(fmax * g.nfft : ℚ) / rate⌋ - binOffset g (toneCount md - 1)))
      ∧ (gridPoints g md rate fmin fmax).Pairwise (fun a b => a.1 < b.1 ∨ a.1 = b.1 ∧ a.2 < b.2)
      ∧ ∀ p ∈ gridPoints g md rate fmin fmax, ValidCandidate g md p.1 p.2

/-- spec/44_demodulator.md R219, with the order of R220: the kept points are exactly the grid points above the threshold
that no neighbour beats, each once, listed by falling score and equal scores by (n, f0). The score of each grid point is the
sum of R218 written out, for FT4 with tables that meet spec/10_state.md R54. -/
def Obligations.KeptCandidatesAreTheLocalMaxima : Prop :=
  ∀ (md : Mode) (s : State),
    (∀ a : Scored,
      a ∈ keptCandidates md s ↔
        a ∈ scoredGrid md s ∧ fgt a.score s.csr.syncThresh = true
          ∧ ∀ b ∈ scoredGrid md s, (b.n, b.f0) ≠ (a.n, a.f0) → b.n ≤ a.n + 1 → a.n ≤ b.n + 1 → b.f0 ≤ a.f0 + 1 →
              a.f0 ≤ b.f0 + 1 → fgt b.score a.score = false
                ∧ (feq b.score a.score = true → ¬(b.n < a.n ∨ b.n = a.n ∧ b.f0 < a.f0)))
      ∧ (keptCandidates md s).Pairwise (fun a b =>
          fgt a.score b.score = true ∨ feq a.score b.score = true ∧ (a.n < b.n ∨ a.n = b.n ∧ a.f0 < b.f0))
      ∧ ((md = .ft4 → Ft4Legal s.params.tables) →
          let m := match md with | .ft8 => 8 | .ft4 => 4
          let count := match md with | .ft8 => 21 | .ft4 => 16
          let blocks : List (Nat × List Nat) :=
            match md with
            | .ft8 => [0, 36, 72].map fun o => (o, [3, 1, 4, 0, 6, 5, 2])
            | .ft4 => (List.range 4).map fun b => (1 + 33 * b, s.params.tables.ft4Costas.getD b [])
          let symbol := fun (p : Nat × Nat) (acc : F32) (u c : Nat) =>
            let mag := fun g =>
              f32Read s (wfAddr s + 4 * (timeIndex (gridOf s) (p.1 + u) * wfF s + (p.2 + binOffset (gridOf s) g)))
            let off := ((List.range m).filter fun g => g ≠ c).foldl (fun off g => fadd off (mag g)) fZero
            fadd acc (fsub (mag c) (fdiv off (fofNat (m - 1))))
          scoredGrid md s =
            (gridPoints (gridOf s) md (fs s) s.csr.fminHz.toNat s.csr.fmaxHz.toNat).map fun p =>
              { n := p.1, f0 := p.2
                score := fdiv
                  (blocks.foldl
                    (fun acc b => (List.range b.2.length).foldl (fun acc k => symbol p acc (b.1 + k) (b.2.getD k 0)) acc)
                    fZero)
                  (fofNat count) })

/-- spec/44_demodulator.md R221, R220: SYNC_SEARCH.FT8 and SYNC_SEARCH.FT4 write the first min(count, MAX_CAND) kept
points and leave the rest of the list's region alone. -/
def Obligations.SyncSearchCommand : Prop :=
  ∀ (md : Mode) (s : State), ParamsLegal (syncSearchOf md) s → AddressesLegal (syncSearchOf md) s →
    let kept := keptCandidates md s
    let count := min kept.length (maxCand s)
    ∃ t, exec (syncSearchOf md) s = .next t ∧ Completes s t ∧ LdmKept (dst s) (16 * count) s t
      ∧ t.csr = { s.csr with result0 := t.csr.result0, result1 := t.csr.result1, nspsym := t.csr.nspsym }
      ∧ t.csr.result0.toNat = count ∧ t.csr.result1 = BitVec.ofNat 32 kept.length ∧ t.csr.nspsym.toNat = nspsymOf s
      ∧ ∀ r a, r < count → kept[r]? = some a →
          memRead t (dst s + 16 * r) 4 = a.n % 2 ^ 32 ∧ memRead t (dst s + 16 * r + 4) 4 = timeIndex (gridOf s) a.n % 2 ^ 32
            ∧ memRead t (dst s + 16 * r + 8) 4 = a.f0 ∧ memRead t (dst s + 16 * r + 12) 4 = a.score.toNat

/-- spec/44_demodulator.md R222 to R225: the four LLR_EXTRACT commands write, for bit b of data symbol d, the LLR of the
tone magnitudes at the symbol's row, by the log-sum-exp metric or the max metric over the values whose bit b is 0 and 1.
On a symbol of zeros it is R223 that counts (log entry 20). -/
def Obligations.LlrExtractCommand : Prop :=
  ∀ (md : Mode) (mt : Metric) (s : State), ParamsLegal (llrExtractOf md mt) s → AddressesLegal (llrExtractOf md mt) s →
    DataLegal (llrExtractOf md mt) s →
    let n := memRead s (src s) 4
    let f0 := memRead s (src s + 8) 4
    let sc := s.csr.llrScale
    ∃ t, exec (llrExtractOf md mt) s = .next t ∧ Completes s t ∧ LdmKept (dst s) 696 s t
      ∧ t.csr = { s.csr with nspsym := BitVec.ofNat 32 (nspsymOf s) }
      ∧ ∀ d b, d < dataSymbols md → b < bitsPerSymbol md →
          let row := timeIndex (gridOf s) (n + dataPos md d)
          let y := fun v => f32Read s (wfAddr s + 4 * (row * wfF s + (f0 + binOffset (gridOf s) (gray md v))))
          let v0 := (List.range (toneCount md)).filter fun v => v / 2 ^ (bitsPerSymbol md - 1 - b) % 2 = 0
          let v1 := (List.range (toneCount md)).filter fun v => v / 2 ^ (bitsPerSymbol md - 1 - b) % 2 = 1
          let z := fun v => fmul sc (y v)
          let total := fun vs : List Nat =>
            vs.foldl (fun acc v => fadd acc (NUM.exp (fsub (z v) (seqmax (vs.map z))))) fZero
          memRead t (dst s + 4 * (bitsPerSymbol md * d + b)) 4 =
            (match mt with
              | .lse => fsub (fadd (seqmax (v0.map z)) (NUM.log (total v0))) (fadd (seqmax (v1.map z)) (NUM.log (total v1)))
              | .max => fmul sc (fsub (seqmax (v0.map y)) (seqmax (v1.map y)))).toNat

/-- spec/44_demodulator.md R222, R224 with spec/20_memory.md R68 ("positive LLR ⇒ bit 0 more likely"): with scale 1 and one
tone of finite height h > 0 above silence, the tone of value v, the MAX metric gives h for each 0 bit of v and −h for each
1 bit. -/
def Obligations.IsolatedToneFixesTheSigns : Prop :=
  ∀ (nm : Sys2Proof.Num) (md : Mode) (v b : Nat) (h : F32), v < toneCount md → b < bitsPerSymbol md → isFinite h = true →
    0 < exact h →
    bitLlr nm md .max fOne (fun k => if k = gray md v then h else fZero) b =
      if v / 2 ^ (bitsPerSymbol md - 1 - b) % 2 = 0 then h else fneg h

/-- spec/44_demodulator.md R226 to R229: the four DECODE commands, candidate by candidate. A candidate with a NaN LLR or a
non-zero syndrome is counted in the low half of RESULT1, one whose CRC bits are wrong in the high half; of the others the
first with its payload gets the next record, with its index, its payload (unmasked for FT4), the CRC its codeword carries
and its SNR. LLRs, verdict, payload and SNR are written out from the rules in Safety; the decoder itself is the statement
DecoderKeepsTheEarliestBest's. -/
def Obligations.DecodeCommand : Prop :=
  ∀ (md : Mode) (mt : Metric) (iter : Nat) (s : State), ParamsLegal (decodeOf md mt iter) s →
    AddressesLegal (decodeOf md mt iter) s → DataLegal (decodeOf md mt iter) s →
    let cap := if iter = 0 then 20 else iter
    let n := fun k => memRead s (src s + 16 * k) 4
    let f0 := fun k => memRead s (src s + 16 * k + 8) 4
    let fate := fun k => ruleFate NUM md mt cap s (n k) (f0 k)
    let good := fun k => (fate k).ldpcOk && (fate k).crcOk
    let pay := fun k => rulePayload s.params.tables md (fate k).codeword
    let decoded := (List.range (len s)).filter fun k => good k && (List.range k).all fun j => !(good j && pay j == pay k)
    let ldpcFail := (List.range (len s)).countP fun k => !(fate k).ldpcOk
    let crcFail := (List.range (len s)).countP fun k => (fate k).ldpcOk && !(fate k).crcOk
    ∃ t, exec (decodeOf md mt iter) s = .next t ∧ Completes s t ∧ LdmKept (dst s) (20 * decoded.length) s t
      ∧ t.csr = { s.csr with result0 := t.csr.result0, result1 := t.csr.result1, nspsym := t.csr.nspsym }
      ∧ t.csr.result0.toNat = decoded.length ∧ t.csr.result1.toNat = ldpcFail + crcFail * 2 ^ 16
      ∧ t.csr.nspsym.toNat = nspsymOf s
      ∧ (∀ r k, decoded[r]? = some k →
          memRead t (dst s + 20 * r) 4 = k
            ∧ readBits t (dst s + 20 * r + 4) 77 = pay k
            ∧ (∀ j, 77 ≤ j → j < 80 → bitRead t (dst s + 20 * r + 4) j = false)
            ∧ memRead t (dst s + 20 * r + 14) 2 = bitsToNat (((fate k).codeword.take 91).drop 77)
            ∧ memRead t (dst s + 20 * r + 16) 4 = (ruleSnr NUM md s (n k) (f0 k) (fate k).codeword).toNat)
      ∧ decoded.length + ldpcFail + crcFail ≤ len s
      ∧ (len s = 0 → t.csr.result0 = 0 ∧ t.csr.result1 = 0)

/-- spec/44_demodulator.md R226 to R228 with spec/20_memory.md R70: what the records a DECODE leaves have in common: rising
indices below LEN, payloads all different with zero pad bits, the CRC of the payload as the code carries it, an SNR that is
a number from −24 to 24. -/
def Obligations.DecodedRecordsAreDistinctAndChecked : Prop :=
  ∀ (md : Mode) (mt : Metric) (iter : Nat) (s t : State), ParamsLegal (decodeOf md mt iter) s →
    AddressesLegal (decodeOf md mt iter) s → DataLegal (decodeOf md mt iter) s → exec (decodeOf md mt iter) s = .next t →
    let index := fun k => memRead t (dst s + 20 * k) 4
    let payload := fun k => readBits t (dst s + 20 * k + 4) 77
    let snr := fun k => f32Read t (dst s + 20 * k + 16)
    ∀ k, k < t.csr.result0.toNat →
      index k < len s
        ∧ memRead t (dst s + 20 * k + 14) 2 = (crc77 (maskFor s.params.tables md (payload k))).toNat
        ∧ (∀ j, 77 ≤ j → j < 80 → bitRead t (dst s + 20 * k + 4) j = false)
        ∧ isFinite (snr k) = true ∧ -24 ≤ exact (snr k) ∧ exact (snr k) ≤ 24
        ∧ ∀ j, j < k → index j < index k ∧ payload j ≠ payload k

/-! ### Binary32 and NUM -/

/-- spec/00_scope.md R8, R12: addition, subtraction, multiplication and division of finite values are the real result
rounded once to nearest, ties to even. -/
def Obligations.ArithmeticIsCorrectlyRounded : Prop :=
  ∀ x y : F32, isFinite x = true → isFinite y = true →
    RoundsTo ((exact x + exact y : ℚ) : ℝ) (fadd x y) ∧ RoundsTo ((exact x - exact y : ℚ) : ℝ) (fsub x y)
      ∧ RoundsTo ((exact x * exact y : ℚ) : ℝ) (fmul x y)
      ∧ (exact y ≠ 0 → RoundsTo ((exact x / exact y : ℚ) : ℝ) (fdiv x y))

/-- spec/00_scope.md R12 (e), (f): the square root is correctly rounded, and integers up to 2^24 convert exactly. -/
def Obligations.RootsAndConversionsAreRounded : Prop :=
  (∀ x : F32, isFinite x = true → 0 ≤ exact x → RoundsTo (Real.sqrt ((exact x : ℚ) : ℝ)) (fsqrt x))
    ∧ ∀ n : Nat, n ≤ 2 ^ 24 → isFinite (fofNat n) = true ∧ exact (fofNat n) = n

/-- spec/00_scope.md R12 (b), (c): a NaN operand gives the canonical NaN, every NaN result is the canonical one, and a clamp
of a NaN gives its lower bound. -/
def Obligations.NaNsAreCanonical : Prop :=
  (∀ x y : F32, (isNaN x = true ∨ isNaN y = true) →
      fadd x y = 0x7FC00000 ∧ fsub x y = 0x7FC00000 ∧ fmul x y = 0x7FC00000 ∧ fdiv x y = 0x7FC00000 ∧ flt x y = false
        ∧ feq x y = false)
    ∧ (∀ x y : F32, ∀ z ∈ [fadd x y, fsub x y, fmul x y, fdiv x y, fsqrt x], isNaN z = true → z = 0x7FC00000)
    ∧ (∀ x c : F32, isNaN x = true → isFinite c = true → 0 < exact c → fclamp x c = fneg c)
    ∧ ∀ x c : F32, isNaN x = false → isFinite c = true → 0 < exact c →
        isFinite (fclamp x c) = true ∧ -exact c ≤ exact (fclamp x c) ∧ exact (fclamp x c) ≤ exact c

/-- spec/00_scope.md R8, P1 to P4 as log entry 9 reads them: NUM has the properties, and the model shuts out no record that
has them. -/
def Obligations.NumRangesOverTheRecordsOfR8 : Prop :=
  NumProps NUM ∧ ∀ nm : Sys2Proof.Num, NumProps nm → Num.constrain nm = nm
end

