-- ==== Sys2Proof/Laws/Memory.lean ====
section
/-! SUPPORT. The laws of memory: what each operation does to each address, and that every one keeps the canonical form. -/

namespace Sys2Proof.Machine

/-! ### Lookup -/

@[simp] theorem byteAt_nil (a : Nat) : Memory.byteAt [] a = none := rfl

theorem byteAt_append (m m' : Memory) (a : Nat) :
    Memory.byteAt (m ++ m') a = (Memory.byteAt m a).orElse fun _ => Memory.byteAt m' a := by
  induction m with
  | nil => rfl
  | cons c m ih =>
    obtain ⟨k, v⟩ := c
    simp only [List.cons_append, Memory.byteAt]
    split
    · rfl
    · exact ih

theorem byteAt_filter (m : Memory) (p : Nat → Bool) (a : Nat) :
    Memory.byteAt (m.filter fun c => p c.1) a = if p a then Memory.byteAt m a else none := by
  induction m with
  | nil => simp
  | cons c m ih =>
    obtain ⟨k, v⟩ := c
    by_cases hk : k = a
    · subst hk
      by_cases hp : p k <;> simp [Memory.byteAt, hp, ih]
    · by_cases hp : p k <;> simp [Memory.byteAt, hp, hk, ih]

theorem byteAt_below (m : Memory) (b a : Nat) : (m.below b).byteAt a = if a < b then m.byteAt a else none := by
  simpa [Memory.below] using byteAt_filter m (fun k => decide (k < b)) a

theorem byteAt_above (m : Memory) (b a : Nat) : (m.above b).byteAt a = if b ≤ a then m.byteAt a else none := by
  simpa [Memory.above] using byteAt_filter m (fun k => decide (b ≤ k)) a

theorem byteAt_cellsFrom (bs : List Byte) (b a : Nat) :
    Memory.byteAt (cellsFrom b bs) a = if b ≤ a then bs[a - b]? else none := by
  induction bs generalizing b with
  | nil => simp [cellsFrom]
  | cons x bs ih =>
    rw [cellsFrom, Memory.byteAt, ih]
    rcases Nat.lt_trichotomy a b with h | h | h
    · rw [if_neg (by omega), if_neg (by omega), if_neg (by omega)]
    · subst h; simp
    · obtain ⟨d, rfl⟩ : ∃ d, a = b + 1 + d := ⟨a - (b + 1), by omega⟩
      rw [if_neg (by omega), if_pos (by omega), if_pos (by omega), show b + 1 + d - b = d + 1 by omega]
      simp

/-- A store gives its addresses the stored bytes and leaves every other address alone. -/
theorem byteAt_store (m : Memory) (b : Nat) (bs : List Byte) (a : Nat) :
    (m.store b bs).byteAt a = if b ≤ a ∧ a < b + bs.length then bs[a - b]? else m.byteAt a := by
  rw [Memory.store, byteAt_append, byteAt_append, byteAt_below, byteAt_cellsFrom, byteAt_above]
  by_cases h1 : a < b
  · rw [if_pos h1, if_neg (by omega), if_neg (by omega), if_neg (by omega)]; cases m.byteAt a <;> rfl
  · by_cases h2 : a < b + bs.length
    · rw [if_neg h1, if_pos (by omega), if_neg (by omega), if_pos (by omega),
        List.getElem?_eq_getElem (by omega)]; rfl
    · rw [if_neg h1, if_pos (by omega), if_pos (by omega), if_neg (by omega),
        List.getElem?_eq_none (by omega)]; rfl

/-- Forgetting takes the value of its addresses and leaves every other address alone. -/
theorem byteAt_forget (m : Memory) (b n a : Nat) :
    (m.forget b n).byteAt a = if b ≤ a ∧ a < b + n then none else m.byteAt a := by
  rw [Memory.forget, byteAt_append, byteAt_below, byteAt_above]
  by_cases h1 : a < b
  · rw [if_pos h1, if_neg (by omega), if_neg (by omega)]; cases m.byteAt a <;> rfl
  · by_cases h2 : a < b + n
    · rw [if_neg h1, if_neg (by omega), if_pos (by omega)]; rfl
    · rw [if_neg h1, if_pos (by omega), if_neg (by omega)]; rfl

/-! ### The canonical form -/

theorem wf_eq_rises (m : Memory) : m.wf = Memory.risesFrom 0 m := by
  simp [Memory.wf, Memory.unlisted]

theorem rises_weaken {lo lo' : Nat} {m : Memory} (h : Memory.risesFrom lo m = true) (hl : lo' ≤ lo) :
    Memory.risesFrom lo' m = true := by
  cases m with
  | nil => rfl
  | cons c m =>
    obtain ⟨k, v⟩ := c
    simp only [Memory.risesFrom, Bool.and_eq_true, decide_eq_true_eq] at h ⊢
    exact ⟨by omega, h.2⟩

theorem rises_filter {lo : Nat} {m : Memory} (p : Host.Cell → Bool) (h : Memory.risesFrom lo m = true) :
    Memory.risesFrom lo (m.filter p) = true := by
  induction m generalizing lo with
  | nil => rfl
  | cons c m ih =>
    obtain ⟨k, v⟩ := c
    simp only [Memory.risesFrom, Bool.and_eq_true, decide_eq_true_eq] at h
    rw [List.filter_cons]
    split
    · simp only [Memory.risesFrom, Bool.and_eq_true, decide_eq_true_eq]
      exact ⟨h.1, ih h.2⟩
    · exact ih (rises_weaken h.2 (by omega))

theorem rises_append {lo mid : Nat} {m m' : Memory} (h : Memory.risesFrom lo m = true)
    (hm : ∀ c ∈ m, c.1 < mid) (hl : lo ≤ mid) (h' : Memory.risesFrom mid m' = true) :
    Memory.risesFrom lo (m ++ m') = true := by
  induction m generalizing lo with
  | nil => exact rises_weaken h' hl
  | cons c m ih =>
    obtain ⟨k, v⟩ := c
    simp only [Memory.risesFrom, Bool.and_eq_true, decide_eq_true_eq] at h
    simp only [List.cons_append, Memory.risesFrom, Bool.and_eq_true, decide_eq_true_eq]
    have hk := hm (k, v) (by simp)
    exact ⟨h.1, ih h.2 (fun c hc => hm c (by simp [hc])) (by simpa using hk)⟩

theorem rises_above {m : Memory} {lo : Nat} (h : Memory.risesFrom lo m = true) (a : Nat) :
    Memory.risesFrom a (m.above a) = true := by
  induction m generalizing lo with
  | nil => rfl
  | cons c m ih =>
    obtain ⟨k, v⟩ := c
    simp only [Memory.risesFrom, Bool.and_eq_true, decide_eq_true_eq] at h
    rw [Memory.above, List.filter_cons]
    split
    · rename_i hk
      simp only [decide_eq_true_eq] at hk
      simp only [Memory.risesFrom, Bool.and_eq_true, decide_eq_true_eq]
      exact ⟨hk, rises_filter _ h.2⟩
    · exact ih h.2

theorem rises_cellsFrom (a : Nat) (bs : List Byte) : Memory.risesFrom a (cellsFrom a bs) = true := by
  induction bs generalizing a with
  | nil => rfl
  | cons b bs ih => simp [cellsFrom, Memory.risesFrom, ih]

theorem cellsFrom_lt (a : Nat) (bs : List Byte) : ∀ c ∈ cellsFrom a bs, c.1 < a + bs.length := by
  induction bs generalizing a with
  | nil => simp [cellsFrom]
  | cons b bs ih =>
    intro c hc
    simp only [cellsFrom, List.mem_cons] at hc
    rcases hc with rfl | hc
    · simp
    · have := ih (a + 1) c hc; simp only [List.length_cons]; omega

theorem mem_below {m : Memory} {a : Nat} {c : Host.Cell} (h : c ∈ m.below a) : c ∈ m ∧ c.1 < a := by
  simpa [Memory.below] using h

theorem mem_above {m : Memory} {a : Nat} {c : Host.Cell} (h : c ∈ m.above a) : c ∈ m ∧ a ≤ c.1 := by
  simpa [Memory.above] using h

/-- A store keeps the canonical form. -/
theorem store_wf {m : Memory} (h : m.wf = true) (a : Nat) (bs : List Byte) : (m.store a bs).wf = true := by
  rw [wf_eq_rises] at h ⊢
  exact rises_append (rises_filter _ h) (fun c hc => (mem_below hc).2) (Nat.zero_le _)
    (rises_append (rises_cellsFrom a bs) (cellsFrom_lt a bs) (Nat.le_add_right _ _) (rises_above h _))

/-- Forgetting keeps the canonical form. -/
theorem forget_wf {m : Memory} (h : m.wf = true) (a n : Nat) : (m.forget a n).wf = true := by
  rw [wf_eq_rises] at h ⊢
  exact rises_append (rises_filter _ h) (fun c hc => (mem_below hc).2) (Nat.zero_le _)
    (rises_weaken (rises_above h _) (Nat.le_add_right _ _))

theorem nil_wf : Memory.wf [] = true := rfl

/-! ### Staying inside LDM -/

theorem within_iff (m : Memory) (n : Nat) : m.within n = true ↔ ∀ c ∈ m, c.1 < n := by
  simp [Memory.within]

/-- A store inside LDM keeps every listed address inside it. -/
theorem store_within {m : Memory} {n a : Nat} {bs : List Byte} (h : m.within n = true) (hb : a + bs.length ≤ n) :
    (m.store a bs).within n = true := by
  rw [within_iff] at h ⊢
  intro c hc
  simp only [Memory.store, List.mem_append] at hc
  rcases hc with hc | hc | hc
  · exact h c (mem_below hc).1
  · exact Nat.lt_of_lt_of_le (cellsFrom_lt a bs c hc) hb
  · exact h c (mem_above hc).1

/-- A store of no byte keeps every listed address inside LDM, wherever it points. -/
theorem store_nil_within {m : Memory} {n a : Nat} (h : m.within n = true) : (m.store a []).within n = true := by
  rw [within_iff] at h ⊢
  intro c hc
  simp only [Memory.store, cellsFrom, List.nil_append, List.mem_append] at hc
  rcases hc with hc | hc
  · exact h c (mem_below hc).1
  · exact h c (mem_above hc).1

theorem forget_within {m : Memory} {n a k : Nat} (h : m.within n = true) : (m.forget a k).within n = true := by
  rw [within_iff] at h ⊢
  intro c hc
  simp only [Memory.forget, List.mem_append] at hc
  rcases hc with hc | hc
  · exact h c (mem_below hc).1
  · exact h c (mem_above hc).1

/-- Canonical memories that agree at every address are the same list. -/
theorem eq_of_byteAt_eq {m m' : Memory} (h : m.wf = true) (h' : m'.wf = true)
    (hl : ∀ a, m.byteAt a = m'.byteAt a) : m = m' := by
  rw [wf_eq_rises] at h h'
  have below_none : ∀ {lo : Nat} {m : Memory}, Memory.risesFrom lo m = true → ∀ a < lo, Memory.byteAt m a = none := by
    intro lo m
    induction m generalizing lo with
    | nil => intros; rfl
    | cons c m ih =>
      obtain ⟨k, v⟩ := c
      intro h a ha
      simp only [Memory.risesFrom, Bool.and_eq_true, decide_eq_true_eq] at h
      rw [Memory.byteAt, if_neg (by omega)]
      exact ih h.2 a (by omega)
  suffices H : ∀ {lo : Nat}, Memory.risesFrom lo m = true → Memory.risesFrom lo m' = true → m = m' from H h h'
  clear h h'
  induction m generalizing m' with
  | nil =>
    intro lo _ _
    cases m' with
    | nil => rfl
    | cons c m' => obtain ⟨k, v⟩ := c; have := hl k; simp [Memory.byteAt, Memory.unlisted] at this
  | cons c m ih =>
    obtain ⟨k, v⟩ := c
    cases m' with
    | nil => have := hl k; simp [Memory.byteAt, Memory.unlisted] at this
    | cons c' m' =>
      obtain ⟨k', v'⟩ := c'
      intro lo h h'
      simp only [Memory.risesFrom, Bool.and_eq_true, decide_eq_true_eq] at h h'
      have hkk : k = k' := by
        rcases Nat.lt_trichotomy k k' with hlt | heq | hlt
        · have := hl k
          rw [Memory.byteAt, if_pos rfl, Memory.byteAt, if_neg (by omega), below_none h'.2 k (by omega)] at this
          simp at this
        · exact heq
        · have := hl k'
          rw [Memory.byteAt, if_neg (by omega), below_none h.2 k' (by omega), Memory.byteAt, if_pos rfl] at this
          simp at this
      subst hkk
      have hv : v = v' := by have := hl k; simpa [Memory.byteAt] using this
      subst hv
      have hrest : ∀ a, Memory.byteAt m a = Memory.byteAt m' a := by
        intro a
        by_cases ha : k = a
        · subst ha; rw [below_none h.2 k (by omega), below_none h'.2 k (by omega)]
        · have := hl a; simpa [Memory.byteAt, ha] using this
      rw [ih hrest h.2 h'.2]

end Sys2Proof.Machine
end

