-- ==== Sys2Proof/Laws/State.lean ====
section
/-! SUPPORT. One lemma per field of State per named update, each true by rfl: no later proof unfolds a record update. -/

namespace Sys2Proof.Machine

/-! ### writeStatus -/

@[simp] theorem writeStatus_params (w : Word) (s : State) : (writeStatus w s).params = s.params := rfl
@[simp] theorem writeStatus_irqEn (w : Word) (s : State) : (writeStatus w s).irqEn = s.irqEn := rfl
@[simp] theorem writeStatus_eng (w : Word) (s : State) : (writeStatus w s).eng = s.eng := rfl
@[simp] theorem writeStatus_ldm (w : Word) (s : State) : (writeStatus w s).ldm = s.ldm := rfl
@[simp] theorem writeStatus_redraws (w : Word) (s : State) : (writeStatus w s).redraws = s.redraws := rfl
@[simp] theorem writeStatus_draws (w : Word) (s : State) : (writeStatus w s).draws = s.draws := rfl
@[simp] theorem writeStatus_bus (w : Word) (s : State) : (writeStatus w s).bus = s.bus := rfl
@[simp] theorem writeStatus_resp (w : Word) (s : State) : (writeStatus w s).resp = s.resp := rfl

/-! ### writeIrqEn -/

@[simp] theorem writeIrqEn_params (w : Word) (s : State) : (writeIrqEn w s).params = s.params := rfl
@[simp] theorem writeIrqEn_csr (w : Word) (s : State) : (writeIrqEn w s).csr = s.csr := rfl
@[simp] theorem writeIrqEn_status (w : Word) (s : State) : (writeIrqEn w s).status = s.status := rfl
@[simp] theorem writeIrqEn_irqEn (w : Word) (s : State) : (writeIrqEn w s).irqEn = ⟨w.getLsbD 0, w.getLsbD 1⟩ := rfl
@[simp] theorem writeIrqEn_eng (w : Word) (s : State) : (writeIrqEn w s).eng = s.eng := rfl
@[simp] theorem writeIrqEn_ldm (w : Word) (s : State) : (writeIrqEn w s).ldm = s.ldm := rfl
@[simp] theorem writeIrqEn_redraws (w : Word) (s : State) : (writeIrqEn w s).redraws = s.redraws := rfl
@[simp] theorem writeIrqEn_draws (w : Word) (s : State) : (writeIrqEn w s).draws = s.draws := rfl
@[simp] theorem writeIrqEn_bus (w : Word) (s : State) : (writeIrqEn w s).bus = s.bus := rfl
@[simp] theorem writeIrqEn_resp (w : Word) (s : State) : (writeIrqEn w s).resp = s.resp := rfl

/-! ### setOverrun -/

@[simp] theorem setOverrun_params (s : State) : (setOverrun s).params = s.params := rfl
@[simp] theorem setOverrun_csr (s : State) : (setOverrun s).csr = s.csr := rfl
@[simp] theorem setOverrun_status (s : State) : (setOverrun s).status = { s.status with overrun := true } := rfl
@[simp] theorem setOverrun_irqEn (s : State) : (setOverrun s).irqEn = s.irqEn := rfl
@[simp] theorem setOverrun_eng (s : State) : (setOverrun s).eng = s.eng := rfl
@[simp] theorem setOverrun_ldm (s : State) : (setOverrun s).ldm = s.ldm := rfl
@[simp] theorem setOverrun_redraws (s : State) : (setOverrun s).redraws = s.redraws := rfl
@[simp] theorem setOverrun_draws (s : State) : (setOverrun s).draws = s.draws := rfl
@[simp] theorem setOverrun_bus (s : State) : (setOverrun s).bus = s.bus := rfl
@[simp] theorem setOverrun_resp (s : State) : (setOverrun s).resp = s.resp := rfl

/-! ### setViolation -/

@[simp] theorem setViolation_params (s : State) : (setViolation s).params = s.params := rfl
@[simp] theorem setViolation_csr (s : State) : (setViolation s).csr = s.csr := rfl
@[simp] theorem setViolation_status (s : State) : (setViolation s).status = { s.status with violation := true } := rfl
@[simp] theorem setViolation_irqEn (s : State) : (setViolation s).irqEn = s.irqEn := rfl
@[simp] theorem setViolation_eng (s : State) : (setViolation s).eng = s.eng := rfl
@[simp] theorem setViolation_ldm (s : State) : (setViolation s).ldm = s.ldm := rfl
@[simp] theorem setViolation_redraws (s : State) : (setViolation s).redraws = s.redraws := rfl
@[simp] theorem setViolation_draws (s : State) : (setViolation s).draws = s.draws := rfl
@[simp] theorem setViolation_bus (s : State) : (setViolation s).bus = s.bus := rfl
@[simp] theorem setViolation_resp (s : State) : (setViolation s).resp = s.resp := rfl

/-! ### completeOk -/

@[simp] theorem completeOk_params (e : Effect) (s : State) : (completeOk e s).params = s.params := rfl
@[simp] theorem completeOk_csr (e : Effect) (s : State) : (completeOk e s).csr = e.applyCsrs s.csr := rfl
@[simp] theorem completeOk_status (e : Effect) (s : State) : (completeOk e s).status = { s.status with done := true } := rfl
@[simp] theorem completeOk_irqEn (e : Effect) (s : State) : (completeOk e s).irqEn = s.irqEn := rfl
@[simp] theorem completeOk_eng (e : Effect) (s : State) : (completeOk e s).eng = .idle := rfl
@[simp] theorem completeOk_ldm (e : Effect) (s : State) : (completeOk e s).ldm = s.ldm.store e.base e.bytes := rfl
@[simp] theorem completeOk_redraws (e : Effect) (s : State) : (completeOk e s).redraws = s.redraws := rfl
@[simp] theorem completeOk_draws (e : Effect) (s : State) : (completeOk e s).draws = s.draws := rfl
@[simp] theorem completeOk_bus (e : Effect) (s : State) : (completeOk e s).bus = s.bus := rfl
@[simp] theorem completeOk_resp (e : Effect) (s : State) : (completeOk e s).resp = s.resp := rfl

/-! ### takeFault -/

@[simp] theorem takeFault_params (f : CmdFault) (s : State) : (takeFault f s).params = s.params := rfl
@[simp] theorem takeFault_irqEn (f : CmdFault) (s : State) : (takeFault f s).irqEn = s.irqEn := rfl
@[simp] theorem takeFault_eng (f : CmdFault) (s : State) : (takeFault f s).eng = .idle := rfl
@[simp] theorem takeFault_ldm (f : CmdFault) (s : State) : (takeFault f s).ldm = s.ldm := rfl
@[simp] theorem takeFault_redraws (f : CmdFault) (s : State) : (takeFault f s).redraws = s.redraws := rfl
@[simp] theorem takeFault_draws (f : CmdFault) (s : State) : (takeFault f s).draws = s.draws := rfl
@[simp] theorem takeFault_bus (f : CmdFault) (s : State) : (takeFault f s).bus = s.bus := rfl
@[simp] theorem takeFault_resp (f : CmdFault) (s : State) : (takeFault f s).resp = s.resp := rfl

/-! ### startCommand -/

@[simp] theorem startCommand_params (w : Word) (s : State) : (startCommand w s).params = s.params := rfl
@[simp] theorem startCommand_csr (w : Word) (s : State) : (startCommand w s).csr = { s.csr with cmd := w } := rfl
@[simp] theorem startCommand_status (w : Word) (s : State) : (startCommand w s).status = { s.status with done := false } := rfl
@[simp] theorem startCommand_irqEn (w : Word) (s : State) : (startCommand w s).irqEn = s.irqEn := rfl
@[simp] theorem startCommand_eng (w : Word) (s : State) : (startCommand w s).eng = .busy (Config.latency s.draws) (Config.completionOrder s.draws) :=
  rfl
@[simp] theorem startCommand_ldm (w : Word) (s : State) : (startCommand w s).ldm = s.ldm := rfl
@[simp] theorem startCommand_redraws (w : Word) (s : State) : (startCommand w s).redraws = s.redraws := rfl
@[simp] theorem startCommand_draws (w : Word) (s : State) : (startCommand w s).draws = s.draws + 1 := rfl
@[simp] theorem startCommand_bus (w : Word) (s : State) : (startCommand w s).bus = s.bus := rfl
@[simp] theorem startCommand_resp (w : Word) (s : State) : (startCommand w s).resp = s.resp := rfl

/-! ### forgetSpan -/

@[simp] theorem forgetSpan_params (r : Span) (s : State) : (forgetSpan r s).params = s.params := rfl
@[simp] theorem forgetSpan_csr (r : Span) (s : State) : (forgetSpan r s).csr = s.csr := rfl
@[simp] theorem forgetSpan_status (r : Span) (s : State) : (forgetSpan r s).status = s.status := rfl
@[simp] theorem forgetSpan_irqEn (r : Span) (s : State) : (forgetSpan r s).irqEn = s.irqEn := rfl
@[simp] theorem forgetSpan_eng (r : Span) (s : State) : (forgetSpan r s).eng = s.eng := rfl
@[simp] theorem forgetSpan_ldm (r : Span) (s : State) : (forgetSpan r s).ldm = s.ldm.forget r.base r.size := rfl
@[simp] theorem forgetSpan_redraws (r : Span) (s : State) : (forgetSpan r s).redraws = r :: s.redraws := rfl
@[simp] theorem forgetSpan_draws (r : Span) (s : State) : (forgetSpan r s).draws = s.draws := rfl
@[simp] theorem forgetSpan_bus (r : Span) (s : State) : (forgetSpan r s).bus = s.bus := rfl
@[simp] theorem forgetSpan_resp (r : Span) (s : State) : (forgetSpan r s).resp = s.resp := rfl

/-! ### resetRegisters -/

@[simp] theorem resetRegisters_params (s : State) : (resetRegisters s).params = s.params := rfl
@[simp] theorem resetRegisters_csr (s : State) : (resetRegisters s).csr = Csrs.reset := rfl
@[simp] theorem resetRegisters_status (s : State) : (resetRegisters s).status = Status.reset := rfl
@[simp] theorem resetRegisters_irqEn (s : State) : (resetRegisters s).irqEn = IrqEn.reset := rfl
@[simp] theorem resetRegisters_eng (s : State) : (resetRegisters s).eng = .idle := rfl
@[simp] theorem resetRegisters_ldm (s : State) : (resetRegisters s).ldm = s.ldm := rfl
@[simp] theorem resetRegisters_redraws (s : State) : (resetRegisters s).redraws = s.redraws := rfl
@[simp] theorem resetRegisters_draws (s : State) : (resetRegisters s).draws = s.draws := rfl
@[simp] theorem resetRegisters_bus (s : State) : (resetRegisters s).bus = s.bus := rfl
@[simp] theorem resetRegisters_resp (s : State) : (resetRegisters s).resp = s.resp := rfl

/-! ### powerOnReset -/

@[simp] theorem powerOnReset_params (s : State) : (powerOnReset s).params = s.params := rfl
@[simp] theorem powerOnReset_csr (s : State) : (powerOnReset s).csr = Csrs.reset := rfl
@[simp] theorem powerOnReset_status (s : State) : (powerOnReset s).status = Status.reset := rfl
@[simp] theorem powerOnReset_irqEn (s : State) : (powerOnReset s).irqEn = IrqEn.reset := rfl
@[simp] theorem powerOnReset_eng (s : State) : (powerOnReset s).eng = .idle := rfl
@[simp] theorem powerOnReset_ldm (s : State) : (powerOnReset s).ldm = [] := rfl
@[simp] theorem powerOnReset_redraws (s : State) : (powerOnReset s).redraws = ⟨0, s.params.ldmSize⟩ :: s.redraws := rfl
@[simp] theorem powerOnReset_draws (s : State) : (powerOnReset s).draws = s.draws := rfl
@[simp] theorem powerOnReset_bus (s : State) : (powerOnReset s).bus = s.bus := rfl
@[simp] theorem powerOnReset_resp (s : State) : (powerOnReset s).resp = s.resp := rfl

/-! ### withFetchWord -/

@[simp] theorem withFetchWord_params (s : State) (nbits w : Nat) : (s.withFetchWord nbits w).params = s.params := rfl
@[simp] theorem withFetchWord_csr (s : State) (nbits w : Nat) : (s.withFetchWord nbits w).csr = { s.csr with cmd := BitVec.ofNat 32 (w % 2 ^ nbits) } := rfl
@[simp] theorem withFetchWord_status (s : State) (nbits w : Nat) : (s.withFetchWord nbits w).status = { s.status with done := false } := rfl
@[simp] theorem withFetchWord_irqEn (s : State) (nbits w : Nat) : (s.withFetchWord nbits w).irqEn = s.irqEn := rfl
@[simp] theorem withFetchWord_eng (s : State) (nbits w : Nat) : (s.withFetchWord nbits w).eng = .busy 0 .afterAccess := rfl
@[simp] theorem withFetchWord_ldm (s : State) (nbits w : Nat) : (s.withFetchWord nbits w).ldm = s.ldm := rfl
@[simp] theorem withFetchWord_redraws (s : State) (nbits w : Nat) : (s.withFetchWord nbits w).redraws = s.redraws := rfl
@[simp] theorem withFetchWord_draws (s : State) (nbits w : Nat) : (s.withFetchWord nbits w).draws = s.draws := rfl
@[simp] theorem withFetchWord_bus (s : State) (nbits w : Nat) : (s.withFetchWord nbits w).bus = quietFirst s.bus := rfl
@[simp] theorem withFetchWord_resp (s : State) (nbits w : Nat) : (s.withFetchWord nbits w).resp = s.resp := rfl

/-! ### Fields inside a changed field -/

@[simp] theorem takeFault_done (f : CmdFault) (s : State) : (takeFault f s).status.done = true := rfl
@[simp] theorem takeFault_err (f : CmdFault) (s : State) : (takeFault f s).status.err = true := rfl
@[simp] theorem takeFault_overrun (f : CmdFault) (s : State) : (takeFault f s).status.overrun = s.status.overrun := rfl
@[simp] theorem takeFault_violation (f : CmdFault) (s : State) : (takeFault f s).status.violation = s.status.violation := rfl
@[simp] theorem takeFault_errcode (f : CmdFault) (s : State) :
    (takeFault f s).status.errcode = if s.status.err then s.status.errcode else faultNumber f.code := rfl
@[simp] theorem takeFault_csr (f : CmdFault) (s : State) :
    (takeFault f s).csr = { s.csr with errinfo := if s.status.err then s.csr.errinfo else toWord f.info } := rfl
@[simp] theorem writeStatus_done (w : Word) (s : State) :
    (writeStatus w s).status.done = (s.status.done && !w.getLsbD 1) := rfl
@[simp] theorem writeStatus_err (w : Word) (s : State) :
    (writeStatus w s).status.err = (s.status.err && !w.getLsbD 2) := rfl
@[simp] theorem writeStatus_overrun (w : Word) (s : State) :
    (writeStatus w s).status.overrun = (s.status.overrun && !w.getLsbD 3) := rfl
@[simp] theorem writeStatus_violation (w : Word) (s : State) :
    (writeStatus w s).status.violation = (s.status.violation && !w.getLsbD 4) := rfl
@[simp] theorem writeStatus_errcode (w : Word) (s : State) :
    (writeStatus w s).status.errcode = if w.getLsbD 2 then 0 else s.status.errcode := rfl
@[simp] theorem writeStatus_csr (w : Word) (s : State) :
    (writeStatus w s).csr = { s.csr with errinfo := if w.getLsbD 2 then 0 else s.csr.errinfo } := rfl

/-! ### Register writes of a command -/

@[simp] theorem applyCsrs_cmd (e : Effect) (c : Csrs) : (e.applyCsrs c).cmd = c.cmd := rfl
@[simp] theorem applyCsrs_srcAddr (e : Effect) (c : Csrs) : (e.applyCsrs c).srcAddr = c.srcAddr := rfl
@[simp] theorem applyCsrs_dstAddr (e : Effect) (c : Csrs) : (e.applyCsrs c).dstAddr = c.dstAddr := rfl
@[simp] theorem applyCsrs_len (e : Effect) (c : Csrs) : (e.applyCsrs c).len = c.len := rfl
@[simp] theorem applyCsrs_errinfo (e : Effect) (c : Csrs) : (e.applyCsrs c).errinfo = c.errinfo := rfl
@[simp] theorem applyCsrs_fsHz (e : Effect) (c : Csrs) : (e.applyCsrs c).fsHz = c.fsHz := rfl
@[simp] theorem applyCsrs_tsym (e : Effect) (c : Csrs) : (e.applyCsrs c).tsym = c.tsym := rfl
@[simp] theorem applyCsrs_bt (e : Effect) (c : Csrs) : (e.applyCsrs c).bt = c.bt := rfl
@[simp] theorem applyCsrs_f0Hz (e : Effect) (c : Csrs) : (e.applyCsrs c).f0Hz = c.f0Hz := rfl
@[simp] theorem applyCsrs_nfft (e : Effect) (c : Csrs) : (e.applyCsrs c).nfft = c.nfft := rfl
@[simp] theorem applyCsrs_nstep (e : Effect) (c : Csrs) : (e.applyCsrs c).nstep = c.nstep := rfl
@[simp] theorem applyCsrs_fminHz (e : Effect) (c : Csrs) : (e.applyCsrs c).fminHz = c.fminHz := rfl
@[simp] theorem applyCsrs_fmaxHz (e : Effect) (c : Csrs) : (e.applyCsrs c).fmaxHz = c.fmaxHz := rfl
@[simp] theorem applyCsrs_syncThresh (e : Effect) (c : Csrs) : (e.applyCsrs c).syncThresh = c.syncThresh := rfl
@[simp] theorem applyCsrs_maxCand (e : Effect) (c : Csrs) : (e.applyCsrs c).maxCand = c.maxCand := rfl
@[simp] theorem applyCsrs_llrScale (e : Effect) (c : Csrs) : (e.applyCsrs c).llrScale = c.llrScale := rfl
@[simp] theorem applyCsrs_result0 (e : Effect) (c : Csrs) : (e.applyCsrs c).result0 = e.result0.getD c.result0 := rfl
@[simp] theorem applyCsrs_result1 (e : Effect) (c : Csrs) : (e.applyCsrs c).result1 = e.result1.getD c.result1 := rfl
@[simp] theorem applyCsrs_nspsym (e : Effect) (c : Csrs) : (e.applyCsrs c).nspsym = e.nspsym.getD c.nspsym := rfl
@[simp] theorem applyCsrs_wfAddr (e : Effect) (c : Csrs) :
    (e.applyCsrs c).wfAddr = (e.wf.map WfRegs.addr).getD c.wfAddr := rfl
@[simp] theorem applyCsrs_wfT (e : Effect) (c : Csrs) :
    (e.applyCsrs c).wfT = (e.wf.map WfRegs.t).getD c.wfT := rfl
@[simp] theorem applyCsrs_wfF (e : Effect) (c : Csrs) :
    (e.applyCsrs c).wfF = (e.wf.map WfRegs.f).getD c.wfF := rfl
@[simp] theorem applyCsrs_binhz (e : Effect) (c : Csrs) :
    (e.applyCsrs c).binhz = (e.wf.map WfRegs.binhz).getD c.binhz := rfl
@[simp] theorem applyCsrs_steps (e : Effect) (c : Csrs) :
    (e.applyCsrs c).steps = (e.wf.map WfRegs.steps).getD c.steps := rfl

end Sys2Proof.Machine
end

