-- ==== Sys2Proof/Laws/Ops.lean ====
section
/-! SUPPORT. The laws of the named operations: reading LDM after a completion, little-endian words, MSB-first bit buffers,
and everything a completion step can do. -/

namespace Sys2Proof.Machine

/-! ### Lengths -/

@[simp] theorem length_leBytes (n v : Nat) : (leBytes n v).length = n := by
  induction n generalizing v with
  | zero => rfl
  | succ n ih => simp [leBytes, ih]

@[simp] theorem length_readBytes (s : State) (a n : Nat) : (readBytes s a n).length = n := by simp [readBytes]

@[simp] theorem length_readBits (s : State) (a n : Nat) : (readBits s a n).length = n := by simp [readBits]

@[simp] theorem length_packBits (n : Nat) (bits : List Bool) : (packBits n bits).length = n := by simp [packBits]

@[simp] theorem length_natToBits (n v : Nat) : (natToBits n v).length = n := by simp [natToBits]

@[simp] theorem length_f32Array (s : State) (a n : Nat) : (f32Array s a n).length = n := by simp [f32Array]

@[simp] theorem length_f32Bytes (xs : List F32) : (f32Bytes xs).length = 4 * xs.length := by
  induction xs with
  | nil => rfl
  | cons x xs ih => simp only [f32Bytes] at ih; simp [f32Bytes, ih]; omega

/-! ### What a read sees -/

/-- LDM reads depend on the written bytes and the draws alone. -/
theorem readByte_congr {s t : State} (h : t.ldm = s.ldm) (hr : t.redraws = s.redraws) (a : Nat) :
    readByte t a = readByte s a := by
  simp only [readByte, h, hr]

theorem readBytes_congr {s t : State} (h : ∀ a, readByte t a = readByte s a) (a n : Nat) :
    readBytes t a n = readBytes s a n := by
  simp only [readBytes, h]

theorem memRead_congr {s t : State} (h : ∀ a, readByte t a = readByte s a) (a n : Nat) :
    memRead t a n = memRead s a n := by
  simp only [memRead, readBytes_congr h]

theorem f32Read_congr {s t : State} (h : ∀ a, readByte t a = readByte s a) (a : Nat) : f32Read t a = f32Read s a := by
  simp only [f32Read, memRead_congr h]

theorem f32Array_congr {s t : State} (h : ∀ a, readByte t a = readByte s a) (a n : Nat) :
    f32Array t a n = f32Array s a n := by
  simp only [f32Array, f32Read_congr h]

theorem bitRead_congr {s t : State} (h : ∀ a, readByte t a = readByte s a) (a i : Nat) : bitRead t a i = bitRead s a i := by
  simp only [bitRead, h]

theorem readBits_congr {s t : State} (h : ∀ a, readByte t a = readByte s a) (a n : Nat) :
    readBits t a n = readBits s a n :=
  List.map_congr_left fun i _ => bitRead_congr h a i

/-- A byte of LDM after a completion without a fault: the command's byte inside its block, the old one elsewhere. -/
theorem readByte_completeOk (e : Effect) (s : State) (a : Nat) :
    readByte (completeOk e s) a =
      if e.base ≤ a ∧ a < e.base + e.bytes.length then e.bytes.getD (a - e.base) 0 else readByte s a := by
  by_cases h : e.base ≤ a ∧ a < e.base + e.bytes.length
  · simp only [readByte, completeOk_ldm, completeOk_redraws, byteAt_store, if_pos h]
    rw [List.getD_eq_getElem?_getD, List.getElem?_eq_getElem (by omega)]
    rfl
  · simp only [readByte, completeOk_ldm, completeOk_redraws, byteAt_store, if_neg h]

/-- A byte outside the command's block keeps its value. -/
theorem readByte_completeOk_outside {e : Effect} {a : Nat} (h : ¬(e.base ≤ a ∧ a < e.base + e.bytes.length)) (s : State) :
    readByte (completeOk e s) a = readByte s a := by
  rw [readByte_completeOk, if_neg h]

@[simp] theorem readByte_takeFault (f : CmdFault) (s : State) (a : Nat) : readByte (takeFault f s) a = readByte s a :=
  readByte_congr rfl rfl a

/-! ### Little-endian words -/

/-- The bytes of a number read back as its low bytes. -/
theorem leNat_leBytes (n v : Nat) : leNat (leBytes n v) = v % 256 ^ n := by
  induction n generalizing v with
  | zero => simp [leBytes, leNat, Nat.mod_one]
  | succ n ih =>
    rw [leBytes, leNat, ih, BitVec.toNat_ofNat, Nat.pow_succ' (m := 256), Nat.mod_mul]

theorem leNat_lt (bs : List Byte) : leNat bs < 256 ^ bs.length := by
  induction bs with
  | nil => simp [leNat]
  | cons b bs ih =>
    have := b.isLt
    rw [leNat, List.length_cons, Nat.pow_succ']
    omega

/-- A word of n bytes is below 256^n. -/
theorem memRead_lt (s : State) (a n : Nat) : memRead s a n < 256 ^ n := by
  have := leNat_lt (readBytes s a n)
  rwa [length_readBytes] at this

/-! ### MSB-first bit buffers -/

/-- The stream bits of a byte made from a function are the function's values. -/
theorem byteBit_byteOf (f : Nat → Bool) {i : Nat} (hi : i < 8) : byteBit (byteOf f) i = f i := by
  have key : ∀ b0 b1 b2 b3 b4 b5 b6 b7 : Bool, ∀ i < 8,
      byteBit (BitVec.ofNat 8
        (2 * (2 * (2 * (2 * (2 * (2 * (2 * (2 * 0 + b0.toNat) + b1.toNat) + b2.toNat) + b3.toNat) + b4.toNat) + b5.toNat)
          + b6.toNat) + b7.toNat)) i = [b0, b1, b2, b3, b4, b5, b6, b7].getD i false := by
    decide
  have h := key (f 0) (f 1) (f 2) (f 3) (f 4) (f 5) (f 6) (f 7) i hi
  rw [show byteOf f = BitVec.ofNat 8
        (2 * (2 * (2 * (2 * (2 * (2 * (2 * (2 * 0 + (f 0).toNat) + (f 1).toNat) + (f 2).toNat) + (f 3).toNat) + (f 4).toNat)
          + (f 5).toNat) + (f 6).toNat) + (f 7).toNat) from rfl, h]
  interval_cases i <;> rfl

/-- Stream bit i of packed bits, as `BitRead` counts it. -/
theorem byteBit_packBits {n i : Nat} (bits : List Bool) (hi : i < 8 * n) :
    byteBit ((packBits n bits).getD (i / 8) 0) (i % 8) = bits.getD i false := by
  have h : i / 8 < n := by omega
  rw [packBits, List.getD_eq_getElem?_getD, List.getElem?_map, List.getElem?_range h]
  simp only [Option.map_some, Option.getD_some]
  rw [byteBit_byteOf _ (by omega), show 8 * (i / 8) + i % 8 = i by omega]

/-- `BitRead` of a buffer a command has just written with packed bits. -/
theorem bitRead_completeOk_packBits {e : Effect} {n i : Nat} {bits : List Bool} (he : e.bytes = packBits n bits)
    (hi : i < 8 * n) (s : State) : bitRead (completeOk e s) e.base i = bits.getD i false := by
  have hl : e.bytes.length = n := by rw [he, length_packBits]
  rw [bitRead, readByte_completeOk, if_pos (by omega), Nat.add_sub_cancel_left, he, byteBit_packBits _ hi]

/-! ### Completion -/

/-- Everything a completion step can do (spec/40_control.md R122, R123): the collected writes take effect, or the fault is
recorded and LDM and every other register keep their values. -/
theorem finish_cases (r : Except CmdFault Effect) (s : State) :
    (∃ e, r = .ok e ∧ finish r s = completeOk e s) ∨ (∃ f, r = .error f ∧ finish r s = takeFault f s) := by
  cases r with
  | ok e => exact .inl ⟨e, rfl, rfl⟩
  | error f => exact .inr ⟨f, rfl, rfl⟩

@[simp] theorem finish_ok (e : Effect) (s : State) : finish (.ok e) s = completeOk e s := rfl
@[simp] theorem finish_error (f : CmdFault) (s : State) : finish (.error f) s = takeFault f s := rfl

/-- What every completion step leaves alone, fault or not. -/
theorem finish_frame (r : Except CmdFault Effect) (s : State) :
    (finish r s).params = s.params ∧ (finish r s).irqEn = s.irqEn ∧ (finish r s).eng = .idle
      ∧ (finish r s).redraws = s.redraws ∧ (finish r s).draws = s.draws ∧ (finish r s).bus = s.bus
      ∧ (finish r s).resp = s.resp ∧ (finish r s).status.done = true
      ∧ (finish r s).status.overrun = s.status.overrun ∧ (finish r s).status.violation = s.status.violation := by
  cases r <;> exact ⟨rfl, rfl, rfl, rfl, rfl, rfl, rfl, rfl, rfl, rfl⟩

end Sys2Proof.Machine
end

