-- ==== Sys2Proof/Laws/Bus.lean ====
section
/-! SUPPORT. The laws of the host interface: the CSR map, what reads and writes change, what a host step can do. -/

namespace Sys2Proof.Machine

/-! ### The CSR map -/

/-- The CSR at the offset of a CSR is that CSR. -/
@[simp] theorem csrAt_csrOffset (r : Csr) : csrAt (csrOffset r) = some r := by cases r <;> rfl

theorem csrOffset_lt (r : Csr) : csrOffset r < 0x74 := by cases r <;> decide

theorem csrOffset_mod (r : Csr) : csrOffset r % 4 = 0 := by cases r <;> rfl

/-- A CSR found at an offset has that offset. -/
theorem csrOffset_of_csrAt {off : Nat} {r : Csr} (h : csrAt off = some r) : csrOffset r = off := by
  simpa using List.find?_some h

/-- No CSR lies at an offset from 0x074 up. -/
theorem csrAt_reserved {off : Nat} (h : 0x74 ≤ off) : csrAt off = none := by
  rw [csrAt, List.find?_eq_none]
  intro r _
  have := csrOffset_lt r
  simp only [beq_iff_eq]
  omega

theorem readCsrAt_csrOffset (r : Csr) (s : State) : readCsrAt (csrOffset r) s = readCsr r s := by
  rw [readCsrAt, csrAt_csrOffset]

theorem writeCsrAt_csrOffset (r : Csr) (w : Word) (s : State) : writeCsrAt (csrOffset r) w s = writeCsr r w s := by
  rw [writeCsrAt, csrAt_csrOffset]

/-! ### The bus map -/

theorem target_csr {ldmSize addr bytes : Nat} (h : addr < 0x1000) :
    target ldmSize addr bytes = if bytes = 4 ∧ addr % 4 = 0 then .csr addr else .error := by
  rw [target, if_pos h]

theorem target_csrOffset (ldmSize : Nat) (r : Csr) : target ldmSize (csrOffset r) 4 = .csr (csrOffset r) := by
  have := csrOffset_lt r
  rw [target_csr (by omega), if_pos ⟨rfl, csrOffset_mod r⟩]

/-- An access reaches LDM only inside LDM_SIZE. -/
theorem target_ldm_bound {ldmSize addr bytes off : Nat} (h : target ldmSize addr bytes = .ldm off) :
    off + bytes ≤ ldmSize := by
  unfold target at h
  split at h
  · split at h <;> simp at h
  · split at h
    · rename_i hc
      obtain ⟨-, -, -, hb⟩ := hc
      rw [Target.ldm.injEq] at h
      rwa [h] at hb
    · simp at h

/-! ### Reads -/

@[simp] theorem drawData_snd (bytes : Nat) (s : State) : (drawData bytes s).2 = { s with draws := s.draws + 1 } := rfl

/-- A read of LDM changes the draw counter at most. -/
theorem readLdm_snd (off bytes : Nat) (s : State) :
    (readLdm off bytes s).2 = { s with draws := (readLdm off bytes s).2.draws } := by
  unfold readLdm
  split <;> rfl

/-- A bus read changes the answer and the draw counter at most. -/
theorem busRead_eq (addr bytes : Nat) (s : State) :
    busRead addr bytes s =
      { s with resp := (busRead addr bytes s).resp, draws := (busRead addr bytes s).draws } := by
  unfold busRead
  split
  · rfl
  · rw [readLdm_snd]
  · rfl

@[simp] theorem busRead_params (a n : Nat) (s : State) : (busRead a n s).params = s.params := by rw [busRead_eq]
@[simp] theorem busRead_csr (a n : Nat) (s : State) : (busRead a n s).csr = s.csr := by rw [busRead_eq]
@[simp] theorem busRead_status (a n : Nat) (s : State) : (busRead a n s).status = s.status := by rw [busRead_eq]
@[simp] theorem busRead_irqEn (a n : Nat) (s : State) : (busRead a n s).irqEn = s.irqEn := by rw [busRead_eq]
@[simp] theorem busRead_eng (a n : Nat) (s : State) : (busRead a n s).eng = s.eng := by rw [busRead_eq]
@[simp] theorem busRead_ldm (a n : Nat) (s : State) : (busRead a n s).ldm = s.ldm := by rw [busRead_eq]
@[simp] theorem busRead_redraws (a n : Nat) (s : State) : (busRead a n s).redraws = s.redraws := by rw [busRead_eq]
@[simp] theorem busRead_bus (a n : Nat) (s : State) : (busRead a n s).bus = s.bus := by rw [busRead_eq]

/-! ### Writes -/

/-- Everything a bus write can do: nothing but the answer, a named CSR's write, a write of LDM, a bus error. -/
theorem busWrite_cases (addr bytes : Nat) (data : Word) (s : State) :
    (∃ off, target s.params.ldmSize addr bytes = .csr off ∧ csrAt off = none ∧ busWrite addr bytes data s = { s with resp := .ack })
      ∨ (∃ off r, target s.params.ldmSize addr bytes = .csr off ∧ csrAt off = some r
          ∧ busWrite addr bytes data s = { writeCsr r data s with resp := .ack })
      ∨ (∃ off, target s.params.ldmSize addr bytes = .ldm off
          ∧ busWrite addr bytes data s = { writeLdm off (leBytes bytes data.toNat) s with resp := .ack })
      ∨ (target s.params.ldmSize addr bytes = .error
          ∧ busWrite addr bytes data s = { s with draws := s.draws + 1, resp := .busError (drawData 4 s).1 }) := by
  unfold busWrite
  cases h : target s.params.ldmSize addr bytes with
  | csr off =>
    cases hc : csrAt off with
    | none => exact .inl ⟨off, rfl, hc, by simp [writeCsrAt, hc]⟩
    | some r => exact .inr (.inl ⟨off, r, rfl, hc, by simp [writeCsrAt, hc]⟩)
  | ldm off => exact .inr (.inr (.inl ⟨off, rfl, rfl⟩))
  | error => exact .inr (.inr (.inr ⟨rfl, rfl⟩))

/-- Everything a write of a named CSR can do (spec/20_memory.md R72): a soft reset, a flag cleared, a new enable, a command
started or refused, an operand written or refused, or nothing. -/
theorem writeCsr_cases (r : Csr) (w : Word) (s : State) :
    (r = .ctrl ∧ w.getLsbD 0 = true ∧ writeCsr r w s = softReset (abandonedSpan s) s)
      ∨ (r = .status ∧ writeCsr r w s = writeStatus w s)
      ∨ (r = .irqEn ∧ writeCsr r w s = writeIrqEn w s)
      ∨ (r = .cmd ∧ isBusy s = true ∧ writeCsr r w s = setOverrun s)
      ∨ (r = .cmd ∧ isBusy s = false ∧ writeCsr r w s = startCommand w s)
      ∨ (isOperand r = true ∧ isBusy s = true ∧ writeCsr r w s = setViolation s)
      ∨ (isOperand r = true ∧ isBusy s = false ∧ writeCsr r w s = { s with csr := setOperand r w s.csr })
      ∨ (isOperand r = false ∧ (r = .ctrl → w.getLsbD 0 = false) ∧ r ≠ .status ∧ r ≠ .irqEn ∧ r ≠ .cmd ∧ writeCsr r w s = s) := by
  cases r
  case ctrl => cases hw : w.getLsbD 0 <;> simp only [writeCsr, isOperand, hw] <;> simp
  all_goals cases hb : isBusy s <;> simp [writeCsr, isOperand, hb]

/-- Everything a host step can do. -/
theorem hostStep_cases (s : State) :
    (s.bus = [] ∧ hostStep s = s) ∨ (∃ h rest, s.bus = h :: rest ∧ hostStep s = perform h { s with bus := rest }) := by
  unfold hostStep
  cases s.bus with
  | nil => exact .inl ⟨rfl, rfl⟩
  | cons h rest => exact .inr ⟨h, rest, rfl, rfl⟩

/-- A poll of STATUS: the answer, and the poll again while BUSY. -/
theorem perform_poll (s : State) :
    perform .poll s = { s with resp := .data (statusWord s), bus := if isBusy s then .poll :: s.bus else s.bus } := by
  have h : busRead (csrOffset .status) 4 s = { s with resp := .data (statusWord s) } := by
    rw [busRead, target_csrOffset]
    simp only [readCsrAt_csrOffset]
    rfl
  simp only [perform, h]
  split <;> rfl

end Sys2Proof.Machine
end

