-- ==== Sys2Proof/Laws/Codec.lean ====
section
/-! SUPPORT. The laws of parity, the sum the LDPC code is made of (spec/41_channel_codec.md R137, spec/42_ldpc_decode.md
R160). -/

namespace Sys2Proof.Machine

theorem parity_nil : parity [] = false := rfl

theorem foldl_xor (acc : Bool) (l : List Bool) : l.foldl (fun p b => p ^^ b) acc = (acc ^^ parity l) := by
  induction l generalizing acc with
  | nil => simp [parity]
  | cons b l ih =>
    have h : parity (b :: l) = ((false ^^ b) ^^ parity l) := ih (false ^^ b)
    rw [List.foldl_cons, ih, h]
    cases acc <;> cases b <;> cases parity l <;> rfl

theorem parity_cons (b : Bool) (l : List Bool) : parity (b :: l) = (b ^^ parity l) := by
  rw [parity, List.foldl_cons, foldl_xor, Bool.false_xor]

theorem parity_append (l m : List Bool) : parity (l ++ m) = (parity l ^^ parity m) := by
  rw [parity, List.foldl_append, foldl_xor]
  rfl

theorem parity_map_xor {α : Type} (l : List α) (f g : α → Bool) :
    parity (l.map fun x => f x ^^ g x) = (parity (l.map f) ^^ parity (l.map g)) := by
  induction l with
  | nil => rfl
  | cons x l ih =>
    simp only [List.map_cons, parity_cons, ih]
    cases f x <;> cases g x <;> cases parity (l.map f) <;> cases parity (l.map g) <;> rfl

theorem parity_map_false {α : Type} (l : List α) : parity (l.map fun _ => false) = false := by
  induction l with
  | nil => rfl
  | cons x l ih => rw [List.map_cons, parity_cons, ih]; rfl

end Sys2Proof.Machine
end

