-- ==== Sys2Proof/Laws/Exec.lean ====
section
/-! SUPPORT. What every command does, said once: `exec` is the completion step of the command's outcome, the outcome is
a fault of one of the phases of spec/40_control.md R121 or the body's writes. -/

namespace Sys2Proof.Machine

/-- Every command ends in a next state: the completion step of its outcome. -/
theorem exec_eq_finish (i : Instr) (s : State) : exec i s = .next (finish (evaluate (commandOf i) s) s) := by
  cases i <;> rfl

/-- The region checks pass exactly when every region fits, every word region is aligned, and no written region overlaps
a read one. -/
theorem checkRegions_none_iff (ldmSize dst : Nat) (p : Plan) :
    checkRegions ldmSize dst p = none ↔
      (∀ r ∈ p.reads ++ p.writes, regionFits ldmSize r = true)
        ∧ (∀ r ∈ p.reads ++ p.writes, regionAligned r = true)
        ∧ (∀ w ∈ p.writes, ∀ r ∈ p.reads, regionsOverlap w r = false) := by
  unfold checkRegions
  cases h1 : (p.reads ++ p.writes).find? fun r => !regionFits ldmSize r with
  | some r =>
    have hr := List.find?_some h1
    have hm := List.mem_of_find?_eq_some h1
    refine ⟨fun h => by simp at h, fun h => ?_⟩
    have := h.1 r hm
    simp [this] at hr
  | none =>
    have f1 : ∀ r ∈ p.reads ++ p.writes, regionFits ldmSize r = true := by
      simpa using (List.find?_eq_none.mp h1)
    cases h2 : (p.reads ++ p.writes).find? fun r => !regionAligned r with
    | some r =>
      have hr := List.find?_some h2
      have hm := List.mem_of_find?_eq_some h2
      refine ⟨fun h => by simp at h, fun h => ?_⟩
      have := h.2.1 r hm
      simp [this] at hr
    | none =>
      have f2 : ∀ r ∈ p.reads ++ p.writes, regionAligned r = true := by
        simpa using (List.find?_eq_none.mp h2)
      simp only
      split
      · rename_i h3
        refine ⟨fun h => by simp at h, fun h => ?_⟩
        rw [List.any_eq_true] at h3
        obtain ⟨w, hw, h3⟩ := h3
        rw [List.any_eq_true] at h3
        obtain ⟨r, hr, h3⟩ := h3
        rw [h.2.2 w hw r hr] at h3
        simp at h3
      · rename_i h3
        refine ⟨fun _ => ⟨f1, f2, fun w hw r hr => ?_⟩, fun _ => rfl⟩
        by_contra h4
        rw [Bool.not_eq_false] at h4
        exact h3 (List.any_eq_true.mpr ⟨w, hw, List.any_eq_true.mpr ⟨r, hr, h4⟩⟩)

/-- The parameter checks pass exactly when each of them holds. -/
theorem firstBadParam_none_iff (checks : List (Bool × Csr)) : firstBadParam checks = none ↔ ∀ c ∈ checks, c.1 = true := by
  induction checks with
  | nil => simp [firstBadParam]
  | cons c cs ih =>
    obtain ⟨ok, r⟩ := c
    cases ok <;> simp [firstBadParam, ih]

/-- A guarded plan is answered exactly when its checks pass. -/
theorem guarded_ok_iff (checks : List (Bool × Csr)) (p q : Plan) :
    guarded checks p = .ok q ↔ (∀ c ∈ checks, c.1 = true) ∧ q = p := by
  unfold guarded
  cases h : firstBadParam checks with
  | none =>
    have h' := (firstBadParam_none_iff checks).mp h
    constructor
    · intro hq
      injection hq with hq
      exact ⟨h', hq.symm⟩
    · rintro ⟨-, rfl⟩
      rfl
  | some f =>
    have : ¬ ∀ c ∈ checks, c.1 = true := fun h' => by
      rw [(firstBadParam_none_iff checks).mpr h'] at h; simp at h
    simp only [reduceCtorEq, false_iff, not_and]
    exact fun h' => absurd h' this

/-- A plan that is answered and passes the region checks leaves the outcome to the body. -/
theorem evaluate_of_plan {c : Command} {s : State} {p : Plan} (hp : c.plan s = .ok p)
    (hr : checkRegions s.params.ldmSize (dst s) p = none) : evaluate c s = c.body s := by
  simp only [evaluate, hp, hr]

/-- Everything an outcome without a fault says: the plan was answered, its regions passed, the body gave the writes. -/
theorem evaluate_ok_iff (c : Command) (s : State) (e : Effect) :
    evaluate c s = .ok e ↔
      ∃ p, c.plan s = .ok p ∧ checkRegions s.params.ldmSize (dst s) p = none ∧ c.body s = .ok e := by
  unfold evaluate
  cases hp : c.plan s with
  | error f => simp
  | ok p =>
    cases hr : checkRegions s.params.ldmSize (dst s) p with
    | some f => simp [hr]
    | none => simp [hr]

/-- The region a command's plan writes is the one its row of spec/30_encoding.md R100 gives, which a soft reset forgets. -/
theorem plan_writes {i : Instr} {s : State} {p : Plan} (h : (commandOf i).plan s = .ok p) :
    p.writes.map (fun r => Span.mk r.base r.size) = if writesLdm i then [⟨dst s, writtenSize i s⟩] else [] := by
  cases i
  case gfskSynth | spectrogram | syncSearchFt8 | syncSearchFt4 | llrExtractFt8Lse | llrExtractFt4Lse | llrExtractFt8Max
      | llrExtractFt4Max | decodeFt8Lse | decodeFt4Lse | decodeFt8Max | decodeFt4Max =>
    obtain ⟨-, rfl⟩ := (guarded_ok_iff _ _ _).mp h
    simp [writesLdm, writtenSize, frameCount, binCount, Nat.mul_assoc]
  all_goals
    injection h with h
    subst h
    rfl

end Sys2Proof.Machine
end

