-- ==== Sys2Proof/Laws/Num.lean ====
section
/-! SUPPORT. Small laws of binary32 values and of NUM. -/

namespace Sys2Proof.Machine

@[simp] theorem NUM_sin_zero : NUM.sin fZero = fZero := by rfl
@[simp] theorem NUM_cos_zero : NUM.cos fZero = fOne := by rfl
@[simp] theorem NUM_tanh_zero : NUM.tanh fZero = fZero := by rfl
@[simp] theorem NUM_atanh_zero : NUM.atanh fZero = fZero := by rfl
@[simp] theorem NUM_erf_zero : NUM.erf fZero = fZero := by rfl
@[simp] theorem NUM_exp_zero : NUM.exp fZero = fOne := by rfl
@[simp] theorem NUM_exp10_zero : NUM.exp10 fZero = fOne := by rfl
@[simp] theorem NUM_log_one : NUM.log fOne = fZero := by rfl

theorem unitBounded_clampUnit (x : F32) : unitBounded (clampUnit x) = true := by
  unfold clampUnit
  split
  · assumption
  · rfl

theorem NUM_sin_bounded (x : F32) : unitBounded (NUM.sin x) = true := unitBounded_clampUnit _
theorem NUM_cos_bounded (x : F32) : unitBounded (NUM.cos x) = true := unitBounded_clampUnit _

/-! ### Sign and magnitude -/

theorem toNat_mkF32 (neg : Bool) {mag : Nat} (h : mag < 2 ^ 31) :
    (mkF32 neg mag).toNat = mag + if neg then 2 ^ 31 else 0 := by
  rw [mkF32, BitVec.toNat_ofNat, Nat.mod_eq_of_lt]
  cases neg <;> (simp; omega)

@[simp] theorem magBits_mkF32 (neg : Bool) {mag : Nat} (h : mag < 2 ^ 31) : magBits (mkF32 neg mag) = mag := by
  rw [magBits, toNat_mkF32 neg h]
  cases neg <;> simp <;> omega

@[simp] theorem signBit_mkF32 (neg : Bool) {mag : Nat} (h : mag < 2 ^ 31) : signBit (mkF32 neg mag) = neg := by
  rw [signBit, toNat_mkF32 neg h]
  cases neg
  · simp only [decide_eq_false_iff_not, Bool.false_eq_true, if_false]; omega
  · simp

theorem magBits_lt (x : F32) : magBits x < 2 ^ 31 := Nat.mod_lt _ (by decide)

/-- A value is its sign and its magnitude. -/
theorem mkF32_signBit_magBits (x : F32) : mkF32 (signBit x) (magBits x) = x := by
  apply BitVec.eq_of_toNat_eq
  rw [toNat_mkF32 _ (magBits_lt x)]
  have := x.isLt
  by_cases h : 2 ^ 31 ≤ x.toNat
  · simp only [signBit, magBits, h, decide_true, if_true]
    omega
  · simp only [signBit, magBits, h, decide_false, Bool.false_eq_true, if_false]
    omega

theorem canon_of_not_nan {x : F32} (h : isNaN x = false) : canon x = x := by simp [canon, h]

theorem isNaN_qNaN : isNaN qNaN = true := by decide

@[simp] theorem canon_canon (x : F32) : canon (canon x) = canon x := by
  by_cases h : isNaN x
  · simp [canon, h]
  · simp [canon, h]

theorem roundMag_le (p q : Nat) : roundMag p q ≤ infBits := Nat.min_le_right _ _

theorem isNaN_mkF32_of_le {neg : Bool} {mag : Nat} (h : mag ≤ infBits) : isNaN (mkF32 neg mag) = false := by
  have h31 : mag < 2 ^ 31 := by simp only [infBits] at h; omega
  simp only [isNaN, magBits_mkF32 neg h31, decide_eq_false_iff_not]
  omega

end Sys2Proof.Machine
end

