-- ==== Sys2Proof/Laws/PerInstr.lean ====
section
/-! SUPPORT. A statement for every constructor of Instr: the command word has the opcode of the opcode map, zero reserved
fields and zero in every field the opcode does not use (spec/30_encoding.md R91, R96). -/

namespace Sys2Proof.Laws.EncodeFields

/-- The fields of the command word of i. -/
def Statement (i : Instr) : Prop :=
  i.wellFormed = true →
    fieldOpc (encode i) = i.fields.1.code ∧ fieldRsv0 (encode i) = 0 ∧ fieldRsv1 (encode i) = 0
      ∧ fieldP (encode i) = i.fields.2.1.toNat ∧ fieldL (encode i) = i.fields.2.2.1.toNat
      ∧ fieldIter (encode i) = i.fields.2.2.2

/-- The fields of an assembled word. -/
theorem assemble_fields (o : Opcode) (p l : Bool) {iter : Nat} (h : iter < 256) :
    fieldOpc (assemble o p l iter) = o.code ∧ fieldRsv0 (assemble o p l iter) = 0 ∧ fieldRsv1 (assemble o p l iter) = 0
      ∧ fieldP (assemble o p l iter) = p.toNat ∧ fieldL (assemble o p l iter) = l.toNat
      ∧ fieldIter (assemble o p l iter) = iter := by
  have ho : o.code < 256 := by cases o <;> decide
  have hp := p.toNat_le
  have hl := l.toNat_le
  have hn : (assemble o p l iter).toNat = o.code + 2 ^ 8 * p.toNat + 2 ^ 9 * l.toNat + 2 ^ 16 * iter := by
    rw [assemble, BitVec.toNat_ofNat, Nat.mod_eq_of_lt]
    omega
  simp only [fieldOpc, fieldRsv0, fieldRsv1, fieldP, fieldL, fieldIter, field, hn]
  omega

theorem of_small (i : Instr) (h : i.fields.2.2.2 < 256) : Statement i := fun _ => assemble_fields _ _ _ h

theorem of_iter {iter : Nat} {i : Instr} (hf : i.fields.2.2.2 = iter) (hw : i.wellFormed = iterFits iter) :
    Statement i := by
  intro h
  rw [hw, iterFits, decide_eq_true_eq, ← hf] at h
  exact assemble_fields _ _ _ h

theorem nop : Statement .nop := of_small _ (by decide)
theorem crc14 : Statement .crc14 := of_small _ (by decide)
theorem crcAppend : Statement .crcAppend := of_small _ (by decide)
theorem crcCheck : Statement .crcCheck := of_small _ (by decide)
theorem ft4Xor : Statement .ft4Xor := of_small _ (by decide)
theorem ldpcEncode : Statement .ldpcEncode := of_small _ (by decide)
theorem ldpcDecode (iter : Nat) : Statement (.ldpcDecode iter) := of_iter rfl rfl
theorem tonemapFt8 : Statement .tonemapFt8 := of_small _ (by decide)
theorem tonemapFt4 : Statement .tonemapFt4 := of_small _ (by decide)
theorem encodeFt8 : Statement .encodeFt8 := of_small _ (by decide)
theorem encodeFt4 : Statement .encodeFt4 := of_small _ (by decide)
theorem gfskSynth : Statement .gfskSynth := of_small _ (by decide)
theorem spectrogram : Statement .spectrogram := of_small _ (by decide)
theorem syncSearchFt8 : Statement .syncSearchFt8 := of_small _ (by decide)
theorem syncSearchFt4 : Statement .syncSearchFt4 := of_small _ (by decide)
theorem llrExtractFt8Lse : Statement .llrExtractFt8Lse := of_small _ (by decide)
theorem llrExtractFt4Lse : Statement .llrExtractFt4Lse := of_small _ (by decide)
theorem llrExtractFt8Max : Statement .llrExtractFt8Max := of_small _ (by decide)
theorem llrExtractFt4Max : Statement .llrExtractFt4Max := of_small _ (by decide)
theorem decodeFt8Lse (iter : Nat) : Statement (.decodeFt8Lse iter) := of_iter rfl rfl
theorem decodeFt4Lse (iter : Nat) : Statement (.decodeFt4Lse iter) := of_iter rfl rfl
theorem decodeFt8Max (iter : Nat) : Statement (.decodeFt8Max iter) := of_iter rfl rfl
theorem decodeFt4Max (iter : Nat) : Statement (.decodeFt4Max iter) := of_iter rfl rfl

end Sys2Proof.Laws.EncodeFields
end

