-- ==== Sys2Proof/Laws/Step.lean ====
section
/-! SUPPORT. Everything one step can do, said once. -/

namespace Sys2Proof.Machine

/-- The completion of the latched word: the command's outcome, or the fault of a word that is no legal command. -/
theorem completion_cases (s : State) :
    (∃ i, decode s.csr.cmd = .ok i ∧ completion s = .next (finish (evaluate (commandOf i) s) s))
      ∨ (∃ e, decode s.csr.cmd = .error e ∧ completion s = .next (takeFault (decodeFault e s.csr.cmd) s)) := by
  unfold completion
  cases h : decode s.csr.cmd with
  | ok i => exact .inl ⟨i, rfl, exec_eq_finish i s⟩
  | error e => exact .inr ⟨e, rfl, rfl⟩

/-- A reset takes the engine to IDLE; nothing else a host step does changes whether, and for how long, it is BUSY. -/
theorem writeCsr_busy {n : Nat} {o : CompletionOrder} {s : State} (h : s.eng = .busy n o) (r : Csr) (w : Word) :
    (writeCsr r w s).eng = .idle ∨ (writeCsr r w s).eng = .busy n o := by
  have hb : isBusy s = true := by rw [isBusy, h]
  rcases writeCsr_cases r w s with ⟨-, -, e⟩ | ⟨-, e⟩ | ⟨-, e⟩ | ⟨-, -, e⟩ | ⟨-, hn, -⟩ | ⟨-, -, e⟩ | ⟨-, hn, -⟩ | ⟨-, -, -, -, -, e⟩
  · left; rw [e]; cases abandonedSpan s <;> rfl
  · right; rw [e, writeStatus_eng, h]
  · right; rw [e, writeIrqEn_eng, h]
  · right; rw [e, setOverrun_eng, h]
  · simp [hb] at hn
  · right; rw [e, setViolation_eng, h]
  · simp [hb] at hn
  · right; rw [e, h]

/-- What a host step leaves of a running command: a reset abandons it, else it runs on as it was. -/
theorem hostStep_busy {n : Nat} {o : CompletionOrder} {s : State} (h : s.eng = .busy n o) :
    (hostStep s).eng = .idle ∨ (hostStep s).eng = .busy n o := by
  rcases hostStep_cases s with ⟨-, e⟩ | ⟨a, rest, -, e⟩
  · exact .inr (by rw [e, h])
  · rw [e]
    cases a with
    | wait => exact .inr h
    | read a b => exact .inr (by simp only [perform, busRead_eng, h])
    | poll => exact .inr (by rw [perform_poll]; exact h)
    | powerOn => exact .inl rfl
    | write a b w =>
      simp only [perform]
      have hb : isBusy { s with bus := rest } = true := by simp only [isBusy, h]
      rcases busWrite_cases a.toNat b w { s with bus := rest } with ⟨o, -, -, e⟩ | ⟨o, r, -, -, e⟩ | ⟨o, -, e⟩ | ⟨-, e⟩
      · rw [e]; exact .inr h
      · rw [e]
        exact writeCsr_busy (s := { s with bus := rest }) h r w
      · rw [e, writeLdm, if_pos hb]; exact .inr h
      · rw [e]; exact .inr h

/-- A completion followed by the host's access goes on: the access works on the state the completion leaves. -/
@[simp] theorem thenHostStep_next (t : State) : thenHostStep (.next t) = .next (hostStep t) := rfl

/-- A step is the next host step, and the completion of the running command with it when its delay has passed: after the
access, if that left it running, or before it. -/
theorem step_cases (s : State) :
    (s.eng = .busy 0 .afterAccess ∧ (hostStep s).eng = .busy 0 .afterAccess ∧ step s = completion (hostStep s))
      ∨ (s.eng = .busy 0 .afterAccess ∧ (hostStep s).eng = .idle ∧ step s = .next (hostStep s))
      ∨ (s.eng = .busy 0 .beforeAccess ∧ ∃ t, completion s = .next t ∧ step s = .next (hostStep t))
      ∨ (∃ n o, s.eng = .busy (n + 1) o ∧ step s = .next (hostStep { s with eng := .busy n o }))
      ∨ (s.eng = .idle ∧ step s = .next (hostStep s)) := by
  cases h : s.eng with
  | idle => exact .inr (.inr (.inr (.inr ⟨rfl, by rw [step, h]⟩)))
  | busy n o =>
    cases n with
    | zero =>
      cases o with
      | afterAccess =>
        rcases hostStep_busy h with hi | hb
        · exact .inr (.inl ⟨rfl, hi, by simp [step, h, isBusy, hi]⟩)
        · exact .inl ⟨rfl, hb, by simp [step, h, isBusy, hb]⟩
      | beforeAccess =>
        refine .inr (.inr (.inl ⟨rfl, ?_⟩))
        rcases completion_cases s with ⟨i, -, e⟩ | ⟨d, -, e⟩ <;> exact ⟨_, e, by simp only [step, h, e, thenHostStep_next]⟩
    | succ n => exact .inr (.inr (.inr (.inl ⟨n, o, rfl, by rw [step, h]⟩)))

/-- Placing a word leaves the host's next step without an access. -/
theorem hostStep_withFetchWord (s : State) (nbits w : Nat) :
    hostStep (s.withFetchWord nbits w) = { s.withFetchWord nbits w with bus := s.bus } := by
  unfold hostStep State.withFetchWord
  cases s.bus <;> rfl

/-- What the next step does with a placed word: the word is completed. -/
theorem step_withFetchWord (s : State) (nbits w : Nat) :
    step (s.withFetchWord nbits w) = completion { s.withFetchWord nbits w with bus := s.bus } := by
  simp [step, hostStep_withFetchWord, isBusy]

end Sys2Proof.Machine
end

