-- ==== Sys2Proof/Tests/Slice0.lean ====
section
/-! SUPPORT. The model's own tests: ill-formed terms refused, command words written out from spec/30_encoding.md, single
steps with the expected results of spec/95_test_vectors.md or of a hand calculation from the named rule. -/

namespace Sys2Proof.Tests

set_option Elab.async false

open Sys2Proof.Machine

/-! ### Well-formedness: a term for each check, refused -/

theorem test_ldpcDecode_iter_256_ill_formed : (Instr.ldpcDecode 256).wellFormed = false := by decide
theorem test_decodeFt8Lse_iter_256_ill_formed : (Instr.decodeFt8Lse 256).wellFormed = false := by decide
theorem test_decodeFt4Lse_iter_300_ill_formed : (Instr.decodeFt4Lse 300).wellFormed = false := by decide
theorem test_decodeFt8Max_iter_256_ill_formed : (Instr.decodeFt8Max 256).wellFormed = false := by decide
theorem test_decodeFt4Max_iter_999_ill_formed : (Instr.decodeFt4Max 999).wellFormed = false := by decide
theorem test_ldpcDecode_iter_255_well_formed : (Instr.ldpcDecode 255).wellFormed = true := by decide

/-! ### Decoding: words written out from the fields of spec/30_encoding.md R90 and the map of R96 -/

theorem test_decode_nop : decode 0b00000000_00000000_000000_0_0_00000000 = .ok .nop := by rfl
theorem test_decode_crc : decode 0b00000000_00000000_000000_0_0_00000001 = .ok .crc14
    ∧ decode 0b00000000_00000000_000000_0_0_00000010 = .ok .crcAppend
    ∧ decode 0b00000000_00000000_000000_0_0_00000011 = .ok .crcCheck := by exact ⟨rfl, rfl, rfl⟩
theorem test_decode_ft4Xor : decode 0b00000000_00000000_000000_0_0_00000100 = .ok .ft4Xor := by rfl
theorem test_decode_ldpc : decode 0b00000000_00000000_000000_0_0_00010000 = .ok .ldpcEncode
    ∧ decode 0b00000000_00110010_000000_0_0_00010001 = .ok (.ldpcDecode 50) := by exact ⟨rfl, rfl⟩
theorem test_decode_tonemap : decode 0b00000000_00000000_000000_0_0_00100000 = .ok .tonemapFt8
    ∧ decode 0b00000000_00000000_000000_0_1_00100000 = .ok .tonemapFt4 := by exact ⟨rfl, rfl⟩
theorem test_decode_encode : decode 0b00000000_00000000_000000_0_0_00100001 = .ok .encodeFt8
    ∧ decode 0b00000000_00000000_000000_0_1_00100001 = .ok .encodeFt4 := by exact ⟨rfl, rfl⟩
theorem test_decode_gfskSynth : decode 0b00000000_00000000_000000_0_0_00110000 = .ok .gfskSynth := by rfl
theorem test_decode_spectrogram : decode 0b00000000_00000000_000000_0_0_01000000 = .ok .spectrogram := by rfl
theorem test_decode_syncSearch : decode 0b00000000_00000000_000000_0_0_01010000 = .ok .syncSearchFt8
    ∧ decode 0b00000000_00000000_000000_0_1_01010000 = .ok .syncSearchFt4 := by exact ⟨rfl, rfl⟩
theorem test_decode_llrExtract : decode 0b00000000_00000000_000000_0_0_01010001 = .ok .llrExtractFt8Lse
    ∧ decode 0b00000000_00000000_000000_0_1_01010001 = .ok .llrExtractFt4Lse
    ∧ decode 0b00000000_00000000_000000_1_0_01010001 = .ok .llrExtractFt8Max
    ∧ decode 0b00000000_00000000_000000_1_1_01010001 = .ok .llrExtractFt4Max := by exact ⟨rfl, rfl, rfl, rfl⟩
theorem test_decode_decode : decode 0b00000000_00000000_000000_0_0_01010010 = .ok (.decodeFt8Lse 0)
    ∧ decode 0b00000000_00000001_000000_0_1_01010010 = .ok (.decodeFt4Lse 1)
    ∧ decode 0b00000000_10000000_000000_1_0_01010010 = .ok (.decodeFt8Max 128)
    ∧ decode 0b00000000_11111111_000000_1_1_01010010 = .ok (.decodeFt4Max 255) := by exact ⟨rfl, rfl, rfl, rfl⟩
/-- spec/95_test_vectors.md NP2, NP6, NP7, NP10 to NP12. -/
theorem test_decode_reserved_fields : decode 0x00000100 = .error .reservedField ∧ decode 0x01000000 = .error .reservedField
    ∧ decode 0x00000400 = .error .reservedField ∧ decode 0x00010020 = .error .reservedField
    ∧ decode 0x00000221 = .error .reservedField ∧ decode 0x00010051 = .error .reservedField := by
  exact ⟨rfl, rfl, rfl, rfl, rfl, rfl⟩
/-- spec/95_test_vectors.md NP8, NP9. -/
theorem test_decode_illegal_opcodes : decode 0x00000005 = .error .illegalOpcode ∧ decode 0x0000000F = .error .illegalOpcode
    ∧ decode 0x00000012 = .error .illegalOpcode ∧ decode 0x000000FF = .error .illegalOpcode
    ∧ decode 0x00000105 = .error .illegalOpcode := by
  exact ⟨rfl, rfl, rfl, rfl, rfl⟩
theorem test_decodeTableWord : decodeTableWord 32 0x00320011 = some (.ldpcDecode 50) ∧ decodeTableWord 32 0x05 = none := by
  exact ⟨rfl, rfl⟩

/-- Two rows of the table disagree on a bit both fix. -/
def disjointRows (a b : TableRow) : Bool := (a.pattern ^^^ b.pattern) &&& (a.mask &&& b.mask) != 0

theorem test_opcodeTable_rows_disjoint : opcodeTable.Pairwise fun a b => disjointRows a b = true := by decide

/-! ### A small bench -/

/-- Variable i of the toy code takes part in three consecutive checks. -/
def toyChecks (i : Nat) : List Nat :=
  let p := if i < 91 then i else i - 91
  [p % 83, (p + 1) % 83, (p + 2) % 83]

/-- The variables whose first check is q: message bits q and q + 83, parity bit q. -/
def toyStart (q : Nat) : List Nat := [q] ++ (if q < 8 then [q + 83] else []) ++ [q + 91]

/-- Tables that meet spec/10_state.md R54 and R55 (Tests/Witnesses.lean proves it), with the informative FT4 mask of
spec/93_implementation_defined.md 3.2.2. -/
def toyTables : Tables where
  ft4Costas := [[0, 1, 3, 2], [1, 0, 2, 3], [2, 3, 1, 0], [3, 2, 0, 1]]
  ft4XorMask := [0x4A, 0x5E, 0x89, 0xB4, 0xB0, 0x8A, 0x79, 0x55, 0xBE, 0x28]
  ldpcG := (List.range 83).map fun i => (List.range 91).map fun k => k % 83 == i
  ldpcNM := (List.range 83).map fun j => [j, (j + 82) % 83, (j + 81) % 83].flatMap toyStart
  ldpcMN := (List.range 174).map toyChecks

/-- Operands: source 0x100, destination 0x1000, one datum, N = 32, a waterfall of one row of 17 columns at 0x200. -/
def benchCsrs : Csrs :=
  { Csrs.reset with
    srcAddr := 0x100, dstAddr := 0x1000, len := 1, fsHz := 256, tsym := 0x3E000000, f0Hz := 0x40800000, nfft := 32
    nstep := 65536, fmaxHz := 128, maxCand := 1, wfAddr := 0x200, wfT := 1, wfF := 17 }

/-- A reset block with the bench's operands, and bytes at an offset. -/
def bench (a : Nat) (bytes : List Byte) : State :=
  { State.resetWith { ldmSize := 65536, tables := toyTables } with csr := benchCsrs, ldm := cellsFrom a bytes }

/-- The state a command's meaning leaves. -/
def after (i : Instr) (s : State) : State :=
  match exec i s with
  | .next t => t
  | .fault _ => s
  | .refused _ => s

/-- The state a step leaves. -/
def next (s : State) : State :=
  match step s with
  | .next t => t
  | .fault _ => s
  | .refused _ => s

def payload : List Byte := [0x01, 0x23, 0x45, 0x67, 0x89, 0xAB, 0xCD, 0xEF, 0x01, 0x20]

/-! ### One step, one or two results -/

/-- spec/95_test_vectors.md NP1. -/
theorem test_nop_sets_done : statusWord (after .nop (bench 0 [])) = 0x00000002 := by decide +kernel
/-- spec/95_test_vectors.md NP2. -/
theorem test_nop_with_p_faults : statusWord (next ((bench 0 []).withFetchWord 32 0x100)) = 0x00000206
    ∧ (next ((bench 0 []).withFetchWord 32 0x100)).csr.errinfo = 0x00000100 := by decide +kernel
/-- spec/95_test_vectors.md CR8. -/
theorem test_crc14_123456789 :
    (after .crc14 { bench 0x100 [0x31, 0x32, 0x33, 0x34, 0x35, 0x36, 0x37, 0x38, 0x39] with
      csr := { benchCsrs with len := 72 } }).csr.result0 = 0x00000F31 := by decide +kernel
/-- spec/95_test_vectors.md CR7: the low bits of the last byte are ignored. -/
theorem test_crc14_three_bits :
    (after .crc14 { bench 0x100 [0xE7] with csr := { benchCsrs with len := 3 } }).csr.result0 = 0x00003A0B := by
  decide +kernel
/-- spec/95_test_vectors.md CA7. -/
theorem test_crcAppend_bytes : readBytes (after .crcAppend (bench 0x100 payload)) 0x1000 12 =
    [0x01, 0x23, 0x45, 0x67, 0x89, 0xAB, 0xCD, 0xEF, 0x01, 0x22, 0xC8, 0x00] := by decide +kernel
/-- spec/95_test_vectors.md CA9. -/
theorem test_crcAppend_ignores_pads :
    (after .crcAppend (bench 0x100 (List.replicate 10 0xFF))).csr.result0 = 0x000007B1 := by decide +kernel
/-- spec/95_test_vectors.md CC3. -/
theorem test_crcCheck_mismatch :
    let t := after .crcCheck (bench 0x100 [0x81, 0, 0, 0, 0, 0, 0, 0, 0, 0x05, 0x7F, 0x00])
    t.csr.result0 = 0 ∧ t.csr.result1 = 0x00001E71 ∧ t.status.err = false := by decide +kernel
/-- spec/95_test_vectors.md CC6. -/
theorem test_crcCheck_ignores_pads :
    (after .crcCheck (bench 0x100 (List.replicate 11 0 ++ [0x1F]))).csr.result0 = 1 := by decide +kernel
/-- spec/95_test_vectors.md FX4. -/
theorem test_ft4Xor_mask : readBytes (after .ft4Xor (bench 0x100 (List.replicate 10 0))) 0x1000 10 =
    [0x4A, 0x5E, 0x89, 0xB4, 0xB0, 0x8A, 0x79, 0x55, 0xBE, 0x28] := by decide +kernel
/-- Overlap of source and destination (spec/20_memory.md R73 (c)). -/
theorem test_ft4Xor_in_place_faults :
    let t := after .ft4Xor { bench 0x100 payload with csr := { benchCsrs with dstAddr := 0x100 } }
    statusWord t = 0x00000706 ∧ t.csr.errinfo = 0x100 := by decide +kernel
/-- spec/95_test_vectors.md LE2 with k = 90 and the toy generator, where bit 90 counts in parity bit 7 alone:
stream bit 98, in byte 12. -/
theorem test_ldpcEncode_unit : readBytes (after .ldpcEncode (bench 0x100 (List.replicate 11 0 ++ [0x20]))) 0x100C 1 = [0x20] := by
  decide +kernel
/-- spec/95_test_vectors.md LD8. -/
theorem test_ldpcDecode_least_nan :
    let t := after (.ldpcDecode 0) (bench 0x100 (f32Bytes ([0, 0, 0, qNaN, 0, 0xFFC00001] ++ List.replicate 168 0)))
    statusWord t = 0x00000606 ∧ t.csr.errinfo = 3 := by decide +kernel
/-- spec/95_test_vectors.md LD9. -/
theorem test_ldpcDecode_misaligned :
    let t := after (.ldpcDecode 0) { bench 0 [] with csr := { benchCsrs with srcAddr := 2 } }
    statusWord t = 0x00000406 ∧ t.csr.errinfo = 2 := by decide +kernel
/-- spec/95_test_vectors.md TM2. -/
theorem test_tonemapFt8_gray : readBytes (after .tonemapFt8 (bench 0x100 ([0x05, 0x39, 0x77] ++ List.replicate 19 0))) 0x1000 16 =
    [3, 1, 4, 0, 6, 5, 2, 0, 1, 3, 2, 5, 6, 4, 7, 0] := by decide +kernel
/-- spec/95_test_vectors.md TM5, with the toy Costas table. -/
theorem test_tonemapFt4_gray : readBytes (after .tonemapFt4 (bench 0x100 ([0x1B] ++ List.replicate 21 0))) 0x1000 10 =
    [0, 0, 1, 3, 2, 0, 1, 3, 2, 0] := by decide +kernel
/-- spec/95_test_vectors.md EN1. -/
theorem test_encodeFt8_zero : readBytes (after .encodeFt8 (bench 0x100 (List.replicate 10 0))) 0x1000 9 =
    [3, 1, 4, 0, 6, 5, 2, 0, 0] := by decide +kernel
/-- FT4 masks before the CRC (spec/43_modulator.md R185): the payload equal to the mask has CRC 0 and a first data tone 0. -/
theorem test_encodeFt4_masks :
    let t := after .encodeFt4 (bench 0x100 [0x4A, 0x5E, 0x89, 0xB4, 0xB0, 0x8A, 0x79, 0x55, 0xBE, 0x28])
    t.csr.result0 = 0 ∧ readBytes t 0x1001 5 = [0, 1, 3, 2, 0] := by decide +kernel
/-- RESULT0 and NSPSYM (spec/43_modulator.md R186, R191): 256 Hz × 0.125 s is 32 samples. -/
theorem test_gfskSynth_counts :
    let t := after .gfskSynth (bench 0x100 [5])
    t.csr.result0 = 32 ∧ t.csr.nspsym = 32 := by decide +kernel
/-- A tone above 7 (spec/60_exceptions.md R266). -/
theorem test_gfskSynth_bad_tone :
    let t := after .gfskSynth { bench 0x100 [7, 8, 9] with csr := { benchCsrs with len := 3 } }
    statusWord t = 0x00000606 ∧ t.csr.errinfo = 1 := by decide +kernel
/-- BINHZ and STEPS of the example of spec/44_demodulator.md R214, and ceil(3/512) = 1 row of 1025 bins. -/
theorem test_spectrogram_registers :
    let t := after .spectrogram { bench 0x100 (List.replicate 12 0) with
      csr := { Csrs.reset with srcAddr := 0x100, dstAddr := 0x1000, len := 3 } }
    t.csr.binhz = 0x40BB8000 ∧ t.csr.steps = 0x3D2EC33E ∧ t.csr.wfAddr = 0x1000 ∧ t.csr.wfT = 1 ∧ t.csr.wfF = 1025 := by
  decide +kernel
/-- An infinite sample (spec/60_exceptions.md R266). -/
theorem test_spectrogram_infinite_sample :
    (after .spectrogram { bench 0x100 [0, 0, 0, 0, 0, 0, 0x80, 0xFF] with
      csr := { benchCsrs with len := 2 } }).csr.errinfo = 1 := by decide +kernel
/-- An empty grid gives no candidate (spec/44_demodulator.md R221): no symbol fits a band below tone 7's bin. -/
theorem test_syncSearchFt8_empty_band :
    let t := after .syncSearchFt8 { bench 0x200 (List.replicate 68 0) with csr := { benchCsrs with fmaxHz := 1 } }
    t.csr.result0 = 0 ∧ t.csr.result1 = 0 ∧ t.csr.nspsym = 32 := by decide +kernel
/-- A NaN threshold (spec/44_demodulator.md R221). -/
theorem test_syncSearchFt4_nan_threshold :
    let t := after .syncSearchFt4 { bench 0 [] with csr := { benchCsrs with syncThresh := qNaN } }
    statusWord t = 0x00000506 ∧ t.csr.errinfo = 0x050 := by decide +kernel
/-- The candidate (0, 1) has no noise bin below (spec/44_demodulator.md R216): INVALID_VALUE. -/
theorem test_llrExtractFt8Lse_invalid :
    statusWord (after .llrExtractFt8Lse (bench 0x100 [0, 0, 0, 0, 0, 0, 0, 0, 1, 0, 0, 0, 0, 0, 0, 0])) = 0x00000606 := by
  decide +kernel
/-- LLR_SCALE = 0 (spec/44_demodulator.md R225). -/
theorem test_llrExtractFt4Lse_zero_scale :
    (after .llrExtractFt4Lse { bench 0 [] with csr := { benchCsrs with llrScale := 0 } }).csr.errinfo = 0x058 := by
  decide +kernel

/-- A candidate (0, 2) at the bench's source and a waterfall whose column 2 is `h` and the others 0. -/
def toneBench (h : F32) : State :=
  { bench 0 [] with
    ldm := cellsFrom 0x100 [0, 0, 0, 0, 0, 0, 0, 0, 2, 0, 0, 0, 0, 0, 0, 0]
      ++ cellsFrom 0x200 (f32Bytes ([0, 0, h] ++ List.replicate 14 0)) }

/-- Tone 0 alone at height 1.0 (spec/44_demodulator.md R224): every bit of value 0 is 0, so every LLR is +1.0. -/
theorem test_llrExtractFt8Max_tone0 : memRead (after .llrExtractFt8Max (toneBench fOne)) 0x1000 4 = 0x3F800000
    ∧ memRead (after .llrExtractFt8Max (toneBench fOne)) 0x12B4 4 = 0x3F800000 := by decide +kernel
/-- The same for FT4 with scale 2.0. -/
theorem test_llrExtractFt4Max_scale :
    memRead (after .llrExtractFt4Max { toneBench fOne with csr := { benchCsrs with llrScale := fTwo } }) 0x1004 4 = 0x40000000 := by
  decide +kernel
/-- LEN = 0 (spec/44_demodulator.md R229). -/
theorem test_decodeFt8Lse_empty_list :
    let t := after (.decodeFt8Lse 0) { bench 0 [] with csr := { benchCsrs with len := 0, result0 := 9, result1 := 9 } }
    t.csr.result0 = 0 ∧ t.csr.result1 = 0 ∧ t.csr.nspsym = 32 := by decide +kernel
/-- LEN = 65536 (spec/44_demodulator.md R229). -/
theorem test_decodeFt4Lse_long_list :
    (after (.decodeFt4Lse 1) { bench 0 [] with csr := { benchCsrs with len := 65536 } }).csr.errinfo = 0x020 := by
  decide +kernel
/-- A NaN LLR is an LDPC failure, no fault (spec/44_demodulator.md R227, spec/60_exceptions.md R271). -/
theorem test_decodeFt8Max_nan :
    let t := after (.decodeFt8Max 0) (toneBench qNaN)
    t.csr.result0 = 0 ∧ t.csr.result1 = 1 ∧ t.status.err = false := by decide +kernel
/-- The same for FT4. -/
theorem test_decodeFt4Max_nan : (after (.decodeFt4Max 255) (toneBench qNaN)).csr.result1 = 1 := by decide +kernel

/-! ### The host interface and binary32 -/

/-- spec/20_memory.md R62, its example. -/
theorem test_ldm_little_endian :
    let t := busWrite 0x01000010 4 0x11223344 (bench 0 [])
    (busRead 0x01000010 1 t).resp = .data 0x44 ∧ (busRead 0x01000013 1 t).resp = .data 0x11
      ∧ (busRead 0x01000012 2 t).resp = .data 0x1122 := by decide +kernel
/-- Writes while BUSY (spec/60_exceptions.md R272): CMD, LDM, an operand. -/
theorem test_busy_writes :
    let s := (bench 0 []).withFetchWord 32 0
    statusWord (busWrite 0x014 4 1 s) = 0x00000009 ∧ statusWord (busWrite 0x01000000 1 1 s) = 0x00000011
      ∧ statusWord (busWrite 0x018 4 1 s) = 0x00000011 := by decide +kernel
/-- A CMD write in the very step of a faulting completion (spec/60_exceptions.md R268): OVERRUN beside DONE, ERR and
ERRCODE 2, the written word dropped; an LDM write there: VIOLATION beside DONE. -/
theorem test_event_in_the_completion_step :
    let s := (bench 0 []).withFetchWord 32 0x100
    let q := (bench 0 []).withFetchWord 32 0
    statusWord (next { s with bus := [.write 0x014 4 1] }) = 0x0000020E
      ∧ (next { s with bus := [.write 0x014 4 1] }).csr.cmd = 0x00000100
      ∧ statusWord (next { q with bus := [.write 0x01000000 1 1] }) = 0x00000012 := by decide +kernel
/-- spec/95_test_vectors.md Program 5, the second CMD write in both orders with the completion of CRC_APPEND: A, it is
dropped (STATUS 0x0000000A, CMD 2); B, CRC_CHECK starts (BUSY alone, CMD 3) on what CRC_APPEND has written. -/
theorem test_program5_both_outcomes :
    let s := (bench 0x100 payload).withFetchWord 32 0x02
    let a := next { s with bus := [.write 0x014 4 3] }
    let b := next { s with eng := .busy 0 .beforeAccess, bus := [.write 0x014 4 3] }
    statusWord a = 0x0000000A ∧ a.csr.cmd = 2 ∧ statusWord b = 0x00000001 ∧ b.csr.cmd = 3
      ∧ b.csr.result0 = a.csr.result0 ∧ b.ldm = a.ldm := by decide +kernel
/-- Soft reset of a running GFSK_SYNTH with a negative TSYM: N ≤ 0, so its region is empty and LDM is unchanged
(spec/70_reset_and_hazards.md R291, spec/43_modulator.md R186). -/
theorem test_soft_reset_keeps_an_empty_region :
    let s := (bench 0x1000 [1, 2]).withFetchWord 32 0x30
    (busWrite 0x008 4 1 { s with csr := { s.csr with tsym := 0xBE000000 } }).ldm = s.ldm := by decide +kernel
/-- Soft reset of a running LLR_EXTRACT with a NaN TSYM forgets its 696 bytes (spec/70_reset_and_hazards.md R291). -/
theorem test_soft_reset_forgets_the_row :
    let s := (bench 0x1000 [1, 2]).withFetchWord 32 0x51
    (busWrite 0x008 4 1 { s with csr := { s.csr with tsym := 0x7FC00000 } }).ldm.byteAt 0x1000 = none := by decide +kernel
/-- ACK clears the flags and the fault (spec/30_encoding.md R102, spec/60_exceptions.md R275). -/
theorem test_ack :
    let s := next ((bench 0 []).withFetchWord 32 0x100)
    HostLine.expand .ack = [.write 0x00C 4 0x1E] ∧ statusWord (perform (.write 0x00C 4 0x1E) s) = 0
      ∧ (perform (.write 0x00C 4 0x1E) s).csr.errinfo = 0 := by decide +kernel
/-- RUN (spec/30_encoding.md R102). -/
theorem test_run_expansion : HostLine.expand (.run (.ldpcDecode 50) (some 0x100) none (some 3)) =
    [.write 0x018 4 0x100, .write 0x020 4 3, .write 0x014 4 0x00320011, .poll] := by decide +kernel
/-- 1.0 + 2.0 = 3.0, 1.0 − 3.0 = −2.0, 1.0 ÷ 3.0, √2, and 2^24 + 1 to even (IEEE 754). -/
theorem test_binary32 : fadd fOne fTwo = 0x40400000 ∧ fsub fOne 0x40400000 = 0xC0000000 ∧ fdiv fOne 0x40400000 = 0x3EAAAAAB
    ∧ fsqrt fTwo = 0x3FB504F3 ∧ fofNat 16777217 = 0x4B800000 ∧ fmul 0x7F7FFFFF fTwo = 0x7F800000
    ∧ fmul 0x00800000 fHalf = 0x00400000 := by decide +kernel

end Sys2Proof.Tests
end

