-- ==== Sys2Proof/Tests/Witnesses.lean ====
section
/-! SUPPORT. Concrete states, operands and tables that meet the hypotheses of the obligations: one named theorem for each
obligation that has hypotheses. -/

namespace Sys2Proof.Tests

set_option Elab.async false

open Sys2Proof.Machine

/-! ### The toy code meets spec/10_state.md R55 -/

/-- The parity of a message under a mask. -/
def dot (mask : Nat → Bool) (a : List Bool) : Bool := parity ((List.range 91).map fun k => mask k && a.getD k false)

theorem dot_unit (a : List Bool) {i n : Nat} (h : i < n) :
    parity ((List.range n).map fun k => k == i && a.getD k false) = a.getD i false := by
  induction n with
  | zero => omega
  | succ n ih =>
    rw [List.range_succ, List.map_append, parity_append, List.map_cons, List.map_nil, parity_cons, parity_nil,
      Bool.xor_false]
    by_cases hi : i = n
    · subst hi
      have : (List.range i).map (fun k => k == i && a.getD k false) = (List.range i).map fun _ => false := by
        apply List.map_congr_left
        intro k hk
        have : k ≠ i := (List.mem_range.mp hk).ne
        simp [this]
      rw [this, parity_map_false]
      simp
    · have : (n == i) = false := by simpa using fun h => hi h.symm
      rw [ih (by omega), this]
      simp

theorem dot_fold (l : List Nat) (mask : Nat → Nat → Bool) (a : List Bool) :
    parity (l.map fun i => dot (mask i) a) = dot (fun k => parity (l.map fun i => mask i k)) a := by
  induction l with
  | nil =>
    rw [List.map_nil, parity_nil]
    have : (fun k => parity (([] : List Nat).map fun i => mask i k) && a.getD k false) = fun _ => false := by
      funext k; rfl
    rw [dot, this, parity_map_false]
  | cons i l ih =>
    rw [List.map_cons, parity_cons, ih, dot, dot, ← parity_map_xor, dot]
    congr 1
    apply List.map_congr_left
    intro k _
    rw [List.map_cons, parity_cons]
    cases mask i k <;> cases parity (l.map fun i => mask i k) <;> cases a.getD k false <;> rfl

/-- The message bits that make up codeword bit i of the toy code. -/
def toyMask (i k : Nat) : Bool := if i < 91 then k == i else k % 83 == i - 91

theorem toy_codeword_bit (a : List Bool) (ha : a.length = 91) {i : Nat} (hi : i < 174) :
    (ldpcEnc toyTables a).getD i false = dot (toyMask i) a := by
  rw [ldpcEnc]
  by_cases h : i < 91
  · rw [List.getD_append _ _ _ _ (by omega), dot]
    simp only [toyMask, if_pos h]
    exact (dot_unit a h).symm
  · rw [List.getD_append_right _ _ _ _ (by omega), ha, List.getD_eq_getElem?_getD, List.getElem?_map,
      List.getElem?_range (by omega)]
    simp only [Option.map_some, Option.getD_some, parityBit, dot, toyMask, if_neg h]
    congr 1
    apply List.map_congr_left
    intro k hk
    have hk := List.mem_range.mp hk
    have : ((toyTables.ldpcG.getD (i - 91) []).getD k false) = (k % 83 == i - 91) := by
      simp only [toyTables, List.getD_eq_getElem?_getD, List.getElem?_map, List.getElem?_range (show i - 91 < 83 by omega),
        List.getElem?_range hk, Option.map_some, Option.getD_some]
    rw [this]

/-- The variables of check j of the toy code. -/
def toyRow (j : Nat) : List Nat := [j, (j + 82) % 83, (j + 81) % 83].flatMap toyStart

theorem toy_checkVars {j : Nat} (h : j < 83) : checkVars toyTables j = toyRow j := by
  simp only [checkVars, toyTables, List.getD_eq_getElem?_getD, List.getElem?_map, List.getElem?_range h, Option.map_some,
    Option.getD_some, toyRow]

theorem toy_varChecks {i : Nat} (h : i < 174) : varChecks toyTables i = toyChecks i := by
  simp only [varChecks, toyTables, List.getD_eq_getElem?_getD, List.getElem?_map, List.getElem?_range h, Option.map_some,
    Option.getD_some]

theorem toy_start_cancels {q k : Nat} (hq : q < 83) (hk : k < 91) : parity ((toyStart q).map fun i => toyMask i k) = false := by
  have h1 : toyMask q k = decide (k = q) := by simp [toyMask, show q < 91 by omega, Bool.beq_eq_decide_eq]
  have h2 : toyMask (q + 91) k = decide (k % 83 = q) := by simp [toyMask, Bool.beq_eq_decide_eq]
  by_cases h8 : q < 8
  · have h3 : toyMask (q + 83) k = decide (k = q + 83) := by simp [toyMask, show q + 83 < 91 by omega, Bool.beq_eq_decide_eq]
    simp only [toyStart, if_pos h8, List.cons_append, List.nil_append, List.map_cons, List.map_nil, parity_cons, parity_nil,
      h1, h2, h3]
    by_cases k = q <;> by_cases k = q + 83 <;> by_cases k % 83 = q <;> first | omega | simp [*]
  · simp only [toyStart, if_neg h8, List.cons_append, List.nil_append, List.map_cons, List.map_nil, parity_cons, parity_nil,
      h1, h2]
    by_cases k = q <;> by_cases k % 83 = q <;> first | omega | simp [*]

theorem toy_checks_cancel {j k : Nat} (hk : k < 91) (hj : j < 83) : parity ((toyRow j).map fun i => toyMask i k) = false := by
  simp only [toyRow, List.flatMap_cons, List.flatMap_nil, List.map_append, parity_append, List.map_nil, parity_nil]
  rw [toy_start_cancels (by omega) hk, toy_start_cancels (by omega) hk, toy_start_cancels (by omega) hk]
  rfl

theorem toy_rows : ∀ j < 83, (∀ i ∈ toyRow j, i < 174) ∧ 2 ≤ (toyRow j).length ∧ (toyRow j).Nodup := by decide +kernel

theorem toy_columns : ∀ i < 174, (∀ j ∈ toyChecks i, j < 83) ∧ (toyChecks i).length = 3 ∧ (toyChecks i).Nodup := by
  decide +kernel

theorem mem_toyStart {i q : Nat} (hi : i < 174) (hq : q < 83) :
    i ∈ toyStart q ↔ q = (if i < 91 then i else i - 91) % 83 := by
  simp only [toyStart, List.mem_append, List.mem_singleton]
  split <;> split <;> simp only [List.mem_singleton, List.not_mem_nil, or_false] <;> omega

theorem toy_incident {i j : Nat} (hi : i < 174) (hj : j < 83) : i ∈ toyRow j ↔ j ∈ toyChecks i := by
  simp only [toyRow, toyChecks, List.mem_flatMap, List.mem_cons, List.not_mem_nil, or_false]
  constructor
  · rintro ⟨q, hq, h⟩
    have := (mem_toyStart hi (q := q) (by omega)).mp h
    omega
  · intro h
    refine ⟨(if i < 91 then i else i - 91) % 83, by omega, (mem_toyStart hi (by omega)).mpr rfl⟩

theorem toyTables_ldpcLegal : LdpcLegal toyTables where
  g_shape := by
    refine ⟨by simp [toyTables], fun row h => ?_⟩
    obtain ⟨i, -, rfl⟩ := List.mem_map.mp h
    simp
  nm_shape := by
    refine ⟨by simp [toyTables], fun row h i hi => ?_⟩
    obtain ⟨j, hj, rfl⟩ := List.mem_map.mp h
    exact (toy_rows j (List.mem_range.mp hj)).1 i hi
  mn_shape := by
    refine ⟨by simp [toyTables], fun col h j hj => ?_⟩
    obtain ⟨i, hi, rfl⟩ := List.mem_map.mp h
    exact (toy_columns i (List.mem_range.mp hi)).1 j hj
  mn_three i hi := by rw [toy_varChecks hi]; exact (toy_columns i hi).2
  nm_distinct j hj := by rw [toy_checkVars hj]; exact (toy_rows j hj).2
  incident i hi j hj := by rw [toy_checkVars hj, toy_varChecks hi]; exact toy_incident hi hj
  consistent := by
    intro a ha j hj
    rw [syndromeBit, toy_checkVars hj]
    have h : (toyRow j).map (fun i => (ldpcEnc toyTables a).getD i false)
        = (toyRow j).map fun i => dot (toyMask i) a :=
      List.map_congr_left fun i hi => toy_codeword_bit a ha ((toy_rows j hj).1 i hi)
    rw [h, dot_fold, dot]
    have h2 : (List.range 91).map (fun k => parity ((toyRow j).map fun i => toyMask i k) && a.getD k false)
        = (List.range 91).map fun _ => false := by
      apply List.map_congr_left
      intro k hk
      rw [toy_checks_cancel (List.mem_range.mp hk) hj]
      rfl
    rw [h2, parity_map_false]

theorem toyTables_ft4Legal : Ft4Legal toyTables where
  costas_shape := by decide
  costas_distinct := by decide
  mask_shape := by decide

/-! ### A state in which every command executes without a fault -/

/-- A candidate (0, 2), zero samples, LLRs and tones, and a waterfall of zeros at 0x200. -/
def fullBytes : List Byte := List.replicate 8 0 ++ [2] ++ List.replicate 687 0

def fullBench : State := bench 0x100 fullBytes

theorem readByte_fullBench {a : Nat} (h : 0x100 ≤ a ∧ a < 0x3B8) :
    readByte fullBench a = if a = 0x108 then 2 else 0 := by
  obtain ⟨k, rfl⟩ : ∃ k, a = 0x100 + k := ⟨a - 0x100, by omega⟩
  have hb : fullBench.ldm.byteAt (0x100 + k) = fullBytes[k]? := by
    rw [show fullBench.ldm = cellsFrom 0x100 fullBytes from rfl, byteAt_cellsFrom, if_pos (by omega),
      Nat.add_sub_cancel_left]
  rw [readByte, hb]
  simp only [fullBytes, List.getElem?_append, List.length_append, List.length_replicate, List.length_singleton,
    List.getElem?_replicate]
  by_cases h1 : k < 8
  · simp [h1, show k < 9 by omega, show 0x100 + k ≠ 0x108 by omega]
  · by_cases h2 : k = 8
    · simp [h2]
    · simp [show ¬ k < 9 by omega, show 0x100 + k ≠ 0x108 by omega, show k - 9 < 687 by omega]

/-- A value whose highest byte is 0 is finite. -/
theorem isFinite_f32Read {s : State} {a : Nat} (h : readByte s (a + 3) = 0) : isFinite (f32Read s a) = true := by
  have hm : memRead s a 4 < 2 ^ 24 := by
    have h0 := (readByte s a).isLt
    have h1 := (readByte s (a + 1)).isLt
    have h2 := (readByte s (a + 2)).isLt
    have hr : memRead s a 4 = (readByte s a).toNat + 256 * ((readByte s (a + 1)).toNat
        + 256 * ((readByte s (a + 2)).toNat + 256 * ((readByte s (a + 3)).toNat + 256 * 0))) := rfl
    rw [hr, h]
    simp only [BitVec.ofNat_eq_ofNat, BitVec.toNat_ofNat]
    omega
  have hn : (BitVec.ofNat 32 (memRead s a 4)).toNat = memRead s a 4 := by
    rw [BitVec.toNat_ofNat, Nat.mod_eq_of_lt (by omega)]
  have hf : isNaN (BitVec.ofNat 32 (memRead s a 4)) = false := by
    simp only [isNaN, magBits, infBits, hn, decide_eq_false_iff_not]
    omega
  rw [f32Read, canon_of_not_nan hf]
  simp only [isFinite, magBits, infBits, hn, decide_eq_true_eq]
  omega

theorem isNaN_of_isFinite {x : F32} (h : isFinite x = true) : isNaN x = false := by
  simp only [isFinite, isNaN, decide_eq_true_eq, decide_eq_false_iff_not] at *
  omega

theorem fullBench_datum {k : Nat} (h : k < 174) : isFinite (f32Read fullBench (0x100 + 4 * k)) = true :=
  isFinite_f32Read (by rw [readByte_fullBench (by omega), if_neg (by omega)])

theorem fullBench_paramsLegal (i : Instr) : ParamsLegal i fullBench := by
  intro r _
  cases r
  case len => cases i <;> simp only [LegalParam, LegalLen] <;> decide +kernel
  all_goals simp only [LegalParam]
  all_goals decide +kernel

theorem fullBench_addressesLegal (i : Instr) : AddressesLegal i fullBench := by
  cases i <;>
    simp only [AddressesLegal, Apart, allSpans, wordSpans, writesLdm, readSpans, writtenSize] <;> decide +kernel

theorem fullBench_valid (md : Mode) : ValidRecord md fullBench 0 := by
  cases md <;> unfold ValidRecord ValidCandidate <;> decide +kernel

theorem fullBench_dataLegal (i : Instr) : DataLegal i fullBench := by
  intro k
  cases i <;> simp only [BadDatum, not_false_eq_true, not_and]
  case ldpcDecode =>
    intro h
    rw [show src fullBench = 0x100 from rfl, isNaN_of_isFinite (fullBench_datum h)]
    decide
  case gfskSynth =>
    intro h
    rw [show len fullBench = 1 from rfl] at h
    obtain rfl : k = 0 := by omega
    decide +kernel
  case spectrogram =>
    intro h
    rw [show len fullBench = 1 from rfl] at h
    rw [show src fullBench = 0x100 from rfl, fullBench_datum (by omega)]
    decide
  case llrExtractFt8Lse | llrExtractFt4Lse | llrExtractFt8Max | llrExtractFt4Max =>
    rintro rfl
    exact not_not_intro (fullBench_valid _)
  all_goals
    intro h
    rw [show len fullBench = 1 from rfl] at h
    obtain rfl : k = 0 := by omega
    exact not_not_intro (fullBench_valid _)

/-! ### The hypotheses of each obligation, met -/

/-- The bench while a command word with its delay passed is running. -/
def busyBench (w : Nat) : State := fullBench.withFetchWord 32 w

theorem fullBench_completes (i : Instr) : ∃ t, exec i fullBench = .next t :=
  ⟨_, exec_eq_finish i fullBench⟩

theorem witness_EveryStepKeepsInvariant : ∃ s t : State, s.Inv ∧ step s = .next t :=
  ⟨State.reset, State.reset, ⟨rfl, rfl, fun _ => ⟨rfl, rfl⟩, (fun h => nomatch h), (fun h => nomatch h)⟩, rfl⟩

theorem witness_ConstantAndReservedOffsets : (0x74 ≤ 0x74 ∧ 0x74 ≤ 0xFFC ∧ 0x74 % 4 = 0)
    ∧ 0x74 ≤ 0xFFC ∧ 0xFFC ≤ 0xFFC ∧ 0xFFC % 4 = 0 := by decide

theorem witness_OperandRegistersStoreWhatIsWritten : isOperand .srcAddr = true ∧ isOperand .wfF = true
    ∧ isBusy fullBench = false := by decide +kernel

theorem witness_CommandRegister : isBusy fullBench = false ∧ isBusy (busyBench 0) = true := by decide +kernel

theorem witness_CompletionStepEvents : (busyBench 0).eng = .busy 0 .afterAccess ∧ isBusy (busyBench 0) = true
    ∧ isOperand .len = true ∧ 4 ∈ [1, 2, 4] ∧ 0x01000000 ≤ (0x0100FFFC#32).toNat ∧ (0x0100FFFC#32).toNat % 4 = 0
    ∧ (0x0100FFFC#32).toNat + 4 ≤ 0x01000000 + (busyBench 0).params.ldmSize := by decide +kernel

theorem witness_WritesWhileBusyAreFlagged : isBusy (busyBench 0) = true ∧ isOperand .len = true ∧ 1 ∈ [1, 2, 4]
    ∧ 65535 % 1 = 0 ∧ 65535 + 1 ≤ (busyBench 0).params.ldmSize ∧ 4 ∈ [1, 2, 4] ∧ 0 % 4 = 0
    ∧ 0 + 4 ≤ (busyBench 0).params.ldmSize := by decide +kernel

theorem witness_SoftReset : (1 : Word).getLsbD 0 = true ∧ (0xFFFFFFFE : Word).getLsbD 0 = false ∧ isBusy fullBench = false
    ∧ decode (busyBench 0x05).csr.cmd = .error .illegalOpcode
    ∧ decode (busyBench 0x10).csr.cmd = .ok .ldpcEncode ∧ isBusy (busyBench 0x10) = true
    ∧ writesLdm .ldpcEncode = true ∧ writesLdm .crc14 = false ∧ decode (busyBench 0x01).csr.cmd = .ok .crc14
    ∧ dst (busyBench 0x10) ≤ 0x1015 ∧ 0x1015 < dst (busyBench 0x10) + writtenSize .ldpcEncode (busyBench 0x10) := by
  refine ⟨by decide, by decide, by decide +kernel, rfl, rfl, rfl, rfl, rfl, rfl, by decide +kernel, by decide +kernel⟩

/-- A running command whose TSYM is the given value. -/
def periodBench (w : Nat) (tsym : F32) : State :=
  { busyBench w with csr := { (busyBench w).csr with tsym := tsym } }

/-- A running SPECTROGRAM with an odd NFFT, and with NSTEP = 0. -/
def framesBench (nfft nstep : Word) : State :=
  { busyBench 0x40 with csr := { (busyBench 0x40).csr with nfft := nfft, nstep := nstep } }

/-- A NaN TSYM leaves LLR_EXTRACT its region and GFSK_SYNTH no size; a negative TSYM gives it an empty region. SPECTROGRAM
has a size with an odd NFFT and none with NSTEP = 0. -/
theorem witness_SoftReset_sizes :
    decode (periodBench 0x51 0x7FC00000).csr.cmd = .ok .llrExtractFt8Lse
      ∧ abandonedSpan (periodBench 0x51 0x7FC00000) = some ⟨0x1000, 696⟩
      ∧ decode (periodBench 0x30 0x7FC00000).csr.cmd = .ok .gfskSynth
      ∧ ¬isFinite (periodBench 0x30 0x7FC00000).csr.tsym = true ∧ len (periodBench 0x30 0x7FC00000) ≠ 0
      ∧ abandonedSpan (periodBench 0x30 0x7FC00000) = some ⟨0x1000, 0xF000⟩
      ∧ isFinite (periodBench 0x30 0xBE000000).csr.tsym = true
      ∧ abandonedSpan (periodBench 0x30 0xBE000000) = some ⟨0x1000, 0⟩
      ∧ decode (framesBench 33 1).csr.cmd = .ok .spectrogram ∧ 1 ≤ nstep (framesBench 33 1)
      ∧ abandonedSpan (framesBench 33 1) = some ⟨0x1000, 70⟩
      ∧ abandonedSpan (framesBench 32 0) = some ⟨0x1000, 0xF000⟩ := by decide +kernel

theorem witness_LittleEndian : isBusy fullBench = false ∧ 4 ∈ [1, 2, 4] ∧ 65532 % 4 = 0
    ∧ 65532 + 4 ≤ fullBench.params.ldmSize ∧ 3 < 4 := by decide +kernel

theorem witness_BusErrorsAndReads :
    ¬((0x1000 < 0x1000 ∧ 4 = 4 ∧ 0x1000 % 4 = 0)
      ∨ (0x01000000 ≤ 0x1000 ∧ 4 ∈ [1, 2, 4] ∧ 0x1000 % 4 = 0 ∧ 0x1000 + 4 ≤ 0x01000000 + fullBench.params.ldmSize))
    ∧ (0xFFC < 0x1000 ∧ 4 = 4 ∧ 0xFFC % 4 = 0)
    ∧ (0x01000000 ≤ 0x0100FFFE ∧ 2 ∈ [1, 2, 4] ∧ 0x0100FFFE % 2 = 0
        ∧ 0x0100FFFE + 2 ≤ 0x01000000 + fullBench.params.ldmSize)
    ∧ csrOffset .nspsym = 0x070 ∧ isBusy fullBench = false := by decide +kernel

theorem witness_DecodeOfEncode : (Instr.decodeFt4Max 255).wellFormed = true := by decide

theorem witness_DecodeOrder : (0x05#32).toNat % 2 ^ 8 ∉ mapOpcodes ∧ (0x0100#32).toNat % 2 ^ 8 ∈ mapOpcodes
    ∧ ¬FieldsLegal 0x00000100 ∧ (0x00FF0352#32).toNat % 2 ^ 8 ∈ mapOpcodes ∧ FieldsLegal 0x00FF0352 := by
  unfold FieldsLegal
  decide

/-- The bench in the completion step of a word, with the host's next step given. -/
def completing (w : Nat) (h : HostStep) : State := { busyBench w with bus := [h] }

/-- The bench in the completion step of a word, the completion coming before the host's access. -/
def completingFirst (w : Nat) (h : HostStep) : State := { completing w h with eng := .busy 0 .beforeAccess }

theorem witness_StepRunsTheDecodedCommand : (busyBench 0x11).eng = .busy 0 .afterAccess
    ∧ (hostStep (busyBench 0x11)).eng = .busy 0 .afterAccess
    ∧ decode (busyBench 0x11).csr.cmd = .ok (.ldpcDecode 0) ∧ (Instr.ldpcDecode 0).wellFormed = true
    ∧ (completing 0x11 (.write 0x008 4 1)).eng = .busy 0 .afterAccess
    ∧ (hostStep (completing 0x11 (.write 0x008 4 1))).eng ≠ .busy 0 .afterAccess
    ∧ (completingFirst 0x02 (.write 0x014 4 3)).eng = .busy 0 .beforeAccess
    ∧ decode (completingFirst 0x02 (.write 0x014 4 3)).csr.cmd = .ok .crcAppend
    ∧ fullBench.eng = .idle ∧ fullBench.bus = [] ∧ (completing 0 .powerOn).bus = .powerOn :: []
    ∧ 0xFFFF < (completing 0 .powerOn).params.ldmSize := by decide +kernel

theorem witness_IllegalWordsFault : (busyBench 0x05).eng = .busy 0 .afterAccess
    ∧ (atCompletion .afterAccess (busyBench 0x05)).eng = .busy 0 .afterAccess
    ∧ (busyBench 0x05).csr.cmd.toNat % 2 ^ 8 ∉ mapOpcodes
    ∧ (completingFirst 0x0100 .poll).eng = .busy 0 .beforeAccess
    ∧ (atCompletion .beforeAccess (completingFirst 0x0100 .poll)).eng = .busy 0 .beforeAccess
    ∧ (completingFirst 0x0100 .poll).csr.cmd.toNat % 2 ^ 8 ∈ mapOpcodes
    ∧ ¬FieldsLegal (completingFirst 0x0100 .poll).csr.cmd := by
  unfold FieldsLegal
  decide +kernel

/-- The bench with its destination on its source. -/
def inPlaceBench : State := { fullBench with csr := { benchCsrs with dstAddr := 0x100 } }

/-- The bench with a source that is not aligned. -/
def misalignedBench : State := { fullBench with csr := { benchCsrs with srcAddr := 0x101 } }

/-- The bench with a source past the end of LDM. -/
def farBench : State := { fullBench with csr := { benchCsrs with srcAddr := 0xFFFF } }

theorem witness_FaultsArePrecise : evaluate (commandOf .ft4Xor) inPlaceBench = .error ⟨.overlap, 0x100⟩
    ∧ (busyBench 0x05).eng = .busy 0 .afterAccess
    ∧ (atCompletion .afterAccess (busyBench 0x05)).eng = .busy 0 .afterAccess
    ∧ decode (busyBench 0x05).csr.cmd = .error .illegalOpcode
    ∧ (completingFirst 0x05 .poll).eng = .busy 0 .beforeAccess
    ∧ decode (completingFirst 0x05 .poll).csr.cmd = .error .illegalOpcode := ⟨rfl, rfl, rfl, rfl, rfl, rfl⟩

/-- LEN = 0: the four checks before LEN pass, LEN fails. -/
def emptyBench : State := { fullBench with csr := { benchCsrs with len := 0 } }

theorem witness_InvalidParamNamesTheFirstBadRegister :
    paramChecks .gfskSynth = [.fsHz, .tsym, .bt, .f0Hz] ++ .len :: []
      ∧ (∀ q ∈ [Csr.fsHz, .tsym, .bt, .f0Hz], LegalParam .gfskSynth emptyBench q)
      ∧ ¬LegalParam .gfskSynth emptyBench .len := by
  refine ⟨rfl, fun q hq => ?_, by simp only [LegalParam, LegalLen]; decide +kernel⟩
  simp only [List.mem_cons, List.not_mem_nil, or_false] at hq
  rcases hq with rfl | rfl | rfl | rfl <;> simp only [LegalParam] <;> decide +kernel

theorem witness_AddressFaultsInOrder :
    ParamsLegal (.ldpcDecode 0) farBench ∧ ParamsLegal (.ldpcDecode 0) misalignedBench ∧ ParamsLegal .ft4Xor inPlaceBench
      ∧ allSpans (.ldpcDecode 0) farBench = [] ++ ⟨0xFFFF, 696⟩ :: [⟨0x1000, 22⟩]
      ∧ farBench.params.ldmSize < 0xFFFF + 696
      ∧ (∀ q ∈ allSpans (.ldpcDecode 0) misalignedBench, q.base + q.size ≤ misalignedBench.params.ldmSize)
      ∧ wordSpans (.ldpcDecode 0) misalignedBench = [] ++ ⟨0x101, 696⟩ :: [] ∧ 696 ≠ 0 ∧ 0x101 % 4 ≠ 0
      ∧ (∀ q ∈ allSpans .ft4Xor inPlaceBench, q.base + q.size ≤ inPlaceBench.params.ldmSize)
      ∧ (∀ q ∈ wordSpans .ft4Xor inPlaceBench, q.size = 0 ∨ q.base % 4 = 0) ∧ writesLdm .ft4Xor = true
      ∧ ∃ r ∈ readSpans .ft4Xor inPlaceBench, ¬Apart (dst inPlaceBench) (writtenSize .ft4Xor inPlaceBench) r.base r.size := by
  refine ⟨fun r h => by simp [paramChecks] at h, fun r h => by simp [paramChecks] at h,
    fun r h => by simp [paramChecks] at h, by decide +kernel, by decide +kernel, by decide +kernel, by decide +kernel,
    by decide, by decide, by decide +kernel, by decide +kernel, rfl, ⟨0x100, 10⟩, by decide +kernel, ?_⟩
  simp only [Apart]
  decide +kernel

/-- The bench with the tones 7, 8, 9 at 0x108. -/
def toneListBench : State :=
  { bench 0x100 (List.replicate 8 0 ++ [7, 8, 9]) with csr := { benchCsrs with srcAddr := 0x108, len := 3 } }

theorem witness_InvalidValueNamesTheLeastIndex :
    ParamsLegal .gfskSynth toneListBench ∧ AddressesLegal .gfskSynth toneListBench ∧ BadDatum .gfskSynth toneListBench 1
      ∧ ∀ j, j < 1 → ¬BadDatum .gfskSynth toneListBench j := by
  refine ⟨fun r h => ?_, ?_, ?_, fun j hj => ?_⟩
  · simp only [paramChecks, List.mem_cons, List.not_mem_nil, or_false] at h
    rcases h with rfl | rfl | rfl | rfl | rfl <;> simp only [LegalParam, LegalLen] <;> decide +kernel
  · simp only [AddressesLegal, Apart]
    decide +kernel
  · simp only [BadDatum]
    decide +kernel
  · obtain rfl : j = 0 := by omega
    simp only [BadDatum]
    decide +kernel

/-- Every command meets its hypotheses on the bench: this witness serves each obligation about one command too. -/
theorem witness_LegalCommandsCompleteWithinTheirRow (i : Instr) :
    ParamsLegal i fullBench ∧ AddressesLegal i fullBench ∧ DataLegal i fullBench :=
  ⟨fullBench_paramsLegal i, fullBench_addressesLegal i, fullBench_dataLegal i⟩

theorem witness_OutcomeDependsOnTheRowAlone (i : Instr) :
    Ft4Legal fullBench.params.tables ∧ (busyBench 0).params = fullBench.params
      ∧ (∀ r ∈ csrsRead i, readCsr r (busyBench 0) = readCsr r fullBench)
      ∧ ∀ r ∈ readSpans i fullBench, ∀ a, r.covers a = true → readByte (busyBench 0) a = readByte fullBench a := by
  refine ⟨toyTables_ft4Legal, rfl, fun r hr => ?_, fun r _ a _ => rfl⟩
  cases r <;> first | rfl | (cases i <;> simp [csrsRead] at hr)

theorem witness_RunningCommandIsUndisturbed (w : Nat) :
    let s := { busyBench w with eng := .busy 2 .afterAccess, bus := [.poll, .write 0x014 4 1, .write 0x00C 4 0x1E] }
    s.eng = .busy 2 .afterAccess ∧ ∀ h ∈ s.bus, h.keepsRunning = true :=
  ⟨rfl, (by decide : ∀ h ∈ [HostStep.poll, .write 0x014 4 1, .write 0x00C 4 0x1E], h.keepsRunning = true)⟩

theorem witness_NopSetsDoneOnly : (0x00000100 : Word).toNat % 2 ^ 8 = 0 ∧ (0x00000100 : Word) ≠ 0 := by decide

theorem witness_Crc14IsThePolynomialRemainder : [true, false].length = [false, true].length := rfl

theorem witness_SingleBitErrorsAreDetected :
    (List.replicate 91 false).length = 91 ∧ 0 < 91 ∧ 90 < 91
      ∧ (List.replicate 91 false).drop 77 = crcBits (crc77 ((List.replicate 91 false).take 77)) := by decide +kernel

theorem witness_Crc14Command : AddressesLegal .crc14 fullBench ∧ AddressesLegal .crc14 emptyBench ∧ len emptyBench = 0 :=
  ⟨fullBench_addressesLegal _, by simp only [AddressesLegal, Apart]; decide +kernel, rfl⟩

theorem witness_CrcAppendCommand : AddressesLegal .crcAppend fullBench := fullBench_addressesLegal _

theorem witness_CrcCheckCommand : AddressesLegal .crcCheck fullBench ∧ AddressesLegal .crcAppend fullBench
    ∧ ∃ t, exec .crcAppend fullBench = .next t
      ∧ let u := { t with csr := { t.csr with srcAddr := 0x1000 } }
        src u = dst fullBench ∧ (∀ a, readByte u a = readByte t a) ∧ AddressesLegal .crcCheck u := by
  refine ⟨fullBench_addressesLegal _, fullBench_addressesLegal _, _, exec_eq_finish _ _, rfl, fun _ => rfl, ?_⟩
  simp only [AddressesLegal, Apart]
  decide +kernel

theorem witness_Ft4XorCommand : AddressesLegal .ft4Xor fullBench ∧ (List.replicate 77 true).length = 77 :=
  ⟨fullBench_addressesLegal _, by decide⟩

theorem witness_LdpcEncodingFunction : (List.replicate 91 true).length = 91 := by decide

theorem witness_LdpcEncodeCommand : AddressesLegal .ldpcEncode fullBench := fullBench_addressesLegal _

theorem witness_GraphHas522Edges : LdpcLegal toyTables := toyTables_ldpcLegal

theorem witness_DecoderKeepsTheEarliestBest : 1 ≤ 1 ∧ LdpcLegal toyTables := ⟨Nat.le_refl 1, toyTables_ldpcLegal⟩

theorem witness_LdpcDecodeCommand (iter : Nat) :
    AddressesLegal (.ldpcDecode iter) fullBench ∧ DataLegal (.ldpcDecode iter) fullBench :=
  ⟨fullBench_addressesLegal _, fullBench_dataLegal _⟩

/-- The bench with the candidate's byte cleared: 174 LLRs +0.0. -/
def zeroBench : State := { fullBench with ldm := cellsFrom 0x100 (List.replicate 696 0) }

theorem readByte_zeroBench {a : Nat} (h : 0x100 ≤ a ∧ a < 0x3B8) : readByte zeroBench a = 0 := by
  have hb : zeroBench.ldm.byteAt a = some 0 := by
    rw [show zeroBench.ldm = cellsFrom 0x100 (List.replicate 696 0) from rfl, byteAt_cellsFrom, if_pos h.1,
      List.getElem?_replicate, if_pos (by omega)]
  rw [readByte, hb]

theorem witness_ZeroLlrsDecodeToZero (iter : Nat) : AddressesLegal (.ldpcDecode iter) zeroBench
    ∧ (∀ j, j < 174 → isZero (f32Read zeroBench (src zeroBench + 4 * j)) = true)
    ∧ ∀ c, c < 83 → 2 ≤ (checkVars zeroBench.params.tables c).length := by
  refine ⟨fullBench_addressesLegal (.ldpcDecode iter), fun j hj => ?_, fun c hc => (toyTables_ldpcLegal.nm_distinct c hc).1⟩
  have h : f32Read zeroBench (src zeroBench + 4 * j) = 0 := by
    rw [show src zeroBench = 0x100 from rfl, f32Read, memRead, readBytes,
      List.map_congr_left (g := fun _ => (0 : Byte)) fun k hk => readByte_zeroBench (by
        have := List.mem_range.mp hk
        omega)]
    rfl
  rw [h]
  decide

theorem witness_TonemapFt8Command : AddressesLegal .tonemapFt8 fullBench := fullBench_addressesLegal _

theorem witness_TonemapFt4Command : Ft4Legal fullBench.params.tables ∧ AddressesLegal .tonemapFt4 fullBench :=
  ⟨toyTables_ft4Legal, fullBench_addressesLegal _⟩

theorem witness_EncodeCommand (md : Mode) : AddressesLegal (encodeOf md) fullBench := fullBench_addressesLegal _

/-- A state with its source where the state before it wrote. -/
def onward (t : State) (src dst : Word) : State := { t with csr := { t.csr with srcAddr := src, dstAddr := dst } }

/-- The state a command leaves. -/
def ran (i : Instr) (s : State) : State := finish (evaluate (commandOf i) s) s

theorem witness_EncodeIsTheChainOfItsParts :
    let u := ran .ft4Xor fullBench
    let s1 := onward u 0x1000 0x2000
    let t1 := ran .crcAppend s1
    let s2 := onward t1 0x2000 0x3000
    let t2 := ran .ldpcEncode s2
    let s3 := onward t2 0x3000 0x4000
    s1.params = fullBench.params ∧ s2.params = fullBench.params ∧ s3.params = fullBench.params
      ∧ AddressesLegal (encodeOf .ft4) fullBench ∧ (∃ t, exec (encodeOf .ft4) fullBench = .next t)
      ∧ AddressesLegal .ft4Xor fullBench ∧ exec .ft4Xor fullBench = .next u
      ∧ readBits s1 (src s1) 77 = readBits u (dst fullBench) 77
      ∧ AddressesLegal .crcAppend s1 ∧ exec .crcAppend s1 = .next t1
      ∧ AddressesLegal .ldpcEncode s2 ∧ readBits s2 (src s2) 91 = readBits t1 (dst s1) 91 ∧ exec .ldpcEncode s2 = .next t2
      ∧ AddressesLegal (tonemapOf .ft4) s3 ∧ readBits s3 (src s3) 174 = readBits t2 (dst s2) 174
      ∧ ∃ t3, exec (tonemapOf .ft4) s3 = .next t3 := by
  have hp (i : Instr) (s : State) : (ran i s).params = s.params := (finish_frame _ _).1
  refine ⟨?_, ?_, ?_, fullBench_addressesLegal _, ⟨_, exec_eq_finish _ _⟩, fullBench_addressesLegal _, exec_eq_finish _ _, rfl,
    ?_, exec_eq_finish _ _, ?_, rfl, exec_eq_finish _ _, ?_, rfl, ⟨_, exec_eq_finish _ _⟩⟩
  · exact hp _ _
  · rw [onward, hp, onward, hp]
  · rw [onward, hp, onward, hp, onward, hp]
  all_goals
    simp only [AddressesLegal, Apart, allSpans, wordSpans, readSpans, writesLdm, writtenSize, src, dst, onward, hp, tonemapOf]
    decide +kernel

/-- The same chain for FT8, which starts at CRC_APPEND. -/
theorem witness_EncodeIsTheChainOfItsParts_ft8 :
    let t1 := ran .crcAppend fullBench
    let s2 := onward t1 0x1000 0x3000
    let t2 := ran .ldpcEncode s2
    let s3 := onward t2 0x3000 0x4000
    s2.params = fullBench.params ∧ s3.params = fullBench.params
      ∧ AddressesLegal (encodeOf .ft8) fullBench ∧ (∃ t, exec (encodeOf .ft8) fullBench = .next t)
      ∧ AddressesLegal .crcAppend fullBench ∧ exec .crcAppend fullBench = .next t1
      ∧ AddressesLegal .ldpcEncode s2 ∧ readBits s2 (src s2) 91 = readBits t1 (dst fullBench) 91
      ∧ exec .ldpcEncode s2 = .next t2
      ∧ AddressesLegal (tonemapOf .ft8) s3 ∧ readBits s3 (src s3) 174 = readBits t2 (dst s2) 174
      ∧ ∃ t3, exec (tonemapOf .ft8) s3 = .next t3 := by
  have hp (i : Instr) (s : State) : (ran i s).params = s.params := (finish_frame _ _).1
  refine ⟨?_, ?_, fullBench_addressesLegal _, ⟨_, exec_eq_finish _ _⟩, fullBench_addressesLegal _, exec_eq_finish _ _, ?_, rfl,
    exec_eq_finish _ _, ?_, rfl, ⟨_, exec_eq_finish _ _⟩⟩
  · exact hp _ _
  · rw [onward, hp, onward, hp]
  all_goals
    simp only [AddressesLegal, Apart, allSpans, wordSpans, readSpans, writesLdm, writtenSize, src, dst, onward, hp, tonemapOf]
    decide +kernel

theorem witness_SamplesPerSymbol : isFinite fullBench.csr.tsym = true ∧ 0 < exact fullBench.csr.tsym := by
  decide +kernel

theorem witness_GfskSynthCommand : ParamsLegal .gfskSynth fullBench ∧ AddressesLegal .gfskSynth fullBench
    ∧ DataLegal .gfskSynth fullBench :=
  witness_LegalCommandsCompleteWithinTheirRow _

/-- The operands of a synthesis of two tones at 14 samples each. -/
def toyOperands : SynthOperands := { n := 14, fs := 128, bt := fTwo, f0 := fZero, ts := [3, 0] }

theorem witness_PhaseIncrementsAreTheBufferPasses :
    1 ≤ toyOperands.n ∧ 1 ≤ toyOperands.ts.length ∧ 55 < (toyOperands.ts.length + 2) * toyOperands.n := by decide

theorem witness_WaveformFollowsThePhase : 1 ≤ toyOperands.n ∧ 1 ≤ toyOperands.ts.length := by decide

theorem witness_WaveformIsBounded : (1 ≤ toyOperands.n ∧ 1 ≤ toyOperands.ts.length ∧ 8 ≤ toyOperands.n)
    ∧ (∀ x, unitBounded (NUM.sin x) = true) ∧ ∀ x, unitBounded (NUM.cos x) = true :=
  ⟨by decide, NUM_sin_bounded, NUM_cos_bounded⟩

theorem witness_SpectrogramCommand : ParamsLegal .spectrogram fullBench ∧ AddressesLegal .spectrogram fullBench
    ∧ DataLegal .spectrogram fullBench :=
  witness_LegalCommandsCompleteWithinTheirRow _

/-- A record of constant functions, odd where P2 asks for it. -/
def plainNum : Num where
  sin _ := fZero
  cos _ := fOne
  erf x := zeroOf x
  tanh x := zeroOf x
  atanh x := zeroOf x
  exp _ := fOne
  log _ := fZero
  log10 _ := fZero
  exp10 _ := fOne
  fft _ _ := (fZero, fZero)

theorem zeroOf_fneg {x : F32} (h : isNaN x = false) : zeroOf (fneg x) = fneg (zeroOf x) := by
  have hm := magBits_lt x
  rw [fneg, h]
  simp only [Bool.false_eq_true, if_false, zeroOf, signBit_mkF32 _ hm]
  cases signBit x <;> decide

theorem unitBounded_zeroOf (x : F32) : unitBounded (zeroOf x) = true := by
  rw [zeroOf]
  cases signBit x <;> decide

theorem plainNum_props : NumProps plainNum where
  p1_sin := rfl
  p1_cos := rfl
  p1_erf := rfl
  p1_tanh := rfl
  p1_atanh := rfl
  p1_exp := rfl
  p1_log := rfl
  p1_exp10 := rfl
  p2_tanh _ h := zeroOf_fneg h
  p2_atanh _ h := zeroOf_fneg h
  p2_erf _ h := zeroOf_fneg h
  p3_sin _ := rfl
  p3_cos _ := rfl
  p3_erf x := unitBounded_zeroOf x
  p3_tanh x := unitBounded_zeroOf x
  p4_fft _ _ _ := ⟨rfl, rfl⟩
  canon_atanh x := by
    change canon (zeroOf x) = zeroOf x
    rw [zeroOf]
    cases signBit x <;> decide
  canon_exp _ := rfl
  canon_log _ := rfl
  canon_log10 _ := rfl
  canon_exp10 _ := rfl
  canon_fft _ _ := ⟨rfl, rfl⟩

theorem witness_SilenceGivesAZeroWaterfall : NumProps plainNum ∧ isNaN (plainNum.log10 EPS6) = false :=
  ⟨plainNum_props, by decide⟩

theorem witness_NumRangesOverTheRecordsOfR8 : NumProps plainNum := plainNum_props

theorem witness_KeptCandidatesAreTheLocalMaxima : Ft4Legal fullBench.params.tables := toyTables_ft4Legal

theorem witness_SearchGrid : 1 ≤ (gridOf fullBench).n ∧ 1 ≤ (gridOf fullBench).nstep ∧ 1 ≤ (gridOf fullBench).t
    ∧ 1 ≤ fs fullBench := by decide +kernel

theorem witness_SyncSearchCommand (md : Mode) : ParamsLegal (syncSearchOf md) fullBench
    ∧ AddressesLegal (syncSearchOf md) fullBench :=
  ⟨fullBench_paramsLegal _, fullBench_addressesLegal _⟩

theorem witness_LlrExtractCommand (md : Mode) (mt : Metric) : ParamsLegal (llrExtractOf md mt) fullBench
    ∧ AddressesLegal (llrExtractOf md mt) fullBench ∧ DataLegal (llrExtractOf md mt) fullBench :=
  witness_LegalCommandsCompleteWithinTheirRow _

theorem witness_IsolatedToneFixesTheSigns :
    7 < toneCount .ft8 ∧ 2 < bitsPerSymbol .ft8 ∧ isFinite fOne = true ∧ 0 < exact fOne := by decide +kernel

theorem witness_DecodeCommand (md : Mode) (mt : Metric) (iter : Nat) : ParamsLegal (decodeOf md mt iter) fullBench
    ∧ AddressesLegal (decodeOf md mt iter) fullBench ∧ DataLegal (decodeOf md mt iter) fullBench :=
  witness_LegalCommandsCompleteWithinTheirRow _

theorem witness_DecodedRecordsAreDistinctAndChecked (md : Mode) (mt : Metric) (iter : Nat) :
    ParamsLegal (decodeOf md mt iter) fullBench ∧ AddressesLegal (decodeOf md mt iter) fullBench
      ∧ DataLegal (decodeOf md mt iter) fullBench ∧ ∃ t, exec (decodeOf md mt iter) fullBench = .next t :=
  ⟨fullBench_paramsLegal _, fullBench_addressesLegal _, fullBench_dataLegal _, fullBench_completes _⟩

theorem witness_ArithmeticIsCorrectlyRounded : isFinite fOne = true ∧ isFinite fTwo = true ∧ exact fTwo ≠ 0 := by
  decide +kernel

theorem witness_RootsAndConversionsAreRounded : isFinite fTwo = true ∧ 0 ≤ exact fTwo ∧ 16777216 ≤ 2 ^ 24 := by
  decide +kernel

theorem witness_NaNsAreCanonical : isNaN qNaN = true ∧ isFinite MCLAMP = true ∧ 0 < exact MCLAMP ∧ isNaN fOne = false := by
  decide +kernel

end Sys2Proof.Tests
end

section
/-! PROOFS. Finite binary32 values as numbers (spec/00_scope.md R8): the magnitude field as a strictly rising count of units
of 2^-149, and `exact` of the sign and the magnitude. -/

namespace Sys2Proof.Machine

/-! ### Units of a magnitude field -/

/-- The significand r in the binade e; at the lower end the subnormals (e = 0), at the upper end the next power of two. -/
theorem scaledMag_binade {e r : Nat} (hlo : e = 0 ∨ 2 ^ 23 ≤ r) (hhi : r ≤ 2 ^ 24) :
    scaledMag (e * 2 ^ 23 + r) = r * 2 ^ e := by
  rw [scaledMag]
  by_cases hsub : r < 2 ^ 23
  · obtain rfl : e = 0 := by omega
    rw [if_pos (by omega), zero_mul, zero_add, pow_zero, mul_one]
  rw [if_neg (by omega)]
  by_cases htop : r = 2 ^ 24
  · subst htop
    have hdiv : (e * 2 ^ 23 + 2 ^ 24) / 2 ^ 23 - 1 = e + 1 := by omega
    have hmod : (e * 2 ^ 23 + 2 ^ 24) % 2 ^ 23 = 0 := by omega
    rw [hdiv, hmod, pow_succ]
    ring
  · have hdiv : (e * 2 ^ 23 + r) / 2 ^ 23 - 1 = e := by omega
    have hmod : 2 ^ 23 + (e * 2 ^ 23 + r) % 2 ^ 23 = r := by omega
    rw [hdiv, hmod]

/-- Every magnitude field is a significand below 2^24 in its binade. -/
theorem exists_binade (m : Nat) : ∃ e r, m = e * 2 ^ 23 + r ∧ (e = 0 ∨ 2 ^ 23 ≤ r) ∧ r < 2 ^ 24 := by
  by_cases h : m < 2 ^ 23
  · exact ⟨0, m, by omega, .inl rfl, by omega⟩
  · exact ⟨m / 2 ^ 23 - 1, 2 ^ 23 + m % 2 ^ 23, by omega, .inr (by omega), by omega⟩

theorem scaledMag_strictMono : StrictMono scaledMag := by
  refine strictMono_nat_of_lt_succ fun m => ?_
  obtain ⟨e, r, rfl, hlo, hhi⟩ := exists_binade m
  rw [add_assoc, scaledMag_binade hlo hhi.le, scaledMag_binade (by omega) (by omega)]
  exact Nat.mul_lt_mul_of_pos_right (by omega) (by positivity)

@[simp] theorem scaledMag_zero : scaledMag 0 = 0 := rfl

@[simp] theorem scaledMag_eq_zero {m : Nat} : scaledMag m = 0 ↔ m = 0 := by
  exact scaledMag_strictMono.injective.eq_iff (a := m) (b := 0)

theorem scaledMag_infBits : scaledMag infBits = 2 ^ 128 * 2 ^ 149 := by
  change scaledMag (254 * 2 ^ 23 + 2 ^ 23) = 2 ^ 128 * 2 ^ 149
  rw [scaledMag_binade (.inr le_rfl) (by omega), ← pow_add, ← pow_add]

/-- The units of the largest finite magnitude. -/
theorem scaledMag_maxFinite : scaledMag (infBits - 1) = (2 ^ 128 - 2 ^ 104) * 2 ^ 149 := by
  change scaledMag (253 * 2 ^ 23 + (2 ^ 24 - 1)) = _
  rw [scaledMag_binade (by omega) (by omega)]
  norm_num

/-- Past the first binade every magnitude is an even number of units. -/
theorem scaledMag_even {m : Nat} (h : 2 ^ 24 ≤ m) : 2 ∣ scaledMag m := by
  obtain ⟨e, r, rfl, hlo, hhi⟩ := exists_binade m
  rw [scaledMag_binade hlo hhi.le]
  exact Dvd.dvd.mul_left (dvd_pow_self 2 (by omega)) r

/-- A natural number up to 2^24, at any power of two, is the number of units of some magnitude. -/
theorem exists_scaledMag_eq (e : Nat) : ∀ n, n ≤ 2 ^ 24 → ∃ m, scaledMag m = n * 2 ^ e := by
  induction e with
  | zero => exact fun n hn => ⟨0 * 2 ^ 23 + n, scaledMag_binade (.inl rfl) hn⟩
  | succ e ih =>
    intro n hn
    by_cases hbig : 2 ^ 23 ≤ n
    · exact ⟨_, scaledMag_binade (.inr hbig) hn⟩
    · obtain ⟨m, hm⟩ := ih (2 * n) (by omega)
      exact ⟨m, by rw [hm, pow_succ]; ring⟩

/-! ### `exact` of a sign and a magnitude -/

theorem isFinite_iff {x : F32} : isFinite x = true ↔ magBits x < infBits := by rw [isFinite, decide_eq_true_eq]

theorem not_isNaN_of_finite {x : F32} (h : isFinite x = true) : isNaN x = false := by
  rw [isFinite_iff] at h
  exact decide_eq_false (by omega)

theorem not_isInf_of_finite {x : F32} (h : isFinite x = true) : isInf x = false := by
  rw [isFinite_iff] at h
  exact beq_eq_false_iff_ne.mpr (by omega)

theorem exact_eq (x : F32) : exact x = (if signBit x then -1 else 1) * (scaledMag (magBits x) / 2 ^ 149) := by
  rw [exact, scaled]
  split <;> push_cast <;> ring

theorem abs_exact (x : F32) : |exact x| = scaledMag (magBits x) / 2 ^ 149 := by
  rw [exact_eq, abs_mul, abs_of_nonneg (by positivity : (0 : ℚ) ≤ scaledMag (magBits x) / 2 ^ 149)]
  split <;> simp

theorem exact_eq_zero_iff {x : F32} : exact x = 0 ↔ magBits x = 0 := by
  rw [← abs_eq_zero, abs_exact, div_eq_zero_iff]
  simp

theorem isZero_iff_exact {x : F32} : isZero x = true ↔ exact x = 0 := by
  rw [exact_eq_zero_iff, isZero, beq_iff_eq]

/-- The sign bit of a value that is not a zero says whether it is below 0. -/
theorem signBit_eq_of_exact_ne_zero {x : F32} (h : exact x ≠ 0) : signBit x = decide (exact x < 0) := by
  have hpos : 0 < (scaledMag (magBits x) : ℚ) / 2 ^ 149 := abs_exact x ▸ abs_pos.mpr h
  rw [exact_eq]
  cases signBit x
  · simpa using hpos.le
  · simpa using hpos

section
variable {x : F32} (h : isNaN x = false)
include h

theorem fneg_of_not_isNaN : fneg x = mkF32 (!signBit x) (magBits x) := by simp [fneg, h]

theorem magBits_fneg : magBits (fneg x) = magBits x := by
  rw [fneg_of_not_isNaN h, magBits_mkF32 _ (magBits_lt x)]

theorem signBit_fneg : signBit (fneg x) = !signBit x := by
  rw [fneg_of_not_isNaN h, signBit_mkF32 _ (magBits_lt x)]

theorem exact_fneg : exact (fneg x) = -exact x := by
  rw [exact_eq, exact_eq, magBits_fneg h, signBit_fneg h]
  cases signBit x <;> simp

theorem not_isNaN_fneg : isNaN (fneg x) = false := by rw [isNaN, magBits_fneg h]; exact h

theorem fneg_fneg : fneg (fneg x) = x := by
  rw [fneg_of_not_isNaN (not_isNaN_fneg h), magBits_fneg h, signBit_fneg h, Bool.not_not, mkF32_signBit_magBits]

end

theorem isFinite_fneg {x : F32} (h : isFinite x = true) : isFinite (fneg x) = true := by
  rw [isFinite, magBits_fneg (not_isNaN_of_finite h)]; exact h

end Sys2Proof.Machine
end

section
/-! PROOFS. Rounding to nearest, ties to even (spec/00_scope.md R8, R12 (a), (g)): `NearestMag v m` compares v with the midpoints
between the magnitude m and its two neighbours; `roundMag` satisfies it, and it implies `RoundsTo`. -/

namespace Sys2Proof.Machine

/-- m is the magnitude field nearest v units of 2^-149: v lies between the midpoints to the neighbours of m, and on a midpoint
only where m is even. Infinity counts as the magnitude 2^128 and has no upper midpoint. -/
structure NearestMag (v : ℝ) (m : Nat) : Prop where
  lower : ∀ k, m = k + 1 →
    (scaledMag k + scaledMag m : ℝ) ≤ 2 * v ∧ ((scaledMag k + scaledMag m : ℝ) = 2 * v → m % 2 = 0)
  upper : m < infBits →
    2 * v ≤ (scaledMag m + scaledMag (m + 1) : ℝ) ∧ (2 * v = (scaledMag m + scaledMag (m + 1) : ℝ) → m % 2 = 0)

theorem cast_scaledMag_strictMono : StrictMono fun m => (scaledMag m : ℝ) :=
  Nat.strictMono_cast.comp scaledMag_strictMono

/-! ### Consequences of being nearest -/

namespace NearestMag
variable {v : ℝ} {m k : Nat}

theorem below (h : NearestMag v m) (hk : k < m) :
    (scaledMag k + scaledMag m : ℝ) ≤ 2 * v ∧ ((scaledMag k + scaledMag m : ℝ) = 2 * v → m % 2 = 0) := by
  obtain ⟨hle, heven⟩ := h.lower (m - 1) (by omega)
  have hmono : (scaledMag k : ℝ) ≤ scaledMag (m - 1) := cast_scaledMag_strictMono.monotone (by omega : k ≤ m - 1)
  exact ⟨by linarith, fun heq => heven (by linarith)⟩

theorem above (h : NearestMag v m) (hk : m < k) (hinf : k ≤ infBits) :
    2 * v ≤ (scaledMag m + scaledMag k : ℝ) ∧ (2 * v = (scaledMag m + scaledMag k : ℝ) → m % 2 = 0) := by
  obtain ⟨hle, heven⟩ := h.upper (by omega)
  have hmono : (scaledMag (m + 1) : ℝ) ≤ scaledMag k := cast_scaledMag_strictMono.monotone hk
  exact ⟨by linarith, fun heq => heven (by linarith)⟩

/-- Replacing what lies past infinity by infinity keeps the property. -/
theorem min_infBits (h : NearestMag v m) : NearestMag v (min m infBits) := by
  rcases le_or_gt m infBits with hm | hm
  · rwa [min_eq_left hm]
  rw [min_eq_right hm.le]
  have hle := (h.below hm).1
  have hmono := cast_scaledMag_strictMono hm
  refine ⟨fun k hk => ⟨?_, fun _ => by decide⟩, fun hlt => absurd hlt (lt_irrefl _)⟩
  have hk' := cast_scaledMag_strictMono (show k < infBits by omega)
  simp only at hmono hk'
  linarith

/-- Nothing is nearer; what is as near is the same magnitude, or the nearest one is even. -/
theorem abs_sub_le (h : NearestMag v m) (hinf : k ≤ infBits) :
    |(scaledMag m : ℝ) - v| ≤ |(scaledMag k : ℝ) - v|
      ∧ (|(scaledMag m : ℝ) - v| = |(scaledMag k : ℝ) - v| → k ≠ m → m % 2 = 0) := by
  have hsq : ((scaledMag k : ℝ) - v) ^ 2 - (scaledMag m - v) ^ 2
      = (scaledMag k - scaledMag m) * (scaledMag k + scaledMag m - 2 * v) := by ring
  rw [← sq_le_sq, ← sq_eq_sq_iff_abs_eq_abs]
  rcases lt_trichotomy k m with hk | rfl | hk
  · have hlt := sub_neg.mpr (cast_scaledMag_strictMono hk)
    obtain ⟨hle, heven⟩ := h.below hk
    have hprod := mul_nonneg_of_nonpos_of_nonpos hlt.le (sub_nonpos.mpr hle)
    refine ⟨by linarith, fun heq _ => heven ?_⟩
    rw [heq, sub_self, eq_comm, mul_eq_zero, or_iff_right hlt.ne] at hsq
    linarith
  · exact ⟨le_rfl, fun _ hne => absurd rfl hne⟩
  · have hlt := sub_pos.mpr (cast_scaledMag_strictMono hk)
    obtain ⟨hle, heven⟩ := h.above hk hinf
    have hprod := mul_nonneg hlt.le (show 0 ≤ (scaledMag k + scaledMag m - 2 * v : ℝ) by linarith)
    refine ⟨by linarith, fun heq _ => heven ?_⟩
    rw [heq, sub_self, eq_comm, mul_eq_zero, or_iff_right hlt.ne'] at hsq
    linarith

/-- A number of units that is a magnitude's is nearest to that magnitude only. -/
theorem eq_of_exact (h : NearestMag (scaledMag k) m) (hinf : k ≤ infBits) : m = k := by
  have hzero := (h.abs_sub_le hinf).1
  rw [sub_self, abs_zero, abs_nonpos_iff, sub_eq_zero] at hzero
  exact cast_scaledMag_strictMono.injective hzero

/-- Infinity is nearest from 2^128 − 2^103 on. -/
theorem eq_infBits_iff (h : NearestMag v m) (hm : m ≤ infBits) :
    m = infBits ↔ (2 ^ 128 - 2 ^ 103 : ℝ) * 2 ^ 149 ≤ v := by
  have hinf : (scaledMag infBits : ℝ) = 2 ^ 128 * 2 ^ 149 := by rw [scaledMag_infBits]; norm_num
  have hmax : (scaledMag (infBits - 1) : ℝ) = (2 ^ 128 - 2 ^ 104) * 2 ^ 149 := by rw [scaledMag_maxFinite]; norm_num
  refine ⟨fun heq => ?_, fun hv => ?_⟩
  · subst heq
    have hle := (h.below (k := infBits - 1) (by decide)).1
    rw [hinf, hmax] at hle
    linarith
  · by_contra hne
    obtain ⟨hle, heven⟩ := h.above (k := infBits) (by omega) le_rfl
    have hmono : (scaledMag m : ℝ) ≤ scaledMag (infBits - 1) :=
      cast_scaledMag_strictMono.monotone (show m ≤ infBits - 1 by omega)
    rw [hinf] at hle heven
    rw [hmax] at hmono
    have hm' : m = infBits - 1 := cast_scaledMag_strictMono.injective (by simp only [hmax]; linarith)
    have hodd := heven (by linarith)
    rw [hm'] at hodd
    exact absurd hodd (by decide)

end NearestMag

/-! ### `roundMag` is nearest -/

/-- `roundEven p d` is p/d to the nearest integer: within half of d, and even at exactly half. -/
theorem roundEven_spec (p : Nat) {d : Nat} (hd : 0 < d) :
    2 * p ≤ (2 * roundEven p d + 1) * d ∧ 2 * roundEven p d * d ≤ 2 * p + d
      ∧ (2 * p = (2 * roundEven p d + 1) * d ∨ 2 * roundEven p d * d = 2 * p + d → roundEven p d % 2 = 0) := by
  have hp := Nat.div_add_mod p d
  have hlt := Nat.mod_lt p hd
  rw [roundEven]
  generalize p / d = a at *
  generalize p % d = b at *
  have hdown : 2 * a * d = 2 * (d * a) := by ring
  have hmid : (2 * a + 1) * d = 2 * (d * a) + d := by ring
  have hup : 2 * (a + 1) * d = 2 * (d * a) + 2 * d := by ring
  have htop : (2 * (a + 1) + 1) * d = 2 * (d * a) + 3 * d := by ring
  split
  · exact ⟨by omega, by omega, by omega⟩
  split
  · exact ⟨by omega, by omega, by omega⟩
  · obtain ha | ha : a % 2 = 0 ∨ a % 2 = 1 := by omega
    · rw [ha, add_zero]; exact ⟨by omega, by omega, by omega⟩
    · rw [ha]; exact ⟨by omega, by omega, by omega⟩

theorem roundEven_range (p d : Nat) : p / d ≤ roundEven p d ∧ roundEven p d ≤ p / d + 1 := by
  rw [roundEven]
  split
  · omega
  split <;> omega

/-- The binade `roundMag` works in: the quotient by its unit has 24 bits, or fewer among the subnormals. -/
theorem quotient_in_binade (a : Nat) :
    (Nat.log2 a - 23 = 0 ∨ 2 ^ 23 ≤ a / 2 ^ (Nat.log2 a - 23)) ∧ a / 2 ^ (Nat.log2 a - 23) < 2 ^ 24 := by
  refine ⟨or_iff_not_imp_left.mpr fun hsh => ?_, ?_⟩
  · have ha : a ≠ 0 := by rintro rfl; exact hsh rfl
    rw [Nat.le_div_iff_mul_le (by positivity), ← pow_add, show 23 + (Nat.log2 a - 23) = Nat.log2 a by omega]
    exact Nat.log2_self_le ha
  · rw [Nat.div_lt_iff_lt_mul (by positivity), ← pow_add]
    exact Nat.lt_log2_self.trans_le (Nat.pow_le_pow_right (by decide) (by omega))

/-- A significand r in the binade e that is within half a unit of v, and even at exactly half, is nearest. -/
theorem nearestMag_of_significand {v : ℝ} {e r : Nat} (hlo : e = 0 ∨ 2 ^ 23 ≤ r ∧ (2 ^ 23 * 2 ^ e : ℝ) ≤ v)
    (hhi : r ≤ 2 ^ 24) (hv : v < 2 ^ 24 * 2 ^ e)
    (hup : 2 * v ≤ (2 * r + 1) * 2 ^ e) (hdown : (2 * r * 2 ^ e : ℝ) ≤ 2 * v + 2 ^ e)
    (heven : 2 * v = (2 * r + 1) * 2 ^ e ∨ (2 * r * 2 ^ e : ℝ) = 2 * v + 2 ^ e → r % 2 = 0) :
    NearestMag v (e * 2 ^ 23 + r) := by
  have hm : scaledMag (e * 2 ^ 23 + r) = r * 2 ^ e := scaledMag_binade (hlo.imp_right And.left) hhi
  have hparity : r % 2 = 0 → (e * 2 ^ 23 + r) % 2 = 0 := by omega
  refine ⟨fun k hk => ?_, fun _ => ?_⟩
  · by_cases hedge : e ≠ 0 ∧ r = 2 ^ 23
    · obtain ⟨he, rfl⟩ := hedge
      have hlt := cast_scaledMag_strictMono (show k < e * 2 ^ 23 + 2 ^ 23 by omega)
      have hle := (hlo.resolve_left he).2
      simp only [hm] at hlt ⊢
      push_cast at hlt ⊢
      exact ⟨by linarith, fun heq => by linarith⟩
    · obtain ⟨r, rfl⟩ : ∃ r', r = r' + 1 := ⟨r - 1, by omega⟩
      obtain rfl : k = e * 2 ^ 23 + r := by omega
      rw [hm, scaledMag_binade (by omega) (by omega)]
      push_cast at hup hdown heven ⊢
      exact ⟨by linarith, fun heq => hparity (heven (.inr (by linarith)))⟩
  · by_cases hedge : r = 2 ^ 24
    · subst hedge
      have hlt := cast_scaledMag_strictMono (Nat.lt_succ_self (e * 2 ^ 23 + 2 ^ 24))
      simp only [Nat.succ_eq_add_one, hm] at hlt ⊢
      push_cast at hlt ⊢
      exact ⟨by linarith, fun heq => by linarith⟩
    · rw [hm, add_assoc, scaledMag_binade (by omega) (by omega)]
      push_cast
      exact ⟨by linarith, fun heq => hparity (heven (.inl (by linarith)))⟩

theorem roundMag_nearest (p : Nat) {q : Nat} (hq : 0 < q) : NearestMag (p / q : ℝ) (roundMag p q) := by
  have hunit : 0 < q * 2 ^ (Nat.log2 (p / q) - 23) := by positivity
  obtain ⟨hlo, hhi⟩ := quotient_in_binade (p / q)
  obtain ⟨hup, hdown, heven⟩ := roundEven_spec p hunit
  obtain ⟨hge, hle⟩ := roundEven_range p (q * 2 ^ (Nat.log2 (p / q) - 23))
  rw [Nat.div_div_eq_div_mul] at hlo hhi
  refine NearestMag.min_infBits ?_
  generalize Nat.log2 (p / q) - 23 = e at *
  generalize roundEven p (q * 2 ^ e) = r at *
  have hq' : (0 : ℝ) < q := by exact_mod_cast hq
  have hp : (p / q : ℝ) * q = p := div_mul_cancel₀ _ hq'.ne'
  generalize (p / q : ℝ) = v at *
  have hcmp {a b : ℝ} (h : a * q ≤ b * q) : a ≤ b := le_of_mul_le_mul_right h hq'
  have hlo' : e = 0 ∨ 2 ^ 23 * (q * 2 ^ e) ≤ p := hlo.imp_right fun h => (Nat.le_div_iff_mul_le hunit).mp h
  have hhi' : p < 2 ^ 24 * (q * 2 ^ e) := (Nat.div_lt_iff_lt_mul hunit).mp hhi
  rify at hlo' hhi' hup hdown heven
  refine nearestMag_of_significand ?_ (by omega) (lt_of_mul_lt_mul_right ?_ hq'.le) (hcmp ?_) (hcmp ?_) ?_
  · exact or_iff_not_imp_left.mpr fun he => ⟨(hlo.resolve_left he).trans hge, hcmp <| by
      linarith [hlo'.resolve_left (Nat.cast_ne_zero.mpr he)]⟩
  · linarith
  · linarith
  · linarith
  · rintro (heq | heq)
    · exact_mod_cast heven (.inl (by linear_combination (q : ℝ) * heq - 2 * hp))
    · exact_mod_cast heven (.inr (by linear_combination (q : ℝ) * heq + 2 * hp))

/-! ### Nearest magnitudes round as the spec says -/

theorem abs_cast_exact (x : F32) : |(exact x : ℝ)| = scaledMag (magBits x) / 2 ^ 149 := by
  rw [← Rat.cast_abs, abs_exact]
  norm_num

/-- The distance of a signed magnitude to a number of the same sign is that of the absolute values. -/
theorem abs_exact_mkF32_sub {q : ℝ} {neg : Bool} {m : Nat} (hm : m < 2 ^ 31) (hsign : q ≠ 0 → neg = decide (q < 0)) :
    |(exact (mkF32 neg m) : ℝ) - q| = |(scaledMag m : ℝ) / 2 ^ 149 - (|q|)| := by
  rw [exact_eq, magBits_mkF32 _ hm, signBit_mkF32 _ hm]
  rcases lt_trichotomy q 0 with hq | rfl | hq
  · rw [hsign hq.ne, abs_of_neg hq, ← abs_neg]
    simp [hq, add_comm]
  · cases neg <;> simp
  · rw [hsign hq.ne', abs_of_pos hq]
    simp [hq.not_gt]

theorem abs_sub_mul_units (a b : ℝ) : |a - b * 2 ^ 149| = |a / 2 ^ 149 - b| * 2 ^ 149 := by
  have hpos : (0 : ℝ) < 2 ^ 149 := by positivity
  rw [← div_mul_cancel₀ a hpos.ne', ← sub_mul, abs_mul, abs_of_pos hpos, div_mul_cancel₀ a hpos.ne']

/-- Of a number and its negation neither is nearer to q only where it is 0 or q is. -/
theorem eq_zero_or_of_abs_neg_sub_eq {a q : ℝ} (h : |a - q| = |-a - q|) : a = 0 ∨ q = 0 := by
  rw [← sq_eq_sq_iff_abs_eq_abs] at h
  exact mul_eq_zero.mp (by linarith)

theorem NearestMag.eq_zero {m : Nat} (h : NearestMag 0 m) : m = 0 :=
  eq_of_exact (k := 0) (by simpa using h) (by decide)

/-- The nearest magnitude with the sign of q is the nearest value to q, even where another one is as near. -/
theorem NearestMag.exact_nearest {q : ℝ} {neg : Bool} {m : Nat} (h : NearestMag (|q| * 2 ^ 149) m) (hm : m < 2 ^ 31)
    (hsign : q ≠ 0 → neg = decide (q < 0)) {z : F32} (hz : isFinite z = true) :
    |(exact (mkF32 neg m) : ℝ) - q| ≤ |(exact z : ℝ) - q|
      ∧ (|(exact (mkF32 neg m) : ℝ) - q| = |(exact z : ℝ) - q| → exact z ≠ exact (mkF32 neg m) → m % 2 = 0) := by
  obtain ⟨hle, heven⟩ := h.abs_sub_le (isFinite_iff.mp hz).le
  have hpos : (0 : ℝ) < 2 ^ 149 := by positivity
  rw [abs_sub_mul_units, abs_sub_mul_units, ← abs_exact_mkF32_sub hm hsign] at hle heven
  rw [mul_le_mul_iff_left₀ hpos] at hle
  rw [mul_left_inj' hpos.ne'] at heven
  have hmag : |(scaledMag (magBits z) : ℝ) / 2 ^ 149 - (|q|)| ≤ |(exact z : ℝ) - q| :=
    abs_cast_exact z ▸ abs_abs_sub_abs_le_abs_sub _ _
  refine ⟨hle.trans hmag, fun heq hne => ?_⟩
  by_cases hk : magBits z = m
  · have hneg : exact z = -exact (mkF32 neg m) :=
      (abs_eq_abs.mp (by rw [abs_exact, abs_exact, hk, magBits_mkF32 neg hm])).resolve_left hne
    rw [hneg, Rat.cast_neg] at heq
    rcases eq_zero_or_of_abs_neg_sub_eq heq with hr | rfl
    · rw [Rat.cast_eq_zero] at hr
      exact absurd (by rw [hneg, hr, neg_zero]) hne
    · rw [abs_zero, zero_mul] at h
      rw [h.eq_zero]
  · exact heven (le_antisymm hle (heq ▸ hmag)) hk

theorem roundsTo_of_nearestMag {q : ℝ} {neg : Bool} {m : Nat} (h : NearestMag (|q| * 2 ^ 149) m) (hm : m ≤ infBits)
    (hsign : q ≠ 0 → neg = decide (q < 0)) : RoundsTo q (mkF32 neg m) := by
  have hm31 : m < 2 ^ 31 := hm.trans_lt (by decide)
  have hbound : m = infBits ↔ (overflowBound : ℝ) ≤ |q| := by
    have hcast : (overflowBound : ℝ) = 2 ^ 128 - 2 ^ 103 := by norm_num [overflowBound]
    rw [h.eq_infBits_iff hm, mul_le_mul_iff_left₀ (by positivity), hcast]
  unfold RoundsTo
  simp only [← hbound]
  split
  · next hinf =>
    have hq : q ≠ 0 := abs_pos.mp (lt_of_lt_of_le (by norm_num [overflowBound]) (hbound.mp hinf))
    rw [hinf, hsign hq]
  · next hfin =>
    rw [isFinite_iff, signBit_mkF32 neg hm31, magBits_mkF32 neg hm31]
    exact ⟨lt_of_le_of_ne hm hfin, hsign, fun z hz => h.exact_nearest hm31 hsign hz⟩

/-- The value `roundMag` makes of p/d units of 2^-149, with the sign of the number q it stands for, is q rounded. -/
theorem roundsTo_mkF32_roundMag {q : ℝ} {neg : Bool} {p d : Nat} (hd : 0 < d) (hq : |q| * 2 ^ 149 = p / d)
    (hsign : q ≠ 0 → neg = decide (q < 0)) : RoundsTo q (mkF32 neg (roundMag p d)) :=
  roundsTo_of_nearestMag (hq ▸ roundMag_nearest p hd) (roundMag_le p d) hsign

theorem roundsTo_zero (neg : Bool) : RoundsTo 0 (mkF32 neg 0) :=
  roundsTo_mkF32_roundMag (p := 0) (d := 1) one_pos (by simp) (absurd rfl)

end Sys2Proof.Machine
end

section
/-! PROOFS. Addition, subtraction, multiplication and division of finite values are correctly rounded
(spec/00_scope.md R8, R12 (a), (g)). -/

namespace Sys2Proof.Machine

/-! ### What each operator computes from finite operands -/

section
variable {x y : F32} (hx : isFinite x = true) (hy : isFinite y = true)
include hx hy

theorem fadd_of_finite : fadd x y =
    if scaled x + scaled y = 0 then mkF32 (signBit x && signBit y) 0
    else mkF32 (decide (scaled x + scaled y < 0)) (roundMag (scaled x + scaled y).natAbs 1) := by
  simp [fadd, not_isNaN_of_finite, not_isInf_of_finite, hx, hy]

theorem fmul_of_finite : fmul x y =
    mkF32 (signBit x != signBit y) (roundMag (scaledMag (magBits x) * scaledMag (magBits y)) (2 ^ 149)) := by
  simp [fmul, not_isNaN_of_finite, not_isInf_of_finite, hx, hy]

theorem fdiv_of_finite (hz : isZero y = false) : fdiv x y =
    mkF32 (signBit x != signBit y) (roundMag (scaledMag (magBits x) * 2 ^ 149) (scaledMag (magBits y))) := by
  simp [fdiv, not_isNaN_of_finite, not_isInf_of_finite, hx, hy, hz]

end

/-- The sign of a product is the exclusive or of the signs. -/
theorem decide_mul_neg {a b : ℚ} (ha : a ≠ 0) (hb : b ≠ 0) :
    decide (a * b < 0) = (decide (a < 0) != decide (b < 0)) := by
  rcases ha.lt_or_gt with ha | ha <;> rcases hb.lt_or_gt with hb | hb <;>
    simp [mul_neg_iff, ha, hb, ha.not_gt, hb.not_gt]

section
variable {x y : F32}

theorem signBit_bne_of_mul (h : exact x * exact y ≠ 0) :
    (signBit x != signBit y) = decide (exact x * exact y < 0) := by
  obtain ⟨hx, hy⟩ := mul_ne_zero_iff.mp h
  rw [decide_mul_neg hx hy, signBit_eq_of_exact_ne_zero hx, signBit_eq_of_exact_ne_zero hy]

theorem signBit_bne_of_div (h : exact x / exact y ≠ 0) :
    (signBit x != signBit y) = decide (exact x / exact y < 0) := by
  obtain ⟨hx, hy⟩ := div_ne_zero_iff.mp h
  rw [signBit_bne_of_mul (mul_ne_zero hx hy), decide_eq_decide, mul_neg_iff, div_neg_iff]

end

/-! ### Each is the real result rounded -/

section
variable {x y : F32} (hx : isFinite x = true) (hy : isFinite y = true)
include hx hy

theorem fadd_roundsTo : RoundsTo ((exact x + exact y : ℚ) : ℝ) (fadd x y) := by
  have hsum : ((exact x + exact y : ℚ) : ℝ) = ((scaled x + scaled y : ℤ) : ℝ) / 2 ^ 149 := by
    rw [exact, exact, ← add_div]
    norm_num
  rw [fadd_of_finite hx hy, hsum]
  generalize scaled x + scaled y = z
  split
  · next hz =>
    rw [hz, Int.cast_zero, zero_div]
    exact roundsTo_zero _
  · refine roundsTo_mkF32_roundMag one_pos ?_ fun _ => ?_
    · rw [Nat.cast_natAbs, abs_div, abs_of_pos (by positivity : (0 : ℝ) < 2 ^ 149), div_mul_cancel₀ _ (by positivity)]
      simp
    · rw [decide_eq_decide, div_lt_iff₀ (by positivity), zero_mul, Int.cast_lt_zero]

theorem fsub_roundsTo : RoundsTo ((exact x - exact y : ℚ) : ℝ) (fsub x y) := by
  rw [sub_eq_add_neg, ← exact_fneg (not_isNaN_of_finite hy)]
  exact fadd_roundsTo hx (isFinite_fneg hy)

theorem fmul_roundsTo : RoundsTo ((exact x * exact y : ℚ) : ℝ) (fmul x y) := by
  rw [fmul_of_finite hx hy]
  refine roundsTo_mkF32_roundMag (by positivity) ?_ fun h => ?_
  · rw [Rat.cast_mul, abs_mul, abs_cast_exact, abs_cast_exact]
    rw [Nat.cast_mul, Nat.cast_pow, Nat.cast_ofNat]
    field_simp
  · simp only [signBit_bne_of_mul (Rat.cast_ne_zero.mp h), Rat.cast_lt_zero]

theorem fdiv_roundsTo (h0 : exact y ≠ 0) : RoundsTo ((exact x / exact y : ℚ) : ℝ) (fdiv x y) := by
  have hmag : 0 < scaledMag (magBits y) := Nat.pos_of_ne_zero (by rwa [Ne, scaledMag_eq_zero, ← exact_eq_zero_iff])
  rw [fdiv_of_finite hx hy (Bool.eq_false_iff.mpr (mt isZero_iff_exact.mp h0))]
  refine roundsTo_mkF32_roundMag hmag ?_ fun h => ?_
  · rw [Rat.cast_div, abs_div, abs_cast_exact, abs_cast_exact]
    rw [Nat.cast_mul, Nat.cast_pow, Nat.cast_ofNat]
    field_simp
  · simp only [signBit_bne_of_div (Rat.cast_ne_zero.mp h), Rat.cast_lt_zero]

end

/-- Settles O57: each operator rounds its exact integer result once, and `roundMag` picks the nearest magnitude. -/
theorem arithmeticIsCorrectlyRounded : Obligations.ArithmeticIsCorrectlyRounded := fun _ _ hx hy =>
  ⟨fadd_roundsTo hx hy, fsub_roundsTo hx hy, fmul_roundsTo hx hy, fdiv_roundsTo hx hy⟩

end Sys2Proof.Machine
end

section
/-! PROOFS. The square root is correctly rounded, and natural numbers up to 2^24 convert exactly
(spec/00_scope.md R12 (e), (f)). The bit that `fsqrt` puts below the last place of the integer root compares like the real root
with every even number of half units, and far from the subnormals all midpoints are such. -/

namespace Sys2Proof.Machine

/-! ### The integer square root -/

theorem isqrtAux_eq_sqrt {fuel : Nat} : ∀ n, n < 4 ^ fuel → isqrtAux fuel n = Nat.sqrt n := by
  induction fuel with
  | zero =>
    intro n hn
    obtain rfl : n = 0 := by omega
    rfl
  | succ fuel ih =>
    intro n hn
    have hlo := Nat.sqrt_le (n / 4)
    rw [isqrtAux, ih (n / 4) (by rw [pow_succ] at hn; omega)]
    have hhi := Nat.lt_succ_sqrt (n / 4)
    generalize Nat.sqrt (n / 4) = r at *
    simp only [Nat.succ_eq_add_one] at hhi
    have hlo4 : 2 * r * (2 * r) ≤ n := by linarith [Nat.div_mul_le_self n 4]
    have hhi4 : n < (2 * r + 2) * (2 * r + 2) := by linarith [Nat.lt_div_mul_add (a := n) (b := 4) (by decide)]
    split
    · next h => exact Nat.eq_sqrt.mpr ⟨h, hhi4⟩
    · next h => exact Nat.eq_sqrt.mpr ⟨hlo4, by omega⟩

theorem isqrt_eq_sqrt (n : Nat) : isqrt n = Nat.sqrt n := by
  refine isqrtAux_eq_sqrt n (Nat.lt_log2_self.trans_le ?_)
  rw [show 4 = 2 ^ 2 by rfl, ← pow_mul]
  exact Nat.pow_le_pow_right (by decide) (by omega)

/-! ### The sticky root -/

/-- Twice the integer root of n, with the bit below its last place set where the root is not exact. -/
def stickyRoot (n : Nat) : Nat := 2 * Nat.sqrt n + if Nat.sqrt n * Nat.sqrt n = n then 0 else 1

theorem stickyRoot_lt_two_mul {n u : Nat} : stickyRoot n < 2 * u ↔ n < u * u := by
  rw [← Nat.sqrt_lt, stickyRoot]
  split <;> omega

theorem two_mul_lt_stickyRoot {n u : Nat} : 2 * u < stickyRoot n ↔ u * u < n := by
  rw [stickyRoot]
  split
  · next hsq => rw [add_zero, Nat.mul_lt_mul_left two_pos, ← Nat.mul_self_lt_mul_self_iff, hsq]
  · next hsq =>
    have hne : u * u ≠ n := by
      rintro rfl
      exact hsq (by rw [Nat.sqrt_eq])
    have hle := Nat.le_sqrt (m := u) (n := n)
    omega

/-- The sticky root compares with twice any natural number as the square root does with that number. -/
theorem stickyRoot_le_iff {n u : Nat} : stickyRoot n ≤ 2 * u ↔ √(n : ℝ) ≤ u := by
  rw [Real.sqrt_le_left (Nat.cast_nonneg u), ← not_lt, two_mul_lt_stickyRoot, not_lt, sq]
  norm_cast

theorem le_stickyRoot_iff {n u : Nat} : 2 * u ≤ stickyRoot n ↔ (u : ℝ) ≤ √n := by
  rw [Real.le_sqrt (Nat.cast_nonneg u) (Nat.cast_nonneg n), ← not_lt, stickyRoot_lt_two_mul, not_lt, sq]
  norm_cast

/-- Rounding the sticky root (in half units) rounds the root itself where it is at least 2^25 units: the midpoints there are
whole units. -/
theorem nearestMag_sqrt {n m : Nat} (hn : 2 ^ 50 ≤ n) (h : NearestMag ((stickyRoot n : ℝ) / (2 : ℕ)) m) :
    NearestMag √n m := by
  obtain ⟨hlower, hupper⟩ := h
  rw [Nat.cast_ofNat, mul_div_cancel₀ _ two_ne_zero] at hlower hupper
  norm_cast at hlower hupper
  have hbig : 2 ^ 24 < m := by
    by_contra hle
    have hm : scaledMag m ≤ scaledMag (2 ^ 24) := scaledMag_strictMono.monotone (by omega)
    have hm' : scaledMag (m + 1) ≤ scaledMag (2 ^ 24 + 1) := scaledMag_strictMono.monotone (by omega)
    have hfour : scaledMag (2 ^ 24) + scaledMag (2 ^ 24 + 1) < 2 * 2 ^ 25 := by decide
    have hroot : 2 * 2 ^ 25 ≤ stickyRoot n := not_lt.mp (mt stickyRoot_lt_two_mul.mp (by omega))
    obtain ⟨hle', -⟩ := hupper ((not_lt.mp hle).trans_lt (by decide))
    omega
  have heven {k : Nat} (hk : 2 ^ 24 ≤ k) : 2 ∣ scaledMag k + scaledMag (k + 1) :=
    dvd_add (scaledMag_even hk) (scaledMag_even (by omega))
  constructor
  · rintro k rfl
    obtain ⟨hle, htie⟩ := hlower k rfl
    obtain ⟨u, hu⟩ := heven (k := k) (by omega)
    rw [hu, le_stickyRoot_iff] at hle
    rw [← Nat.cast_add, hu, Nat.cast_mul, Nat.cast_ofNat, mul_right_inj' two_ne_zero]
    refine ⟨by linarith, fun heq => htie (hu ▸ ?_)⟩
    exact le_antisymm (le_stickyRoot_iff.mpr heq.le) (stickyRoot_le_iff.mpr heq.ge)
  · intro hfin
    obtain ⟨hle, htie⟩ := hupper hfin
    obtain ⟨u, hu⟩ := heven hbig.le
    rw [hu, stickyRoot_le_iff] at hle
    rw [← Nat.cast_add, hu, Nat.cast_mul, Nat.cast_ofNat, mul_right_inj' two_ne_zero]
    refine ⟨by linarith, fun heq => htie (hu ▸ ?_)⟩
    exact le_antisymm (stickyRoot_le_iff.mpr heq.le) (le_stickyRoot_iff.mpr heq.ge)

theorem sqrt_div_mul_self (a : ℝ) {c : ℝ} (hc : 0 < c) : √(a / c) * c = √(a * c) := by
  have hsplit : a * c = a / c * c ^ 2 := by field_simp
  rw [hsplit, Real.sqrt_mul' _ (sq_nonneg c), Real.sqrt_sq hc.le]

theorem fsqrt_of_pos {x : F32} (hx : isFinite x = true) (h0 : 0 < exact x) :
    fsqrt x = mkF32 false (roundMag (stickyRoot (scaledMag (magBits x) * 2 ^ 149)) 2) := by
  have hz : isZero x = false := Bool.eq_false_iff.mpr (mt isZero_iff_exact.mp h0.ne')
  have hs : signBit x = false := by rw [signBit_eq_of_exact_ne_zero h0.ne', decide_eq_false h0.not_gt]
  simp [fsqrt, stickyRoot, isqrt_eq_sqrt, not_isNaN_of_finite hx, not_isInf_of_finite hx, hz, hs]

theorem fsqrt_roundsTo {x : F32} (hx : isFinite x = true) (h0 : 0 ≤ exact x) : RoundsTo √((exact x : ℚ) : ℝ) (fsqrt x) := by
  rcases h0.eq_or_lt with h0 | h0
  · have hmag := exact_eq_zero_iff.mp h0.symm
    have hroot : fsqrt x = mkF32 (signBit x) 0 := by
      rw [← hmag, mkF32_signBit_magBits]
      simp [fsqrt, not_isNaN_of_finite hx, isZero, hmag]
    rw [hroot, ← h0, Rat.cast_zero, Real.sqrt_zero]
    exact roundsTo_zero _
  · have hmag : 0 < scaledMag (magBits x) :=
      Nat.pos_of_ne_zero (by rw [Ne, scaledMag_eq_zero, ← exact_eq_zero_iff]; exact h0.ne')
    have hunits : |√(exact x : ℝ)| * 2 ^ 149 = √((scaledMag (magBits x) * 2 ^ 149 : ℕ) : ℝ) := by
      have hvalue : (exact x : ℝ) = scaledMag (magBits x) / 2 ^ 149 := by
        rw [← abs_cast_exact, abs_of_pos (Rat.cast_pos.mpr h0)]
      rw [abs_of_nonneg (Real.sqrt_nonneg _), hvalue]
      rw [sqrt_div_mul_self _ (by positivity), Nat.cast_mul, Nat.cast_pow, Nat.cast_ofNat]
    rw [fsqrt_of_pos hx h0]
    refine roundsTo_of_nearestMag (hunits ▸ nearestMag_sqrt ?_ (roundMag_nearest _ two_pos)) (roundMag_le _ _) fun _ => ?_
    · exact (Nat.pow_le_pow_right two_pos (by decide)).trans (Nat.le_mul_of_pos_left _ hmag)
    · exact (decide_eq_false (Real.sqrt_nonneg _).not_gt).symm

/-! ### Conversion of natural numbers -/

theorem fofNat_exact {n : Nat} (hn : n ≤ 2 ^ 24) : isFinite (fofNat n) = true ∧ exact (fofNat n) = n := by
  obtain ⟨m, hm⟩ := exists_scaledMag_eq 149 n hn
  have hfin : m < infBits := by
    rw [← scaledMag_strictMono.lt_iff_lt, hm, scaledMag_infBits]
    exact Nat.mul_lt_mul_of_pos_right (hn.trans_lt (by norm_num)) (by positivity)
  have hround : roundMag (n * 2 ^ 149) 1 = m := by
    refine NearestMag.eq_of_exact ?_ hfin.le
    rw [hm, ← div_one ((n * 2 ^ 149 : ℕ) : ℝ), ← Nat.cast_one]
    exact roundMag_nearest _ one_pos
  have hm31 : m < 2 ^ 31 := hfin.trans (by decide)
  rw [fofNat, hround, isFinite_iff, exact_eq, magBits_mkF32 _ hm31, signBit_mkF32 _ hm31, hm]
  refine ⟨hfin, ?_⟩
  rw [if_neg (by decide), one_mul, Nat.cast_mul, Nat.cast_pow, Nat.cast_ofNat]
  exact mul_div_cancel_right₀ _ (by positivity)

/-- Settles O58: the sticky root of x·2^149 units rounds as the real root, and a conversion meets its own value. -/
theorem rootsAndConversionsAreRounded : Obligations.RootsAndConversionsAreRounded :=
  ⟨fun _ hx h0 => fsqrt_roundsTo hx h0, fun _ hn => fofNat_exact hn⟩

end Sys2Proof.Machine
end

section
/-! PROOFS. NaNs are canonical (spec/00_scope.md R12 (c)), and comparisons and the clamp (R12 (b)): `orderKey` orders the values as
`exact` does, and maximum, minimum and clamp are those of the keys. -/

namespace Sys2Proof.Machine

/-! ### A NaN operand -/

theorem isNaN_fneg (x : F32) : isNaN (fneg x) = isNaN x := by
  cases h : isNaN x
  · exact not_isNaN_fneg h
  · simp [fneg, h, isNaN_qNaN]

section
variable {x y : F32} (h : isNaN x = true ∨ isNaN y = true)
include h

theorem fadd_of_isNaN : fadd x y = qNaN := by simp [fadd, h]

theorem fsub_of_isNaN : fsub x y = qNaN := fadd_of_isNaN (by rwa [isNaN_fneg])

theorem fmul_of_isNaN : fmul x y = qNaN := by simp [fmul, h]

theorem fdiv_of_isNaN : fdiv x y = qNaN := by simp [fdiv, h]

theorem flt_of_isNaN : flt x y = false := by rcases h with h | h <;> simp [flt, h]

theorem feq_of_isNaN : feq x y = false := by rcases h with h | h <;> simp [feq, h]

end

/-! ### Results are canonical -/

theorem eq_qNaN_of_canon {x : F32} (hc : canon x = x) (h : isNaN x = true) : x = qNaN := by
  rw [← hc, canon, if_pos h]

@[simp] theorem canon_qNaN : canon qNaN = qNaN := rfl

theorem canon_mkF32 (neg : Bool) {m : Nat} (h : m ≤ infBits) : canon (mkF32 neg m) = mkF32 neg m :=
  canon_of_not_nan (isNaN_mkF32_of_le h)

@[simp] theorem canon_mkF32_zero (neg : Bool) : canon (mkF32 neg 0) = mkF32 neg 0 := canon_mkF32 neg (Nat.zero_le _)

@[simp] theorem canon_mkF32_infBits (neg : Bool) : canon (mkF32 neg infBits) = mkF32 neg infBits := canon_mkF32 neg le_rfl

@[simp] theorem canon_mkF32_roundMag (neg : Bool) (p q : Nat) :
    canon (mkF32 neg (roundMag p q)) = mkF32 neg (roundMag p q) := canon_mkF32 neg (roundMag_le p q)

theorem canon_fadd (x y : F32) : canon (fadd x y) = fadd x y := by
  by_cases hnan : isNaN x = true ∨ isNaN y = true
  · rw [fadd_of_isNaN hnan, canon_qNaN]
  obtain ⟨hx, hy⟩ := not_or.mp hnan
  rw [Bool.not_eq_true] at hx hy
  simp only [fadd]
  split_ifs <;> simp [canon_of_not_nan, hx, hy]

theorem canon_fmul (x y : F32) : canon (fmul x y) = fmul x y := by
  rw [fmul]
  split_ifs <;> simp

theorem canon_fdiv (x y : F32) : canon (fdiv x y) = fdiv x y := by
  rw [fdiv]
  split_ifs <;> simp

theorem canon_fsqrt (x : F32) : canon (fsqrt x) = fsqrt x := by
  cases hnan : isNaN x
  · rw [fsqrt]
    split_ifs <;> simp [canon_of_not_nan, hnan]
  · simp [fsqrt, hnan]

/-! ### The order -/

theorem natAbs_orderKey (x : F32) : (orderKey x).natAbs = magBits x := by
  rw [orderKey]
  split <;> simp

theorem orderKey_fneg {x : F32} (h : isNaN x = false) : orderKey (fneg x) = -orderKey x := by
  rw [orderKey, orderKey, magBits_fneg h, signBit_fneg h]
  cases signBit x <;> simp

theorem orderKey_lt_iff {x y : F32} : orderKey x < orderKey y ↔ exact x < exact y := by
  have hmono : scaledMag (magBits x) < scaledMag (magBits y) ↔ magBits x < magBits y := scaledMag_strictMono.lt_iff_lt
  have hmono' : scaledMag (magBits y) < scaledMag (magBits x) ↔ magBits y < magBits x := scaledMag_strictMono.lt_iff_lt
  have hx : scaledMag (magBits x) = 0 ↔ magBits x = 0 := scaledMag_eq_zero
  have hy : scaledMag (magBits y) = 0 ↔ magBits y = 0 := scaledMag_eq_zero
  rw [exact, exact, div_lt_div_iff_of_pos_right (by positivity), Int.cast_lt, orderKey, orderKey, scaled, scaled]
  cases signBit x <;> cases signBit y <;> simp only [Bool.false_eq_true, if_true, if_false] <;> omega

theorem orderKey_le_iff {x y : F32} : orderKey x ≤ orderKey y ↔ exact x ≤ exact y := by
  rw [← not_lt, orderKey_lt_iff, not_lt]

theorem orderKey_pos_iff {x : F32} : 0 < orderKey x ↔ 0 < exact x := by
  have hkey : orderKey fZero = 0 := by decide
  have hexact : exact fZero = 0 := exact_eq_zero_iff.mpr rfl
  rw [← hkey, ← hexact, orderKey_lt_iff]

section
variable {x y : F32} (hx : isNaN x = false) (hy : isNaN y = false)
include hx hy

theorem flt_of_not_isNaN : flt x y = decide (orderKey x < orderKey y) := by simp [flt, hx, hy]

theorem orderKey_fmax : orderKey (fmax x y) = max (orderKey x) (orderKey y) := by
  simp only [fmax, fgt, flt_of_not_isNaN hy hx, decide_eq_true_eq]
  split <;> omega

theorem orderKey_fmin : orderKey (fmin x y) = min (orderKey x) (orderKey y) := by
  simp only [fmin, flt_of_not_isNaN hx hy, decide_eq_true_eq]
  split <;> omega

theorem isNaN_fmax : isNaN (fmax x y) = false := by
  rw [fmax]
  split <;> assumption

end

/-! ### The clamp -/

section
variable {x c : F32} (hc : isFinite c = true) (hpos : 0 < exact c)
include hc hpos

theorem fclamp_of_isNaN (hx : isNaN x = true) : fclamp x c = fneg c := by
  have hcn := not_isNaN_of_finite hc
  have hkey := orderKey_pos_iff.mpr hpos
  have hmax : fmax x (fneg c) = fneg c := by simp [fmax, fgt, flt_of_isNaN (.inr hx)]
  have hlt : flt (fneg c) c = true := by
    rw [flt_of_not_isNaN (not_isNaN_fneg hcn) hcn, orderKey_fneg hcn, decide_eq_true_eq]
    omega
  rw [fclamp, hmax, fmin, if_pos hlt]

theorem orderKey_fclamp_bounds (hx : isNaN x = false) :
    -orderKey c ≤ orderKey (fclamp x c) ∧ orderKey (fclamp x c) ≤ orderKey c := by
  have hcn := not_isNaN_of_finite hc
  have hkey := orderKey_pos_iff.mpr hpos
  rw [fclamp, orderKey_fmin (isNaN_fmax hx (not_isNaN_fneg hcn)) hcn, orderKey_fmax hx (not_isNaN_fneg hcn), orderKey_fneg hcn]
  omega

theorem fclamp_bounds (hx : isNaN x = false) :
    isFinite (fclamp x c) = true ∧ -exact c ≤ exact (fclamp x c) ∧ exact (fclamp x c) ≤ exact c := by
  have hcn := not_isNaN_of_finite hc
  obtain ⟨hlo, hhi⟩ := orderKey_fclamp_bounds hc hpos hx
  refine ⟨isFinite_iff.mpr ?_, ?_, orderKey_le_iff.mp hhi⟩
  · have hcfin := isFinite_iff.mp hc
    rw [← natAbs_orderKey] at hcfin ⊢
    omega
  · rw [← exact_fneg hcn]
    exact orderKey_le_iff.mp (orderKey_fneg hcn ▸ hlo)

end

/-- Settles O59: a NaN operand is tested first, every other result is canonical, and the clamp is one of the order keys. -/
theorem naNsAreCanonical : Obligations.NaNsAreCanonical := by
  refine ⟨fun x y h => ?_, fun x y z hz hnan => ?_, fun x c hx hc hpos => fclamp_of_isNaN hc hpos hx,
    fun x c hx hc hpos => fclamp_bounds hc hpos hx⟩
  · exact ⟨fadd_of_isNaN h, fsub_of_isNaN h, fmul_of_isNaN h, fdiv_of_isNaN h, flt_of_isNaN h, feq_of_isNaN h⟩
  · refine eq_qNaN_of_canon ?_ hnan
    simp only [List.mem_cons, List.not_mem_nil, or_false] at hz
    rcases hz with rfl | rfl | rfl | rfl | rfl
    · exact canon_fadd x y
    · exact canon_fadd x (fneg y)
    · exact canon_fmul x y
    · exact canon_fdiv x y
    · exact canon_fsqrt x

end Sys2Proof.Machine
end

section
/-! PROOFS. NUM has the properties P1 to P4 of spec/00_scope.md R8, and a record that has them is left unchanged by
`Num.constrain` (log entry 9): a lemma of each kind for each of the functions `constrain` is made of. -/

namespace Sys2Proof.Machine

/-! ### Canonical and bounded results -/

theorem not_isNaN_of_unitBounded {x : F32} (h : unitBounded x = true) : isNaN x = false := by
  have hone : magBits fOne ≤ infBits := by decide
  rw [unitBounded, decide_eq_true_eq] at h
  exact decide_eq_false (by omega)

theorem canon_of_unitBounded {x : F32} (h : unitBounded x = true) : canon x = x :=
  canon_of_not_nan (not_isNaN_of_unitBounded h)

theorem canon_fneg (x : F32) : canon (fneg x) = fneg x := by
  cases h : isNaN x
  · exact canon_of_not_nan (not_isNaN_fneg h)
  · simp [fneg, h]

theorem fneg_fneg_of_canon {x : F32} (h : canon x = x) : fneg (fneg x) = x := by
  cases hnan : isNaN x
  · exact fneg_fneg hnan
  · rw [eq_qNaN_of_canon h hnan]
    rfl

theorem unitBounded_fneg {x : F32} (h : unitBounded x = true) : unitBounded (fneg x) = true := by
  rw [unitBounded, magBits_fneg (not_isNaN_of_unitBounded h)]
  exact h

theorem canon_zeroOf (x : F32) : canon (zeroOf x) = zeroOf x := canon_mkF32_zero _

theorem isZero_zeroOf (x : F32) : isZero (zeroOf x) = true := by
  rw [isZero, zeroOf, magBits_mkF32 _ (by decide)]
  rfl

theorem zeroOf_of_isZero {x : F32} (h : isZero x = true) : zeroOf x = x := by
  rw [isZero, beq_iff_eq] at h
  rw [zeroOf, ← h, mkF32_signBit_magBits]

/-! ### What each step of `Num.constrain` imposes -/

section
variable {f : F32 → F32}

theorem canon_fixZero {v : F32} (hv : canon v = v) (x : F32) : canon (fixZero v f x) = fixZero v f x := by
  rw [fixZero]
  split
  · exact hv
  · exact canon_canon _

theorem makeOdd_fneg (hf : ∀ x, canon (f x) = f x) {x : F32} (h : isNaN x = false) :
    makeOdd f (fneg x) = fneg (makeOdd f x) := by
  simp only [makeOdd, not_isNaN_fneg h, signBit_fneg h, h, fneg_fneg h]
  cases signBit x
  · simp
  · simp [fneg_fneg_of_canon (hf _)]

theorem canon_makeOdd (hf : ∀ x, canon (f x) = f x) (x : F32) : canon (makeOdd f x) = makeOdd f x := by
  rw [makeOdd]
  split
  · exact canon_fneg _
  · exact hf x

theorem unitBounded_makeOdd (hf : ∀ x, unitBounded (f x) = true) (x : F32) : unitBounded (makeOdd f x) = true := by
  rw [makeOdd]
  split
  · exact unitBounded_fneg (hf _)
  · exact hf x

end

theorem canon_clampUnit (x : F32) : canon (clampUnit x) = clampUnit x := canon_of_unitBounded (unitBounded_clampUnit x)

section
variable (fft : List F32 → Nat → F32 × F32)

theorem isZero_constrainFft {xs : List F32} (h : ∀ x ∈ xs, x = fZero) (f : Nat) :
    isZero (constrainFft fft xs f).1 = true ∧ isZero (constrainFft fft xs f).2 = true := by
  have hall : xs.all (fun x => x == fZero) = true := by simpa using h
  rw [constrainFft, if_pos hall]
  exact ⟨isZero_zeroOf _, isZero_zeroOf _⟩

theorem canon_constrainFft (xs : List F32) (f : Nat) :
    canon (constrainFft fft xs f).1 = (constrainFft fft xs f).1
      ∧ canon (constrainFft fft xs f).2 = (constrainFft fft xs f).2 := by
  rw [constrainFft]
  split
  · exact ⟨canon_zeroOf _, canon_zeroOf _⟩
  · exact ⟨canon_canon _, canon_canon _⟩

end

theorem constrain_props (raw : Num) : NumProps (Num.constrain raw) where
  p1_sin := rfl
  p1_cos := rfl
  p1_erf := rfl
  p1_tanh := rfl
  p1_atanh := rfl
  p1_exp := rfl
  p1_log := rfl
  p1_exp10 := rfl
  p2_tanh _ h := makeOdd_fneg (fun _ => canon_clampUnit _) h
  p2_atanh _ h := makeOdd_fneg (canon_fixZero rfl) h
  p2_erf _ h := makeOdd_fneg (fun _ => canon_clampUnit _) h
  p3_sin _ := unitBounded_clampUnit _
  p3_cos _ := unitBounded_clampUnit _
  p3_erf := unitBounded_makeOdd fun _ => unitBounded_clampUnit _
  p3_tanh := unitBounded_makeOdd fun _ => unitBounded_clampUnit _
  p4_fft _ h := isZero_constrainFft raw.fft h
  canon_atanh := canon_makeOdd (canon_fixZero rfl)
  canon_exp := canon_fixZero rfl
  canon_log x := by
    change canon (if x = fOne then fZero else canon (raw.log x)) = if x = fOne then fZero else canon (raw.log x)
    split
    · rfl
    · exact canon_canon _
  canon_log10 _ := canon_canon _
  canon_exp10 := canon_fixZero rfl
  canon_fft := canon_constrainFft raw.fft

/-! ### What has the properties is left unchanged -/

theorem clampUnit_of_unitBounded {x : F32} (h : unitBounded x = true) : clampUnit x = x := if_pos h

section
variable {f : F32 → F32}

/-- To set a canonical function to the value it has at an operand changes nothing. -/
theorem ite_canon_eq_self {a v : F32} (hv : f a = v) (hc : ∀ x, canon (f x) = f x) (x : F32) :
    (if x = a then v else canon (f x)) = f x := by
  split
  · next hx => rw [hx, hv]
  · exact hc x

theorem fixZero_eq_self {v : F32} (hv : f fZero = v) (hc : ∀ x, canon (f x) = f x) : fixZero v f = f :=
  funext fun x => ite_canon_eq_self hv hc x

theorem clampUnit_fixZero_eq_self {v : F32} (hv : f fZero = v) (hb : ∀ x, unitBounded (f x) = true) :
    (fun x => clampUnit (fixZero v f x)) = f := by
  rw [fixZero_eq_self hv fun x => canon_of_unitBounded (hb x)]
  exact funext fun x => clampUnit_of_unitBounded (hb x)

theorem makeOdd_eq_self (hodd : ∀ x, isNaN x = false → f (fneg x) = fneg (f x)) : makeOdd f = f := by
  funext x
  rw [makeOdd]
  split
  · next h =>
    have hx : isNaN x = false := by simpa using (Bool.and_eq_true_iff.mp h).2
    rw [← hodd _ (not_isNaN_fneg hx), fneg_fneg hx]
  · rfl

end

theorem constrainFft_eq_self {fft : List F32 → Nat → F32 × F32}
    (hz : ∀ xs, (∀ x ∈ xs, x = fZero) → ∀ f, isZero (fft xs f).1 = true ∧ isZero (fft xs f).2 = true)
    (hc : ∀ xs f, canon (fft xs f).1 = (fft xs f).1 ∧ canon (fft xs f).2 = (fft xs f).2) :
    constrainFft fft = fft := by
  funext xs f
  rw [constrainFft]
  split
  · next hall =>
    obtain ⟨hre, him⟩ := hz xs (by simpa using hall) f
    rw [zeroOf_of_isZero hre, zeroOf_of_isZero him]
  · rw [(hc xs f).1, (hc xs f).2]

theorem constrain_eq_self {nm : Num} (h : NumProps nm) : Num.constrain nm = nm := by
  rw [Num.constrain, clampUnit_fixZero_eq_self h.p1_sin h.p3_sin, clampUnit_fixZero_eq_self h.p1_cos h.p3_cos,
    clampUnit_fixZero_eq_self h.p1_erf h.p3_erf, makeOdd_eq_self h.p2_erf,
    clampUnit_fixZero_eq_self h.p1_tanh h.p3_tanh, makeOdd_eq_self h.p2_tanh,
    fixZero_eq_self h.p1_atanh h.canon_atanh, makeOdd_eq_self h.p2_atanh,
    fixZero_eq_self h.p1_exp h.canon_exp, funext (ite_canon_eq_self h.p1_log h.canon_log), funext h.canon_log10,
    fixZero_eq_self h.p1_exp10 h.canon_exp10, constrainFft_eq_self h.p4_fft h.canon_fft]

/-- Settles O60: `Num.constrain` gives every record P1 to P4 and leaves a record that has them as it is. -/
theorem numRangesOverTheRecordsOfR8 : Obligations.NumRangesOverTheRecordsOfR8 :=
  ⟨constrain_props Config.rawNum, fun _ h => constrain_eq_self h⟩

end Sys2Proof.Machine
end

section
/-! PROOFS. The CSRs over the bus (spec/10_state.md R22 to R52): an aligned 32-bit access of a named offset is one `readCsr` or
`writeCsr`, the reserved offsets hold nothing, and STATUS is a row of bits (R26). -/

namespace Sys2Proof.Machine

/-! ### Bus accesses of CSR offsets -/

section
variable (r : Csr) (w : Word) (s : State)

theorem busRead_csrOffset : busRead (csrOffset r) 4 s = { s with resp := .data (readCsr r s) } := by
  simp only [busRead, target_csrOffset, readCsrAt_csrOffset]

theorem busWrite_csrOffset : busWrite (csrOffset r) 4 w s = { writeCsr r w s with resp := .ack } := by
  simp only [busWrite, target_csrOffset, writeCsrAt_csrOffset]

end

section
variable {off : Nat} (hlo : 0x74 ≤ off) (hhi : off ≤ 0xFFC) (hal : off % 4 = 0)
include hhi hal

theorem target_aligned_csr (ldmSize : Nat) : target ldmSize off 4 = .csr off := by
  rw [target_csr (by omega), if_pos ⟨rfl, hal⟩]

include hlo

/-- A reserved offset reads 0 (spec/10_state.md R52). -/
theorem busRead_reserved (s : State) : busRead off 4 s = { s with resp := .data 0 } := by
  simp only [busRead, target_aligned_csr hhi hal, readCsrAt, csrAt_reserved hlo]

/-- A write of a reserved offset is ignored (spec/10_state.md R52). -/
theorem busWrite_reserved (w : Word) (s : State) : busWrite off 4 w s = { s with resp := .ack } := by
  simp only [busWrite, target_aligned_csr hhi hal, writeCsrAt, csrAt_reserved hlo]

end

/-! ### Writes of the registers, by access code -/

section
variable {r : Csr} (h : r ∈ [Csr.id, .version, .result0, .result1, .errinfo, .binhz, .steps, .nspsym]) (w : Word) (s : State)
include h

/-- The RO registers of spec/10_state.md R22 ignore writes in both engine states. -/
theorem writeCsr_readOnly : writeCsr r w s = s := by
  fin_cases h <;> rfl

theorem busWrite_readOnly : busWrite (csrOffset r) 4 w s = { s with resp := .ack } := by
  rw [busWrite_csrOffset, writeCsr_readOnly h]

end

theorem writeCsr_operand_idle {r : Csr} {s : State} (hr : isOperand r = true) (hs : isBusy s = false) (w : Word) :
    writeCsr r w s = { s with csr := setOperand r w s.csr } := by
  cases r <;> cases hr <;> simp [writeCsr, isOperand, hs]

/-- After a write of an operand register, it reads the word and every other register reads as before. -/
theorem readCsr_setOperand {r : Csr} (hr : isOperand r = true) (w : Word) (s : State) (q : Csr) :
    readCsr q { s with csr := setOperand r w s.csr } = if q = r then w else readCsr q s := by
  cases r <;> cases hr <;> cases q <;> rfl

/-- What a read returns does not depend on the answer to the last access. -/
@[simp] theorem readCsr_resp (q : Csr) (s : State) (a : Resp) : readCsr q { s with resp := a } = readCsr q s := rfl

/-! ### STATUS -/

section
variable (s : State)

/-- STATUS from its most significant bit down (spec/10_state.md R26): ERRCODE above three reserved bits, then one bit each. -/
theorem statusWord_eq_concat :
    statusWord s = (((((s.status.errcode.setWidth 27 <<< 3).concat s.status.violation).concat s.status.overrun).concat
      s.status.err).concat s.status.done).concat (isBusy s) := by
  apply BitVec.eq_of_toNat_eq
  have herrcode := s.status.errcode.isLt
  have hbits : (isBusy s).toNat < 2 ∧ s.status.done.toNat < 2 ∧ s.status.err.toNat < 2 ∧ s.status.overrun.toNat < 2
      ∧ s.status.violation.toNat < 2 :=
    ⟨Bool.toNat_lt _, Bool.toNat_lt _, Bool.toNat_lt _, Bool.toNat_lt _, Bool.toNat_lt _⟩
  simp only [statusWord, BitVec.toNat_ofNat, BitVec.toNat_concat, BitVec.toNat_shiftLeft, BitVec.toNat_setWidth,
    Nat.shiftLeft_eq]
  omega

@[simp] theorem statusWord_busy : (statusWord s)[0] = isBusy s := by simp [statusWord_eq_concat]
@[simp] theorem statusWord_done : (statusWord s)[1] = s.status.done := by simp [statusWord_eq_concat]
@[simp] theorem statusWord_err : (statusWord s)[2] = s.status.err := by simp [statusWord_eq_concat]
@[simp] theorem statusWord_overrun : (statusWord s)[3] = s.status.overrun := by simp [statusWord_eq_concat]
@[simp] theorem statusWord_violation : (statusWord s)[4] = s.status.violation := by simp [statusWord_eq_concat]

/-- Above VIOLATION only ERRCODE, from bit 8 up, holds anything. -/
theorem statusWord_upper {b : Nat} (h : 5 ≤ b) :
    (statusWord s).getLsbD b = (decide (8 ≤ b) && s.status.errcode.getLsbD (b - 8)) := by
  obtain ⟨k, rfl⟩ := Nat.exists_eq_add_of_le' h
  have hshift : (statusWord s).getLsbD (k + 5) = (s.status.errcode.setWidth 27 <<< 3).getLsbD k := by
    simp only [statusWord_eq_concat, BitVec.getLsbD_concat_succ]
  have hlow : decide (8 ≤ k + 5) = !decide (k < 3) := by rw [← decide_not, decide_eq_decide]; omega
  rw [hshift, BitVec.getLsbD_shiftLeft, BitVec.getLsbD_setWidth, hlow, Nat.add_sub_add_right k 5 3]
  by_cases hk : k < 7
  · simp [show k < 27 by omega, show k - 3 < 27 by omega]
  · simp [BitVec.getLsbD_of_ge s.status.errcode (k - 3) (by omega)]

theorem statusWord_reserved {b : Nat} (h : (5 ≤ b ∧ b ≤ 7) ∨ 12 ≤ b) : (statusWord s).getLsbD b = false := by
  rw [statusWord_upper s (by omega)]
  rcases h with ⟨-, h⟩ | h
  · simp [show ¬8 ≤ b by omega]
  · simp [BitVec.getLsbD_of_ge s.status.errcode (b - 8) (by omega)]

variable (w : Word)

@[simp] theorem isBusy_writeStatus : isBusy (writeStatus w s) = isBusy s := rfl

/-- The ERRCODE field is cleared with ERR (spec/10_state.md R26). -/
theorem statusWord_writeStatus_errcode {b : Nat} (h : 8 ≤ b) :
    (statusWord (writeStatus w s)).getLsbD b = ((statusWord s).getLsbD b && !w.getLsbD 2) := by
  rw [statusWord_upper _ (by omega), statusWord_upper _ (by omega), writeStatus_errcode]
  cases w.getLsbD 2 <;> simp

theorem readCsr_writeStatus_of_ne {q : Csr} (hs : q ≠ .status) (he : q ≠ .errinfo) :
    readCsr q (writeStatus w s) = readCsr q s := by
  cases q
  case status => exact absurd rfl hs
  case errinfo => exact absurd rfl he
  all_goals rfl

end

/-! ### The obligations -/

/-- Settles O8: the bits of STATUS are its fields, and `writeStatus` masks each of them. -/
theorem statusWriteOneToClear : Obligations.StatusWriteOneToClear := by
  intro s w t
  have ht : t = { writeStatus w s with resp := .ack } := busWrite_csrOffset .status w s
  have hread (q : Csr) : readCsr q t = readCsr q (writeStatus w s) := by rw [ht, readCsr_resp]
  have hword : readCsr .status t = statusWord (writeStatus w s) := hread .status
  rw [hword, show readCsr .status s = statusWord s from rfl]
  refine ⟨?flags, ?errcode, ?busy, fun b hb => statusWord_reserved _ hb, hread .errinfo,
    fun q hs he => (hread q).trans (readCsr_writeStatus_of_ne s w hs he), ?frame⟩
  case flags => simp
  case errcode => exact fun b hb => statusWord_writeStatus_errcode s w (by fin_cases hb <;> decide)
  case busy => simp
  case frame =>
    rw [ht]
    rfl

/-- Settles O6: a write of an operand register while IDLE is `setOperand`, and one of a result register is nothing. -/
theorem operandRegistersStoreWhatIsWritten : Obligations.OperandRegistersStoreWhatIsWritten := by
  intro s w
  refine ⟨?_, fun r hr => busWrite_readOnly (List.mem_cons_of_mem _ (List.mem_cons_of_mem _ hr)) w s⟩
  intro r hr hs t
  have ht : t = { s with csr := setOperand r w s.csr, resp := .ack } := by
    simp only [t, busWrite_csrOffset, writeCsr_operand_idle hr hs]
  have hread (q : Csr) : readCsr q t = if q = r then w else readCsr q s := by
    rw [ht]
    exact readCsr_setOperand hr w s q
  exact ⟨by rw [hread, if_pos rfl], fun q hq => by rw [hread, if_neg hq], by rw [ht]⟩

/-- Settles O5: ID and VERSION are read-only registers with constant values, and no register is at a reserved offset. -/
theorem constantAndReservedOffsets : Obligations.ConstantAndReservedOffsets := fun s =>
  ⟨⟨busRead_csrOffset .id s, busRead_csrOffset .version s, by decide, by decide, fun w =>
      ⟨busWrite_readOnly (r := .id) (by decide) w s, busWrite_readOnly (r := .version) (by decide) w s⟩⟩,
    fun _ hlo hhi hal => ⟨busRead_reserved hlo hhi hal s, fun w => busWrite_reserved hlo hhi hal w s⟩⟩

/-- Settles O7: a write of CMD is `startCommand` while IDLE and `setOverrun` while BUSY. -/
theorem commandRegister : Obligations.CommandRegister := by
  refine ⟨rfl, fun s w => ?_⟩
  have hw : busWrite 0x014 4 w s = { (if isBusy s then setOverrun s else startCommand w s) with resp := .ack } :=
    busWrite_csrOffset .cmd w s
  refine ⟨fun hs => ⟨Config.latency s.draws, Config.completionOrder s.draws, ?_⟩, fun hs => ?_, busRead_csrOffset .cmd s⟩
  · rw [hw, if_neg (by simp [hs])]
    exact ⟨rfl, rfl⟩
  · rw [hw, if_pos hs]
    exact ⟨rfl, rfl⟩

end Sys2Proof.Machine
end

section
/-! PROOFS. What a command writes lies inside the destination region of its row (spec/30_encoding.md R100), whatever its
tables and its input hold. -/

namespace Sys2Proof.Machine

/-! ### Lengths of what the datapath answers -/

@[simp] theorem length_dataTones (md : Mode) (c : List Bool) (d0 : Nat) : (dataTones md c d0).length = 29 := by
  simp [dataTones]

@[simp] theorem length_ft4Costas (tb : Tables) (b : Nat) : (ft4Costas tb b).length = 4 := by simp [ft4Costas]

@[simp] theorem length_tones (tb : Tables) (md : Mode) (c : List Bool) : (tones tb md c).length = symbols md := by
  cases md <;> simp [tones, symbols, costas8]

@[simp] theorem length_toneBytes (ts : List Nat) : (toneBytes ts).length = ts.length := by simp [toneBytes]

@[simp] theorem length_synthTones (s : State) : (synthTones s).length = len s := by simp [synthTones]

section
variable (nm : Num)

@[simp] theorem length_integrate (o : SynthOperands) (count k : Nat) (phi : F32) :
    (integrate nm o count k phi).length = count := by
  induction count generalizing k phi with
  | zero => rfl
  | succ count ih => rw [integrate, List.length_cons, ih]

@[simp] theorem length_waveform (o : SynthOperands) : (waveform nm o).length = o.ts.length * o.n := by simp [waveform]

@[simp] theorem length_waterfallColumns (nfft nstep : Nat) (smp : List F32) :
    (waterfallColumns nm nfft nstep smp).length = binCount nfft := by
  simp [waterfallColumns]

@[simp] theorem length_waterfall (nfft nstep : Nat) (smp : List F32) :
    (waterfall nm nfft nstep smp).length = frameCount smp.length nstep * binCount nfft := by
  simp [waterfall, List.length_flatMap]

@[simp] theorem length_candidateLlrs (g : Grid) (md : Mode) (mt : Metric) (sc : F32) (mag : Nat → Nat → F32) (c : Nat × Nat) :
    (candidateLlrs nm g md mt sc mag c).length = 174 := by
  cases md <;> simp [candidateLlrs, symbolLlrs, List.length_flatMap, dataSymbols, bitsPerSymbol]

end

@[simp] theorem length_candidateRecord (g : Grid) (a : Scored) : (candidateRecord g a).length = 16 := by
  simp [candidateRecord]

@[simp] theorem length_resultRecord (index : Nat) (pay : List Bool) (crc : Nat) (snr : F32) :
    (resultRecord index pay crc snr).length = 20 := by
  simp [resultRecord]

/-- One candidate adds at most one record of 20 bytes. -/
theorem length_records_decodeOne_le (tb : Tables) (md : Mode) (snrOf : List Bool → F32) (index : Nat) (o : CandOutcome)
    (acc : DecodeAcc) :
    (decodeOne tb md snrOf index o acc).records.flatten.length ≤ acc.records.flatten.length + 20 := by
  cases o with
  | ldpcFail | crcFail => exact Nat.le_add_right _ _
  | crcOk c crc =>
    simp only [decodeOne]
    split
    · exact Nat.le_add_right _ _
    · simp

theorem length_records_decodeFrom_le (nm : Num) (md : Mode) (mt : Metric) (maxIter : Nat) (s : State) (index : Nat)
    (ps : List (Nat × Nat)) (acc : DecodeAcc) :
    (decodeFrom nm md mt maxIter s index ps acc).records.flatten.length ≤ acc.records.flatten.length + 20 * ps.length := by
  induction ps generalizing index acc with
  | nil => exact Nat.le_add_right _ _
  | cons p ps ih =>
    calc (decodeFrom nm md mt maxIter s index (p :: ps) acc).records.flatten.length
        ≤ _ + 20 * ps.length := ih _ _
      _ ≤ (acc.records.flatten.length + 20) + 20 * ps.length :=
        Nat.add_le_add_right (length_records_decodeOne_le ..) _
      _ = acc.records.flatten.length + 20 * (p :: ps).length := by rw [List.length_cons]; ring

/-! ### The body of each family of commands -/

section
variable {s : State} {e : Effect} {nm : Num} {md : Mode} {mt : Metric} {iter : Nat}

theorem cmdLdpcDecode_body_ok (h : (cmdLdpcDecode nm iter).body s = .ok e) : e.base = dst s ∧ e.bytes.length = 22 := by
  simp only [cmdLdpcDecode] at h
  split at h <;> cases h
  exact ⟨rfl, by simp⟩

theorem cmdGfskSynth_body_ok (h : (cmdGfskSynth nm).body s = .ok e) :
    e.base = dst s ∧ e.bytes.length = 4 * (len s * nspsymOf s) := by
  simp only [cmdGfskSynth] at h
  split at h <;> cases h
  exact ⟨rfl, by simp⟩

theorem cmdSpectrogram_body_ok (h : (cmdSpectrogram nm).body s = .ok e) :
    e.base = dst s ∧ e.bytes.length = 4 * (frameCount (len s) (nstep s) * binCount (nfft s)) := by
  simp only [cmdSpectrogram] at h
  split at h <;> cases h
  exact ⟨rfl, by simp⟩

theorem cmdSyncSearch_body_ok (h : (cmdSyncSearch md).body s = .ok e) :
    e.base = dst s ∧ e.bytes.length ≤ 16 * maxCand s := by
  cases h
  refine ⟨rfl, ?_⟩
  simp only [List.length_flatMap, length_candidateRecord, List.map_const', List.sum_replicate, List.length_take, smul_eq_mul]
  omega

theorem cmdLlrExtract_body_ok (h : (cmdLlrExtract nm md mt).body s = .ok e) :
    e.base = dst s ∧ e.bytes.length = 696 := by
  simp only [cmdLlrExtract] at h
  split at h <;> cases h
  exact ⟨rfl, by simp⟩

theorem cmdDecode_body_ok (h : (cmdDecode nm md mt iter).body s = .ok e) :
    e.base = dst s ∧ e.bytes.length ≤ 20 * len s := by
  simp only [cmdDecode] at h
  split at h <;> cases h
  refine ⟨rfl, (length_records_decodeFrom_le ..).trans ?_⟩
  simp [decodeCandidates]

end

/-- A body that ends without a fault writes no more bytes than its row, and writes them at DST_ADDR. -/
theorem body_ok_within_row {i : Instr} {s : State} {e : Effect} (h : (commandOf i).body s = .ok e) :
    (writesLdm i = true → e.base = dst s) ∧ e.bytes.length ≤ writtenSize i s := by
  cases i
  case ldpcDecode => exact (cmdLdpcDecode_body_ok h).imp (fun hbase _ => hbase) Nat.le_of_eq
  case gfskSynth =>
    exact (cmdGfskSynth_body_ok h).imp (fun hbase _ => hbase) fun hlen => hlen.trans_le (Nat.mul_assoc ..).ge
  case spectrogram =>
    exact (cmdSpectrogram_body_ok h).imp (fun hbase _ => hbase) fun hlen => hlen.trans_le (Nat.mul_assoc ..).ge
  case syncSearchFt8 | syncSearchFt4 => exact (cmdSyncSearch_body_ok h).imp_left fun hbase _ => hbase
  case llrExtractFt8Lse | llrExtractFt4Lse | llrExtractFt8Max | llrExtractFt4Max =>
    exact (cmdLlrExtract_body_ok h).imp (fun hbase _ => hbase) Nat.le_of_eq
  case decodeFt8Lse | decodeFt4Lse | decodeFt8Max | decodeFt4Max =>
    exact (cmdDecode_body_ok h).imp_left fun hbase _ => hbase
  all_goals
    cases h
    simp [writesLdm, writtenSize, symbols]

theorem writtenSize_of_not_writesLdm {i : Instr} (h : writesLdm i = false) (s : State) : writtenSize i s = 0 := by
  cases i
  case nop | crc14 | crcCheck => rfl
  all_goals cases h

theorem exists_written_region {i : Instr} {s : State} {p : Plan} (hp : (commandOf i).plan s = .ok p)
    (hw : writesLdm i = true) : ∃ r ∈ p.writes, r.base = dst s ∧ r.size = writtenSize i s := by
  have hwrites := plan_writes hp
  rw [hw, if_pos rfl] at hwrites
  obtain ⟨r, hr, hspan⟩ := List.mem_map.mp (hwrites ▸ List.mem_singleton_self _)
  exact ⟨r, hr, Span.mk.inj hspan⟩

/-- A command that ends without a fault writes nothing, or inside LDM_SIZE. -/
theorem evaluate_ok_fits {i : Instr} {s : State} {e : Effect} (h : evaluate (commandOf i) s = .ok e) :
    e.bytes = [] ∨ e.base + e.bytes.length ≤ s.params.ldmSize := by
  obtain ⟨p, hplan, hregions, hbody⟩ := (evaluate_ok_iff _ _ _).mp h
  obtain ⟨hbase, hlen⟩ := body_ok_within_row hbody
  cases hw : writesLdm i with
  | false =>
    rw [writtenSize_of_not_writesLdm hw] at hlen
    exact .inl (List.eq_nil_of_length_eq_zero (Nat.le_zero.mp hlen))
  | true =>
    obtain ⟨r, hr, hb, hs⟩ := exists_written_region hplan hw
    have hfits := ((checkRegions_none_iff _ _ _).mp hregions).1 r (List.mem_append_right _ hr)
    rw [regionFits, decide_eq_true_eq, hb, hs] at hfits
    have := hbase hw
    omega

end Sys2Proof.Machine
end

section
/-! PROOFS. The invariant: it holds at reset, and every operation a step is made of keeps it. -/

namespace Sys2Proof.Machine

/-- Every fault has a code of spec/60_exceptions.md R260. -/
theorem faultNumber_bounds (c : FaultCode) : 1 ≤ (faultNumber c).toNat ∧ (faultNumber c).toNat ≤ 7 := by
  cases c <;> decide

theorem resetWith_inv (p : Params) : (State.resetWith p).Inv where
  canonical := nil_wf
  inside := rfl
  noFault _ := ⟨rfl, rfl⟩
  faultCode := nofun
  running := nofun

/-- Settles O2: a reset state has an empty LDM list and all flags clear. -/
theorem invariantHoldsAtReset : Obligations.InvariantHoldsAtReset := resetWith_inv Config.params

section
variable {s t : State} (h : s.Inv)
include h

/-- The invariant speaks of the parameters, LDM, STATUS, ERRINFO and the engine alone. -/
theorem State.Inv.congr (hparams : t.params = s.params := by rfl) (hldm : t.ldm = s.ldm := by rfl)
    (hstatus : t.status = s.status := by rfl) (herrinfo : t.csr.errinfo = s.csr.errinfo := by rfl)
    (hbusy : isBusy t = isBusy s := by rfl) : t.Inv where
  canonical := hldm ▸ h.canonical
  inside := by rw [hldm, hparams]; exact h.inside
  noFault := by rw [hstatus, herrinfo]; exact h.noFault
  faultCode := by rw [hstatus]; exact h.faultCode
  running := by rw [hbusy, hstatus]; exact h.running

/-! ### Completion -/

theorem completeOk_inv {e : Effect} (he : e.bytes = [] ∨ e.base + e.bytes.length ≤ s.params.ldmSize) :
    (completeOk e s).Inv where
  canonical := store_wf h.canonical _ _
  inside := by
    rw [completeOk_ldm]
    rcases he with hnil | hfits
    · rw [hnil]; exact store_nil_within h.inside
    · exact store_within h.inside hfits
  noFault := h.noFault
  faultCode := h.faultCode
  running := nofun

theorem takeFault_inv (f : CmdFault) : (takeFault f s).Inv where
  canonical := h.canonical
  inside := h.inside
  noFault := nofun
  faultCode _ := by
    rw [takeFault_errcode]
    split
    · next herr => exact h.faultCode herr
    · exact faultNumber_bounds f.code
  running := nofun

theorem completion_inv (ht : completion s = .next t) : t.Inv := by
  rcases completion_cases s with ⟨i, -, hi⟩ | ⟨d, -, hd⟩
  · obtain rfl := Host.Outcome.next.inj (hi.symm.trans ht)
    rcases finish_cases (evaluate (commandOf i) s) s with ⟨e, he, hfin⟩ | ⟨f, -, hfin⟩ <;> rw [hfin]
    · exact completeOk_inv h (evaluate_ok_fits he)
    · exact takeFault_inv h f
  · obtain rfl := Host.Outcome.next.inj (hd.symm.trans ht)
    exact takeFault_inv h _

/-! ### The host's accesses -/

theorem resetRegisters_inv : (resetRegisters s).Inv where
  canonical := h.canonical
  inside := h.inside
  noFault _ := ⟨rfl, rfl⟩
  faultCode := nofun
  running := nofun

theorem softReset_inv (r : Option Span) : (softReset r s).Inv := by
  cases r with
  | none => exact resetRegisters_inv h
  | some r =>
    have hforget : (forgetSpan r s).Inv := ⟨forget_wf h.canonical _ _, forget_within h.inside, h.noFault, h.faultCode, h.running⟩
    exact resetRegisters_inv hforget

theorem writeStatus_inv (w : Word) : (writeStatus w s).Inv where
  canonical := h.canonical
  inside := h.inside
  noFault herr := by
    rw [writeStatus_errcode, writeStatus_csr]
    cases hw : w.getLsbD 2
    · simp only [writeStatus_err, hw, Bool.not_false, Bool.and_true] at herr
      simpa using h.noFault herr
    · simp
  faultCode herr := by
    rw [writeStatus_err, Bool.and_eq_true, Bool.not_eq_true'] at herr
    rw [writeStatus_errcode, herr.2]
    exact h.faultCode herr.1
  running hb := by
    rw [writeStatus_done, h.running hb, Bool.false_and]

theorem setOverrun_inv : (setOverrun s).Inv := ⟨h.canonical, h.inside, h.noFault, h.faultCode, h.running⟩

theorem setViolation_inv : (setViolation s).Inv := ⟨h.canonical, h.inside, h.noFault, h.faultCode, h.running⟩

theorem startCommand_inv (w : Word) : (startCommand w s).Inv := ⟨h.canonical, h.inside, h.noFault, h.faultCode, fun _ => rfl⟩

theorem writeCsr_inv (r : Csr) (w : Word) : (writeCsr r w s).Inv := by
  rcases writeCsr_cases r w s with ⟨-, -, e⟩ | ⟨-, e⟩ | ⟨-, e⟩ | ⟨-, -, e⟩ | ⟨-, -, e⟩ | ⟨-, -, e⟩ | ⟨-, -, e⟩ | ⟨-, -, -, -, -, e⟩
    <;> rw [e]
  · exact softReset_inv h _
  · exact writeStatus_inv h w
  · exact h.congr
  · exact setOverrun_inv h
  · exact startCommand_inv h w
  · exact setViolation_inv h
  · exact h.congr (herrinfo := by cases r <;> rfl)
  · exact h

theorem writeLdm_inv {off : Nat} {bs : List Byte} (hfits : off + bs.length ≤ s.params.ldmSize) : (writeLdm off bs s).Inv := by
  rw [writeLdm]
  split
  · exact setViolation_inv h
  · exact ⟨store_wf h.canonical _ _, store_within h.inside hfits, h.noFault, h.faultCode, h.running⟩

theorem busRead_inv (addr bytes : Nat) : (busRead addr bytes s).Inv := by
  rw [busRead_eq]
  exact h.congr

theorem busWrite_inv (addr bytes : Nat) (w : Word) : (busWrite addr bytes w s).Inv := by
  rcases busWrite_cases addr bytes w s with ⟨off, -, -, e⟩ | ⟨off, r, -, -, e⟩ | ⟨off, htarget, e⟩ | ⟨-, e⟩ <;> rw [e]
  · exact h.congr
  · exact (writeCsr_inv h r w).congr
  · exact (writeLdm_inv h ((length_leBytes bytes w.toNat).symm ▸ target_ldm_bound htarget)).congr
  · exact h.congr

theorem perform_inv (a : HostStep) : (perform a s).Inv := by
  cases a with
  | wait => exact h
  | read addr bytes => exact busRead_inv h _ _
  | write addr bytes w => exact busWrite_inv h _ _ _
  | poll => rw [perform_poll]; exact h.congr
  | powerOn => exact (resetWith_inv s.params).congr

theorem hostStep_inv : (hostStep s).Inv := by
  rcases hostStep_cases s with ⟨-, e⟩ | ⟨a, rest, -, e⟩ <;> rw [e]
  · exact h
  · exact perform_inv h.congr a

end

/-- Settles O3: a step is a host step, a completion, or both in either order, and each of them keeps the invariant. -/
theorem everyStepKeepsInvariant : Obligations.EveryStepKeepsInvariant := by
  intro s t h ht
  rcases step_cases s with ⟨-, -, e⟩ | ⟨-, -, e⟩ | ⟨-, u, hu, e⟩ | ⟨n, o, hbusy, e⟩ | ⟨-, e⟩ <;> rw [e] at ht
  · exact completion_inv (hostStep_inv h) ht
  · exact Host.Outcome.next.inj ht ▸ hostStep_inv h
  · exact Host.Outcome.next.inj ht ▸ hostStep_inv (completion_inv h hu)
  · exact Host.Outcome.next.inj ht ▸ hostStep_inv (h.congr (hbusy := by simp only [isBusy, hbusy]))
  · exact Host.Outcome.next.inj ht ▸ hostStep_inv h

end Sys2Proof.Machine
end

section
/-! PROOFS. Which bus accesses are answered, and what they read and write (spec/20_memory.md R62, R71, R72, R74;
spec/60_exceptions.md R273). -/

namespace Sys2Proof.Machine

/-! ### The three kinds of access -/

/-- An aligned 32-bit access of the CSR window. -/
def CsrAccess (addr bytes : Nat) : Prop := addr < 0x1000 ∧ bytes = 4 ∧ addr % 4 = 0

/-- A naturally aligned 8, 16 or 32-bit access inside the LDM window. -/
def LdmAccess (ldmSize addr bytes : Nat) : Prop :=
  0x01000000 ≤ addr ∧ bytes ∈ [1, 2, 4] ∧ addr % bytes = 0 ∧ addr + bytes ≤ 0x01000000 + ldmSize

theorem ldmWidth_iff {bytes : Nat} : ldmWidth bytes = true ↔ bytes ∈ [1, 2, 4] := by simp [ldmWidth, or_assoc]

section
variable {ldmSize addr bytes : Nat}

theorem target_of_csrAccess (h : CsrAccess addr bytes) : target ldmSize addr bytes = .csr addr := by
  obtain ⟨hwindow, hwidth⟩ := h
  rw [target_csr hwindow, if_pos hwidth]

theorem target_of_ldmAccess (h : LdmAccess ldmSize addr bytes) : target ldmSize addr bytes = .ldm (addr - 0x01000000) := by
  obtain ⟨hbase, hwidth, halign, hfits⟩ := h
  rw [target, if_neg (by omega), if_pos ⟨hbase, ldmWidth_iff.mpr hwidth, halign, by simp only [ldmBase]; omega⟩]
  rfl

theorem target_of_noAccess (hcsr : ¬CsrAccess addr bytes) (hldm : ¬LdmAccess ldmSize addr bytes) :
    target ldmSize addr bytes = .error := by
  rw [target]
  split
  · next hwindow => exact if_neg fun hwidth => hcsr ⟨hwindow, hwidth⟩
  · refine if_neg fun ⟨hbase, hwidth, halign, hfits⟩ => hldm ⟨hbase, ldmWidth_iff.mp hwidth, halign, ?_⟩
    simp only [ldmBase] at hbase hfits
    omega

/-- The window of LDM starts at a multiple of every width, so that alignment is the offset's. -/
theorem ldmAccess_offset {off n : Nat} (hn : n ∈ [1, 2, 4]) (halign : off % n = 0) (hfits : off + n ≤ ldmSize) :
    LdmAccess ldmSize (0x01000000 + off) n := by
  refine ⟨Nat.le_add_right _ _, hn, ?_, by omega⟩
  fin_cases hn <;> omega

end

/-! ### Their answers -/

section
variable {s : State} {addr bytes : Nat} (w : Word)

theorem busError_of_noAccess (hcsr : ¬CsrAccess addr bytes) (hldm : ¬LdmAccess s.params.ldmSize addr bytes) :
    ∃ d, busRead addr bytes s = { s with draws := s.draws + 1, resp := .busError d }
      ∧ busWrite addr bytes w s = { s with draws := s.draws + 1, resp := .busError d } := by
  refine ⟨(drawData 4 s).1, ?_⟩
  simp [busRead, busWrite, target_of_noAccess hcsr hldm]

theorem csrAccess_answered (h : CsrAccess addr bytes) :
    (busRead addr bytes s).resp = .data (readCsrAt addr s) ∧ (busWrite addr bytes w s).resp = .ack := by
  simp [busRead, busWrite, target_of_csrAccess h]

section
variable (h : LdmAccess s.params.ldmSize addr bytes)
include h

theorem ldmAccess_answered :
    (busRead addr bytes s).resp = .data (readLdm (addr - 0x01000000) bytes s).1 ∧ (busWrite addr bytes w s).resp = .ack := by
  simp [busRead, busWrite, target_of_ldmAccess h]

variable (hs : isBusy s = false)
include hs

theorem busRead_idle_ldm :
    busRead addr bytes s = { s with resp := .data (toWord (memRead s (addr - 0x01000000) bytes)) } := by
  simp [busRead, target_of_ldmAccess h, readLdm, hs]

theorem busWrite_idle_ldm :
    busWrite addr bytes w s =
      { s with ldm := s.ldm.store (addr - 0x01000000) (leBytes bytes w.toNat), resp := .ack } := by
  simp [busWrite, target_of_ldmAccess h, writeLdm, hs]

end
end

/-- Settles O13: the bus map answers the two kinds of access, everything else is a bus error. -/
theorem busErrorsAndReads : Obligations.BusErrorsAndReads := by
  intro s addr bytes w csrAccess ldmAccess
  refine ⟨fun hno => ?_, ?_, busRead_eq addr bytes s, ?_, fun h hs => busRead_idle_ldm h hs⟩
  · obtain ⟨hcsr, hldm⟩ := not_or.mp hno
    obtain ⟨d, hread, hwrite⟩ := busError_of_noAccess w hcsr hldm
    exact ⟨d, d, hread, hwrite⟩
  · rintro (h | h)
    · exact (csrAccess_answered w h).imp_left fun hread => ⟨_, hread⟩
    · exact (ldmAccess_answered w h).imp_left fun hread => ⟨_, hread⟩
  · rintro r rfl rfl
    exact busRead_csrOffset r s

/-! ### Byte order -/

/-- Byte k of a little-endian number is its k-th digit in base 256 (spec/20_memory.md R62). -/
theorem leNat_digit {bs : List Byte} {k : Nat} (hk : k < bs.length) : leNat bs / 256 ^ k % 256 = bs[k].toNat := by
  induction bs generalizing k with
  | nil => simp at hk
  | cons b bs ih =>
    have hb := b.isLt
    cases k with
    | zero => simp only [leNat, pow_zero, Nat.div_one, List.getElem_cons_zero]; omega
    | succ k =>
      have hdiv : leNat (b :: bs) / 256 = leNat bs := by rw [leNat]; omega
      rw [pow_succ', ← Nat.div_div_eq_div_mul, hdiv, ih (Nat.lt_of_succ_lt_succ hk), List.getElem_cons_succ]

theorem getElem_leBytes {n v k : Nat} (hk : k < (leBytes n v).length) : (leBytes n v)[k] = BitVec.ofNat 8 (v / 256 ^ k) := by
  induction n generalizing v k with
  | zero => simp [leBytes] at hk
  | succ n ih =>
    cases k with
    | zero => simp [leBytes]
    | succ k => simp only [leBytes, List.getElem_cons_succ, ih, pow_succ', Nat.div_div_eq_div_mul]

/-- Byte k of a word, as a shift. -/
theorem getElem_leBytes_word {n k : Nat} (w : Word) (hk : k < (leBytes n w.toNat).length) :
    (leBytes n w.toNat)[k] = (w >>> (8 * k)).setWidth 8 := by
  apply BitVec.eq_of_toNat_eq
  rw [getElem_leBytes, BitVec.toNat_ofNat, BitVec.toNat_setWidth, BitVec.toNat_ushiftRight, Nat.shiftRight_eq_div_pow, pow_mul]
  rfl

theorem memRead_digit (s : State) (a : Nat) {n k : Nat} (hk : k < n) :
    memRead s a n / 256 ^ k % 256 = (readByte s (a + k)).toNat := by
  rw [memRead, leNat_digit (by rwa [length_readBytes])]
  simp [readBytes]

theorem memRead_one (s : State) (a : Nat) : memRead s a 1 = (readByte s a).toNat := by
  simp [memRead, readBytes, leNat]

section
variable {s t : State} {b : Nat} {bs : List Byte} (hldm : t.ldm = s.ldm.store b bs) (hredraws : t.redraws = s.redraws)
include hldm hredraws

/-- LDM after a store: the stored bytes, and the old ones elsewhere. -/
theorem readByte_store (a : Nat) :
    readByte t a = if b ≤ a ∧ a < b + bs.length then bs.getD (a - b) 0 else readByte s a := by
  rw [← readByte_completeOk { base := b, bytes := bs }]
  exact readByte_congr (s := completeOk { base := b, bytes := bs } s) hldm hredraws a

theorem readByte_store_inside {k : Nat} (hk : k < bs.length) : readByte t (b + k) = bs[k] := by
  rw [readByte_store hldm hredraws, if_pos (by omega), Nat.add_sub_cancel_left, List.getD_eq_getElem _ _ hk]

theorem readBytes_store : readBytes t b bs.length = bs := by
  refine List.ext_getElem (length_readBytes _ _ _) fun k _ hk => ?_
  simp [readBytes, readByte_store_inside hldm hredraws hk]

end

/-- Settles O12: a read collects base-256 digits, and a write of n bytes stores the digits of its word. -/
theorem littleEndian : Obligations.LittleEndian := by
  refine ⟨fun s a n k hk => memRead_digit s a hk, ?_⟩
  intro s off n w hs hn halign hfits t
  have hoff : 0x01000000 + off - 0x01000000 = off := Nat.add_sub_cancel_left ..
  have ht : t = { s with ldm := s.ldm.store off (leBytes n w.toNat), resp := .ack } := by
    rw [← hoff]
    exact busWrite_idle_ldm w (ldmAccess_offset hn halign hfits) hs
  have hldm : t.ldm = s.ldm.store off (leBytes n w.toNat) := by rw [ht]
  have hredraws : t.redraws = s.redraws := by rw [ht]
  have hparams : t.params = s.params := by rw [ht]
  have hidle : isBusy t = false := by rw [ht]; exact hs
  have hbyte (k : Nat) (hk : k < n) : readByte t (off + k) = (w >>> (8 * k)).setWidth 8 := by
    rw [← length_leBytes n w.toNat] at hk
    rw [readByte_store_inside hldm hredraws hk, getElem_leBytes_word]
  have hread {a m : Nat} (hm : m ∈ [1, 2, 4]) (ha : a % m = 0) (hfit : a + m ≤ s.params.ldmSize) :
      (busRead (0x01000000 + a) m t).resp = .data (toWord (memRead t a m)) := by
    rw [busRead_idle_ldm (ldmAccess_offset hm ha (hparams ▸ hfit)) hidle, Nat.add_sub_cancel_left]
  refine ⟨hbyte, fun k hk => ?_, ?_, fun a ha => ?_, by rw [ht]⟩
  · rw [Nat.add_assoc, hread (by decide) (Nat.mod_one _) (by omega), memRead_one, hbyte k hk, toWord, BitVec.ofNat_toNat]
  · have hbytes := readBytes_store hldm hredraws
    rw [length_leBytes] at hbytes
    rw [hread hn halign hfits, memRead, hbytes, leNat_leBytes, toWord]
  · rw [readByte_store hldm hredraws, length_leBytes, if_neg ha]

end Sys2Proof.Machine
end

section
/-! PROOFS. The parameter checks of a command are the legal values of its operands (spec/60_exceptions.md R265,
spec/10_state.md R35 to R48): the integer tests of the model against the exact rationals of the rules. -/

namespace Sys2Proof.Machine

/-! ### Exact rationals as integers -/

theorem exact_of_pos {x : F32} (h : 0 < exact x) : exact x = scaledMag (magBits x) / 2 ^ 149 := by
  rw [← abs_exact, abs_of_pos h]

theorem finitePositive_iff {x : F32} : finitePositive x = true ↔ isFinite x = true ∧ 0 < exact x := by
  rw [finitePositive, Bool.and_assoc, Bool.and_eq_true]
  refine and_congr_right fun _ => ?_
  by_cases hzero : exact x = 0
  · simp [hzero, isZero_iff_exact.mpr hzero]
  · have hnz : isZero x = false := Bool.eq_false_iff.mpr (mt isZero_iff_exact.mp hzero)
    simp [hnz, signBit_eq_of_exact_ne_zero hzero, (Ne.symm hzero).le_iff_lt]

/-- Nspsym on exact rationals is the model's integer quotient, for a positive TSYM (spec/43_modulator.md R186). -/
theorem exactNspsym_eq {s : State} (h : 0 < exact s.csr.tsym) : exactNspsym s = nspsymOf s := by
  have hround : (fs s : ℚ) * exact s.csr.tsym + 1 / 2 =
      ((2 * (fs s * scaledMag (magBits s.csr.tsym)) + 2 ^ 149 : ℕ) : ℚ) / (2 * 2 ^ 149 : ℕ) := by
    rw [exact_of_pos h]
    push_cast
    ring
  rw [exactNspsym, hround, Rat.floor_natCast_div_natCast]
  rfl

theorem tsymOk_iff {s : State} :
    tsymOk s = true ↔
      isFinite s.csr.tsym = true ∧ 0 < exact s.csr.tsym ∧ 1 ≤ exactNspsym s ∧ exactNspsym s ≤ 2 ^ 20 := by
  rw [tsymOk, Bool.and_eq_true, finitePositive_iff, decide_eq_true_eq, and_assoc]
  refine and_congr_right fun _ => and_congr_right fun hpos => ?_
  rw [exactNspsym_eq hpos]
  omega

theorem f0Ok_iff {s : State} (htsym : tsymOk s = true) :
    f0Ok s = true ↔
      isFinite s.csr.f0Hz = true ∧ 0 ≤ exact s.csr.f0Hz
        ∧ exact s.csr.f0Hz + 7 * (fs s : ℚ) / (exactNspsym s : ℚ) ≤ (fs s : ℚ) / 2 := by
  obtain ⟨-, hpos, hn, -⟩ := tsymOk_iff.mp htsym
  rw [exactNspsym_eq hpos] at hn ⊢
  have hn' : (0 : ℚ) < nspsymOf s := by exact_mod_cast hn
  have hscale : (0 : ℚ) < 2 * nspsymOf s * 2 ^ 149 := by positivity
  have hleft : (exact s.csr.f0Hz + 7 * (fs s : ℚ) / ((nspsymOf s : ℤ) : ℚ)) * (2 * nspsymOf s * 2 ^ 149) =
      ((2 * nspsymOf s * scaled s.csr.f0Hz + 14 * fs s * 2 ^ 149 : ℤ) : ℚ) := by
    rw [exact]
    push_cast
    field_simp
    ring
  have hright : (fs s : ℚ) / 2 * (2 * nspsymOf s * 2 ^ 149) = ((fs s * nspsymOf s * 2 ^ 149 : ℤ) : ℚ) := by
    push_cast
    ring
  have hnonneg : 0 ≤ exact s.csr.f0Hz ↔ 0 ≤ scaled s.csr.f0Hz := by
    rw [exact, le_div_iff₀ (by positivity), zero_mul, Int.cast_nonneg_iff]
  rw [hnonneg, ← mul_le_mul_iff_of_pos_right hscale, hleft, hright, Int.cast_le]
  simp [f0Ok, and_assoc]

/-! ### The checks of every command -/

/-- The check of LEN, for the commands that have one. -/
def lenOk (i : Instr) (s : State) : Bool :=
  match i with
  | .decodeFt8Lse _ | .decodeFt4Lse _ | .decodeFt8Max _ | .decodeFt4Max _ => decide (len s ≤ 65535)
  | .gfskSynth | .spectrogram => decide (1 ≤ len s)
  | .nop | .crc14 | .crcAppend | .crcCheck | .ft4Xor | .ldpcEncode | .ldpcDecode _ | .tonemapFt8 | .tonemapFt4 | .encodeFt8
  | .encodeFt4 | .syncSearchFt8 | .syncSearchFt4 | .llrExtractFt8Lse | .llrExtractFt4Lse | .llrExtractFt8Max
  | .llrExtractFt4Max => true

theorem lenOk_iff {i : Instr} {s : State} : lenOk i s = true ↔ LegalLen i s := by
  cases i <;> simp [lenOk, LegalLen]

/-- The model's check of a CSR operand. -/
def paramOk (i : Instr) (s : State) : Csr → Bool
  | .fsHz => fsOk s
  | .tsym => tsymOk s
  | .bt => finitePositive s.csr.bt
  | .f0Hz => f0Ok s
  | .nfft => nfftOk s
  | .nstep => nstepOk s
  | .syncThresh => !isNaN s.csr.syncThresh
  | .maxCand => decide (1 ≤ maxCand s ∧ maxCand s ≤ 65535)
  | .llrScale => finitePositive s.csr.llrScale
  | .wfT => decide (1 ≤ wfT s)
  | .wfF => wfF s == nfft s / 2 + 1
  | .len => lenOk i s
  | .id | .version | .ctrl | .status | .irqEn | .cmd | .srcAddr | .dstAddr | .result0 | .result1 | .errinfo | .fminHz
  | .fmaxHz | .wfAddr | .binhz | .steps | .nspsym => true

/-- The check of F0_HZ divides by Nspsym, so that TSYM has to be legal first. -/
theorem paramOk_iff {i : Instr} {s : State} {r : Csr} (htsym : r = .f0Hz → tsymOk s = true) :
    paramOk i s r = true ↔ LegalParam i s r := by
  cases r
  case tsym => exact tsymOk_iff
  case f0Hz => exact f0Ok_iff (htsym rfl)
  case bt | llrScale => exact finitePositive_iff
  case len => exact lenOk_iff
  case syncThresh => simp [paramOk, LegalParam]
  case wfF => exact beq_iff_eq
  case fsHz | nfft | nstep | maxCand | wfT => exact decide_eq_true_iff
  all_goals exact iff_of_true rfl trivial

/-- A command's plan is guarded by the checks of its rule, in the order of the rule. -/
theorem exists_plan_guarded (i : Instr) (s : State) :
    ∃ p, (commandOf i).plan s = guarded ((paramChecks i).map fun r => (paramOk i s r, r)) p := by
  cases i <;> exact ⟨_, rfl⟩

theorem tsym_mem_of_f0Hz_mem {i : Instr} (h : .f0Hz ∈ paramChecks i) : .tsym ∈ paramChecks i := by
  cases i
  case gfskSynth => decide
  all_goals simp [paramChecks] at h

/-- Legal parameters pass the checks. -/
theorem exists_plan_of_paramsLegal {i : Instr} {s : State} (h : ParamsLegal i s) : ∃ p, (commandOf i).plan s = .ok p := by
  obtain ⟨p, hp⟩ := exists_plan_guarded i s
  refine ⟨p, hp.trans ((guarded_ok_iff _ _ _).mpr ⟨fun c hc => ?_, rfl⟩)⟩
  obtain ⟨r, hr, rfl⟩ := List.mem_map.mp hc
  refine (paramOk_iff ?_).mpr (h r hr)
  rintro rfl
  exact tsymOk_iff.mpr (h _ (tsym_mem_of_f0Hz_mem hr))

end Sys2Proof.Machine
end

section
/-! PROOFS. The region checks in the order of spec/20_memory.md R73, on the regions of a command's row
(spec/60_exceptions.md R263, R264, R267). -/

namespace Sys2Proof.Machine

/-! ### Faults of the evaluation -/

/-- A fault the evaluation raises is the one its completion records (spec/60_exceptions.md R269, R270). -/
theorem exec_faults {i : Instr} {s : State} {f : CmdFault} (h : evaluate (commandOf i) s = .error f) :
    ∃ t, exec i s = .next t ∧ Faults (faultNumber f.code) (BitVec.ofNat 32 f.info) s t := by
  refine ⟨takeFault f s, by rw [exec_eq_finish, h, finish_error], ?_⟩
  exact ⟨rfl, rfl, rfl, rfl, rfl, rfl, rfl, rfl, rfl, readByte_takeFault f s, rfl, rfl, rfl, rfl⟩

theorem evaluate_of_checkRegions {c : Command} {s : State} {p : Plan} {f : CmdFault} (hp : c.plan s = .ok p)
    (hr : checkRegions s.params.ldmSize (dst s) p = some f) : evaluate c s = .error f := by
  simp only [evaluate, hp, hr]

/-! ### The regions of a plan -/

/-- Where a region lies, without what it holds. -/
def Region.span (r : Region) : Span := ⟨r.base, r.size⟩

/-- Every region of a plan, in the order of spec/30_encoding.md R100. -/
def Plan.regions (p : Plan) : List Region := p.reads ++ p.writes

section
variable {i : Instr} {s : State} {p : Plan} (h : (commandOf i).plan s = .ok p)
include h

/-- The regions a plan reads, and those of its regions that hold words, are those of the command's row. -/
theorem plan_spans :
    p.reads.map Region.span = readSpans i s ∧ (p.regions.filter Region.words).map Region.span = wordSpans i s := by
  cases i
  case gfskSynth | spectrogram | syncSearchFt8 | syncSearchFt4 | llrExtractFt8Lse | llrExtractFt4Lse | llrExtractFt8Max
      | llrExtractFt4Max | decodeFt8Lse | decodeFt4Lse | decodeFt8Max | decodeFt4Max =>
    obtain ⟨-, rfl⟩ := (guarded_ok_iff _ _ _).mp h
    simp [Plan.regions, Region.span, readSpans, wordSpans, allSpans, writesLdm, writtenSize, waterfallRegion, frameCount,
      binCount, Nat.mul_assoc]
  all_goals
    injection h with h
    subst h
    exact ⟨rfl, rfl⟩

theorem plan_allSpans : p.regions.map Region.span = allSpans i s := by
  rw [Plan.regions, List.map_append, (plan_spans h).1]
  exact congrArg _ (plan_writes h)

end

/-! ### What each region check answers -/

section
variable {ldmSize d : Nat} {p : Plan} {r : Region}

theorem checkRegions_of_unfit (h : p.regions.find? (fun x => !regionFits ldmSize x) = some r) :
    checkRegions ldmSize d p = some ⟨.addressRange, r.base⟩ := by
  rw [Plan.regions] at h
  simp only [checkRegions, h]

variable (hfits : ∀ x ∈ p.regions, regionFits ldmSize x = true)
include hfits

theorem checkRegions_of_misaligned (h : p.regions.find? (fun x => !regionAligned x) = some r) :
    checkRegions ldmSize d p = some ⟨.misaligned, r.base⟩ := by
  have hnone : p.regions.find? (fun x => !regionFits ldmSize x) = none := by simpa using hfits
  rw [Plan.regions] at h hnone
  simp only [checkRegions, hnone, h]

theorem checkRegions_of_overlap (haligned : ∀ x ∈ p.regions, regionAligned x = true) {w : Region} (hw : w ∈ p.writes)
    (hr : r ∈ p.reads) (h : regionsOverlap w r = true) : checkRegions ldmSize d p = some ⟨.overlap, d⟩ := by
  have hfit : p.regions.find? (fun x => !regionFits ldmSize x) = none := by simpa using hfits
  have halign : p.regions.find? (fun x => !regionAligned x) = none := by simpa using haligned
  have hany : (p.writes.any fun w => p.reads.any fun r => regionsOverlap w r) = true :=
    List.any_eq_true.mpr ⟨w, hw, List.any_eq_true.mpr ⟨r, hr, h⟩⟩
  rw [Plan.regions] at hfit halign
  simp only [checkRegions, hfit, halign, if_pos hany]

end

theorem regionFits_iff {ldmSize : Nat} {r : Region} : regionFits ldmSize r = true ↔ r.base + r.size ≤ ldmSize :=
  decide_eq_true_iff

theorem regionAligned_iff {r : Region} : regionAligned r = true ↔ (r.words = true → r.size = 0 ∨ r.base % 4 = 0) := by
  cases hw : r.words <;> simp [regionAligned, hw]

theorem regionsOverlap_iff {x y : Region} : regionsOverlap x y = true ↔ ¬Apart x.base x.size y.base y.size := by
  rw [regionsOverlap, decide_eq_true_eq, Apart]
  omega

/-! ### The first failing region of a row -/

/-- The first element of a list whose image fails a test, from the place of the image in the image of the list. -/
theorem exists_find?_of_map {α β : Type} {f : α → β} {q : β → Bool} {l : List α} {before after : List β} {b : β}
    (hl : l.map f = before ++ b :: after) (hbefore : ∀ x ∈ before, q x = false) (hb : q b = true) :
    ∃ a, l.find? (fun a => q (f a)) = some a ∧ f a = b := by
  have hfind : (l.map f).find? q = some b := by
    rw [hl, List.find?_append, List.find?_eq_none.mpr (by simpa using hbefore)]
    simp [hb]
  rwa [List.find?_map, Option.map_eq_some_iff] at hfind

section
variable {i : Instr} {s : State} {p : Plan} (h : (commandOf i).plan s = .ok p) {before after : List Span} {r : Span}
include h

theorem find?_unfit (hl : allSpans i s = before ++ r :: after) (hbefore : ∀ q ∈ before, q.base + q.size ≤ s.params.ldmSize)
    (hr : s.params.ldmSize < r.base + r.size) :
    ∃ x, p.regions.find? (fun x => !regionFits s.params.ldmSize x) = some x ∧ x.span = r :=
  exists_find?_of_map (q := fun q : Span => !decide (q.base + q.size ≤ s.params.ldmSize)) ((plan_allSpans h).trans hl)
    (by simpa using hbefore) (by simpa using hr)

theorem find?_misaligned (hl : wordSpans i s = before ++ r :: after) (hbefore : ∀ q ∈ before, q.size = 0 ∨ q.base % 4 = 0)
    (hsize : r.size ≠ 0) (hbase : r.base % 4 ≠ 0) :
    ∃ x, p.regions.find? (fun x => !regionAligned x) = some x ∧ x.span = r := by
  obtain ⟨x, hx, hspan⟩ := exists_find?_of_map (q := fun q : Span => !(q.size == 0 || q.base % 4 == 0))
    ((plan_spans h).2.trans hl) (by simpa [or_iff_not_imp_left] using hbefore) (by simp [hsize, hbase])
  refine ⟨x, ?_, hspan⟩
  rw [← hx, List.find?_filter]
  congr 1
  funext y
  rw [Bool.eq_iff_iff]
  simp [regionAligned, Region.span, and_assoc]

theorem regions_fit (hfits : ∀ q ∈ allSpans i s, q.base + q.size ≤ s.params.ldmSize) :
    ∀ x ∈ p.regions, regionFits s.params.ldmSize x = true := fun x hx =>
  regionFits_iff.mpr (hfits x.span (plan_allSpans h ▸ List.mem_map_of_mem hx))

theorem regions_aligned (haligned : ∀ q ∈ wordSpans i s, q.size = 0 ∨ q.base % 4 = 0) :
    ∀ x ∈ p.regions, regionAligned x = true := fun x hx =>
  regionAligned_iff.mpr fun hw =>
    haligned x.span ((plan_spans h).2 ▸ List.mem_map_of_mem (List.mem_filter.mpr ⟨hx, hw⟩))

theorem exists_overlap (hw : writesLdm i = true) (hr : r ∈ readSpans i s)
    (hapart : ¬Apart (dst s) (writtenSize i s) r.base r.size) :
    ∃ w ∈ p.writes, ∃ x ∈ p.reads, regionsOverlap w x = true := by
  obtain ⟨w, hwrites, hbase, hsize⟩ := exists_written_region h hw
  rw [← (plan_spans h).1] at hr
  obtain ⟨x, hx, rfl⟩ := List.mem_map.mp hr
  refine ⟨w, hwrites, x, hx, regionsOverlap_iff.mpr ?_⟩
  rwa [hbase, hsize]

end

/-- Settles O21: legal parameters leave the outcome to the region checks, which find the first region that fails. -/
theorem addressFaultsInOrder : Obligations.AddressFaultsInOrder := by
  intro i s hparams
  obtain ⟨p, hp⟩ := exists_plan_of_paramsLegal hparams
  refine ⟨fun before r after hl hbefore hr => ?_, fun hfits => ⟨fun before r after hl hbefore hsize hbase => ?_, ?_⟩⟩
  · obtain ⟨x, hx, rfl⟩ := find?_unfit hp hl hbefore hr
    exact exec_faults (evaluate_of_checkRegions hp (checkRegions_of_unfit hx))
  · obtain ⟨x, hx, rfl⟩ := find?_misaligned hp hl hbefore hsize hbase
    exact exec_faults (evaluate_of_checkRegions hp (checkRegions_of_misaligned (regions_fit hp hfits) hx))
  · rintro haligned hw ⟨r, hr, hapart⟩
    obtain ⟨w, hwrites, x, hx, hoverlap⟩ := exists_overlap hp hw hr hapart
    have hdst : BitVec.ofNat 32 (dst s) = s.csr.dstAddr := BitVec.ofNat_toNat ..
    rw [← hdst]
    exact exec_faults (evaluate_of_checkRegions hp
      (checkRegions_of_overlap (regions_fit hp hfits) (regions_aligned hp haligned) hwrites hx hoverlap))

end Sys2Proof.Machine
end

section
/-! PROOFS. Command words and commands are two writings of the same fields (spec/30_encoding.md R90, R91, R96): decoding inverts
encoding, and the legal words are the encodings of the well-formed commands. -/

namespace Sys2Proof.Machine

open Laws.EncodeFields (assemble_fields)

/-! ### The opcode map -/

theorem opcodeOf_code (o : Opcode) : opcodeOf o.code = some o := by cases o <;> rfl

theorem code_of_opcodeOf {n : Nat} {o : Opcode} (h : opcodeOf n = some o) : n = o.code := by
  unfold opcodeOf at h
  split at h <;> cases h <;> rfl

theorem mem_mapOpcodes_iff {n : Nat} : n ∈ mapOpcodes ↔ ∃ o : Opcode, n = o.code := by
  constructor
  · have hall : ∀ m ∈ mapOpcodes, opcodeOf m ≠ none := by decide
    intro h
    obtain ⟨o, ho⟩ := Option.ne_none_iff_exists'.mp (hall n h)
    exact ⟨o, code_of_opcodeOf ho⟩
  · rintro ⟨o, rfl⟩
    cases o <;> decide

/-! ### The fields of a command -/

/-- Each of P, L and ITER that the opcode does not use is 0 (spec/30_encoding.md R91). -/
def UnusedZero (o : Opcode) (p l : Bool) (iter : Nat) : Prop :=
  (o.usesP = false → p = false) ∧ (o.usesL = false → l = false) ∧ (o.usesIter = false → iter = 0)

/-- Every command is the one its fields select. -/
theorem exists_select (i : Instr) : ∃ o p l iter, i = select o p l iter ∧ UnusedZero o p l iter := by
  refine ⟨i.fields.1, i.fields.2.1, i.fields.2.2.1, i.fields.2.2.2, ?_⟩
  cases i <;> simp [select, Instr.fields, UnusedZero, Opcode.usesP, Opcode.usesL, Opcode.usesIter]

section
variable {o : Opcode} {p l : Bool} {iter : Nat} (h : UnusedZero o p l iter)
include h

theorem fields_select : (select o p l iter).fields = (o, p, l, iter) := by
  obtain ⟨hp, hl, hiter⟩ := h
  cases o
  case decode => cases p <;> cases l <;> rfl
  case llrExtract => cases hiter rfl; cases p <;> cases l <;> rfl
  case tonemap | encode | syncSearch => cases hl rfl; cases hiter rfl; cases p <;> rfl
  case ldpcDecode => cases hp rfl; cases hl rfl; rfl
  all_goals cases hp rfl; cases hl rfl; cases hiter rfl; rfl

theorem encode_select : encode (select o p l iter) = assemble o p l iter := by simp only [encode, fields_select h]

theorem wellFormed_select : (select o p l iter).wellFormed = true ↔ iter < 256 := by
  have hall (i : Instr) : i.wellFormed = true ↔ i.fields.2.2.2 < 256 := by
    cases i <;> simp [Instr.wellFormed, iterFits, Instr.fields]
  rw [hall, fields_select h]

theorem fieldsLegal_assemble (hiter : iter < 256) : fieldsLegal o (assemble o p l iter) = true := by
  obtain ⟨-, hrsv0, hrsv1, hP, hL, hIter⟩ := assemble_fields o p l hiter
  obtain ⟨hp, hl, hi⟩ := h
  simpa [fieldsLegal, hrsv0, hrsv1, hP, hL, hIter, or_iff_not_imp_left] using ⟨⟨hp, hl⟩, hi⟩

theorem decode_assemble (hiter : iter < 256) : decode (assemble o p l iter) = .ok (select o p l iter) := by
  obtain ⟨hopc, -, -, hP, hL, hIter⟩ := assemble_fields o p l hiter
  simp only [decode, hopc, opcodeOf_code, fieldsLegal_assemble h hiter, if_true, hP, hL, hIter]
  cases p <;> cases l <;> rfl

end

theorem decode_encode {i : Instr} (hi : i.wellFormed = true) : decode (encode i) = .ok i := by
  obtain ⟨o, p, l, iter, rfl, h⟩ := exists_select i
  rw [encode_select h, decode_assemble h ((wellFormed_select h).mp hi)]

/-! ### Bytes -/

/-- The four bytes of a word form the word again. -/
theorem wordOfBytes_tableByte (w : Word) :
    wordOfBytes (tableByte 32 w.toNat 0) (tableByte 32 w.toNat 1) (tableByte 32 w.toNat 2) (tableByte 32 w.toNat 3) = w := by
  apply BitVec.eq_of_toNat_eq
  have := w.isLt
  simp only [wordOfBytes, tableByte, BitVec.toNat_ofNat]
  omega

theorem decodeBytes_tableByte {w : Word} {i : Instr} (h : decode w = .ok i) (rest : List Byte) :
    decodeBytes (tableByte 32 w.toNat 0 :: tableByte 32 w.toNat 1 :: tableByte 32 w.toNat 2 :: tableByte 32 w.toNat 3 :: rest)
      = .ok (i, rest) := by
  simp only [decodeBytes, wordOfBytes_tableByte, h]

/-- Settles O14: the fields of an assembled word select the command they came from, and its four bytes form it again. -/
theorem decodeOfEncode : Obligations.DecodeOfEncode := by
  intro i hi
  have hword := decode_encode hi
  refine ⟨hword, ?_, fun rest => decodeBytes_tableByte hword rest⟩
  simp only [decodeTableWord, decodeBytes_tableByte hword]
  rfl

/-! ### Legal words -/

theorem fieldOpc_eq (w : Word) : fieldOpc w = w.toNat % 2 ^ 8 := by rw [fieldOpc, field, pow_zero, Nat.div_one]

/-- A one-bit field is its bit. -/
theorem field_one (w : Word) (k : Nat) : field w k 1 = (w.getLsbD k).toNat := by
  rw [field, BitVec.getLsbD, Nat.toNat_testBit, pow_one]

theorem fieldsLegal_iff {o : Opcode} {w : Word} :
    fieldsLegal o w = true ↔
      fieldRsv0 w = 0 ∧ fieldRsv1 w = 0 ∧ UnusedZero o (w.getLsbD 8) (w.getLsbD 9) (fieldIter w) := by
  simp [fieldsLegal, UnusedZero, fieldP, fieldL, field_one, or_iff_not_imp_left, and_assoc]

/-- The fields of a word, legal for its opcode, are all of it. -/
theorem assemble_of_fieldsLegal {o : Opcode} {w : Word} (hopc : fieldOpc w = o.code) (h : fieldsLegal o w = true) :
    assemble o (w.getLsbD 8) (w.getLsbD 9) (fieldIter w) = w := by
  obtain ⟨hrsv0, hrsv1, -⟩ := fieldsLegal_iff.mp h
  apply BitVec.eq_of_toNat_eq
  have := w.isLt
  rw [assemble, ← hopc, ← field_one, ← field_one, BitVec.toNat_ofNat]
  simp only [fieldOpc, fieldIter, fieldRsv0, fieldRsv1, field] at hopc hrsv0 hrsv1 ⊢
  omega

theorem decode_of_fieldsLegal {o : Opcode} {w : Word} (hopc : fieldOpc w = o.code) (h : fieldsLegal o w = true) :
    ∃ i, decode w = .ok i ∧ i.wellFormed = true ∧ encode i = w := by
  obtain ⟨-, -, hunused⟩ := fieldsLegal_iff.mp h
  have hiter : fieldIter w < 256 := Nat.mod_lt _ (by decide)
  have hw := assemble_of_fieldsLegal hopc h
  refine ⟨_, ?_, (wellFormed_select hunused).mpr hiter, (encode_select hunused).trans hw⟩
  rw [← decode_assemble hunused hiter, hw]

/-- The rule of R91 by the numbers of the opcodes is the rule by the opcodes. -/
theorem fieldsLegal_iff_FieldsLegal {o : Opcode} {w : Word} (hopc : w.toNat % 2 ^ 8 = o.code) :
    fieldsLegal o w = true ↔ FieldsLegal w := by
  have hP : o.usesP = false ↔ o.code ∉ [0x20, 0x21, 0x50, 0x51, 0x52] := by cases o <;> decide
  have hL : o.usesL = false ↔ o.code ∉ [0x51, 0x52] := by cases o <;> decide
  have hIter : o.usesIter = false ↔ o.code ∉ [0x11, 0x52] := by cases o <;> decide
  have hRsv1 : fieldRsv1 w = w.toNat / 2 ^ 24 := Nat.mod_eq_of_lt (by have := w.isLt; omega)
  rw [fieldsLegal_iff, hRsv1, UnusedZero, hP, hL, hIter, ← hopc]
  rfl

theorem decode_of_not_mem_mapOpcodes {w : Word} (h : w.toNat % 2 ^ 8 ∉ mapOpcodes) : decode w = .error .illegalOpcode := by
  cases ho : opcodeOf (fieldOpc w) with
  | none => simp only [decode, ho]
  | some o => exact absurd (mem_mapOpcodes_iff.mpr ⟨o, fieldOpc_eq w ▸ code_of_opcodeOf ho⟩) h

theorem decode_of_not_fieldsLegal {o : Opcode} {w : Word} (hopc : fieldOpc w = o.code) (h : ¬fieldsLegal o w = true) :
    decode w = .error .reservedField := by
  simp only [decode, hopc, opcodeOf_code, if_neg h]

/-- Everything decoding without an error says: the opcode is in the map and the fields are legal for it. -/
theorem fieldsLegal_of_decode {w : Word} {i : Instr} (h : decode w = .ok i) :
    ∃ o : Opcode, fieldOpc w = o.code ∧ fieldsLegal o w = true := by
  cases ho : opcodeOf (fieldOpc w) with
  | none => simp only [decode, ho, reduceCtorEq] at h
  | some o =>
    refine ⟨o, code_of_opcodeOf ho, ?_⟩
    by_contra hfields
    rw [decode_of_not_fieldsLegal (code_of_opcodeOf ho) hfields] at h
    cases h

/-- The words that decode to a command are the one word of it, if it is well-formed. -/
theorem decode_eq_ok_iff {w : Word} {i : Instr} : decode w = .ok i ↔ i.wellFormed = true ∧ encode i = w := by
  constructor
  · intro h
    obtain ⟨o, hopc, hfields⟩ := fieldsLegal_of_decode h
    obtain ⟨j, hj, hwf, hw⟩ := decode_of_fieldsLegal hopc hfields
    obtain rfl := Except.ok.inj (hj.symm.trans h)
    exact ⟨hwf, hw⟩
  · rintro ⟨hwf, rfl⟩
    exact decode_encode hwf

/-- Settles O16: eleven legal words, one with a reserved field and one with no opcode, decoded. -/
theorem sampleWordsDecode : Obligations.SampleWordsDecode :=
  ⟨rfl, rfl, rfl, rfl, rfl, rfl, rfl, rfl, rfl, rfl, rfl, rfl, rfl⟩

end Sys2Proof.Machine
end

section
/-! PROOFS. The opcode table (spec/30_encoding.md R96, spec/opcode_table.json): its rows are the rows of the commands, and the
word of a command matches the row of that command alone. -/

namespace Sys2Proof.Machine

open Laws.EncodeFields (assemble_fields)

/-- The row of a command: its word with ITER 0, and a mask that leaves ITER out where the opcode uses it
(spec/30_encoding.md R96). -/
def rowOf (i : Instr) : TableRow :=
  match i.fields with
  | (o, p, l, _) => ⟨assemble o p l 0, if o.usesIter then 0xFF00FFFF else 0xFFFFFFFF⟩

theorem rowOf_mem (i : Instr) : rowOf i ∈ opcodeTable := by
  cases i <;> exact List.elem_iff.mp rfl

/-- Every row is the row of the command its pattern is the word of. -/
theorem exists_rowOf {r : TableRow} (h : r ∈ opcodeTable) : ∃ i, r = rowOf i := by
  have hall : ∀ r ∈ opcodeTable, ∃ i ∈ (decode r.pattern).toOption, r = rowOf i := by decide
  obtain ⟨i, -, hi⟩ := hall r h
  exact ⟨i, hi⟩

theorem opcodeTable_nodup : opcodeTable.Nodup := by decide

theorem toNat_append_eq_add {m n : Nat} (x : BitVec m) (y : BitVec n) : (x ++ y).toNat = x.toNat * 2 ^ n + y.toNat := by
  rw [BitVec.toNat_append, ← Nat.shiftLeft_add_eq_or_of_lt y.isLt, Nat.shiftLeft_eq]

theorem append_and_mask (rsv1 iter : Byte) (low : BitVec 16) :
    (rsv1 ++ iter ++ low) &&& (0xFF00FFFF : Word) = rsv1 ++ 0#8 ++ low := by
  change (rsv1 ++ iter ++ low) &&& (BitVec.allOnes 8 ++ 0#8 ++ BitVec.allOnes 16) = _
  rw [BitVec.and_append, BitVec.and_append, BitVec.and_allOnes, BitVec.and_allOnes, BitVec.and_zero]

/-- A word is its bits outside ITER and its ITER field. -/
theorem and_mask_add_iter (w : Word) : (w &&& 0xFF00FFFF) + BitVec.ofNat 32 (2 ^ 16 * fieldIter w) = w := by
  obtain ⟨rsv1, iter, low, rfl⟩ : ∃ (rsv1 iter : Byte) (low : BitVec 16), w = rsv1 ++ iter ++ low :=
    ⟨w.extractLsb' 24 8, w.extractLsb' 16 8, w.extractLsb' 0 16, by grind⟩
  have hlow := low.isLt
  have hiter := iter.isLt
  have hrsv1 := rsv1.isLt
  rw [append_and_mask]
  apply BitVec.eq_of_toNat_eq
  simp only [fieldIter, field, BitVec.toNat_add, BitVec.toNat_ofNat, toNat_append_eq_add]
  omega

section
variable {o : Opcode} {p l : Bool} {w : Word}

theorem and_mask_eq_iff : w &&& 0xFF00FFFF = assemble o p l 0 ↔ w = assemble o p l (fieldIter w) := by
  have hsum : assemble o p l (fieldIter w) = assemble o p l 0 + BitVec.ofNat 32 (2 ^ 16 * fieldIter w) := by
    rw [assemble, assemble, mul_zero, add_zero, BitVec.ofNat_add]
  rw [hsum, ← BitVec.add_left_inj, and_mask_add_iter]

theorem rowOf_select {iter : Nat} (h : UnusedZero o p l iter) :
    rowOf (select o p l iter) = ⟨assemble o p l 0, if o.usesIter then 0xFF00FFFF else 0xFFFFFFFF⟩ := by
  simp only [rowOf, fields_select h]

/-- A word matches the row of a command exactly when it is assembled from that command's opcode, P and L. -/
theorem rowOf_select_matches_iff {iter : Nat} (h : UnusedZero o p l iter) :
    (rowOf (select o p l iter)).matches w = true ↔ ∃ k < 256, UnusedZero o p l k ∧ w = assemble o p l k := by
  rw [rowOf_select h, TableRow.matches, beq_iff_eq]
  obtain ⟨hp, hl, -⟩ := h
  cases huses : o.usesIter with
  | true =>
    have hunused : UnusedZero o p l (fieldIter w) := ⟨hp, hl, by simp [huses]⟩
    refine and_mask_eq_iff.trans ⟨fun hw => ⟨fieldIter w, Nat.mod_lt _ (by decide), hunused, hw⟩, ?_⟩
    rintro ⟨k, hk, -, rfl⟩
    obtain ⟨-, -, -, -, -, hIter⟩ := assemble_fields o p l hk
    rw [hIter]
  | false =>
    have hall : w &&& 0xFFFFFFFF = w := BitVec.and_allOnes
    refine ⟨fun hw => ⟨0, by decide, ⟨hp, hl, fun _ => rfl⟩, hall.symm.trans hw⟩, ?_⟩
    rintro ⟨k, -, ⟨-, -, hk⟩, rfl⟩
    rw [hk huses]
    exact BitVec.and_allOnes

end

/-- The rows that match a word are those of the command it decodes to. -/
theorem rowOf_matches_iff {i : Instr} {w : Word} :
    (rowOf i).matches w = true ↔ ∃ j, decode w = .ok j ∧ rowOf j = rowOf i := by
  obtain ⟨o, p, l, iter, rfl, h⟩ := exists_select i
  constructor
  · intro hw
    obtain ⟨k, hk, hunused, rfl⟩ := (rowOf_select_matches_iff h).mp hw
    exact ⟨_, decode_assemble hunused hk, by rw [rowOf_select hunused, rowOf_select h]⟩
  · rintro ⟨j, hj, hrow⟩
    obtain ⟨hwf, rfl⟩ := decode_eq_ok_iff.mp hj
    rw [← hrow]
    obtain ⟨o', p', l', k, rfl, hunused⟩ := exists_select j
    have hk := (wellFormed_select hunused).mp hwf
    exact (rowOf_select_matches_iff hunused).mpr ⟨k, hk, hunused, encode_select hunused⟩

/-- A word that decodes matches one row, that of its command. -/
theorem length_filter_matches {i : Instr} {w : Word} (h : decode w = .ok i) :
    (opcodeTable.filter fun r => r.matches w).length = 1 := by
  have hrows : ∀ r ∈ opcodeTable, r.matches w = (r == rowOf i) := by
    intro r hr
    obtain ⟨j, rfl⟩ := exists_rowOf hr
    rw [Bool.eq_iff_iff, rowOf_matches_iff, beq_iff_eq, h]
    exact ⟨fun ⟨k, hk, hrow⟩ => Except.ok.inj hk ▸ hrow.symm, fun hrow => ⟨i, rfl, hrow.symm⟩⟩
  rw [List.filter_congr hrows, ← List.countP_eq_length_filter]
  exact List.count_eq_one_of_mem opcodeTable_nodup (rowOf_mem i)

/-- Settles O15: the legal words are the encodings of the well-formed commands, and a row matches the words of its command. -/
theorem decodeOrder : Obligations.DecodeOrder := by
  intro w
  refine ⟨decode_of_not_mem_mapOpcodes, fun hopc hfields => ?reserved, fun hopc hfields => ?legal,
    fun hillegal r hr => ?rows⟩
  case reserved =>
    obtain ⟨o, ho⟩ := mem_mapOpcodes_iff.mp hopc
    exact decode_of_not_fieldsLegal ((fieldOpc_eq w).trans ho) (mt (fieldsLegal_iff_FieldsLegal ho).mp hfields)
  case legal =>
    obtain ⟨o, ho⟩ := mem_mapOpcodes_iff.mp hopc
    obtain ⟨i, hi, hwf, hw⟩ :=
      decode_of_fieldsLegal ((fieldOpc_eq w).trans ho) ((fieldsLegal_iff_FieldsLegal ho).mpr hfields)
    exact ⟨i, hi, hwf, hw, length_filter_matches hi⟩
  case rows =>
    obtain ⟨i, rfl⟩ := exists_rowOf hr
    rw [← Bool.not_eq_true, rowOf_matches_iff]
    rintro ⟨j, hj, -⟩
    obtain ⟨o, hopc, hfields⟩ := fieldsLegal_of_decode hj
    rw [fieldOpc_eq] at hopc
    exact hillegal ⟨mem_mapOpcodes_iff.mpr ⟨o, hopc⟩, (fieldsLegal_iff_FieldsLegal hopc).mp hfields⟩

end Sys2Proof.Machine
end

section
/-! PROOFS. A command whose operands, regions and input data are legal completes (spec/40_control.md R121, R122), and writes the
registers of its row alone (spec/30_encoding.md R100). -/

namespace Sys2Proof.Machine

/-! ### Legal operands reach the body -/

/-- Legal regions pass the region checks (spec/20_memory.md R73). -/
theorem checkRegions_of_addressesLegal {i : Instr} {s : State} {p : Plan} (hp : (commandOf i).plan s = .ok p)
    (h : AddressesLegal i s) : checkRegions s.params.ldmSize (dst s) p = none := by
  obtain ⟨hfits, haligned, hapart⟩ := h
  refine (checkRegions_none_iff _ _ _).mpr ⟨regions_fit hp hfits, regions_aligned hp haligned, fun w hw r hr => ?_⟩
  have hspan : w.span ∈ if writesLdm i then [⟨dst s, writtenSize i s⟩] else [] :=
    plan_writes hp ▸ List.mem_map_of_mem hw
  have hread : r.span ∈ readSpans i s := (plan_spans hp).1 ▸ List.mem_map_of_mem hr
  cases hwrites : writesLdm i with
  | false => simp [hwrites] at hspan
  | true =>
    rw [hwrites, if_pos rfl, List.mem_singleton, Region.span, Span.mk.injEq] at hspan
    obtain ⟨hbase, hsize⟩ := hspan
    rw [← Bool.not_eq_true, regionsOverlap_iff, not_not, hbase, hsize]
    exact hapart hwrites _ hread

theorem evaluate_eq_body {i : Instr} {s : State} (hparams : ParamsLegal i s) (haddr : AddressesLegal i s) :
    evaluate (commandOf i) s = (commandOf i).body s := by
  obtain ⟨p, hp⟩ := exists_plan_of_paramsLegal hparams
  exact evaluate_of_plan hp (checkRegions_of_addressesLegal hp haddr)

/-! ### Legal data -/

theorem firstIndex_eq_none_iff {α : Type} {p : α → Bool} {l : List α} :
    firstIndex p l = none ↔ ∀ x ∈ l, p x = false := by
  induction l with
  | nil => simp [firstIndex]
  | cons x l ih => cases hx : p x <;> simp [firstIndex, hx, ih]

/-- A list read element by element has no offending element if no index offends. -/
theorem firstIndex_map_range {α : Type} {p : α → Bool} {f : Nat → α} {n : Nat} (h : ∀ k < n, p (f k) = false) :
    firstIndex p ((List.range n).map f) = none := by
  rw [firstIndex_eq_none_iff]
  simpa using h

theorem validCandidate_iff {g : Grid} {md : Mode} {c : Nat × Nat} :
    validCandidate g md c = true ↔ ValidCandidate g md c.1 c.2 := by
  rw [validCandidate, decide_eq_true_eq, ValidCandidate, binIndex]
  omega

theorem validRecord_iff {md : Mode} {s : State} {k : Nat} :
    validCandidate (gridOf s) md (candidateAt s (src s + 16 * k)) = true ↔ ValidRecord md s k :=
  validCandidate_iff

section
variable {s : State} {nm : Num} {md : Mode} {mt : Metric} {iter : Nat}

theorem cmdLdpcDecode_completes (h : ∀ k < 174, isNaN (f32Read s (src s + 4 * k)) = false) :
    ∃ e, (cmdLdpcDecode nm iter).body s = .ok e := by
  have hnone : firstIndex isNaN (f32Array s (src s) 174) = none := firstIndex_map_range h
  simp only [cmdLdpcDecode, hnone]
  exact ⟨_, rfl⟩

theorem cmdGfskSynth_completes (h : ∀ k < len s, (readByte s (src s + k)).toNat ≤ 7) :
    ∃ e, (cmdGfskSynth nm).body s = .ok e := by
  have hnone : firstIndex (fun t => decide (7 < t)) (synthTones s) = none := by
    rw [synthTones, readBytes, List.map_map]
    exact firstIndex_map_range fun k hk => by simpa using h k hk
  simp only [cmdGfskSynth, hnone]
  exact ⟨_, rfl⟩

theorem cmdSpectrogram_completes (h : ∀ k < len s, isFinite (f32Read s (src s + 4 * k)) = true) :
    ∃ e, (cmdSpectrogram nm).body s = .ok e := by
  have hnone : firstIndex (fun x => !isFinite x) (f32Array s (src s) (len s)) = none :=
    firstIndex_map_range fun k hk => by simpa using h k hk
  simp only [cmdSpectrogram, hnone]
  exact ⟨_, rfl⟩

theorem cmdLlrExtract_completes (h : ValidRecord md s 0) : ∃ e, (cmdLlrExtract nm md mt).body s = .ok e :=
  ⟨_, if_pos (validRecord_iff.mpr h)⟩

theorem cmdDecode_completes (h : ∀ k < len s, ValidRecord md s k) : ∃ e, (cmdDecode nm md mt iter).body s = .ok e := by
  have hnone : firstIndex (fun c => !validCandidate (gridOf s) md c) (decodeCandidates s) = none :=
    firstIndex_map_range fun k hk => by simpa using validRecord_iff.mpr (h k hk)
  simp only [cmdDecode, hnone]
  exact ⟨_, rfl⟩

end

/-- The body of a command ends without a fault on legal input data (spec/60_exceptions.md R266). -/
theorem exists_body_of_dataLegal {i : Instr} {s : State} (h : DataLegal i s) : ∃ e, (commandOf i).body s = .ok e := by
  cases i
  case ldpcDecode => exact cmdLdpcDecode_completes fun k hk => by simpa [BadDatum, hk] using h k
  case gfskSynth => exact cmdGfskSynth_completes fun k hk => by simpa [BadDatum, hk] using h k
  case spectrogram => exact cmdSpectrogram_completes fun k hk => by simpa [BadDatum, hk] using h k
  case llrExtractFt8Lse | llrExtractFt4Lse | llrExtractFt8Max | llrExtractFt4Max =>
    exact cmdLlrExtract_completes (not_not.mp fun hbad => h 0 ⟨rfl, hbad⟩)
  case decodeFt8Lse | decodeFt4Lse | decodeFt8Max | decodeFt4Max =>
    exact cmdDecode_completes fun k hk => not_not.mp fun hbad => h k ⟨hk, hbad⟩
  all_goals exact ⟨_, rfl⟩

/-! ### The registers a command writes -/

/-- The registers an effect writes. -/
def Effect.registers (e : Effect) : List Csr :=
  (if e.result0.isSome then [.result0] else []) ++ (if e.result1.isSome then [.result1] else [])
    ++ (if e.nspsym.isSome then [.nspsym] else []) ++ if e.wf.isSome then [.wfAddr, .wfT, .wfF, .binhz, .steps] else []

/-- A completion changes STATUS and the registers of its effect alone. -/
theorem readCsr_completeOk {e : Effect} {r : Csr} (hr : r ∉ e.registers) (hstatus : r ≠ .status) (s : State) :
    readCsr r (completeOk e s) = readCsr r s := by
  cases r
  case status => exact absurd rfl hstatus
  case result0 | result1 | nspsym | wfAddr | wfT | wfF | binhz | steps =>
    simp [Effect.registers] at hr
    simp [readCsr, hr]
  all_goals rfl

theorem registers_of_body_ok {i : Instr} {s : State} {e : Effect} (h : (commandOf i).body s = .ok e) :
    e.registers = registersWritten i := by
  cases i
  case ldpcDecode | gfskSynth | spectrogram | llrExtractFt8Lse | llrExtractFt4Lse | llrExtractFt8Max | llrExtractFt4Max
      | decodeFt8Lse | decodeFt4Lse | decodeFt8Max | decodeFt4Max =>
    simp only [commandOf, cmdLdpcDecode, cmdGfskSynth, cmdSpectrogram, cmdLlrExtract, cmdDecode] at h
    split at h <;> cases h
    rfl
  all_goals
    cases h
    rfl

/-! ### Completion -/

theorem completes_completeOk (e : Effect) (s : State) : Completes s (completeOk e s) :=
  ⟨rfl, rfl, rfl, rfl, rfl, rfl, rfl, rfl⟩

theorem ldmKept_completeOk {i : Instr} {s : State} {e : Effect} (h : (commandOf i).body s = .ok e) :
    LdmKept (dst s) (writtenSize i s) s (completeOk e s) := by
  obtain ⟨hbase, hlen⟩ := body_ok_within_row h
  refine fun a ha => readByte_completeOk_outside (fun hin => ?_) s
  cases hw : writesLdm i with
  | false => rw [writtenSize_of_not_writesLdm hw] at hlen; omega
  | true => rw [hbase hw] at hin; omega

/-- Settles O23: legal operands reach the body, legal data keep it from a fault, and its effect is of the command's row. -/
theorem legalCommandsCompleteWithinTheirRow : Obligations.LegalCommandsCompleteWithinTheirRow := by
  intro i s hparams haddr hdata
  obtain ⟨e, hbody⟩ := exists_body_of_dataLegal hdata
  have hexec : exec i s = .next (completeOk e s) := by
    rw [exec_eq_finish, evaluate_eq_body hparams haddr, hbody, finish_ok]
  have hkept := ldmKept_completeOk hbody
  refine ⟨_, hexec, completes_completeOk e s, hkept, fun hw a => hkept a ?_, fun r hr hstatus => ?_⟩
  · rw [writtenSize_of_not_writesLdm hw]
    omega
  · exact readCsr_completeOk (registers_of_body_ok hbody ▸ hr) hstatus s

end Sys2Proof.Machine
end

section
/-! PROOFS. Completions of spec/40_control.md R122 to R124: NOP sets DONE and nothing else, and no command and no host step stops
the machine. -/

namespace Sys2Proof.Machine

/-! ### NOP -/

@[simp] theorem store_nil (m : Memory) : m.store 0 [] = m := by
  simp [Memory.store, Memory.below, Memory.above, cellsFrom]

/-- A completion that has collected no writes changes DONE and the engine alone. -/
theorem completeOk_empty (s : State) :
    completeOk {} s = { s with status := { s.status with done := true }, eng := .idle } := by
  simp only [completeOk, store_nil]
  rfl

/-- NOP uses no field, so that the one legal word of opcode 0 is the word 0. -/
theorem eq_zero_of_fieldsLegal_nop {w : Word} (hopc : fieldOpc w = 0) (h : fieldsLegal .nop w = true) : w = 0 := by
  obtain ⟨-, -, hP, hL, hIter⟩ := fieldsLegal_iff.mp h
  rw [← assemble_of_fieldsLegal (o := .nop) hopc h, hP rfl, hL rfl, hIter rfl]
  rfl

/-- Settles O26: the outcome of NOP is the empty effect, and a legal word of opcode 0 has no bit set. -/
theorem nopSetsDoneOnly : Obligations.NopSetsDoneOnly := by
  refine ⟨fun s => ?_, rfl, fun w hopc hne => ?_⟩
  · rw [exec_eq_finish, ← completeOk_empty]
    rfl
  · rw [← fieldOpc_eq] at hopc
    exact decode_of_not_fieldsLegal (o := .nop) hopc fun h => hne (eq_zero_of_fieldsLegal_nop hopc h)

/-! ### Every step goes on -/

theorem exists_completion (s : State) : ∃ t, completion s = .next t := by
  rcases completion_cases s with ⟨_, -, h⟩ | ⟨_, -, h⟩ <;> exact ⟨_, h⟩

/-- A step is a host step, a completion, or both in either order, and each of them has a next state. -/
theorem exists_step (s : State) : ∃ t, step s = .next t := by
  rcases step_cases s with ⟨-, -, h⟩ | ⟨-, -, h⟩ | ⟨-, _, -, h⟩ | ⟨_, _, -, h⟩ | ⟨-, h⟩
  · rw [h]
    exact exists_completion _
  all_goals exact ⟨_, h⟩

theorem run_succ {s t : State} (h : step s = .next t) (k : Nat) :
    Host.Core.run core (k + 1) s = Host.Core.run core k t := by
  have hcore : core.step s = .next t := h
  simp only [Host.Core.run, hcore]

theorem safeRun (k : Nat) (s : State) : SafeRun k s := by
  induction k generalizing s with
  | zero => exact ⟨s, rfl⟩
  | succ k ih =>
    obtain ⟨t, ht⟩ := exists_step s
    obtain ⟨u, hu⟩ := ih t
    exact ⟨u, (run_succ ht k).trans hu⟩

/-- Settles O4: `exec` is a completion step, and a run is safe by induction on its steps. -/
theorem machineNeverStops : Obligations.MachineNeverStops :=
  ⟨fun i s => ⟨_, exec_eq_finish i s⟩, safeRun⟩

end Sys2Proof.Machine
end

section
/-! PROOFS. What the demodulator looks at. The cells a valid candidate or a point of the search grid asks for lie inside the
waterfall (spec/44_demodulator.md R215 to R217), so that scores, LLRs, SNRs and records depend on the waterfall alone. -/

namespace Sys2Proof.Machine

/-! ### Tones of a protocol -/

theorem toneCount_pos (md : Mode) : 0 < toneCount md := by cases md <;> decide

/-- An entry of a list of tones is a tone, and so is the 0 past its end. -/
theorem getD_lt_toneCount {md : Mode} {ts : List Nat} (h : ∀ t ∈ ts, t < toneCount md) (u : Nat) :
    ts.getD u 0 < toneCount md := by
  by_cases hu : u < ts.length
  · rw [List.getD_eq_getElem _ _ hu]
    exact h _ (List.getElem_mem hu)
  · rw [List.getD_eq_default _ _ (by omega)]
    exact toneCount_pos md

theorem gray_lt (md : Mode) (v : Nat) : gray md v < toneCount md := by
  cases md
  case ft8 => exact getD_lt_toneCount (md := .ft8) (by decide) v
  case ft4 => exact getD_lt_toneCount (md := .ft4) (by decide) v

theorem costas8_lt : ∀ t ∈ costas8, t < toneCount .ft8 := by decide

theorem dataTones_lt (md : Mode) (c : List Bool) (d0 : Nat) : ∀ t ∈ dataTones md c d0, t < toneCount md := by
  simp [dataTones, gray_lt]

/-- A data symbol is a symbol of the frame (spec/43_modulator.md R180, R181). -/
theorem dataPos_lt (md : Mode) {d : Nat} (hd : d < dataSymbols md) : dataPos md d < symbols md := by
  cases md <;> simp only [dataSymbols] at hd <;> simp only [dataPos, symbols] <;> split_ifs <;> omega

section
variable {tb : Tables} (htb : Ft4Legal tb)
include htb

theorem ft4Costas_lt (b : Nat) : ∀ t ∈ ft4Costas tb b, t < toneCount .ft4 := by
  intro t ht
  obtain ⟨k, -, rfl⟩ := List.mem_map.mp ht
  refine getD_lt_toneCount ?_ k
  by_cases hb : b < tb.ft4Costas.length
  · rw [List.getD_eq_getElem _ _ hb]
    exact (htb.costas_shape.2 _ (List.getElem_mem hb)).2
  · rw [List.getD_eq_default _ _ (not_lt.mp hb)]
    exact List.forall_mem_nil _

theorem tones_lt (md : Mode) (c : List Bool) : ∀ t ∈ tones tb md c, t < toneCount md := by
  have hdata := dataTones_lt md c
  cases md
  case ft8 =>
    simp only [tones, List.forall_mem_append]
    exact ⟨⟨⟨⟨costas8_lt, hdata 0⟩, costas8_lt⟩, hdata 29⟩, costas8_lt⟩
  case ft4 =>
    have hsync := ft4Costas_lt htb
    have hramp : ∀ t ∈ [0], t < toneCount .ft4 := by decide
    simp only [tones, List.forall_mem_append]
    exact ⟨⟨⟨⟨⟨⟨⟨⟨hramp, hsync 0⟩, hdata 0⟩, hsync 1⟩, hdata 29⟩, hsync 2⟩, hdata 58⟩, hsync 3⟩, hramp⟩

/-- A sync block lies inside the frame, and its entries are tones (spec/43_modulator.md R180, R181). -/
theorem syncBlocks_inside (md : Mode) :
    ∀ b ∈ syncBlocks tb md, b.1 + b.2.length ≤ symbols md ∧ ∀ t ∈ b.2, t < toneCount md := by
  cases md
  case ft8 =>
    simp only [syncBlocks, List.forall_mem_cons]
    decide
  case ft4 =>
    have hblock (b off : Nat) (hoff : off + 4 ≤ 105) :
        off + (ft4Costas tb b).length ≤ symbols .ft4 ∧ ∀ t ∈ ft4Costas tb b, t < toneCount .ft4 :=
      ⟨length_ft4Costas tb b ▸ hoff, ft4Costas_lt htb b⟩
    simp only [syncBlocks, List.forall_mem_cons]
    exact ⟨hblock 0 1 (by decide), hblock 1 34 (by decide), hblock 2 67 (by decide), hblock 3 100 (by decide), nofun⟩

theorem syncSymbols_inside {md : Mode} {uc : Nat × Nat} (h : uc ∈ syncSymbols tb md) :
    uc.1 < symbols md ∧ uc.2 < toneCount md := by
  obtain ⟨b, hb, huc⟩ := List.mem_flatMap.mp h
  obtain ⟨k, hk, rfl⟩ := List.mem_mapIdx.mp huc
  obtain ⟨hlen, htones⟩ := syncBlocks_inside htb md b hb
  exact ⟨by dsimp only; omega, htones _ (List.getElem_mem hk)⟩

end

/-! ### Cells of a candidate -/

theorem timeIndex_mono (g : Grid) : Monotone (timeIndex g) := fun _ _ huv =>
  Nat.div_le_div_right (Nat.add_le_add_right (Nat.mul_le_mul_right _ (Nat.mul_le_mul_left 2 huv)) _)

theorem binOffset_mono (g : Grid) : Monotone (binOffset g) := fun _ _ hjk =>
  Nat.div_le_div_right (Nat.add_le_add_right (Nat.mul_le_mul_right _ (Nat.mul_le_mul_left 2 hjk)) _)

section
variable {g : Grid} {md : Mode} {c : Nat × Nat} (h : validCandidate g md c = true)
include h

/-- Every symbol of a valid candidate has a row of the waterfall (spec/44_demodulator.md R216). -/
theorem timeIndex_lt_of_valid {u : Nat} (hu : u < symbols md) : timeIndex g (c.1 + u) < g.t := by
  obtain ⟨-, -, ht⟩ := of_decide_eq_true h
  have := timeIndex_mono g (show c.1 + u ≤ c.1 + symbols md - 1 by omega)
  omega

/-- Every tone of a valid candidate has a column of the waterfall, with two more above it (spec/44_demodulator.md R216). -/
theorem binIndex_lt_of_valid {k : Nat} (hk : k < toneCount md) : binIndex g c.2 k + 2 < g.f := by
  obtain ⟨-, hf, -⟩ := of_decide_eq_true h
  have := binOffset_mono g (show k ≤ toneCount md - 1 by omega)
  simp only [binIndex] at hf ⊢
  omega

end

/-- The count of R217 counts rows of the waterfall only. -/
theorem timeIndex_lt_of_lt_symbolsInside {g : Grid} {u : Nat} (h : u < symbolsInside g) : timeIndex g u < g.t := by
  have hn : 0 < 2 * g.n := by
    by_contra h0
    simp [symbolsInside, Nat.eq_zero_of_not_pos h0] at h
  have hrow := (Nat.le_div_iff_mul_le hn).mp (show u + 1 ≤ _ from h)
  rw [add_mul, one_mul] at hrow
  have hlt : u * (2 * g.n) < g.nstep * (2 * g.t - 1) := by omega
  have hstep : 0 < g.nstep := Nat.pos_of_mul_pos_right (Nat.zero_lt_of_lt hlt)
  have ht : 0 < 2 * g.t - 1 := Nat.pos_of_mul_pos_left (Nat.zero_lt_of_lt hlt)
  rw [timeIndex, Nat.div_lt_iff_lt_mul (by omega)]
  calc 2 * u * g.n + g.nstep
      = u * (2 * g.n) + g.nstep := by ring
    _ < g.nstep * (2 * g.t - 1) + g.nstep := Nat.add_lt_add_right hlt _
    _ = g.nstep * (2 * g.t - 1 + 1) := by ring
    _ = g.t * (2 * g.nstep) := by rw [Nat.sub_add_cancel (by omega)]; ring

/-- Every point of the search grid is a valid candidate (spec/44_demodulator.md R216, R217). -/
theorem validCandidate_of_mem_gridPoints {g : Grid} {md : Mode} {fs fmin fmax : Nat} {p : Nat × Nat}
    (h : p ∈ gridPoints g md fs fmin fmax) : validCandidate g md p = true := by
  obtain ⟨n, hn, hp⟩ := List.mem_flatMap.mp h
  obtain ⟨f0, hf0, rfl⟩ := List.mem_map.mp hp
  rw [timeOrigins, List.mem_range] at hn
  rw [List.mem_range'_1, lowBin, highBin] at hf0
  have ht := timeIndex_lt_of_lt_symbolsInside (show n + symbols md - 1 < symbolsInside g by omega)
  exact decide_eq_true ⟨by omega, by rw [binIndex]; omega, ht⟩

/-! ### Functions of the cells -/

/-- Two readings of a waterfall give the same magnitude in every cell of the geometry. -/
def SameCells (g : Grid) (mag mag' : Nat → Nat → F32) : Prop := ∀ t f, t < g.t → f < g.f → mag' t f = mag t f

section
variable {g : Grid} {md : Mode} {mag mag' : Nat → Nat → F32} {c : Nat × Nat}
  (hmag : SameCells g mag mag') (hc : validCandidate g md c = true)
include hmag hc

theorem SameCells.tone {u k : Nat} (hu : u < symbols md) (hk : k < toneCount md) :
    mag' (timeIndex g (c.1 + u)) (binIndex g c.2 k) = mag (timeIndex g (c.1 + u)) (binIndex g c.2 k) :=
  hmag _ _ (timeIndex_lt_of_valid hc hu) (by have := binIndex_lt_of_valid hc hk; omega)

/-- The score of a candidate (spec/44_demodulator.md R218). -/
theorem syncScore_congr {tb : Tables} (htb : Ft4Legal tb) : syncScore g md tb mag' c = syncScore g md tb mag c := by
  unfold syncScore
  congr 1
  refine List.foldl_ext _ _ _ fun acc uc huc => congrArg (fadd acc) ?_
  obtain ⟨hu, htone⟩ := syncSymbols_inside htb huc
  have hoff : ∀ off, ∀ k ∈ List.range (toneCount md),
      (if k = uc.2 then off else fadd off (mag' (timeIndex g (c.1 + uc.1)) (binIndex g c.2 k))) =
        if k = uc.2 then off else fadd off (mag (timeIndex g (c.1 + uc.1)) (binIndex g c.2 k)) :=
    fun off k hk => by rw [hmag.tone hc hu (List.mem_range.mp hk)]
  rw [syncTerm, syncTerm, List.foldl_ext _ _ _ hoff, hmag.tone hc hu htone]

/-- The LLRs of a candidate (spec/44_demodulator.md R222 to R224). -/
theorem candidateLlrs_congr (nm : Num) (mt : Metric) (sc : F32) :
    candidateLlrs nm g md mt sc mag' c = candidateLlrs nm g md mt sc mag c := by
  refine List.flatMap_congr fun d hd => List.map_congr_left fun b _ => ?_
  have hu := dataPos_lt md (List.mem_range.mp hd)
  cases mt <;> simp only [bitLlr, hmag.tone hc hu (gray_lt md _)]

/-- The SNR of a candidate (spec/44_demodulator.md R226). -/
theorem snr_congr (nm : Num) {tb : Tables} (htb : Ft4Legal tb) (cw : List Bool) :
    snr nm g md tb mag' c cw = snr nm g md tb mag c cw := by
  have hsig : ∀ acc, ∀ u ∈ List.range (symbols md),
      fadd acc (nm.exp10 (mag' (timeIndex g (c.1 + u)) (binIndex g c.2 ((tones tb md cw).getD u 0)))) =
        fadd acc (nm.exp10 (mag (timeIndex g (c.1 + u)) (binIndex g c.2 ((tones tb md cw).getD u 0)))) :=
    fun acc u hu => by rw [hmag.tone hc (List.mem_range.mp hu) (getD_lt_toneCount (tones_lt htb md cw) u)]
  have hnoise : ∀ acc, ∀ u ∈ List.range (symbols md),
      fadd (fadd acc (nm.exp10 (mag' (timeIndex g (c.1 + u)) (c.2 - 2))))
          (nm.exp10 (mag' (timeIndex g (c.1 + u)) (binIndex g c.2 (toneCount md - 1) + 2))) =
        fadd (fadd acc (nm.exp10 (mag (timeIndex g (c.1 + u)) (c.2 - 2))))
          (nm.exp10 (mag (timeIndex g (c.1 + u)) (binIndex g c.2 (toneCount md - 1) + 2))) := fun acc u hu => by
    have hrow := timeIndex_lt_of_valid hc (List.mem_range.mp hu)
    have htop := binIndex_lt_of_valid hc (Nat.sub_lt (toneCount_pos md) one_pos)
    have hlow : c.2 - 2 < g.f := by rw [binIndex] at htop; omega
    rw [hmag _ _ hrow hlow, hmag _ _ hrow htop]
  have hraw : rawSnr nm g md tb mag' c cw = rawSnr nm g md tb mag c cw := by
    simp only [rawSnr]
    rw [List.foldl_ext _ _ _ hsig, List.foldl_ext _ _ _ hnoise]
  simp only [snr, hraw]

end

end Sys2Proof.Machine
end

section
/-! PROOFS. A command's outcome is a function of its row of spec/30_encoding.md R100 (spec/40_control.md R125): a command sees the
parameters, the registers of its row and LDM, and of LDM only the bytes of the regions its row reads. -/

namespace Sys2Proof.Machine

/-! ### Reads inside a region -/

/-- The two states read the same bytes in `[base, base + size)`. -/
def SameBytes (s t : State) (base size : Nat) : Prop := ∀ a, base ≤ a → a < base + size → readByte t a = readByte s a

theorem sameBytes_of_covers {s t : State} {r : Span} (h : ∀ a, r.covers a = true → readByte t a = readByte s a) :
    SameBytes s t r.base r.size := fun a hlo hhi => h a (decide_eq_true ⟨hlo, hhi⟩)

section
variable {s t : State} {base size : Nat} (h : SameBytes s t base size)
include h

theorem SameBytes.readBytes_eq : readBytes t base size = readBytes s base size :=
  List.map_congr_left fun k hk => h _ (by omega) (by have := List.mem_range.mp hk; omega)

theorem SameBytes.mono {base' size' : Nat} (hlo : base ≤ base') (hhi : base' + size' ≤ base + size) :
    SameBytes s t base' size' := fun a ha hb => h a (by omega) (by omega)

theorem SameBytes.memRead_eq {a n : Nat} (hlo : base ≤ a) (hhi : a + n ≤ base + size) : memRead t a n = memRead s a n := by
  rw [memRead, memRead, (h.mono hlo hhi).readBytes_eq]

theorem SameBytes.f32Read_eq {a : Nat} (hlo : base ≤ a) (hhi : a + 4 ≤ base + size) : f32Read t a = f32Read s a := by
  rw [f32Read, f32Read, h.memRead_eq hlo hhi]

theorem SameBytes.f32Array_eq {n : Nat} (hn : 4 * n ≤ size) : f32Array t base n = f32Array s base n :=
  List.map_congr_left fun k hk => h.f32Read_eq (by omega) (by have := List.mem_range.mp hk; omega)

theorem SameBytes.readBits_eq {n : Nat} (hn : n ≤ 8 * size) : readBits t base n = readBits s base n :=
  List.map_congr_left fun k hk => by
    have := List.mem_range.mp hk
    rw [bitRead, bitRead, h _ (by omega) (by omega)]

end

/-! ### A decode, candidate by candidate -/

section
variable {s t : State} {nm : Num} {md : Mode} {mt : Metric}

/-- A DECODE looks at the LLRs and SNRs of its candidates, and at the tables. -/
theorem decodeFrom_congr {maxIter : Nat} {ps : List (Nat × Nat)} (htb : t.params.tables = s.params.tables)
    (hllr : ∀ p ∈ ps, candidateLlrs nm (gridOf t) md mt t.csr.llrScale (magAt t) p =
      candidateLlrs nm (gridOf s) md mt s.csr.llrScale (magAt s) p)
    (hsnr : ∀ p ∈ ps, snr nm (gridOf t) md s.params.tables (magAt t) p = snr nm (gridOf s) md s.params.tables (magAt s) p)
    (index : Nat) (acc : DecodeAcc) :
    decodeFrom nm md mt maxIter t index ps acc = decodeFrom nm md mt maxIter s index ps acc := by
  induction ps generalizing index acc with
  | nil => rfl
  | cons p ps ih =>
    obtain ⟨hllr_p, hllr_ps⟩ := List.forall_mem_cons.mp hllr
    obtain ⟨hsnr_p, hsnr_ps⟩ := List.forall_mem_cons.mp hsnr
    simp only [decodeFrom, htb, hllr_p, hsnr_p, ih hllr_ps hsnr_ps]

theorem cmdDecode_body_congr {iter : Nat} (hcands : decodeCandidates t = decodeCandidates s) (hgrid : gridOf t = gridOf s)
    (hdst : dst t = dst s)
    (hdecode : (∀ p ∈ decodeCandidates s, validCandidate (gridOf s) md p = true) → ∀ index acc,
      decodeFrom nm md mt (maxIter iter) t index (decodeCandidates s) acc =
        decodeFrom nm md mt (maxIter iter) s index (decodeCandidates s) acc) :
    (cmdDecode nm md mt iter).body t = (cmdDecode nm md mt iter).body s := by
  have hn : nspsymOf t = nspsymOf s := congrArg Grid.n hgrid
  simp only [cmdDecode, hcands, hgrid]
  cases hbad : firstIndex (fun c => !validCandidate (gridOf s) md c) (decodeCandidates s) with
  | some k => rfl
  | none =>
    have hvalid := firstIndex_eq_none_iff.mp hbad
    simp only [Bool.not_eq_false'] at hvalid
    simp only [hdecode hvalid, hdst, hn]

end

/-! ### The registers of a row -/

/-- The registers the row of a command reads, every other one at its reset value. -/
def rowCsrs (i : Instr) (s : State) : Csrs := (csrsRead i).foldr (fun r => setOperand r (readCsr r s)) Csrs.reset

/-- What a command can see of a state: the parameters, the registers of its row, and LDM. -/
def rowView (i : Instr) (s : State) : State :=
  { State.resetWith s.params with csr := rowCsrs i s, ldm := s.ldm, redraws := s.redraws }

theorem rowCsrs_congr {i : Instr} {s t : State} (h : ∀ r ∈ csrsRead i, readCsr r t = readCsr r s) :
    rowCsrs i t = rowCsrs i s :=
  List.foldr_ext _ _ _ fun r hr c => by rw [h r hr]

theorem readSpans_rowView (i : Instr) (s : State) : readSpans i (rowView i s) = readSpans i s := by
  cases i <;> rfl

theorem evaluate_congr {c : Command} {s t : State} (hparams : t.params = s.params) (hdst : dst t = dst s)
    (hplan : c.plan t = c.plan s) (hbody : c.body t = c.body s) : evaluate c t = evaluate c s := by
  simp only [evaluate, hparams, hdst, hplan, hbody]

/-- A command evaluates in its view of a state as in the state (spec/40_control.md R125). -/
theorem evaluate_rowView (i : Instr) (s : State) : evaluate (commandOf i) (rowView i s) = evaluate (commandOf i) s := by
  cases i
  case decodeFt8Lse | decodeFt4Lse | decodeFt8Max | decodeFt4Max =>
    refine evaluate_congr rfl rfl rfl (cmdDecode_body_congr rfl rfl rfl fun _ => ?_)
    exact decodeFrom_congr (t := rowView _ s) rfl (fun _ _ => rfl) (fun _ _ => rfl)
  all_goals rfl

/-! ### The regions of a row -/

/-- The state with another LDM. -/
def State.withLdm (s : State) (m : Memory) (spans : List Span) : State := { s with ldm := m, redraws := spans }

theorem rowView_eq_withLdm {i : Instr} {s t : State} (hparams : t.params = s.params)
    (hcsrs : ∀ r ∈ csrsRead i, readCsr r t = readCsr r s) :
    rowView i t = (rowView i s).withLdm t.ldm t.redraws := by
  rw [rowView, rowCsrs_congr hcsrs, hparams]
  rfl

section
variable {s : State} {m : Memory} {spans : List Span}

@[simp] theorem src_withLdm : src (s.withLdm m spans) = src s := rfl
@[simp] theorem dst_withLdm : dst (s.withLdm m spans) = dst s := rfl
@[simp] theorem len_withLdm : len (s.withLdm m spans) = len s := rfl
@[simp] theorem gridOf_withLdm : gridOf (s.withLdm m spans) = gridOf s := rfl
@[simp] theorem params_withLdm : (s.withLdm m spans).params = s.params := rfl

/-- The cells of a waterfall are its bytes (spec/20_memory.md R68). -/
theorem sameCells_of_sameBytes (h : SameBytes s (s.withLdm m spans) (wfAddr s) (4 * wfT s * wfF s)) :
    SameCells (gridOf s) (magAt s) (magAt (s.withLdm m spans)) := by
  intro t f ht hf
  have hcell : (t + 1) * wfF s ≤ wfT s * wfF s := Nat.mul_le_mul_right _ ht
  have hf' : f < wfF s := hf
  rw [add_mul, one_mul] at hcell
  rw [mul_assoc] at h
  exact h.f32Read_eq (Nat.le_add_right _ _) (show wfAddr s + 4 * (t * wfF s + f) + 4 ≤ _ by omega)

theorem candidateAt_withLdm {base size a : Nat} (h : SameBytes s (s.withLdm m spans) base size) (hlo : base ≤ a)
    (hhi : a + 16 ≤ base + size) : candidateAt (s.withLdm m spans) a = candidateAt s a := by
  rw [candidateAt, candidateAt, h.memRead_eq hlo (by omega), h.memRead_eq (by omega) (by omega)]

theorem decodeCandidates_withLdm (h : SameBytes s (s.withLdm m spans) (src s) (16 * len s)) :
    decodeCandidates (s.withLdm m spans) = decodeCandidates s :=
  List.map_congr_left fun k hk => by
    have hk : k < len s := List.mem_range.mp hk
    exact candidateAt_withLdm h (Nat.le_add_right _ _) (by rw [src_withLdm]; omega)

section
variable (hcells : SameCells (gridOf s) (magAt s) (magAt (s.withLdm m spans)))
include hcells

theorem scoredGrid_withLdm (md : Mode) (htb : Ft4Legal s.params.tables) :
    scoredGrid md (s.withLdm m spans) = scoredGrid md s :=
  List.map_congr_left fun p hp =>
    congrArg (Scored.mk p.1 p.2) (syncScore_congr hcells (validCandidate_of_mem_gridPoints hp) htb)

theorem cmdSyncSearch_body_withLdm (md : Mode) (htb : Ft4Legal s.params.tables) :
    (cmdSyncSearch md).body (s.withLdm m spans) = (cmdSyncSearch md).body s := by
  simp only [cmdSyncSearch, keptCandidates, scoredGrid_withLdm hcells md htb]
  rfl

theorem cmdLlrExtract_body_withLdm (nm : Num) (md : Mode) (mt : Metric)
    (hcand : SameBytes s (s.withLdm m spans) (src s) 16) :
    (cmdLlrExtract nm md mt).body (s.withLdm m spans) = (cmdLlrExtract nm md mt).body s := by
  have hc := candidateAt_withLdm hcand le_rfl le_rfl
  simp only [cmdLlrExtract, src_withLdm, gridOf_withLdm, hc]
  by_cases hvalid : validCandidate (gridOf s) md (candidateAt s (src s)) = true
  · rw [if_pos hvalid, if_pos hvalid, candidateLlrs_congr hcells hvalid]
    rfl
  · rw [if_neg hvalid, if_neg hvalid]

theorem cmdDecode_body_withLdm (nm : Num) (md : Mode) (mt : Metric) (iter : Nat) (htb : Ft4Legal s.params.tables)
    (hcands : SameBytes s (s.withLdm m spans) (src s) (16 * len s)) :
    (cmdDecode nm md mt iter).body (s.withLdm m spans) = (cmdDecode nm md mt iter).body s := by
  refine cmdDecode_body_congr (decodeCandidates_withLdm hcands) rfl rfl fun hvalid => ?_
  exact decodeFrom_congr rfl (fun p hp => candidateLlrs_congr hcells (hvalid p hp) nm mt _)
    fun p hp => funext (snr_congr hcells (hvalid p hp) nm htb)

end

theorem plan_withLdm (i : Instr) : (commandOf i).plan (s.withLdm m spans) = (commandOf i).plan s := by
  cases i <;> rfl

/-- The body of a command looks at the bytes of the regions its row reads (spec/30_encoding.md R100). -/
theorem body_withLdm {i : Instr} (htb : Ft4Legal s.params.tables)
    (h : ∀ r ∈ readSpans i s, SameBytes s (s.withLdm m spans) r.base r.size) :
    (commandOf i).body (s.withLdm m spans) = (commandOf i).body s := by
  have hbits {n size : Nat} (hmem : ⟨src s, size⟩ ∈ readSpans i s) (hn : n ≤ 8 * size) :
      readBits (s.withLdm m spans) (src s) n = readBits s (src s) n :=
    SameBytes.readBits_eq (size := size) (h _ hmem) hn
  have hcells (hmem : ⟨wfAddr s, 4 * wfT s * wfF s⟩ ∈ readSpans i s) := sameCells_of_sameBytes (h _ hmem)
  cases i
  case nop => rfl
  case crc14 =>
    simp only [commandOf, cmdCrc14, src_withLdm, len_withLdm, hbits List.mem_cons_self (show len s ≤ _ by omega)]
  case crcAppend =>
    simp only [commandOf, cmdCrcAppend, src_withLdm, dst_withLdm, hbits List.mem_cons_self (show 77 ≤ _ by omega)]
  case crcCheck =>
    simp only [commandOf, cmdCrcCheck, src_withLdm, hbits List.mem_cons_self (show 77 ≤ _ by omega),
      hbits List.mem_cons_self (show 91 ≤ _ by omega)]
  case ft4Xor | encodeFt8 | encodeFt4 =>
    simp only [commandOf, cmdFt4Xor, cmdEncode, src_withLdm, dst_withLdm, params_withLdm,
      hbits List.mem_cons_self (show 77 ≤ _ by omega)]
  case ldpcEncode =>
    simp only [commandOf, cmdLdpcEncode, src_withLdm, dst_withLdm, params_withLdm,
      hbits List.mem_cons_self (show 91 ≤ _ by omega)]
  case tonemapFt8 | tonemapFt4 =>
    simp only [commandOf, cmdTonemap, src_withLdm, dst_withLdm, params_withLdm,
      hbits List.mem_cons_self (show 174 ≤ _ by omega)]
  case ldpcDecode =>
    have harray := (h _ List.mem_cons_self).f32Array_eq (show 4 * 174 ≤ 696 by decide)
    simp only [commandOf, cmdLdpcDecode, src_withLdm, harray]
    rfl
  case gfskSynth =>
    have htones : synthTones (s.withLdm m spans) = synthTones s :=
      congrArg (List.map BitVec.toNat) (h _ List.mem_cons_self).readBytes_eq
    simp only [commandOf, cmdGfskSynth, htones]
    rfl
  case spectrogram =>
    have harray := (h _ List.mem_cons_self).f32Array_eq (le_refl (4 * len s))
    simp only [commandOf, cmdSpectrogram, src_withLdm, len_withLdm, harray]
    rfl
  case syncSearchFt8 | syncSearchFt4 => exact cmdSyncSearch_body_withLdm (hcells (List.mem_singleton_self _)) _ htb
  case llrExtractFt8Lse | llrExtractFt4Lse | llrExtractFt8Max | llrExtractFt4Max =>
    exact cmdLlrExtract_body_withLdm (hcells (by simp [readSpans])) _ _ _ (h _ List.mem_cons_self)
  case decodeFt8Lse | decodeFt4Lse | decodeFt8Max | decodeFt4Max =>
    exact cmdDecode_body_withLdm (hcells (by simp [readSpans])) _ _ _ _ htb (h _ List.mem_cons_self)

end

/-- Settles O24: both states have the same view but for LDM, and a body looks at the read regions of LDM alone. -/
theorem outcomeDependsOnTheRowAlone : Obligations.OutcomeDependsOnTheRowAlone := by
  intro i s t htb hparams hcsrs hbytes
  rw [← evaluate_rowView i t, ← evaluate_rowView i s, rowView_eq_withLdm hparams hcsrs]
  refine evaluate_congr rfl rfl (plan_withLdm i) (body_withLdm htb fun r hr => ?_)
  rw [readSpans_rowView] at hr
  exact sameBytes_of_covers (hbytes r hr)

end Sys2Proof.Machine
end

section
/-! PROOFS. The CRC-14 register (spec/41_channel_codec.md R130, R131): it is linear over GF(2) and loses nothing from step to step,
and read as a polynomial it is the remainder of division by the generator. -/

namespace Sys2Proof.Machine

open Polynomial

/-! ### One step -/

/-- What the feedback bit c adds to the shifted register: the generator without its leading term, or nothing. -/
def crcFeedback (c : Bool) : BitVec 14 := if c then 0x2757#14 else 0

theorem crcFeedback_xor (c c' : Bool) : crcFeedback (c ^^ c') = crcFeedback c ^^^ crcFeedback c' := by
  cases c <;> cases c' <;> rfl

/-- The generator has a constant term, so that bit 0 of the feedback word is the feedback bit. -/
theorem getLsbD_crcFeedback_zero (c : Bool) : (crcFeedback c).getLsbD 0 = c := by cases c <;> rfl

theorem crcStep_eq (r : BitVec 14) (b : Bool) : crcStep r b = r <<< 1 ^^^ crcFeedback (r.getLsbD 13 ^^ b) := by
  rw [crcStep, crcFeedback]
  split
  · rfl
  · exact BitVec.xor_zero.symm

theorem getLsbD_shiftLeft_one_zero (r : BitVec 14) : (r <<< 1).getLsbD 0 = false := by
  simp

theorem getLsbD_shiftLeft_one_succ (r : BitVec 14) {k : Nat} (hk : k < 13) : (r <<< 1).getLsbD (k + 1) = r.getLsbD k := by
  rw [BitVec.getLsbD_shiftLeft, decide_eq_true (by omega), decide_eq_false (by omega)]
  rfl

/-! ### Linearity -/

theorem crcStep_xor (r r' : BitVec 14) (b b' : Bool) : crcStep (r ^^^ r') (b ^^ b') = crcStep r b ^^^ crcStep r' b' := by
  have hfeedback : ((r ^^^ r').getLsbD 13 ^^ (b ^^ b')) = ((r.getLsbD 13 ^^ b) ^^ (r'.getLsbD 13 ^^ b')) := by
    rw [BitVec.getLsbD_xor, Bool.xor_assoc, Bool.xor_assoc, Bool.xor_left_comm _ b]
  rw [crcStep_eq, crcStep_eq, crcStep_eq, hfeedback, crcFeedback_xor, BitVec.shiftLeft_xor_distrib]
  ac_rfl

theorem foldl_crcStep_zipWith_xor {a b : List Bool} (h : a.length = b.length) (r r' : BitVec 14) :
    (a.zipWith (fun x y => x ^^ y) b).foldl crcStep (r ^^^ r') = a.foldl crcStep r ^^^ b.foldl crcStep r' := by
  induction a generalizing b r r' with
  | nil =>
    obtain rfl := List.length_eq_zero_iff.mp h.symm
    rfl
  | cons x a ih =>
    obtain ⟨y, b, rfl⟩ := List.exists_cons_of_length_eq_add_one h.symm
    rw [List.zipWith_cons_cons, List.foldl_cons, List.foldl_cons, List.foldl_cons, crcStep_xor]
    exact ih (by simpa using h) _ _

theorem crc14_xor {a b : List Bool} (h : a.length = b.length) :
    crc14 (a.zipWith (fun x y => x ^^ y) b) = crc14 a ^^^ crc14 b :=
  foldl_crcStep_zipWith_xor h 0 0

theorem crc14_replicate_false (n : Nat) : crc14 (List.replicate n false) = 0 := by
  induction n with
  | zero => rfl
  | succ n ih => exact ih

/-! ### No step loses information -/

theorem getLsbD_crcStep_zero (r : BitVec 14) (b : Bool) : (crcStep r b).getLsbD 0 = (r.getLsbD 13 ^^ b) := by
  rw [crcStep_eq, BitVec.getLsbD_xor, getLsbD_shiftLeft_one_zero, getLsbD_crcFeedback_zero, Bool.false_xor]

/-- Bit 0 of the next register gives back the bit that was shifted out, and the other bits are only shifted. -/
theorem crcStep_injective (b : Bool) : Function.Injective fun r => crcStep r b := by
  intro r r' (h : crcStep r b = crcStep r' b)
  have hfeedback : (r.getLsbD 13 ^^ b) = (r'.getLsbD 13 ^^ b) := by
    rw [← getLsbD_crcStep_zero, ← getLsbD_crcStep_zero, h]
  have hshift : r <<< 1 = r' <<< 1 := by
    rwa [crcStep_eq, crcStep_eq, hfeedback, BitVec.xor_left_inj] at h
  refine BitVec.eq_of_getLsbD_eq fun i hi => ?_
  rcases (Nat.le_of_lt_succ hi).lt_or_eq with hlow | rfl
  · rw [← getLsbD_shiftLeft_one_succ r hlow, ← getLsbD_shiftLeft_one_succ r' hlow, hshift]
  · exact Bool.xor_left_inj.mp hfeedback

theorem foldl_crcStep_injective (bits : List Bool) : Function.Injective fun r => bits.foldl crcStep r := by
  induction bits with
  | nil => exact Function.injective_id
  | cons b bits ih => exact ih.comp (crcStep_injective b)

/-- The two values of a message bit give two registers. -/
theorem crcStep_not_ne (r : BitVec 14) (b : Bool) : crcStep r (!b) ≠ crcStep r b := by
  rw [crcStep_eq, crcStep_eq, Ne, BitVec.xor_right_inj]
  cases r.getLsbD 13 <;> cases b <;> decide

theorem foldl_crcStep_modify_not_ne {bits : List Bool} {k : Nat} (hk : k < bits.length) (r : BitVec 14) :
    (bits.modify k fun b => !b).foldl crcStep r ≠ bits.foldl crcStep r := by
  induction bits generalizing k r with
  | nil => exact absurd hk (Nat.not_lt_zero k)
  | cons b bits ih =>
    cases k with
    | zero => exact (foldl_crcStep_injective bits).ne (crcStep_not_ne r b)
    | succ k => exact ih (Nat.lt_of_succ_lt_succ hk) (crcStep r b)

/-- The five zero bits after the payload keep two payloads' registers apart. -/
theorem crc77_modify_not_ne {p : List Bool} {k : Nat} (hk : k < p.length) : crc77 (p.modify k fun b => !b) ≠ crc77 p := by
  rw [crc77, crc77, crc14, crc14, List.foldl_append, List.foldl_append]
  exact (foldl_crcStep_injective _).ne (foldl_crcStep_modify_not_ne hk 0)

/-! ### The register as a polynomial -/

/-- A bit as a constant polynomial over GF(2). -/
noncomputable def bitPoly (c : Bool) : (ZMod 2)[X] := if c then 1 else 0

theorem ite_eq_bitPoly_mul (c : Bool) (p : (ZMod 2)[X]) : (if c then p else 0) = bitPoly c * p := (boole_mul _ _).symm

theorem bitPoly_xor (c c' : Bool) : bitPoly (c ^^ c') = bitPoly c + bitPoly c' := by
  cases c <;> cases c' <;> simp [bitPoly, CharTwo.add_self_eq_zero]

/-- The register as a polynomial over GF(2), bit k being the coefficient of x^k. -/
noncomputable def crcPoly (c : BitVec 14) : (ZMod 2)[X] := ∑ k ∈ Finset.range 14, if c.getLsbD k then X ^ k else 0

/-- B(x): the first bit is the coefficient of the highest power (spec/00_scope.md R10). -/
noncomputable def messagePoly (bits : List Bool) : (ZMod 2)[X] :=
  ∑ j ∈ Finset.range bits.length, if bits.getD j false then X ^ (bits.length - 1 - j) else 0

/-- G(x), the generator (spec/41_channel_codec.md R130). -/
noncomputable def crcGenerator : (ZMod 2)[X] := X ^ 14 + X ^ 13 + X ^ 10 + X ^ 9 + X ^ 8 + X ^ 6 + X ^ 4 + X ^ 2 + X + 1

theorem crcGenerator_monic : crcGenerator.Monic := by
  unfold crcGenerator
  monicity!

theorem degree_crcPoly_lt (c : BitVec 14) : (crcPoly c).degree < crcGenerator.degree := by
  have hgenerator : crcGenerator.degree = 14 := by
    unfold crcGenerator
    compute_degree!
  rw [hgenerator]
  refine mem_degreeLT.mp (Submodule.sum_mem _ fun k hk => ?_)
  split
  · exact mem_degreeLT.mpr ((degree_X_pow_le k).trans_lt (by exact_mod_cast Finset.mem_range.mp hk))
  · exact Submodule.zero_mem _

theorem crcPoly_xor (c c' : BitVec 14) : crcPoly (c ^^^ c') = crcPoly c + crcPoly c' := by
  rw [crcPoly, crcPoly, crcPoly, ← Finset.sum_add_distrib]
  refine Finset.sum_congr rfl fun k _ => ?_
  simp only [ite_eq_bitPoly_mul, BitVec.getLsbD_xor, bitPoly_xor, add_mul]

/-- A shift multiplies by x and drops the x^14 of the bit that leaves the register. -/
theorem crcPoly_shiftLeft_one (r : BitVec 14) : crcPoly (r <<< 1) = X * crcPoly r + bitPoly (r.getLsbD 13) * X ^ 14 := by
  have hshift : crcPoly (r <<< 1) = X * ∑ k ∈ Finset.range 13, if r.getLsbD k then X ^ k else 0 := by
    rw [crcPoly, Finset.sum_range_succ', getLsbD_shiftLeft_one_zero, if_neg Bool.false_ne_true, add_zero, Finset.mul_sum]
    refine Finset.sum_congr rfl fun k hk => ?_
    rw [getLsbD_shiftLeft_one_succ r (Finset.mem_range.mp hk), mul_ite, mul_zero, ← pow_succ']
  have htop : crcPoly r = (∑ k ∈ Finset.range 13, if r.getLsbD k then X ^ k else 0) + bitPoly (r.getLsbD 13) * X ^ 13 := by
    rw [crcPoly, Finset.sum_range_succ, ← ite_eq_bitPoly_mul]
  rw [hshift, htop]
  linear_combination -CharTwo.add_self_eq_zero (bitPoly (r.getLsbD 13) * X ^ 14)

theorem crcPoly_crcFeedback (c : Bool) : crcPoly (crcFeedback c) = bitPoly c * (crcGenerator + X ^ 14) := by
  rw [← ite_eq_bitPoly_mul]
  cases c with
  | false => simp [crcPoly, crcFeedback]
  | true =>
    have hlow : crcPoly 0x2757#14 = 1 + X + X ^ 2 + X ^ 4 + X ^ 6 + X ^ 8 + X ^ 9 + X ^ 10 + X ^ 13 := by
      simp [crcPoly, Finset.sum_range_succ]
    rw [crcFeedback, if_pos rfl, if_pos rfl, hlow, crcGenerator]
    linear_combination -CharTwo.add_self_eq_zero (X ^ 14 : (ZMod 2)[X])

/-- A step multiplies by x, adds the message bit at x^14, and adds the generator if the feedback bit is set. -/
theorem crcPoly_crcStep (r : BitVec 14) (b : Bool) :
    crcPoly (crcStep r b) = X * crcPoly r + bitPoly b * X ^ 14 + bitPoly (r.getLsbD 13 ^^ b) * crcGenerator := by
  rw [crcStep_eq, crcPoly_xor, crcPoly_shiftLeft_one, crcPoly_crcFeedback, bitPoly_xor]
  linear_combination CharTwo.add_self_eq_zero (bitPoly (r.getLsbD 13) * X ^ 14)

theorem messagePoly_cons (b : Bool) (bits : List Bool) :
    messagePoly (b :: bits) = bitPoly b * X ^ bits.length + messagePoly bits := by
  rw [messagePoly, List.length_cons, Finset.sum_range_succ', add_comm, messagePoly]
  refine congrArg₂ _ (ite_eq_bitPoly_mul _ _) (Finset.sum_congr rfl fun j _ => ?_)
  rw [List.getD_cons_succ, show bits.length + 1 - 1 - (j + 1) = bits.length - 1 - j by omega]

/-- Running the register from r divides r·x^n + B(x)·x^14 by the generator, n being the length of the message. -/
theorem exists_quotient (bits : List Bool) (r : BitVec 14) :
    ∃ q, crcPoly (bits.foldl crcStep r) + crcGenerator * q = crcPoly r * X ^ bits.length + messagePoly bits * X ^ 14 := by
  induction bits generalizing r with
  | nil => exact ⟨0, by simp [messagePoly]⟩
  | cons b bits ih =>
    obtain ⟨q, hq⟩ := ih (crcStep r b)
    rw [crcPoly_crcStep] at hq
    refine ⟨q - bitPoly (r.getLsbD 13 ^^ b) * X ^ bits.length, ?_⟩
    rw [List.foldl_cons, messagePoly_cons, List.length_cons]
    linear_combination hq

theorem crcPoly_crc14 (bits : List Bool) : crcPoly (crc14 bits) = (messagePoly bits * X ^ 14) %ₘ crcGenerator := by
  obtain ⟨q, hq⟩ := exists_quotient bits 0
  have hzero : crcPoly 0 = 0 := by simp [crcPoly]
  rw [hzero, zero_mul, zero_add] at hq
  exact ((div_modByMonic_unique q _ crcGenerator_monic ⟨hq, degree_crcPoly_lt _⟩).2).symm

/-- Settles O27: the register is the remainder by induction on the message, and is linear because each of its steps is. -/
theorem crc14IsThePolynomialRemainder : Obligations.Crc14IsThePolynomialRemainder :=
  ⟨crcPoly_crc14, fun _ _ => crc14_xor, crc14_replicate_false⟩

end Sys2Proof.Machine
end

section
/-! PROOFS. Bit sequences as numbers and as stream bits (spec/20_memory.md R63, R65), what a command without parameters and data
checks does on legal addresses, and single-bit errors of a PayloadWithCrc (spec/41_channel_codec.md R131). -/

namespace Sys2Proof.Machine

/-! ### Bits by index -/

theorem getD_map_range {n k : Nat} (f : Nat → Bool) (hk : k < n) : ((List.range n).map f).getD k false = f k := by
  simp [hk]

/-- Bit sequences of one length are equal when their bits are. -/
theorem eq_of_getD_eq {l m : List Bool} (hlen : l.length = m.length)
    (h : ∀ k, k < l.length → l.getD k false = m.getD k false) : l = m := by
  refine List.ext_getElem hlen fun k hl hm => ?_
  have hk := h k hl
  rwa [List.getD_eq_getElem _ _ hl, List.getD_eq_getElem _ _ hm] at hk

theorem getD_readBits {n k : Nat} (s : State) (a : Nat) (hk : k < n) : (readBits s a n).getD k false = bitRead s a k :=
  getD_map_range _ hk

theorem getD_zipWith_xor {l m : List Bool} {k : Nat} (hl : k < l.length) (hm : k < m.length) :
    (l.zipWith (fun x y => x ^^ y) m).getD k false = (l.getD k false ^^ m.getD k false) := by
  simp [hl, hm]

/-! ### The CRC field -/

@[simp] theorem length_crcBits (c : BitVec 14) : (crcBits c).length = 14 := length_natToBits _ _

/-- Bits 77..90 of a PayloadWithCrc are the CRC, most significant first (spec/20_memory.md R65). -/
theorem getD_crcBits (c : BitVec 14) {k : Nat} (hk : k < 14) : (crcBits c).getD k false = c.getLsbD (13 - k) :=
  getD_map_range _ hk

theorem eq_crcBits_iff {l : List Bool} (hl : l.length = 14) {c : BitVec 14} :
    l = crcBits c ↔ ∀ k, k < 14 → l.getD k false = c.getLsbD (13 - k) := by
  refine ⟨fun h k hk => by rw [h, getD_crcBits c hk], fun h => eq_of_getD_eq (by rw [hl, length_crcBits]) fun k hk => ?_⟩
  rw [hl] at hk
  rw [h k hk, getD_crcBits c hk]

theorem crcBits_injective : Function.Injective crcBits := by
  intro c c' h
  refine BitVec.eq_of_getLsbD_eq fun i hi => ?_
  have hbit := (eq_crcBits_iff (length_crcBits c)).mp h (13 - i) (by omega)
  rwa [getD_crcBits c (by omega), show 13 - (13 - i) = i by omega] at hbit

/-! ### The number of a bit sequence -/

theorem bitsToNat_concat (l : List Bool) (b : Bool) : bitsToNat (l ++ [b]) = 2 * bitsToNat l + b.toNat := by
  rw [bitsToNat, List.foldl_append]
  rfl

/-- Bit sequences of one length are told apart by their numbers: the last bit is the parity, the rest the quotient. -/
theorem bitsToNat_injective {l m : List Bool} (hlen : l.length = m.length) (h : bitsToNat l = bitsToNat m) : l = m := by
  induction l using List.reverseRecOn generalizing m with
  | nil => exact (List.length_eq_zero_iff.mp hlen.symm).symm
  | append_singleton l b ih =>
    obtain ⟨m, b', rfl⟩ : ∃ m' b', m = m' ++ [b'] :=
      ⟨_, _, (List.dropLast_append_getLast (List.ne_nil_of_length_pos (by simp [← hlen]))).symm⟩
    rw [bitsToNat_concat, bitsToNat_concat] at h
    have hb := b.toNat_lt
    have hb' := b'.toNat_lt
    have hlast : b = b' := (by decide : ∀ c c' : Bool, c.toNat = c'.toNat → c = c') b b' (by omega)
    rw [ih (by simpa using hlen) (by omega), hlast]

theorem natToBits_succ (n v : Nat) : natToBits (n + 1) v = natToBits n (v / 2) ++ [v.testBit 0] := by
  rw [natToBits, List.range_succ, List.map_append, natToBits]
  congr 1
  · refine List.map_congr_left fun k hk => ?_
    have := List.mem_range.mp hk
    rw [← Nat.testBit_succ, show n + 1 - 1 - k = n - 1 - k + 1 by omega]
  · simp

theorem bitsToNat_natToBits (n v : Nat) : bitsToNat (natToBits n v) = v % 2 ^ n := by
  induction n generalizing v with
  | zero => simp [natToBits, bitsToNat, Nat.mod_one]
  | succ n ih =>
    rw [natToBits_succ, bitsToNat_concat, ih, Nat.toNat_testBit, pow_zero, Nat.div_one, Nat.pow_succ', Nat.mod_mul,
      add_comm]

/-- The stored CRC is compared as a number (spec/41_channel_codec.md R134). -/
theorem bitsToNat_eq_toNat_iff {l : List Bool} (hl : l.length = 14) {c : BitVec 14} :
    bitsToNat l = c.toNat ↔ l = crcBits c := by
  have hc : bitsToNat (crcBits c) = c.toNat := (bitsToNat_natToBits 14 _).trans (Nat.mod_eq_of_lt c.isLt)
  refine ⟨fun h => bitsToNat_injective (by rw [hl, length_crcBits]) (h.trans hc.symm), ?_⟩
  rintro rfl
  exact hc

/-! ### Single-bit errors -/

theorem modify_not_ne {l : List Bool} {k : Nat} (hk : k < l.length) : (l.modify k fun b => !b) ≠ l := by
  intro h
  have hbit := congrArg (fun m => m[k]?) h
  simp [hk] at hbit

/-- Settles O28: a changed payload bit changes the CRC, a changed CRC bit the CRC field alone. -/
theorem singleBitErrorsAreDetected : Obligations.SingleBitErrorsAreDetected := by
  intro w k hlen hk hcrc
  rw [List.take_modify]
  by_cases hpayload : k < 77
  · rw [List.drop_modify_of_lt _ _ _ _ hpayload, hcrc]
    exact fun h => crc77_modify_not_ne (by simp [hlen, hpayload]) (crcBits_injective h).symm
  · rw [List.drop_modify_of_ge _ _ _ _ (by omega), List.modify_eq_self (l := w.take 77) (by simp; omega), ← hcrc]
    exact modify_not_ne (by simp; omega)

end Sys2Proof.Machine
end

section
/-! PROOFS. The codec commands (spec/41_channel_codec.md R132 to R138): each completes on legal addresses with the bits of its
function at DST_ADDR, and FT4 mask and LDPC encoder are the functions the rules give. -/

namespace Sys2Proof.Machine

/-! ### Completions of the codec -/

/-- A command that checks no parameter and ends its body without a fault completes on legal addresses. -/
theorem exec_eq_completeOk {i : Instr} {s : State} {e : Effect} (hchecks : paramChecks i = []) (haddr : AddressesLegal i s)
    (hbody : (commandOf i).body s = .ok e) : exec i s = .next (completeOk e s) := by
  have hparams : ParamsLegal i s := fun r hr => by simp [hchecks] at hr
  rw [exec_eq_finish, evaluate_eq_body hparams haddr, hbody, finish_ok]

/-- RESULT0 and RESULT1 show a CRC zero-extended. -/
theorem toNat_toWord_crc (c : BitVec 14) : (toWord c.toNat).toNat = c.toNat := by
  rw [toWord, BitVec.toNat_ofNat, Nat.mod_eq_of_lt (by omega)]

/-- An effect without bytes leaves LDM as it is. -/
theorem readByte_completeOk_of_no_bytes {e : Effect} (h : e.bytes = []) (s : State) (a : Nat) :
    readByte (completeOk e s) a = readByte s a :=
  readByte_completeOk_outside (by simp [h]) s

/-! ### CRC commands -/

/-- Settles O29: CRC14 collects one register write, the register after the LEN bits. -/
theorem crc14Command : Obligations.Crc14Command := by
  refine ⟨fun s haddr => ?_, by decide⟩
  refine ⟨_, exec_eq_completeOk rfl haddr rfl, completes_completeOk _ s, readByte_completeOk_of_no_bytes rfl s, rfl,
    toNat_toWord_crc _, fun hlen => ?_⟩
  rw [hlen]
  rfl

theorem length_withCrc {p : List Bool} (hp : p.length = 77) : (withCrc p).length = 91 := by
  rw [withCrc, List.length_append, hp, length_crcBits]

/-- Settles O30: the 96 bits written are the payload, its CRC and the padding of the last byte. -/
theorem crcAppendCommand : Obligations.CrcAppendCommand := by
  intro s haddr c
  have hp := length_readBits s (src s) 77
  have hbit (j : Nat) (hj : j < 96) := bitRead_completeOk_packBits
    (e := { base := dst s, bytes := packBits 12 (withCrc (readBits s (src s) 77)), result0 := some (toWord c.toNat) })
    (n := 12) rfl hj s
  refine ⟨_, exec_eq_completeOk rfl haddr rfl, completes_completeOk _ s, ldmKept_completeOk (i := .crcAppend) rfl, rfl,
    toNat_toWord_crc c, fun j hj => ?_, fun k hk => ?_, fun j hlo hhi => ?_⟩
  · rw [hbit j (by omega), withCrc, List.getD_append _ _ _ _ (by omega), getD_readBits s _ hj]
  · rw [hbit _ (by omega), withCrc, List.getD_append_right _ _ _ _ (by omega), hp, Nat.add_sub_cancel_left, getD_crcBits _ hk]
  · rw [hbit j hhi, List.getD_eq_default _ _ (by rw [length_withCrc hp]; exact hlo)]

/-- The 14 bits of the stored CRC, which CRC_CHECK compares with the CRC of the payload. -/
theorem storedCrc_eq_iff (s : State) (c : BitVec 14) :
    bitsToNat ((readBits s (src s) 91).drop 77) = c.toNat ↔
      ∀ k, k < 14 → bitRead s (src s) (77 + k) = c.getLsbD (13 - k) := by
  have hl : ((readBits s (src s) 91).drop 77).length = 14 := by simp
  rw [bitsToNat_eq_toNat_iff hl, eq_crcBits_iff hl]
  refine forall₂_congr fun k hk => ?_
  rw [← getD_readBits (n := 91) s _ (by omega), List.getD_eq_getElem?_getD, List.getElem?_drop, ← List.getD_eq_getElem?_getD]

/-- Settles O31: the number of the stored bits is the CRC's exactly when the bits are, and CRC_APPEND has written them. -/
theorem crcCheckCommand : Obligations.CrcCheckCommand := by
  refine ⟨fun s haddr => ?_, fun s t u happend hexec hsrc hldm hcheck => ?_⟩
  · refine ⟨_, exec_eq_completeOk rfl haddr rfl, completes_completeOk _ s, readByte_completeOk_of_no_bytes rfl s, rfl,
      toNat_toWord_crc _, fun h => if_pos ((storedCrc_eq_iff s _).mpr h), fun ⟨k, hk, hne⟩ => if_neg fun h => ?_⟩
    exact hne ((storedCrc_eq_iff s _).mp h k hk)
  · obtain ⟨t', hexec', -, -, -, hresult, hpayload, hcrc, -⟩ := crcAppendCommand s happend
    obtain rfl : t = t' := by rw [hexec] at hexec'; injection hexec'
    have hbit (j : Nat) : bitRead u (src u) j = bitRead t (dst s) j := by rw [hsrc, bitRead_congr hldm]
    have hsame : readBits u (src u) 77 = readBits s (src s) 77 :=
      List.map_congr_left fun j hj => (hbit j).trans (hpayload j (List.mem_range.mp hj))
    rw [← hsame] at hresult hcrc
    refine ⟨_, exec_eq_completeOk rfl hcheck rfl, if_pos ((storedCrc_eq_iff u _).mpr fun k hk => ?_), ?_⟩
    · exact (hbit _).trans (hcrc k hk)
    · exact BitVec.eq_of_toNat_eq ((toNat_toWord_crc _).trans hresult.symm)

/-! ### FT4 payload mask -/

section
variable {tb : Tables} {p : List Bool} (hp : p.length = 77)
include hp

theorem length_mask4 : (mask4 tb p).length = 77 := by simp [mask4, hp]

/-- Mask bit j is stream bit j of FT4_XOR_MASK (spec/41_channel_codec.md R135). -/
theorem getD_mask4 {j : Nat} (hj : j < 77) :
    (mask4 tb p).getD j false = (p.getD j false ^^ (tb.ft4XorMask.getD (j / 8) 0).getLsbD (7 - j % 8)) := by
  rw [mask4, getD_zipWith_xor (by omega) (by simpa using hj), getD_map_range _ hj]
  rfl

theorem mask4_mask4 : mask4 tb (mask4 tb p) = p := by
  have hm := length_mask4 (tb := tb) hp
  refine eq_of_getD_eq ((length_mask4 hm).trans hp.symm) fun j hj => ?_
  rw [length_mask4 hm] at hj
  rw [getD_mask4 hm hj, getD_mask4 hp hj, Bool.xor_assoc, Bool.xor_self, Bool.xor_false]

end

/-- Settles O32: the 80 bits written are the masked payload and the padding of the last byte. -/
theorem ft4XorCommand : Obligations.Ft4XorCommand := by
  refine ⟨fun s haddr => ?_, fun tb p hp => ⟨mask4_mask4 hp, fun j => getD_mask4 hp⟩⟩
  have hp := length_readBits s (src s) 77
  have hbit (j : Nat) (hj : j < 80) := bitRead_completeOk_packBits
    (e := { base := dst s, bytes := packBits 10 (mask4 s.params.tables (readBits s (src s) 77)) }) (n := 10) rfl hj s
  refine ⟨_, exec_eq_completeOk rfl haddr rfl, completes_completeOk _ s, ldmKept_completeOk (i := .ft4Xor) rfl, rfl,
    fun j hj => ?_, fun j hlo hhi => ?_⟩
  · rw [hbit j (by omega), getD_mask4 hp hj, getD_readBits s _ hj]
  · rw [hbit j hhi, List.getD_eq_default _ _ (by rw [length_mask4 hp]; exact hlo)]

/-! ### LDPC encoder -/

/-- The parity of bits given by index is whether an odd number of them is set. -/
theorem parity_map_range (f : Nat → Bool) (n : Nat) :
    parity ((List.range n).map f) = decide (((Finset.range n).filter fun k => f k = true).card % 2 = 1) := by
  induction n with
  | zero => rfl
  | succ n ih =>
    have hlast : parity ([n].map f) = f n := by rw [List.map_singleton, parity_cons, parity_nil, Bool.xor_false]
    rw [List.range_succ, List.map_append, parity_append, ih, hlast, Finset.range_add_one, Finset.filter_insert]
    cases f n with
    | false => rw [if_neg Bool.false_ne_true, Bool.xor_false]
    | true =>
      rw [if_pos rfl, Finset.card_insert_of_notMem (by simp), Bool.xor_true, ← decide_not, decide_eq_decide]
      omega

section
variable (tb : Tables) {a : List Bool} (ha : a.length = 91)
include ha

theorem length_ldpcEnc : (ldpcEnc tb a).length = 174 := by simp [ldpcEnc, ha]

/-- The code is systematic: the message stands first. -/
theorem getD_ldpcEnc_message {k : Nat} (hk : k < 91) : (ldpcEnc tb a).getD k false = a.getD k false :=
  List.getD_append _ _ _ _ (by omega)

theorem getD_ldpcEnc_parity {i : Nat} (hi : i < 83) : (ldpcEnc tb a).getD (91 + i) false = parityBit tb a i := by
  rw [ldpcEnc, List.getD_append_right _ _ _ _ (by omega), ha, Nat.add_sub_cancel_left, getD_map_range _ hi]

theorem parityBit_xor {b : List Bool} (hb : b.length = 91) (i : Nat) :
    parityBit tb (a.zipWith (fun x y => x ^^ y) b) i = (parityBit tb a i ^^ parityBit tb b i) := by
  rw [parityBit, parityBit, parityBit, ← parity_map_xor]
  refine congrArg parity (List.map_congr_left fun k hk => ?_)
  have hk := List.mem_range.mp hk
  rw [getD_zipWith_xor (by omega) (by omega), Bool.and_xor_distrib_left]

theorem ldpcEnc_xor {b : List Bool} (hb : b.length = 91) :
    ldpcEnc tb (a.zipWith (fun x y => x ^^ y) b) = (ldpcEnc tb a).zipWith (fun x y => x ^^ y) (ldpcEnc tb b) := by
  rw [ldpcEnc, ldpcEnc, ldpcEnc, List.zipWith_append (ha.trans hb.symm), List.zipWith_map, List.zipWith_self]
  exact congrArg _ (List.map_congr_left fun i _ => parityBit_xor tb ha hb i)

end

theorem parityBit_eq_card (tb : Tables) (a : List Bool) (i : Nat) :
    parityBit tb a i =
      decide (((Finset.range 91).filter fun k =>
        (tb.ldpcG.getD i []).getD k false = true ∧ a.getD k false = true).card % 2 = 1) := by
  rw [parityBit, parity_map_range]
  simp only [Bool.and_eq_true]

theorem parityBit_replicate_false (tb : Tables) (i : Nat) : parityBit tb (List.replicate 91 false) i = false := by
  refine Eq.trans (congrArg parity (List.map_congr_left fun k hk => ?_)) (parity_map_false (List.range 91))
  rw [List.getD_replicate _ (List.mem_range.mp hk), Bool.and_false]

theorem ldpcEnc_replicate_false (tb : Tables) : ldpcEnc tb (List.replicate 91 false) = List.replicate 174 false := by
  rw [ldpcEnc, List.map_congr_left fun i _ => parityBit_replicate_false tb i, List.map_const', List.length_range,
    List.replicate_append_replicate]

/-- Settles O33: message bits first, then the parity bits, each of which is linear in the message. -/
theorem ldpcEncodingFunction : Obligations.LdpcEncodingFunction := fun tb a ha =>
  ⟨length_ldpcEnc tb ha, fun _ => getD_ldpcEnc_message tb ha,
    fun i hi => (getD_ldpcEnc_parity tb ha hi).trans (parityBit_eq_card tb a i), fun _ => ldpcEnc_xor tb ha,
    ldpcEnc_replicate_false tb⟩

/-- Settles O34: the 176 bits written are the codeword and the padding of the last byte. -/
theorem ldpcEncodeCommand : Obligations.LdpcEncodeCommand := by
  intro s haddr
  have ha := length_readBits s (src s) 91
  have hlen := length_ldpcEnc s.params.tables ha
  have hbit (j : Nat) (hj : j < 176) := bitRead_completeOk_packBits
    (e := { base := dst s, bytes := packBits 22 (ldpcEnc s.params.tables (readBits s (src s) 91)) }) (n := 22) rfl hj s
  refine ⟨_, exec_eq_completeOk rfl haddr rfl, completes_completeOk _ s, ldmKept_completeOk (i := .ldpcEncode) rfl, rfl,
    fun k hk => ?_, ?_, ?_, ?_⟩
  · rw [hbit k (by omega), getD_ldpcEnc_message _ ha hk, getD_readBits s _ hk]
  · refine eq_of_getD_eq (by rw [length_readBits, hlen]) fun j hj => ?_
    rw [length_readBits] at hj
    rw [getD_readBits _ _ hj, hbit j (by omega)]
  · rw [hbit 174 (by omega), List.getD_eq_default _ _ hlen.le]
  · rw [hbit 175 (by omega), List.getD_eq_default _ _ (by omega)]

end Sys2Proof.Machine
end

section
/-! PROOFS. The parity-check graph (spec/42_ldpc_decode.md R160): the edges of tables that meet spec/10_state.md R55, counted by
check and by variable. -/

namespace Sys2Proof.Machine

theorem getD_eq_default_or_mem {α : Type} (l : List α) (k : Nat) (d : α) : l.getD k d = d ∨ l.getD k d ∈ l := by
  rw [List.getD_eq_getElem?_getD]
  cases hk : l[k]? with
  | none => exact .inl rfl
  | some x => exact .inr (List.mem_of_getElem? hk)

theorem lt_174_of_mem_checkVars {tb : Tables} (h : LdpcLegal tb) {i j : Nat} (hi : i ∈ checkVars tb j) : i < 174 := by
  rcases getD_eq_default_or_mem tb.ldpcNM j [] with hrow | hrow
  · rw [checkVars, hrow] at hi
    exact absurd hi List.not_mem_nil
  · exact h.nm_shape.2 _ hrow i hi

theorem lt_83_of_mem_varChecks {tb : Tables} (h : LdpcLegal tb) {i j : Nat} (hj : j ∈ varChecks tb i) : j < 83 := by
  rcases getD_eq_default_or_mem tb.ldpcMN i [] with hcol | hcol
  · rw [varChecks, hcol] at hj
    exact absurd hj List.not_mem_nil
  · exact h.mn_shape.2 _ hcol j hj

/-- A list without repetitions is as long as it has members below a bound on them. -/
theorem length_eq_card_filter_range {l : List Nat} (hnodup : l.Nodup) {n : Nat} (hlt : ∀ x ∈ l, x < n) :
    l.length = ((Finset.range n).filter fun x => x ∈ l).card := by
  rw [← List.toFinset_card_of_nodup hnodup]
  congr 1
  ext x
  simpa using hlt x

/-- Settles O35: the edges counted by check are the edges counted by variable, three for each of the 174. -/
theorem graphHas522Edges : Obligations.GraphHas522Edges := by
  intro tb h
  calc ((List.range 83).map fun j => (checkVars tb j).length).sum
      = ∑ j ∈ Finset.range 83, (checkVars tb j).length := rfl
    _ = ∑ j ∈ Finset.range 83, ((Finset.range 174).filter fun i => i ∈ checkVars tb j).card :=
        Finset.sum_congr rfl fun j hj =>
          length_eq_card_filter_range (h.nm_distinct j (Finset.mem_range.mp hj)).2 fun i => lt_174_of_mem_checkVars h
    _ = ∑ i ∈ Finset.range 174, ((Finset.range 83).filter fun j => i ∈ checkVars tb j).card :=
        Finset.sum_card_bipartiteAbove_eq_sum_card_bipartiteBelow fun j i => i ∈ checkVars tb j
    _ = ∑ _i ∈ Finset.range 174, 3 := Finset.sum_congr rfl fun i hi => by
        have hi := Finset.mem_range.mp hi
        obtain ⟨hthree, hnodup⟩ := h.mn_three i hi
        rw [← hthree, length_eq_card_filter_range hnodup fun j => lt_83_of_mem_varChecks h]
        exact congrArg _ (Finset.filter_congr fun j hj => h.incident i hi j (Finset.mem_range.mp hj))
    _ = 522 := by rw [Finset.sum_const, Finset.card_range, smul_eq_mul]

end Sys2Proof.Machine
end

section
/-! PROOFS. The iterations of the decoder (spec/42_ldpc_decode.md R165, R167): what the loop keeps is the earliest hard decision
with the fewest odd checks. -/

namespace Sys2Proof.Machine

theorem nerr_le (tb : Tables) (b : List Bool) : nerr tb b ≤ 83 := by
  simpa [nerr] using List.countP_le_length (p := syndromeBit tb b) (l := List.range 83)

theorem nerr_eq_zero_iff {tb : Tables} {b : List Bool} : nerr tb b = 0 ↔ ∀ c, c < 83 → syndromeBit tb b c = false := by
  simp [nerr, List.countP_eq_zero]

/-! ### Best tracking -/

section
variable {nm : Num} {tb : Tables} {llr : List F32} {n : Nat} {acc : BpResult}

@[simp] theorem trackBest_iters (b : List Bool) (err it : Nat) : (trackBest acc b err it).iters = it := by
  rw [trackBest]
  split <;> rfl

theorem trackBest_minErr (b : List Bool) (err it : Nat) : (trackBest acc b err it).minErr = min err acc.minErr := by
  rw [trackBest]
  split
  · next h => exact (min_eq_left h.le).symm
  · next h => exact (min_eq_right (not_lt.mp h)).symm

variable (nm tb llr) in
/-- What the decoder has found after n iterations: how many they were, that no decision of theirs has fewer odd checks, and
the earliest one with as few, unless its error count is still larger than any. -/
structure Tracks (n : Nat) (acc : BpResult) : Prop where
  iters : acc.iters = n
  least : ∀ j, j < n → acc.minErr ≤ nerr tb (decisionAt nm tb llr j)
  found : (∀ b, nerr tb b < acc.minErr) ∨ ∃ k, k < n ∧ acc.best = decisionAt nm tb llr k ∧ acc.minErr = nerr tb acc.best
    ∧ ∀ j, j < k → acc.minErr < nerr tb (decisionAt nm tb llr j)

/-- Before the first iteration the error count is 84 (spec/42_ldpc_decode.md R161). -/
theorem tracks_zero (b : List Bool) : Tracks nm tb llr 0 ⟨b, 84, 0⟩ where
  iters := rfl
  least j hj := absurd hj j.not_lt_zero
  found := .inl fun b => Nat.lt_succ_of_le (nerr_le tb b)

/-- One more iteration: its decision replaces the best exactly when it has fewer odd checks. -/
theorem Tracks.succ (h : Tracks nm tb llr n acc) :
    Tracks nm tb llr (n + 1) (trackBest acc (decisionAt nm tb llr n) (nerr tb (decisionAt nm tb llr n)) (n + 1)) where
  iters := trackBest_iters ..
  least j hj := by
    rw [trackBest_minErr]
    rcases Nat.lt_succ_iff_lt_or_eq.mp hj with hlt | rfl
    · exact (min_le_right _ _).trans (h.least j hlt)
    · exact min_le_left _ _
  found := by
    rw [trackBest]
    split
    · next hless => exact .inr ⟨n, n.lt_succ_self, rfl, rfl, fun j hj => hless.trans_le (h.least j hj)⟩
    · next hless =>
      rcases h.found with hnone | ⟨k, hk, hbest⟩
      · exact absurd (hnone _) hless
      · exact .inr ⟨k, hk.trans n.lt_succ_self, hbest⟩

/-- While the best error count is not 0, every decision so far has odd checks. -/
theorem Tracks.nerr_ne_zero (h : Tracks nm tb llr n acc) (hodd : acc.minErr ≠ 0) {j : Nat} (hj : j < n) :
    nerr tb (decisionAt nm tb llr j) ≠ 0 := by
  have := h.least j hj
  omega

/-! ### The loop -/

/-- One iteration of the loop (spec/42_ldpc_decode.md R161, R165), on the messages the iterations before it left. -/
theorem bpLoop_succ (left : Nat) :
    bpLoop nm tb llr (left + 1) (n + 1) (edgesAt nm tb llr n) acc =
      if nerr tb (decisionAt nm tb llr n) = 0 then
        trackBest acc (decisionAt nm tb llr n) (nerr tb (decisionAt nm tb llr n)) (n + 1)
      else
        bpLoop nm tb llr left (n + 2) (edgesAt nm tb llr (n + 1))
          (trackBest acc (decisionAt nm tb llr n) (nerr tb (decisionAt nm tb llr n)) (n + 1)) := rfl

variable (nm tb llr) in
/-- The result of a run that may take `cap` iterations: it tracks those that ran, it goes on only after a decision with odd
checks, and it ends before the cap only on one without. -/
structure RunResult (cap : Nat) (r : BpResult) : Prop where
  tracks : Tracks nm tb llr r.iters r
  iters_le : r.iters ≤ cap
  goes_on : ∀ j, j + 1 < r.iters → nerr tb (decisionAt nm tb llr j) ≠ 0
  ends : r.minErr ≠ 0 → r.iters = cap

theorem runResult_bpLoop (left : Nat) (h : Tracks nm tb llr n acc) (hodd : acc.minErr ≠ 0) :
    RunResult nm tb llr (n + left) (bpLoop nm tb llr left (n + 1) (edgesAt nm tb llr n) acc) := by
  induction left generalizing n acc with
  | zero =>
    refine ⟨h.iters ▸ h, h.iters.le, fun j hj => h.nerr_ne_zero hodd ?_, fun _ => h.iters⟩
    exact j.lt_succ_self.trans (hj.trans_eq h.iters)
  | succ left ih =>
    rw [bpLoop_succ]
    split
    · next hzero =>
      refine ⟨trackBest_iters (acc := acc) .. ▸ h.succ, ?_, fun j hj => h.nerr_ne_zero hodd ?_, fun hne => absurd ?_ hne⟩
      · rw [trackBest_iters]
        omega
      · rw [trackBest_iters] at hj
        omega
      · rw [trackBest_minErr, hzero, Nat.zero_min]
    · next hne =>
      rw [Nat.add_comm left 1, ← Nat.add_assoc]
      exact ih h.succ (by rw [trackBest_minErr]; omega)

theorem runResult_bp (cap : Nat) : RunResult nm tb llr cap (bp nm tb llr cap) := by
  have h := runResult_bpLoop (nm := nm) (llr := llr) cap (tracks_zero (tb := tb) (List.replicate 174 false)) (by decide)
  rwa [Nat.zero_add] at h

/-- A run of at least one iteration has found a decision. -/
theorem RunResult.exists_best {cap : Nat} {r : BpResult} (h : RunResult nm tb llr cap r) (hcap : 1 ≤ cap) :
    ∃ k, k < r.iters ∧ r.best = decisionAt nm tb llr k ∧ r.minErr = nerr tb r.best
      ∧ ∀ j, j < k → r.minErr < nerr tb (decisionAt nm tb llr j) := by
  refine h.tracks.found.resolve_left fun hnone => ?_
  have hpos := hnone (decisionAt nm tb llr 0)
  have hiters := h.ends (by omega)
  have hleast := h.tracks.least 0 (by omega)
  omega

end

theorem bpLoop_ldpcG (nm : Num) (tb : Tables) (g : List (List Bool)) (llr : List F32) (left it : Nat) (m : Edges)
    (acc : BpResult) : bpLoop nm { tb with ldpcG := g } llr left it m acc = bpLoop nm tb llr left it m acc := by
  induction left generalizing it m acc with
  | zero => rfl
  | succ left ih =>
    rw [bpLoop, ih]
    rfl

/-- The decoder does not read the generator matrix (spec/42_ldpc_decode.md R167). -/
theorem bp_ldpcG (nm : Num) (tb : Tables) (g : List (List Bool)) (llr : List F32) (cap : Nat) :
    bp nm { tb with ldpcG := g } llr cap = bp nm tb llr cap := bpLoop_ldpcG ..

end Sys2Proof.Machine
end

section
/-! PROOFS. The messages of the decoder (spec/42_ldpc_decode.md R161 to R163, R166): the lists by check and position hold the values
the rules give by check and variable, for tables that meet spec/10_state.md R55. -/

namespace Sys2Proof.Machine

/-! ### Folds -/

theorem foldl_range_getD {α : Type} (l : List Nat) (f : α → Nat → α) (a : α) :
    (List.range l.length).foldl (fun a r => f a (l.getD r 0)) a = l.foldl f a := by
  have hl : (List.range l.length).map (fun r => l.getD r 0) = l :=
    List.ext_getElem (by simp) fun r _ hr => by simp [hr]
  conv_rhs => rw [← hl, List.foldl_map]

/-- A fold over the positions of a list that skips one of them leaves out that element, if no element stands twice. -/
theorem foldl_range_ne_eq_foldl_filter {α : Type} {l : List Nat} (hnodup : l.Nodup) {q : Nat} (hq : q < l.length)
    (f : α → Nat → α) (a : α) :
    (List.range l.length).foldl (fun a r => if r = q then a else f a (l.getD r 0)) a
      = (l.filter fun i => i ≠ l[q]).foldl f a := by
  rw [List.foldl_filter, ← foldl_range_getD l]
  refine List.foldl_ext _ _ _ fun a r hr => ?_
  have hr : r < l.length := List.mem_range.mp hr
  by_cases heq : r = q
  · simp [heq, hq]
  · simp [heq, hr, hnodup.getElem_inj_iff]

/-! ### Messages by check and variable -/

section
variable (nm : Num) (tb : Tables) (llr : List F32)

/-- The messages whose value on the edge (j, i) is m j i. -/
def edgesOf (m : Nat → Nat → F32) : Edges := (List.range 83).map fun j => (checkVars tb j).map (m j)

variable {tb}

theorem edgesOf_congr {m m' : Nat → Nat → F32} (h : ∀ j, j < 83 → ∀ i ∈ checkVars tb j, m j i = m' j i) :
    edgesOf tb m = edgesOf tb m' :=
  List.map_congr_left fun j hj => List.map_congr_left (h j (List.mem_range.mp hj))

theorem edgeAt_edgesOf (m : Nat → Nat → F32) {j i : Nat} (hj : j < 83) (hi : i ∈ checkVars tb j) :
    edgeAt tb (edgesOf tb m) j i = m j i := by
  have hpos := List.idxOf_lt_length_of_mem hi
  simp [edgeAt, edgesOf, hj, hpos]

/-- The message to position q of a check is R162's message to the variable there. -/
theorem checkMessage_eq_ruleCheck (m : Nat → Nat → F32) {j : Nat} (hnodup : (checkVars tb j).Nodup) {q : Nat}
    (hq : q < (checkVars tb j).length) :
    checkMessage nm ((checkVars tb j).map (m j)) q = ruleCheck nm tb m j (checkVars tb j)[q] := by
  have hfold := foldl_range_ne_eq_foldl_filter hnodup hq
    (fun a i => fmul a (nm.tanh (fmul (fclamp (m j i) MCLAMP) fHalf))) fOne
  rw [checkMessage, List.length_map]
  refine congrArg (fun a => fmul fTwo (nm.atanh (fclamp a ACLAMP))) (Eq.trans ?_ hfold)
  refine List.foldl_ext _ _ _ fun a r hr => ?_
  have hr : r < (checkVars tb j).length := List.mem_range.mp hr
  simp [hr]

theorem checkUpdate_edgesOf (h : LdpcLegal tb) (m : Nat → Nat → F32) :
    checkUpdate nm (edgesOf tb m) = edgesOf tb (ruleCheck nm tb m) := by
  rw [checkUpdate, edgesOf, List.map_map]
  refine List.map_congr_left fun j hj => List.ext_getElem (by simp) fun q _ hq => ?_
  rw [List.length_map] at hq
  simp [checkMessage_eq_ruleCheck nm m (h.nm_distinct j (List.mem_range.mp hj)).2 hq]

/-- Every edge of a variable is an edge of its check, so that a variable's sums read messages that are there. -/
theorem edgeAt_edgesOf_of_mem_varChecks (h : LdpcLegal tb) (e : Nat → Nat → F32) {i j : Nat} (hi : i < 174)
    (hj : j ∈ varChecks tb i) : edgeAt tb (edgesOf tb e) j i = e j i := by
  have hlt := lt_83_of_mem_varChecks h hj
  exact edgeAt_edgesOf e hlt ((h.incident i hi j hlt).mpr hj)

theorem varMessage_edgesOf (h : LdpcLegal tb) (e : Nat → Nat → F32) (j1 : Nat) {i : Nat} (hi : i < 174) :
    varMessage tb llr (edgesOf tb e) j1 i = ruleVariable tb llr e j1 i := by
  rw [varMessage, ruleVariable, List.foldl_filter]
  refine List.foldl_ext _ _ _ fun acc j hj => ?_
  rw [edgeAt_edgesOf_of_mem_varChecks h e hi hj]
  simp

theorem varUpdate_edgesOf (h : LdpcLegal tb) (e : Nat → Nat → F32) :
    varUpdate tb llr (edgesOf tb e) = edgesOf tb (ruleVariable tb llr e) :=
  edgesOf_congr fun j _ _ hi => varMessage_edgesOf llr h e j (lt_174_of_mem_checkVars h hi)

theorem edgesAt_eq_edgesOf (h : LdpcLegal tb) (k : Nat) :
    edgesAt nm tb llr k = edgesOf tb (ruleMessages nm tb llr k) := by
  induction k with
  | zero => rfl
  | succ k ih => rw [edgesAt, ih, checkUpdate_edgesOf nm h, varUpdate_edgesOf llr h, ruleMessages]

theorem hardBit_edgesOf (h : LdpcLegal tb) (e : Nat → Nat → F32) {i : Nat} (hi : i < 174) :
    hardBit tb llr (edgesOf tb e) i = flt ((varChecks tb i).foldl (fun s j => fadd s (e j i)) (llr.getD i 0)) 0 := by
  refine congrArg (flt · 0) (List.foldl_ext _ _ _ fun s j hj => ?_)
  rw [edgeAt_edgesOf_of_mem_varChecks h e hi hj]

end

@[simp] theorem length_decisionAt (nm : Num) (tb : Tables) (llr : List F32) (k : Nat) :
    (decisionAt nm tb llr k).length = 174 := by
  simp [decisionAt, hardDecision]

theorem getD_decisionAt (nm : Num) {tb : Tables} (llr : List F32) (h : LdpcLegal tb) (k : Nat) {i : Nat} (hi : i < 174) :
    (decisionAt nm tb llr k).getD i false = flt (ruleSum nm tb llr k i) 0 := by
  rw [decisionAt, hardDecision, getD_map_range _ hi, edgesAt_eq_edgesOf nm llr h, checkUpdate_edgesOf nm h,
    hardBit_edgesOf llr h _ hi, ruleSum]

/-- Settles O36: the loop tracks the earliest best decision, and the lists it runs on hold the messages of the rules. -/
theorem decoderKeepsTheEarliestBest : Obligations.DecoderKeepsTheEarliestBest := by
  refine ⟨?_, fun nm tb llr k h => ⟨length_decisionAt .., fun i => getD_decisionAt nm llr h k⟩⟩
  intro nm tb llr cap hcap r
  have hrun : RunResult nm tb llr cap r := runResult_bp cap
  obtain ⟨k, hk, hbest, herr, hearliest⟩ := hrun.exists_best hcap
  refine ⟨k, hk, hbest, herr, hearliest, hrun.tracks.least, hrun.iters_le, fun hzero => ⟨?_, ?_⟩, hrun.ends,
    fun g => bp_ldpcG nm tb g llr cap⟩
  · have hlast := mt (hrun.goes_on k) (not_not.mpr (by rw [← hbest, ← herr, hzero]))
    omega
  · exact nerr_eq_zero_iff.mp (herr ▸ hzero)

end Sys2Proof.Machine
end

section
/-! PROOFS. LDPC_DECODE (spec/42_ldpc_decode.md R168): it completes on legal addresses and LLRs that are no NaNs, with the decoder's
result. -/

namespace Sys2Proof.Machine

theorem one_le_maxIter (iter : Nat) : 1 ≤ maxIter iter := by
  rw [maxIter]
  split <;> omega

/-- What LDPC_DECODE collects from a decoder's result. -/
def ldpcEffect (s : State) (r : BpResult) : Effect :=
  { base := dst s, bytes := packBits 22 r.best, result0 := some (toWord r.minErr), result1 := some (toWord r.iters) }

theorem cmdLdpcDecode_body_eq {nm : Num} {iter : Nat} {s : State}
    (h : ∀ k < 174, isNaN (f32Read s (src s + 4 * k)) = false) :
    (cmdLdpcDecode nm iter).body s =
      .ok (ldpcEffect s (bp nm s.params.tables (f32Array s (src s) 174) (maxIter iter))) := by
  have hnone : firstIndex isNaN (f32Array s (src s) 174) = none := firstIndex_map_range h
  simp only [cmdLdpcDecode, hnone, ldpcEffect]

/-- Settles O37: the 176 bits written are the best decision and the padding of the last byte. -/
theorem ldpcDecodeCommand : Obligations.LdpcDecodeCommand := by
  intro iter s haddr hdata cap r
  have hbody : (commandOf (.ldpcDecode iter)).body s = .ok (ldpcEffect s r) :=
    cmdLdpcDecode_body_eq fun k hk => by simpa [BadDatum, hk] using hdata k
  obtain ⟨k, -, hbest, herr, -⟩ := (runResult_bp cap).exists_best (one_le_maxIter iter)
  have hlen : r.best.length = 174 := (congrArg List.length hbest).trans (length_decisionAt ..)
  have hbit (j : Nat) (hj : j < 176) := bitRead_completeOk_packBits (e := ldpcEffect s r) (n := 22) rfl hj s
  have hread : readBits (completeOk (ldpcEffect s r) s) (dst s) 174 = r.best := by
    refine eq_of_getD_eq (by rw [length_readBits, hlen]) fun j hj => ?_
    rw [length_readBits] at hj
    rw [getD_readBits _ _ hj]
    exact hbit j (by omega)
  refine ⟨_, exec_eq_completeOk rfl haddr hbody, completes_completeOk _ s, ldmKept_completeOk hbody, rfl, hread, ?_, ?_, ?_,
    rfl⟩
  · exact (hbit 174 (by omega)).trans (List.getD_eq_default _ _ hlen.le)
  · exact (hbit 175 (by omega)).trans (List.getD_eq_default _ _ (by omega))
  · have hle := nerr_le s.params.tables r.best
    have hres : (completeOk (ldpcEffect s r) s).csr.result0 = BitVec.ofNat 32 (nerr s.params.tables r.best) :=
      congrArg (BitVec.ofNat 32) herr
    rw [hread, hres, BitVec.toNat_ofNat, Nat.mod_eq_of_lt (by omega)]

end Sys2Proof.Machine
end

section
/-! PROOFS. Zeros of either sign through the decoder (spec/42_ldpc_decode.md R168, corner case): NUM P1 and P2 keep every message a
zero, so that every bit is decided 0 and every check is even. -/

namespace Sys2Proof.Machine

/-! ### Arithmetic of zeros -/

theorem isZero_iff {x : F32} : isZero x = true ↔ magBits x = 0 := by rw [isZero, beq_iff_eq]

@[simp] theorem isZero_mkF32_zero (neg : Bool) : isZero (mkF32 neg 0) = true := by
  rw [isZero_iff, magBits_mkF32 _ (by decide)]

theorem roundMag_zero (q : Nat) : roundMag 0 q = 0 := by
  simp [roundMag, roundEven]

section
variable {x y : F32} (hx : isZero x = true)
include hx

theorem isFinite_of_isZero : isFinite x = true := by
  rw [isFinite_iff, isZero_iff.mp hx]
  decide

theorem orderKey_of_isZero : orderKey x = 0 := by
  rw [← Int.natAbs_eq_zero, natAbs_orderKey, isZero_iff.mp hx]

theorem isZero_fneg : isZero (fneg x) = true := by
  rw [isZero_iff, magBits_fneg (not_isNaN_of_finite (isFinite_of_isZero hx)), isZero_iff.mp hx]

/-- A zero is +0.0 or its negation, the two operands NUM P1 and P2 speak of. -/
theorem eq_fZero_or_eq_fneg_of_isZero : x = fZero ∨ x = fneg fZero := by
  have hsign := mkF32_signBit_magBits x
  rw [isZero_iff.mp hx] at hsign
  cases hs : signBit x with
  | false => exact .inl (by rw [← hsign, hs]; rfl)
  | true => exact .inr (by rw [← hsign, hs]; rfl)

theorem isZero_fadd (hy : isZero y = true) : isZero (fadd x y) = true := by
  have hscaled {z : F32} (hz : isZero z = true) : scaled z = 0 := by simp [scaled, isZero_iff.mp hz]
  rw [fadd_of_finite (isFinite_of_isZero hx) (isFinite_of_isZero hy), hscaled hx, hscaled hy, if_pos (add_zero 0),
    isZero_mkF32_zero]

theorem isZero_fmul_left (hy : isFinite y = true) : isZero (fmul x y) = true := by
  rw [fmul_of_finite (isFinite_of_isZero hx) hy, isZero_iff.mp hx, scaledMag_zero, Nat.zero_mul, roundMag_zero,
    isZero_mkF32_zero]

theorem isZero_fmul_right (hy : isFinite y = true) : isZero (fmul y x) = true := by
  rw [fmul_of_finite hy (isFinite_of_isZero hx), isZero_iff.mp hx, scaledMag_zero, Nat.mul_zero, roundMag_zero,
    isZero_mkF32_zero]

theorem isZero_fclamp {c : F32} (hc : isNaN c = false) (hpos : 0 ≤ orderKey c) : isZero (fclamp x c) = true := by
  have hnan := not_isNaN_of_finite (isFinite_of_isZero hx)
  have hneg := not_isNaN_fneg hc
  rw [isZero_iff, ← natAbs_orderKey, fclamp, orderKey_fmin (isNaN_fmax hnan hneg) hc, orderKey_fmax hnan hneg,
    orderKey_fneg hc, orderKey_of_isZero hx]
  omega

theorem flt_fZero_of_isZero : flt x fZero = false := by
  rw [flt_of_not_isNaN (not_isNaN_of_finite (isFinite_of_isZero hx)) rfl, orderKey_of_isZero hx]
  rfl

/-- An odd function that is +0.0 at +0.0 is a zero at either zero. -/
theorem isZero_of_odd {f : F32 → F32} (hzero : f fZero = fZero) (hodd : ∀ x, isNaN x = false → f (fneg x) = fneg (f x)) :
    isZero (f x) = true := by
  rcases eq_fZero_or_eq_fneg_of_isZero hx with rfl | rfl
  · rw [hzero]
    rfl
  · rw [hodd fZero rfl, hzero]
    exact isZero_fneg rfl

end

/-! ### Zeros through one iteration -/

theorem isZero_getD {l : List F32} (h : ∀ x ∈ l, isZero x = true) (k : Nat) : isZero (l.getD k fZero) = true := by
  rcases getD_eq_default_or_mem l k fZero with hk | hk
  · rw [hk]
    rfl
  · exact h _ hk

theorem isZero_foldl_fadd {α : Type} {g : α → F32} (hg : ∀ x, isZero (g x) = true) (l : List α) {a : F32}
    (ha : isZero a = true) : isZero (l.foldl (fun s x => fadd s (g x)) a) = true :=
  List.foldlRecOn (motive := fun s => isZero s = true) l _ ha fun _ hs x _ => isZero_fadd hs (hg x)

/-- A product of at least one factor, all of them zeros, is a zero. -/
theorem isZero_foldl_fmul {α : Type} {g : α → F32} (hg : ∀ x, isZero (g x) = true) {l : List α} (hl : l ≠ []) {a : F32}
    (ha : isFinite a = true) : isZero (l.foldl (fun s x => fmul s (g x)) a) = true := by
  cases l with
  | nil => exact absurd rfl hl
  | cons x l =>
    exact List.foldlRecOn (motive := fun s => isZero s = true) l _ (isZero_fmul_right (hg x) ha) fun _ hs y _ =>
      isZero_fmul_left hs (isFinite_of_isZero (hg y))

/-- A check of at least two variables has another position to every position. -/
theorem filter_range_ne_ne_nil {n : Nat} (hn : 2 ≤ n) (q : Nat) : (List.range n).filter (fun r => r ≠ q) ≠ [] := by
  have hother : (if q = 0 then 1 else 0) ∈ (List.range n).filter fun r => r ≠ q := by
    rw [List.mem_filter, List.mem_range, decide_eq_true_eq]
    split <;> omega
  exact List.ne_nil_of_mem hother

section
variable {nm : Num} (hnm : NumProps nm)
include hnm

/-- A check of at least two variables, all of whose messages are zeros, sends zeros (spec/42_ldpc_decode.md R162). -/
theorem isZero_checkMessage {row : List F32} (hrow : ∀ x ∈ row, isZero x = true) (hlen : 2 ≤ row.length) (q : Nat) :
    isZero (checkMessage nm row q) = true := by
  have hfactor (r : Nat) : isZero (nm.tanh (fmul (fclamp (row.getD r fZero) MCLAMP) fHalf)) = true :=
    isZero_of_odd (isZero_fmul_left (isZero_fclamp (isZero_getD hrow r) rfl (by decide)) rfl) hnm.p1_tanh hnm.p2_tanh
  have hproduct := isZero_foldl_fmul hfactor (filter_range_ne_ne_nil hlen q) (a := fOne) rfl
  rw [List.foldl_filter] at hproduct
  simp only [decide_eq_true_eq, ite_not] at hproduct
  have hatanh := isZero_of_odd (isZero_fclamp (c := ACLAMP) hproduct rfl (by decide)) hnm.p1_atanh hnm.p2_atanh
  exact isZero_fmul_right hatanh rfl

variable {tb : Tables} {llr : List F32} (hllr : ∀ x ∈ llr, isZero x = true)
  (hdegree : ∀ c, c < 83 → 2 ≤ (checkVars tb c).length)
include hllr hdegree

theorem isZero_edgeAt_checkUpdate_initialEdges (j i : Nat) :
    isZero (edgeAt tb (checkUpdate nm (initialEdges tb llr)) j i) = true := by
  refine isZero_getD ?_ _
  by_cases hj : j < 83
  · have hrow : ∀ x ∈ (checkVars tb j).map fun i => llr.getD i fZero, isZero x = true := by
      simpa using fun i _ => isZero_getD hllr i
    simpa [checkUpdate, initialEdges, hj] using
      fun q _ => isZero_checkMessage hnm hrow (by simpa using hdegree j hj) q
  · simp [checkUpdate, initialEdges, hj]

theorem decisionAt_zero_of_isZero : decisionAt nm tb llr 0 = List.replicate 174 false := by
  refine List.eq_replicate_iff.mpr ⟨length_decisionAt .., fun b hb => ?_⟩
  obtain ⟨i, -, rfl⟩ := List.mem_map.mp hb
  exact flt_fZero_of_isZero (isZero_foldl_fadd (isZero_edgeAt_checkUpdate_initialEdges hnm hllr hdegree · i) _
    (isZero_getD hllr i))

end

/-! ### The decoder on zeros -/

theorem nerr_replicate_false (tb : Tables) (n : Nat) : nerr tb (List.replicate n false) = 0 := by
  refine nerr_eq_zero_iff.mpr fun c _ => (congrArg parity (List.map_congr_left fun i _ => ?_)).trans (parity_map_false _)
  rw [List.getD_eq_getElem?_getD, List.getElem?_replicate]
  split <;> rfl

/-- The run stops after its first iteration if that one's decision passes every check (spec/42_ldpc_decode.md R165). -/
theorem bp_of_nerr_eq_zero {nm : Num} {tb : Tables} {llr : List F32} {cap : Nat} (hcap : 1 ≤ cap)
    (h : nerr tb (decisionAt nm tb llr 0) = 0) : bp nm tb llr cap = ⟨decisionAt nm tb llr 0, 0, 1⟩ := by
  obtain ⟨left, rfl⟩ := Nat.exists_eq_add_of_le' hcap
  calc bp nm tb llr (left + 1)
      = if nerr tb (decisionAt nm tb llr 0) = 0 then
          trackBest ⟨List.replicate 174 false, 84, 0⟩ (decisionAt nm tb llr 0) (nerr tb (decisionAt nm tb llr 0)) 1
        else _ := bpLoop_succ left
    _ = ⟨decisionAt nm tb llr 0, 0, 1⟩ := by rw [if_pos h, h]; rfl

/-- Settles O38: the messages of the first iteration are zeros, so it decides the zero word, which passes every check. -/
theorem zeroLlrsDecodeToZero : Obligations.ZeroLlrsDecodeToZero := by
  intro iter s haddr hzero hdegree
  have hllr : ∀ x ∈ f32Array s (src s) 174, isZero x = true := by simpa [f32Array] using hzero
  have hnum : NumProps NUM := constrain_props Config.rawNum
  have hdecision := decisionAt_zero_of_isZero hnum hllr hdegree
  have hbp := bp_of_nerr_eq_zero (one_le_maxIter iter) (hdecision ▸ nerr_replicate_false s.params.tables 174)
  have hbody := cmdLdpcDecode_body_eq (nm := NUM) (iter := iter) fun k hk =>
    not_isNaN_of_finite (isFinite_of_isZero (hzero k hk))
  rw [hbp, hdecision] at hbody
  have hbytes : (ldpcEffect s ⟨List.replicate 174 false, 0, 1⟩).bytes = List.replicate 22 0 :=
    (by decide : packBits 22 (List.replicate 174 false) = List.replicate 22 0)
  refine ⟨_, exec_eq_completeOk rfl haddr hbody, rfl, rfl, fun k hk => ?_⟩
  have hin : (ldpcEffect s ⟨List.replicate 174 false, 0, 1⟩).base + k = dst s + k := rfl
  rw [← hin, readByte_completeOk, hbytes, List.length_replicate, if_pos (by omega), Nat.add_sub_cancel_left,
    List.getD_replicate _ hk]

end Sys2Proof.Machine
end

section
/-! PROOFS. TONEMAP (spec/43_modulator.md R180 to R184): the frame is made of blocks at fixed positions, sync blocks of fixed tones
and data blocks of 29 Gray-coded symbols each, and the command writes it byte by byte. -/

namespace Sys2Proof.Machine

/-! ### The blocks of a frame -/

/-- A list whose part from o on starts with m has the entries of m there. -/
theorem getD_of_take_drop {α : Type} {l m : List α} {o k : Nat} (d : α)
    (h : (l.drop o).take m.length = m) (hk : k < m.length) : l.getD (o + k) d = m.getD k d := by
  rw [← h, List.getD_eq_getElem?_getD, List.getD_eq_getElem?_getD, List.getElem?_take_of_lt hk, List.getElem?_drop]

/-- The data blocks of a frame, 29 symbols each: offset and first data symbol (spec/43_modulator.md R180, R181). -/
def dataBlocks : Mode → List (Nat × Nat)
  | .ft8 => [(7, 0), (43, 29)]
  | .ft4 => [(5, 0), (38, 29), (71, 58)]

/-- Every data symbol stands in a data block. -/
theorem exists_dataBlock (md : Mode) {d : Nat} (hd : d < dataSymbols md) :
    ∃ b ∈ dataBlocks md, ∃ k < 29, dataPos md d = b.1 + k ∧ d = b.2 + k := by
  cases md with
  | ft8 =>
    simp only [dataSymbols] at hd
    by_cases h : d ≤ 28
    · exact ⟨(7, 0), by simp [dataBlocks], d, by omega, if_pos h, by simp⟩
    · exact ⟨(43, 29), by simp [dataBlocks], d - 29, by omega, if_neg h, by simp only; omega⟩
  | ft4 =>
    simp only [dataSymbols] at hd
    by_cases h : d ≤ 28
    · exact ⟨(5, 0), by simp [dataBlocks], d, by omega, if_pos h, by simp⟩
    by_cases h' : d ≤ 57
    · exact ⟨(38, 29), by simp [dataBlocks], d - 29, by omega, by simp [dataPos, h, h'], by simp only; omega⟩
    · exact ⟨(71, 58), by simp [dataBlocks], d - 58, by omega, by simp [dataPos, h, h'], by simp only; omega⟩

section
variable (tb : Tables) (md : Mode) (c : List Bool)

/-- The sync blocks stand at their offsets, whatever the codeword (spec/43_modulator.md R180, R181). -/
theorem tones_syncBlock : ∀ b ∈ syncBlocks tb md, ((tones tb md c).drop b.1).take b.2.length = b.2 := by
  cases md <;> simp only [syncBlocks, List.forall_mem_cons, List.not_mem_nil, false_implies, implies_true, and_true]
  case ft8 => exact ⟨rfl, rfl, rfl⟩
  case ft4 => exact ⟨rfl, rfl, rfl, rfl⟩

theorem tones_dataBlock : ∀ b ∈ dataBlocks md, ((tones tb md c).drop b.1).take 29 = dataTones md c b.2 := by
  cases md <;> simp only [dataBlocks, List.forall_mem_cons, List.not_mem_nil, false_implies, implies_true, and_true]
  case ft8 => exact ⟨rfl, rfl⟩
  case ft4 => exact ⟨rfl, rfl, rfl⟩

/-- The tone at the position of data symbol d is the Gray code of its value (spec/43_modulator.md R182, R183). -/
theorem getD_tones_dataPos {d : Nat} (hd : d < dataSymbols md) :
    (tones tb md c).getD (dataPos md d) 0 = gray md (symbolValue md c d) := by
  obtain ⟨b, hb, k, hk, hpos, rfl⟩ := exists_dataBlock md hd
  have hblock := tones_dataBlock tb md c b hb
  rw [hpos, getD_of_take_drop 0 (by rw [length_dataTones, hblock]) (by rwa [length_dataTones])]
  simp [dataTones, hk]

end

/-- FT8 has its tones from COSTAS8 and GRAY8, and no table plays a part. -/
theorem tones_ft8_lt (tb : Tables) (c : List Bool) : ∀ t ∈ tones tb .ft8 c, t < toneCount .ft8 := by
  have hdata := dataTones_lt .ft8 c
  simp only [tones, List.forall_mem_append]
  exact ⟨⟨⟨⟨costas8_lt, hdata 0⟩, costas8_lt⟩, hdata 29⟩, costas8_lt⟩

/-- Legal sequences are as the model reads them (spec/10_state.md R54). -/
theorem ft4Costas_eq_getD {tb : Tables} (htb : Ft4Legal tb) {b : Nat} (hb : b < 4) :
    ft4Costas tb b = tb.ft4Costas.getD b [] := by
  obtain ⟨hlen, hrows⟩ := htb.costas_shape
  have hrow : (tb.ft4Costas.getD b []).length = 4 := by
    rw [List.getD_eq_getElem _ _ (by omega)]
    exact (hrows _ (List.getElem_mem _)).1
  refine List.ext_getElem (by rw [length_ft4Costas, hrow]) fun k _ hk => ?_
  simp only [ft4Costas, List.getElem_map, List.getElem_range]
  exact List.getD_eq_getElem _ _ hk

/-! ### Tones as bytes -/

theorem toNat_ofNat_tone {md : Mode} {t : Nat} (h : t < toneCount md) : (BitVec.ofNat 8 t).toNat = t := by
  have : toneCount md ≤ 8 := by cases md <;> decide
  rw [BitVec.toNat_ofNat, Nat.mod_eq_of_lt (by omega)]

theorem map_toNat_toneBytes {md : Mode} {ts : List Nat} (h : ∀ t ∈ ts, t < toneCount md) :
    (toneBytes ts).map BitVec.toNat = ts := by
  rw [toneBytes, List.map_map]
  exact (List.map_congr_left fun t ht => toNat_ofNat_tone (h t ht)).trans (List.map_id ts)

section
variable {e : Effect} {ts : List Nat} (he : e.bytes = toneBytes ts) (s : State)
include he

theorem readByte_tone {u : Nat} (hu : u < ts.length) :
    readByte (completeOk e s) (e.base + u) = BitVec.ofNat 8 (ts.getD u 0) := by
  have hlen : e.bytes.length = ts.length := by rw [he, length_toneBytes]
  rw [readByte_completeOk, if_pos (by omega), Nat.add_sub_cancel_left, he, toneBytes, List.getD_eq_getElem _ _ (by simpa),
    List.getElem_map, List.getD_eq_getElem _ _ hu]

/-- The tones from o on are read back as the block m that stands there. -/
theorem readBytes_tones {o : Nat} {m : List Nat} (h : (ts.drop o).take m.length = m) :
    readBytes (completeOk e s) (e.base + o) m.length = toneBytes m := by
  have hlen := congrArg List.length h
  rw [List.length_take, List.length_drop] at hlen
  refine List.ext_getElem (by simp) fun k hk _ => ?_
  rw [length_readBytes] at hk
  simp only [readBytes, toneBytes, List.getElem_map, List.getElem_range]
  rw [add_assoc, readByte_tone he s (by omega), getD_of_take_drop 0 h hk, List.getD_eq_getElem _ _ hk]

end

/-! ### TONEMAP -/

/-- What TONEMAP collects. -/
def tonemapEffect (md : Mode) (s : State) : Effect :=
  { base := dst s, bytes := toneBytes (tones s.params.tables md (readBits s (src s) 174)) }

theorem exec_tonemap {md : Mode} {s : State} (haddr : AddressesLegal (tonemapOf md) s) :
    exec (tonemapOf md) s = .next (completeOk (tonemapEffect md s) s) := by
  cases md <;> exact exec_eq_completeOk rfl haddr rfl

theorem readBytes_tonemap_sync {md : Mode} {s : State} {b : Nat × List Nat} (hb : b ∈ syncBlocks s.params.tables md) :
    readBytes (completeOk (tonemapEffect md s) s) (dst s + b.1) b.2.length = toneBytes b.2 :=
  readBytes_tones (e := tonemapEffect md s) rfl s (tones_syncBlock _ md _ b hb)

section
variable {md : Mode} {s : State}
  (hlt : ∀ t ∈ tones s.params.tables md (readBits s (src s) 174), t < toneCount md)
include hlt

theorem toNat_readByte_tonemap {u : Nat} (hu : u < symbols md) :
    (readByte (completeOk (tonemapEffect md s) s) (dst s + u)).toNat =
      (tones s.params.tables md (readBits s (src s) 174)).getD u 0 :=
  (congrArg BitVec.toNat (readByte_tone (e := tonemapEffect md s) rfl s (by rwa [length_tones]))).trans
    (toNat_ofNat_tone (getD_lt_toneCount hlt u))

theorem toNat_readByte_tonemap_lt {u : Nat} (hu : u < symbols md) :
    (readByte (completeOk (tonemapEffect md s) s) (dst s + u)).toNat < toneCount md := by
  rw [toNat_readByte_tonemap hlt hu]
  exact getD_lt_toneCount hlt u

theorem toNat_readByte_tonemap_data {d : Nat} (hd : d < dataSymbols md) :
    (readByte (completeOk (tonemapEffect md s) s) (dst s + dataPos md d)).toNat =
      gray md (symbolValue md (readBits s (src s) 174) d) := by
  rw [toNat_readByte_tonemap hlt (dataPos_lt md hd), getD_tones_dataPos _ md _ hd]

end

/-- The value of a data symbol of a codeword in LDM, bit by bit. -/
theorem symbolValue_readBits (md : Mode) (s : State) (a : Nat) {d : Nat} (hd : d < dataSymbols md) :
    symbolValue md (readBits s a 174) d =
      bitsToNat ((List.range (bitsPerSymbol md)).map fun b => bitRead s a (bitsPerSymbol md * d + b)) := by
  refine congrArg bitsToNat (List.map_congr_left fun b hb => getD_readBits s a ?_)
  rw [List.mem_range] at hb
  cases md <;> simp only [dataSymbols, bitsPerSymbol] at hd hb ⊢ <;> omega

theorem bitsToNat_two (x y : Bool) : bitsToNat [x, y] = 2 * x.toNat + y.toNat := by simp [bitsToNat]

theorem bitsToNat_three (x y z : Bool) : bitsToNat [x, y, z] = 4 * x.toNat + 2 * y.toNat + z.toNat := by
  rw [show [x, y, z] = [x, y] ++ [z] from rfl, bitsToNat_concat, bitsToNat_two]
  omega

/-- Settles O39: the bytes written are the frame, whose blocks are read back one by one. -/
theorem tonemapFt8Command : Obligations.TonemapFt8Command := by
  intro s haddr
  have hlt := tones_ft8_lt s.params.tables (readBits s (src s) 174)
  refine ⟨_, exec_tonemap (md := .ft8) haddr, completes_completeOk _ s, ldmKept_completeOk (i := .tonemapFt8) rfl,
    rfl, fun o ho => ?_, fun d hd => ?_, fun u hu => Nat.le_of_lt_succ (toNat_readByte_tonemap_lt hlt hu)⟩
  · exact readBytes_tonemap_sync (md := .ft8) (b := (o, costas8)) (by simpa [syncBlocks] using ho)
  · rw [← bitsToNat_three]
    exact (toNat_readByte_tonemap_data hlt hd).trans (congrArg (gray .ft8) (symbolValue_readBits .ft8 s _ hd))

/-- Settles O40: the same for the frame of FT4, whose sync tones are those of legal tables. -/
theorem tonemapFt4Command : Obligations.TonemapFt4Command := by
  intro s htb haddr
  have hlt := tones_lt htb .ft4 (readBits s (src s) 174)
  have he : (tonemapEffect .ft4 s).bytes = toneBytes (tones s.params.tables .ft4 (readBits s (src s) 174)) := rfl
  refine ⟨_, exec_tonemap (md := .ft4) haddr, completes_completeOk _ s, ldmKept_completeOk (i := .tonemapFt4) rfl,
    rfl, readByte_tone he s (u := 0) (by simp [symbols]), readByte_tone he s (u := 104) (by simp [symbols]), fun b hb => ?_,
    fun d hd => ?_, fun u hu => Nat.le_of_lt_succ (toNat_readByte_tonemap_lt hlt hu)⟩
  · have hmem : (1 + 33 * b, ft4Costas s.params.tables b) ∈ syncBlocks s.params.tables .ft4 := by
      interval_cases b <;> simp [syncBlocks]
    rw [← ft4Costas_eq_getD htb hb, ← map_toNat_toneBytes (ft4Costas_lt htb b)]
    exact congrArg (List.map BitVec.toNat) (readBytes_tonemap_sync hmem)
  · rw [← bitsToNat_two]
    exact (toNat_readByte_tonemap_data hlt hd).trans (congrArg (gray .ft4) (symbolValue_readBits .ft4 s _ hd))

end Sys2Proof.Machine
end

section
/-! PROOFS. ENCODE (spec/43_modulator.md R185): it writes the tones of the codeword of the payload with its CRC, and is the chain of
FT4_XOR, CRC_APPEND, LDPC_ENCODE and TONEMAP. -/

namespace Sys2Proof.Machine

/-- What ENCODE collects for a payload p, already masked where the protocol has a mask. -/
def encodeEffect (md : Mode) (s : State) (p : List Bool) : Effect :=
  { base := dst s, bytes := toneBytes (tones s.params.tables md (ldpcEnc s.params.tables (withCrc p)))
    result0 := some (toWord (crc77 p).toNat) }

section
variable {md : Mode} {s : State}

theorem body_encode (md : Mode) (s : State) :
    (commandOf (encodeOf md)).body s = .ok (encodeEffect md s (maskFor s.params.tables md (readBits s (src s) 77))) := by
  cases md <;> rfl

theorem exec_encode (haddr : AddressesLegal (encodeOf md) s) :
    exec (encodeOf md) s =
      .next (completeOk (encodeEffect md s (maskFor s.params.tables md (readBits s (src s) 77))) s) :=
  exec_eq_completeOk (by cases md <;> rfl) haddr (body_encode md s)

theorem writtenSize_encode : writtenSize (encodeOf md) s = symbols md := by cases md <;> rfl

end

/-- Settles O41: each byte written is a tone of the frame. -/
theorem encodeCommand : Obligations.EncodeCommand := by
  intro md s haddr p c
  have hkept := ldmKept_completeOk (body_encode md s)
  rw [writtenSize_encode] at hkept
  refine ⟨_, exec_encode haddr, completes_completeOk _ s, hkept, rfl, toNat_toWord_crc _, fun u hu => ?_⟩
  exact readByte_tone (e := encodeEffect md s p) rfl s (by rwa [length_tones])

/-- The bits a command has packed into its bytes are read back. -/
theorem readBits_completeOk_packBits {e : Effect} {n m : Nat} {bits : List Bool} (he : e.bytes = packBits n bits)
    (hlen : bits.length = m) (hn : m ≤ 8 * n) (s : State) : readBits (completeOk e s) e.base m = bits := by
  refine eq_of_getD_eq (by rw [length_readBits, hlen]) fun k hk => ?_
  rw [length_readBits] at hk
  rw [getD_readBits _ _ hk, bitRead_completeOk_packBits he (by omega)]

/-! ### What each command of the chain leaves -/

theorem readBytes_frame {e : Effect} {tb : Tables} {md : Mode} {c : List Bool} (he : e.bytes = toneBytes (tones tb md c))
    (s : State) : readBytes (completeOk e s) e.base (symbols md) = toneBytes (tones tb md c) := by
  have hread := readBytes_tones he s (o := 0) (m := tones tb md c) List.take_length
  rwa [length_tones] at hread

section
variable {s t : State}

theorem eq_completeOk_of_next {e : Effect} {o : Host.Outcome State Fault Refusal} (h : o = .next (completeOk e s))
    (ht : o = .next t) : t = completeOk e s := by
  injection ht.symm.trans h

theorem readBits_ft4Xor (haddr : AddressesLegal .ft4Xor s) (ht : exec .ft4Xor s = .next t) :
    readBits t (dst s) 77 = mask4 s.params.tables (readBits s (src s) 77) := by
  rw [eq_completeOk_of_next (exec_eq_completeOk rfl haddr rfl) ht]
  exact readBits_completeOk_packBits (n := 10)
    (e := { base := dst s, bytes := packBits 10 (mask4 s.params.tables (readBits s (src s) 77)) }) rfl
    (length_mask4 (length_readBits _ _ _)) (by decide) s

theorem readBits_crcAppend (haddr : AddressesLegal .crcAppend s) (ht : exec .crcAppend s = .next t) :
    readBits t (dst s) 91 = withCrc (readBits s (src s) 77)
      ∧ t.csr.result0 = toWord (crc77 (readBits s (src s) 77)).toNat := by
  rw [eq_completeOk_of_next (exec_eq_completeOk rfl haddr rfl) ht]
  refine ⟨?_, rfl⟩
  exact readBits_completeOk_packBits (n := 12)
    (e := { base := dst s, bytes := packBits 12 (withCrc (readBits s (src s) 77)),
            result0 := some (toWord (crc77 (readBits s (src s) 77)).toNat) }) rfl
    (length_withCrc (length_readBits _ _ _)) (by decide) s

theorem readBits_ldpcEncode (haddr : AddressesLegal .ldpcEncode s) (ht : exec .ldpcEncode s = .next t) :
    readBits t (dst s) 174 = ldpcEnc s.params.tables (readBits s (src s) 91) := by
  obtain ⟨t', ht', -, -, -, -, hread, -⟩ := ldpcEncodeCommand s haddr
  rw [ht] at ht'
  injection ht' with ht'
  exact ht' ▸ hread

theorem readBytes_tonemap {md : Mode} (haddr : AddressesLegal (tonemapOf md) s) (ht : exec (tonemapOf md) s = .next t) :
    readBytes t (dst s) (symbols md) = toneBytes (tones s.params.tables md (readBits s (src s) 174)) := by
  rw [eq_completeOk_of_next (exec_tonemap haddr) ht]
  exact readBytes_frame (e := tonemapEffect md s) rfl s

theorem readBytes_encode {md : Mode} (haddr : AddressesLegal (encodeOf md) s) (ht : exec (encodeOf md) s = .next t) :
    readBytes t (dst s) (symbols md) =
        toneBytes (tones s.params.tables md
          (ldpcEnc s.params.tables (withCrc (maskFor s.params.tables md (readBits s (src s) 77)))))
      ∧ t.csr.result0 = toWord (crc77 (maskFor s.params.tables md (readBits s (src s) 77))).toNat := by
  rw [eq_completeOk_of_next (exec_encode haddr) ht]
  exact ⟨readBytes_frame (e := encodeEffect md s (maskFor s.params.tables md (readBits s (src s) 77))) rfl s, rfl⟩

end

/-- Settles O42: what each command leaves is what the next one reads. -/
theorem encodeIsTheChainOfItsParts : Obligations.EncodeIsTheChainOfItsParts := by
  intro md s0 s s1 t1 s2 t2 s3 t3 t hs hs1 hs2 hs3 haddr0 ht hpayload hft8 hft4 haddr1 ht1 haddr2 hin2 ht2 haddr3 hin3 ht3
  have hmasked : readBits s1 (src s1) 77 = maskFor s0.params.tables md (readBits s0 (src s0) 77) := by
    cases md with
    | ft8 => exact (hft8 rfl).trans hpayload
    | ft4 =>
      obtain ⟨haddr, u, hu, hin1⟩ := hft4 rfl
      rw [hin1, readBits_ft4Xor haddr hu, hpayload, hs, maskFor]
  obtain ⟨hbits1, hresult1⟩ := readBits_crcAppend haddr1 ht1
  obtain ⟨hbytes, hresult⟩ := readBytes_encode haddr0 ht
  refine ⟨by rw [hresult, hresult1, hmasked], ?_⟩
  rw [hbytes, readBytes_tonemap haddr3 ht3, hin3, readBits_ldpcEncode haddr2 ht2, hin2, hbits1, hmasked, hs2, hs3]

end Sys2Proof.Machine
end

section
/-! PROOFS. Samples per symbol and GFSK_SYNTH (spec/43_modulator.md R186, R191): the samples written are the waveform of the tones
read. -/

namespace Sys2Proof.Machine

/-- Settles O43: the model's quotient is the floor of the rule, by `exactNspsym_eq`; the operating points are evaluated. -/
theorem samplesPerSymbol : Obligations.SamplesPerSymbol :=
  ⟨fun _ _ hpos => (exactNspsym_eq hpos).symm, by decide, by decide⟩

/-! ### Samples read back -/

/-- Four bytes of an f32 array are the little-endian bytes of one element (spec/20_memory.md R68). -/
theorem take_drop_f32Bytes {xs : List F32} {k : Nat} (hk : k < xs.length) :
    ((f32Bytes xs).drop (4 * k)).take 4 = leBytes 4 xs[k].toNat := by
  induction xs generalizing k with
  | nil => simp at hk
  | cons x xs ih =>
    have hcons : f32Bytes (x :: xs) = leBytes 4 x.toNat ++ f32Bytes xs := rfl
    cases k with
    | zero => rw [hcons]; exact List.take_left' (length_leBytes 4 _)
    | succ k =>
      rw [hcons, show 4 * (k + 1) = (leBytes 4 x.toNat).length + 4 * k by rw [length_leBytes]; ring,
        List.drop_length_add_append, ih (Nat.lt_of_succ_lt_succ hk), List.getElem_cons_succ]

/-- The bytes of a command's block from o on, read back. -/
theorem readBytes_completeOk_inside (e : Effect) (s : State) {o n : Nat} (h : o + n ≤ e.bytes.length) :
    readBytes (completeOk e s) (e.base + o) n = (e.bytes.drop o).take n := by
  refine List.ext_getElem (by simp; omega) fun k hk _ => ?_
  rw [length_readBytes] at hk
  simp only [readBytes, List.getElem_map, List.getElem_range, List.getElem_take, List.getElem_drop]
  rw [readByte_completeOk, if_pos (by omega), add_assoc, Nat.add_sub_cancel_left, List.getD_eq_getElem _ _ (by omega)]

/-- An f32 a command has written is read back with its bits. -/
theorem memRead_completeOk_f32Bytes {e : Effect} {xs : List F32} (he : e.bytes = f32Bytes xs) (s : State) {k : Nat}
    (hk : k < xs.length) : memRead (completeOk e s) (e.base + 4 * k) 4 = (xs.getD k 0).toNat := by
  have hlen : e.bytes.length = 4 * xs.length := by rw [he, length_f32Bytes]
  rw [memRead, readBytes_completeOk_inside e s (by omega), he, take_drop_f32Bytes hk, leNat_leBytes,
    List.getD_eq_getElem _ _ hk]
  exact Nat.mod_eq_of_lt xs[k].isLt

/-! ### GFSK_SYNTH -/

/-- The operands of GFSK_SYNTH as registers and LDM hold them. -/
def synthOperands (s : State) : SynthOperands :=
  { n := nspsymOf s, fs := fs s, bt := s.csr.bt, f0 := s.csr.f0Hz
    ts := (List.range (len s)).map fun j => (readByte s (src s + j)).toNat }

/-- What GFSK_SYNTH collects. -/
def synthEffect (nm : Num) (s : State) : Effect :=
  { base := dst s, bytes := f32Bytes (waveform nm (synthOperands s)), result0 := some (toWord (len s * nspsymOf s))
    nspsym := some (toWord (nspsymOf s)) }

theorem synthTones_eq (s : State) : synthTones s = (synthOperands s).ts := by
  simp only [synthTones, readBytes, synthOperands, List.map_map]
  rfl

theorem cmdGfskSynth_body_eq {nm : Num} {s : State} (hbt : isNaN s.csr.bt = false) (hf0 : isNaN s.csr.f0Hz = false)
    (h : ∀ k < len s, (readByte s (src s + k)).toNat ≤ 7) :
    (cmdGfskSynth nm).body s = .ok (synthEffect nm s) := by
  have hnone : firstIndex (fun t => decide (7 < t)) (synthOperands s).ts = none :=
    firstIndex_map_range fun k hk => by simpa using h k hk
  simp only [cmdGfskSynth, synthTones_eq, hnone, canon_of_not_nan hbt, canon_of_not_nan hf0]
  rfl

/-- The F0_HZ check leaves room for eight tones below half the sample rate, which needs 14 samples per symbol
(spec/43_modulator.md R190). -/
theorem fourteen_le_of_f0 {rate n : Nat} {f0 : ℚ} (hrate : 1 ≤ rate) (hn : 1 ≤ n) (hf0 : 0 ≤ f0)
    (h : f0 + 7 * (rate : ℚ) / n ≤ rate / 2) : 14 ≤ n := by
  have hrate' : (0 : ℚ) < rate := by exact_mod_cast hrate
  have hn' : (0 : ℚ) < n := by exact_mod_cast hn
  have hle : 7 * (rate : ℚ) / n ≤ rate / 2 := by linarith
  rw [div_le_div_iff₀ hn' two_pos] at hle
  have : (14 : ℚ) ≤ n := le_of_mul_le_mul_left (by linarith) hrate'
  exact_mod_cast this

/-- Settles O44: legal operands reach the body, whose bytes are the samples of the waveform. -/
theorem gfskSynthCommand : Obligations.GfskSynthCommand := by
  intro s hparams haddr hdata n o
  obtain ⟨hrate, -⟩ := hparams .fsHz (by decide)
  obtain ⟨-, hpos, hn, hnhi⟩ := hparams .tsym (by decide)
  obtain ⟨hbt, -⟩ := hparams .bt (by decide)
  obtain ⟨hf0, hf0lo, hf0hi⟩ := hparams .f0Hz (by decide)
  rw [exactNspsym_eq hpos] at hn hnhi hf0hi
  rw [Int.cast_natCast] at hf0hi
  have hbody : (commandOf .gfskSynth).body s = .ok (synthEffect NUM s) :=
    cmdGfskSynth_body_eq (not_isNaN_of_finite hbt) (not_isNaN_of_finite hf0) fun k hk => by simpa [BadDatum, hk] using hdata k
  have hexec : exec .gfskSynth s = .next (completeOk (synthEffect NUM s) s) := by
    rw [exec_eq_finish, evaluate_eq_body hparams haddr, hbody, finish_ok]
  have hlen : (waveform NUM o).length = len s * n := by rw [length_waveform, List.length_map, List.length_range]
  have hkept := ldmKept_completeOk hbody
  rw [writtenSize, mul_assoc] at hkept
  refine ⟨_, hexec, completes_completeOk _ s, hkept, rfl, rfl, ?_, fourteen_le_of_f0 hrate (by exact_mod_cast hn) hf0lo
    hf0hi, hlen, fun k hk => memRead_completeOk_f32Bytes (e := synthEffect NUM s) rfl s (hlen ▸ hk)⟩
  have hnhi' : nspsymOf s ≤ 2 ^ 20 := by exact_mod_cast hnhi
  exact (BitVec.toNat_ofNat _ _).trans (Nat.mod_eq_of_lt (by omega))

end Sys2Proof.Machine
end

section
/-! PROOFS. The phase-increment buffer (spec/43_modulator.md R187, R188): each pass acts on every entry by itself, so an entry is what
its own additions make of D0. -/

namespace Sys2Proof.Machine

/-- One run of additions: v 0, …, v (m − 1) into entries a, a + 1, … -/
def addRun (a m : Nat) (v : Nat → F32) (buf : List F32) : List F32 :=
  (List.range m).foldl (fun buf k => addAt (a + k) (v k) buf) buf

/-- What the additions of v 0, …, v (m − 1) at entries a, a + 1, … make of entry x, whose value is y. -/
def addBlock (a m : Nat) (v : Nat → F32) (x : Nat) (y : F32) : F32 := if a ≤ x ∧ x < a + m then fadd y (v (x - a)) else y

section
variable (x : Nat)

/-- A sequence of buffer updates each of which acts on entry x by itself acts on it one after another. -/
theorem getElem?_foldl_of_pointwise {α : Type} {f : List F32 → α → List F32} {g : F32 → α → F32}
    (h : ∀ buf i, (f buf i)[x]? = buf[x]?.map (g · i)) (l : List α) (buf : List F32) :
    (l.foldl f buf)[x]? = buf[x]?.map fun y => l.foldl g y := by
  induction l generalizing buf with
  | nil => exact Option.map_id'.symm
  | cons i l ih => rw [List.foldl_cons, ih, h, Option.map_map]; rfl

theorem getElem?_addAt (j : Nat) (v : F32) (buf : List F32) :
    (addAt j v buf)[x]? = buf[x]?.map fun y => if j = x then fadd y v else y := by
  rw [addAt, List.getElem?_modify]
  split <;> simp

/-- Of consecutive entries at most one is entry x. -/
theorem foldl_range_ite_eq_addBlock (a m : Nat) (v : Nat → F32) (y : F32) :
    (List.range m).foldl (fun acc k => if a + k = x then fadd acc (v k) else acc) y = addBlock a m v x y := by
  induction m with
  | zero => rw [addBlock, if_neg (by omega)]; rfl
  | succ m ih =>
    rw [List.range_succ, List.foldl_append, ih, List.foldl_cons, List.foldl_nil, addBlock, addBlock]
    by_cases hx : a + m = x
    · rw [if_pos hx, if_neg (by omega), if_pos (by omega), show x - a = m by omega]
    · rw [if_neg hx]
      exact if_congr (by omega) rfl rfl

theorem getElem?_addRun (a m : Nat) (v : Nat → F32) (buf : List F32) :
    (addRun a m v buf)[x]? = buf[x]?.map (addBlock a m v x) := by
  rw [addRun, getElem?_foldl_of_pointwise x fun buf k => getElem?_addAt x (a + k) (v k) buf]
  exact congrArg buf[x]?.map (funext (foldl_range_ite_eq_addBlock x a m v))

end

section
variable (nm : Num) (o : SynthOperands)

/-- The three passes of spec/43_modulator.md R188 are runs of additions of the model's own pulse terms. -/
theorem phaseBuffer_eq_runs :
    phaseBuffer nm o =
      addRun (o.ts.length * o.n) (2 * o.n) (pulseTerm nm o (o.ts.getD (o.ts.length - 1) 0))
        (addRun 0 (2 * o.n) (fun k => pulseTerm nm o (o.ts.getD 0 0) (k + o.n))
          ((List.range o.ts.length).foldl (fun buf i => addRun (i * o.n) (3 * o.n) (pulseTerm nm o (o.ts.getD i 0)) buf)
            (List.replicate ((o.ts.length + 2) * o.n) (tone0Step o)))) := by
  simp only [phaseBuffer, addRun, Nat.zero_add]
  rfl

/-- The model's entry is what the same runs make of D0. -/
theorem phaseStep_eq_blocks (x : Nat) :
    phaseStep nm o x =
      addBlock (o.ts.length * o.n) (2 * o.n) (pulseTerm nm o (o.ts.getD (o.ts.length - 1) 0)) x
        (addBlock 0 (2 * o.n) (fun k => pulseTerm nm o (o.ts.getD 0 0) (k + o.n)) x
          ((List.range o.ts.length).foldl
            (fun y i => addBlock (i * o.n) (3 * o.n) (pulseTerm nm o (o.ts.getD i 0)) x y) (tone0Step o))) := by
  simp only [phaseStep, addBlock, Nat.zero_le, true_and, Nat.zero_add, Nat.sub_zero]

end

/-- Settles O45: the runs act on each entry by itself, starting from D0. -/
theorem phaseIncrementsAreTheBufferPasses : Obligations.PhaseIncrementsAreTheBufferPasses := by
  intro nm o x _ _ hx
  rw [phaseBuffer_eq_runs, phaseStep_eq_blocks, getElem?_addRun, getElem?_addRun,
    getElem?_foldl_of_pointwise x fun buf i => getElem?_addRun x (i * o.n) (3 * o.n) (pulseTerm nm o (o.ts.getD i 0)) buf,
    List.getElem?_replicate, if_pos hx]
  rfl

end Sys2Proof.Machine
end

section
/-! PROOFS. The waveform (spec/43_modulator.md R189, R190): each sample is the sine of the integrated phase, under the ramp of its end
of the waveform. -/

namespace Sys2Proof.Machine

section
variable (nm : Num) (o : SynthOperands)

/-- The phase at sample k, before its advance (spec/43_modulator.md R189). -/
def phaseAt : Nat → F32
  | 0 => fZero
  | k + 1 => wrapPhase (fadd (phaseAt k) (phaseStep nm o (k + o.n)))

theorem getElem?_integrate {count j : Nat} (k : Nat) (hj : j < count) :
    (integrate nm o count k (phaseAt nm o k))[j]? = some (nm.sin (phaseAt nm o (k + j))) := by
  induction count generalizing k j with
  | zero => omega
  | succ count ih =>
    cases j with
    | zero => rfl
    | succ j =>
      rw [show k + (j + 1) = k + 1 + j by omega]
      exact ih (k + 1) (Nat.lt_of_succ_lt_succ hj)

theorem getElem?_waveform {k : Nat} (hk : k < o.ts.length * o.n) :
    (waveform nm o)[k]? = some (shapeSample nm o.n (o.ts.length * o.n) k (nm.sin (phaseAt nm o k))) := by
  have hsine := getElem?_integrate nm o 0 hk
  rw [Nat.zero_add] at hsine
  rw [waveform, List.getElem?_mapIdx]
  exact congrArg (Option.map _) hsine

end

/-- The two ramps never overlap (spec/43_modulator.md R190). -/
theorem not_both_ramps {n lw k : Nat} (hlw : n ≤ lw) (hfirst : k < rampLength n) : ¬lw - 1 - k < rampLength n := by
  unfold rampLength at *
  omega

/-- A sample is under the first ramp, under the last one, or as the sine left it. -/
theorem shapeSample_eq (nm : Num) {n lw : Nat} (hlw : n ≤ lw) (k : Nat) (x : F32) :
    shapeSample nm n lw k x =
      if k < rampLength n then fmul x (envelope nm n k)
      else if lw - 1 - k < rampLength n then fmul x (envelope nm n (lw - 1 - k)) else x := by
  by_cases hfirst : k < rampLength n
  · simp only [shapeSample, if_pos hfirst, if_neg (not_both_ramps hlw hfirst)]
  · simp only [shapeSample, if_neg hfirst]

theorem n_le_length_waveform {o : SynthOperands} (hts : 1 ≤ o.ts.length) : o.n ≤ o.ts.length * o.n :=
  Nat.le_mul_of_pos_left _ hts

/-- Settles O46: the phase is `phaseAt`, and a sample is under at most one ramp. -/
theorem waveformFollowsThePhase : Obligations.WaveformFollowsThePhase := by
  intro nm o _ hts lw ramp env
  refine ⟨phaseAt nm o, rfl, fun k _ => rfl, length_waveform nm o, fun k hk => ?_⟩
  rw [getElem?_waveform nm o hk, shapeSample_eq nm (n_le_length_waveform hts)]
  rfl

end Sys2Proof.Machine
end

section
/-! PROOFS. No sample exceeds 1 in magnitude, and the ends of the waveform are zeros (spec/43_modulator.md R190, R192): rounding keeps
every bound that is itself a binary32 magnitude. -/

namespace Sys2Proof.Machine

/-! ### Rounding and bounds -/

/-- What is at most a magnitude rounds to at most it. -/
theorem roundMag_le_of_le {p q m : Nat} (hq : 0 < q) (h : p ≤ scaledMag m * q) : roundMag p q ≤ m := by
  by_contra hlt
  obtain ⟨hle, -⟩ := (roundMag_nearest p hq).below (not_le.mp hlt)
  have hmono := cast_scaledMag_strictMono (not_le.mp hlt)
  have hv : (p / q : ℝ) ≤ scaledMag m := by
    rw [div_le_iff₀ (by exact_mod_cast hq)]
    exact_mod_cast h
  simp only at hmono
  linarith

/-- What is at least a finite magnitude or infinity rounds to at least it. -/
theorem le_roundMag_of_le {p q m : Nat} (hq : 0 < q) (hm : m ≤ infBits) (h : scaledMag m * q ≤ p) : m ≤ roundMag p q := by
  by_contra hlt
  obtain ⟨hle, -⟩ := (roundMag_nearest p hq).above (not_le.mp hlt) hm
  have hmono := cast_scaledMag_strictMono (not_le.mp hlt)
  have hv : (scaledMag m : ℝ) ≤ p / q := by
    rw [le_div_iff₀ (by exact_mod_cast hq)]
    exact_mod_cast h
  simp only at hmono
  linarith

theorem natAbs_scaled (x : F32) : (scaled x).natAbs = scaledMag (magBits x) := by
  rw [scaled]
  split <;> simp

section
variable {x y : F32} (hx : isFinite x = true) (hy : isFinite y = true)
include hx hy

theorem magBits_fmul_le {m : Nat} (hm : m < 2 ^ 31)
    (h : scaledMag (magBits x) * scaledMag (magBits y) ≤ scaledMag m * 2 ^ 149) : magBits (fmul x y) ≤ m := by
  have hle := roundMag_le_of_le (by positivity) h
  rw [fmul_of_finite hx hy, magBits_mkF32 _ (hle.trans_lt hm)]
  exact hle

theorem magBits_fadd_le {m : Nat} (hm : m < 2 ^ 31) (h : scaledMag (magBits x) + scaledMag (magBits y) ≤ scaledMag m) :
    magBits (fadd x y) ≤ m := by
  have hsum : (scaled x + scaled y).natAbs ≤ scaledMag m * 1 := by
    rw [mul_one]
    exact (Int.natAbs_add_le _ _).trans (by rwa [natAbs_scaled, natAbs_scaled])
  rw [fadd_of_finite hx hy]
  split
  · rw [magBits_mkF32 _ (by decide)]
    exact Nat.zero_le m
  · have hle := roundMag_le_of_le one_pos hsum
    rw [magBits_mkF32 _ (hle.trans_lt hm)]
    exact hle

end

/-! ### Values of magnitude at most 1 -/

theorem unitBounded_iff {x : F32} : unitBounded x = true ↔ magBits x ≤ magBits fOne := by
  rw [unitBounded, decide_eq_true_eq]

theorem isFinite_of_unitBounded {x : F32} (h : unitBounded x = true) : isFinite x = true :=
  isFinite_iff.mpr ((unitBounded_iff.mp h).trans_lt (by decide))

theorem scaledMag_fOne : scaledMag (magBits fOne) = 2 ^ 149 := by decide

theorem scaledMag_le_of_unitBounded {x : F32} (h : unitBounded x = true) : scaledMag (magBits x) ≤ 2 ^ 149 :=
  scaledMag_fOne ▸ scaledMag_strictMono.monotone (unitBounded_iff.mp h)

theorem unitBounded_fmul {x y : F32} (hx : unitBounded x = true) (hy : unitBounded y = true) :
    unitBounded (fmul x y) = true := by
  refine unitBounded_iff.mpr (magBits_fmul_le (isFinite_of_unitBounded hx) (isFinite_of_unitBounded hy) (by decide) ?_)
  rw [scaledMag_fOne]
  exact Nat.mul_le_mul (scaledMag_le_of_unitBounded hx) (scaledMag_le_of_unitBounded hy)

/-- Half of 1 − c is at most 1 where |c| is. -/
theorem unitBounded_half_one_sub {c : F32} (hc : unitBounded c = true) : unitBounded (fmul (fsub fOne c) fHalf) = true := by
  have hnan := not_isNaN_of_finite (isFinite_of_unitBounded hc)
  have htwo : scaledMag (magBits fTwo) = 2 ^ 149 + 2 ^ 149 := by decide
  have hle : magBits (fsub fOne c) ≤ magBits fTwo := by
    refine magBits_fadd_le rfl (isFinite_fneg (isFinite_of_unitBounded hc)) (by decide) ?_
    rw [magBits_fneg hnan, scaledMag_fOne, htwo]
    exact Nat.add_le_add_left (scaledMag_le_of_unitBounded hc) _
  refine unitBounded_iff.mpr (magBits_fmul_le (isFinite_iff.mpr (hle.trans_lt (by decide))) rfl (by decide) ?_)
  calc scaledMag (magBits (fsub fOne c)) * scaledMag (magBits fHalf)
      ≤ scaledMag (magBits fTwo) * scaledMag (magBits fHalf) :=
        Nat.mul_le_mul_right _ (scaledMag_strictMono.monotone hle)
    _ = scaledMag (magBits fOne) * 2 ^ 149 := by decide

/-- Every sample is a bounded sine, or one times a bounded envelope. -/
theorem unitBounded_of_mem_waveform {nm : Num} {o : SynthOperands} (hts : 1 ≤ o.ts.length)
    (hsin : ∀ x, unitBounded (nm.sin x) = true) (hcos : ∀ x, unitBounded (nm.cos x) = true) {x : F32}
    (hx : x ∈ waveform nm o) : unitBounded x = true := by
  have henv (i : Nat) : unitBounded (envelope nm o.n i) = true := unitBounded_half_one_sub (hcos _)
  obtain ⟨k, hk⟩ := List.mem_iff_getElem?.mp hx
  have hlt : k < o.ts.length * o.n := length_waveform nm o ▸ (List.getElem?_eq_some_iff.mp hk).1
  rw [getElem?_waveform nm o hlt, Option.some_inj, shapeSample_eq nm (n_le_length_waveform hts)] at hk
  rw [← hk]
  split_ifs
  · exact unitBounded_fmul (hsin _) (henv _)
  · exact unitBounded_fmul (hsin _) (henv _)
  · exact hsin _

/-! ### The ends of the waveform -/

/-- +0.0 divided by a positive value, finite or not, is +0.0. -/
theorem fdiv_fZero {y : F32} (hnan : isNaN y = false) (hz : isZero y = false) (hs : signBit y = false) :
    fdiv fZero y = fZero := by
  have hround : roundMag (scaledMag (magBits fZero) * 2 ^ 149) (scaledMag (magBits y)) = 0 := by
    rw [show scaledMag (magBits fZero) = 0 by decide, Nat.zero_mul, roundMag_zero]
  have hsign : (signBit fZero != signBit y) = false := by rw [hs]; rfl
  have hfin : isNaN fZero = false ∧ isInf fZero = false := by decide
  simp only [fdiv, hnan, hz, hsign, hround, hfin, Bool.or_false, Bool.false_eq_true, if_false]
  split <;> rfl

/-- A positive number is converted to a positive value, infinity where it is too large. -/
theorem fofNat_pos {r : Nat} (hr : 1 ≤ r) :
    isNaN (fofNat r) = false ∧ isZero (fofNat r) = false ∧ signBit (fofNat r) = false := by
  have hle := roundMag_le (r * 2 ^ 149) 1
  have h31 : roundMag (r * 2 ^ 149) 1 < 2 ^ 31 := hle.trans_lt (by decide)
  have hone : magBits fOne ≤ roundMag (r * 2 ^ 149) 1 := by
    refine le_roundMag_of_le one_pos (by decide) ?_
    rw [scaledMag_fOne]
    omega
  have hpos : 0 < magBits fOne := by decide
  refine ⟨isNaN_mkF32_of_le hle, ?_, signBit_mkF32 _ h31⟩
  rw [fofNat, ← Bool.not_eq_true, isZero_iff, magBits_mkF32 _ h31]
  omega

/-- The envelope starts at +0.0 (spec/43_modulator.md R190, from P1). -/
theorem envelope_zero {nm : Num} (hcos : nm.cos fZero = fOne) {n : Nat} (hn : 8 ≤ n) : envelope nm n 0 = fZero := by
  obtain ⟨hnan, hz, hs⟩ := fofNat_pos (show 1 ≤ rampLength n by unfold rampLength; omega)
  rw [envelope, show fmul PI32 (fofNat 0) = fZero by decide, fdiv_fZero hnan hz hs, hcos]
  decide

section
variable {o : SynthOperands} (hn : 8 ≤ o.n) (hts : 1 ≤ o.ts.length)
include hn hts

theorem head?_waveform : (waveform NUM o).head? = some fZero := by
  have hlw := n_le_length_waveform hts
  rw [List.head?_eq_getElem?, getElem?_waveform NUM o (by omega), shapeSample_eq NUM hlw,
    if_pos (show 0 < rampLength o.n by unfold rampLength; omega), envelope_zero NUM_cos_zero hn, phaseAt, NUM_sin_zero]
  rfl

theorem exists_getLast?_waveform : ∃ z, (waveform NUM o).getLast? = some z ∧ isZero z = true := by
  have hlw := n_le_length_waveform hts
  have hlast : o.ts.length * o.n - 1 - (o.ts.length * o.n - 1) = 0 := Nat.sub_self _
  have hramp : 0 < rampLength o.n := by unfold rampLength; omega
  have hnot : ¬o.ts.length * o.n - 1 < rampLength o.n := by unfold rampLength; omega
  rw [List.getLast?_eq_getElem?, length_waveform, getElem?_waveform NUM o (by omega), shapeSample_eq NUM hlw, if_neg hnot,
    hlast, if_pos hramp, envelope_zero NUM_cos_zero hn]
  exact ⟨_, rfl, isZero_fmul_right rfl (isFinite_of_unitBounded (NUM_sin_bounded _))⟩

end

/-- Settles O47: sines and envelopes are bounded by 1, and the envelope at either end is +0.0. -/
theorem waveformIsBounded : Obligations.WaveformIsBounded :=
  ⟨fun _ _ _ hts hsin hcos _ hx => unitBounded_of_mem_waveform hts hsin hcos hx,
    fun _ hn hts => ⟨head?_waveform hn hts, exists_getLast?_waveform hn hts⟩⟩

end Sys2Proof.Machine
end

section
/-! PROOFS. A command on legal operands leaves the state its effect makes, and a block of equal records is read back record
by record (spec/20_memory.md R62, R63, R68 to R70). -/

namespace Sys2Proof.Machine

theorem exec_eq_completeOk_of_legal {i : Instr} {s : State} {e : Effect} (hparams : ParamsLegal i s)
    (haddr : AddressesLegal i s) (hbody : (commandOf i).body s = .ok e) : exec i s = .next (completeOk e s) := by
  rw [exec_eq_finish, evaluate_eq_body hparams haddr, hbody, finish_ok]

/-- A completion keeps the bytes outside its own block. -/
theorem ldmKept_completeOk_block (e : Effect) (s : State) : LdmKept e.base e.bytes.length s (completeOk e s) :=
  fun _ ha => readByte_completeOk_outside ha s

/-! ### Rows of equal blocks -/

section
variable {α β : Type} {f : α → List β} {w : Nat} (hw : ∀ x, (f x).length = w) {l : List α}
include hw

theorem length_flatMap_of_length_eq : (l.flatMap f).length = w * l.length := by
  simp [List.length_flatMap, hw, mul_comm]

variable {d : Nat} (hd : d < l.length)

/-- Block d of a row of blocks of width w starts at w·d. -/
theorem drop_flatMap : (l.flatMap f).drop (w * d) = f l[d] ++ (l.drop (d + 1)).flatMap f := by
  have hlen : ((l.take d).flatMap f).length = w * d := by
    rw [length_flatMap_of_length_eq hw, List.length_take, Nat.min_eq_left hd.le]
  conv_lhs => rw [← List.take_append_drop d l, List.flatMap_append, List.drop_left' hlen, List.drop_eq_getElem_cons hd]
  rfl

theorem getElem?_flatMap {b : Nat} (hb : b < w) : (l.flatMap f)[w * d + b]? = (f l[d])[b]? := by
  rw [← List.getElem?_drop, drop_flatMap hw hd, List.getElem?_append_left (hb.trans_eq (hw _).symm)]

theorem take_drop_flatMap {o n : Nat} (h : o + n ≤ w) :
    ((l.flatMap f).drop (w * d + o)).take n = ((f l[d]).drop o).take n := by
  have hlen := hw l[d]
  rw [← List.drop_drop, drop_flatMap hw hd, List.drop_append_of_le_length (by omega), List.take_append_of_le_length]
  rw [List.length_drop]
  omega

end

/-! ### Records read back -/

section
variable {α : Type} {e : Effect} {l : List α} {record : α → List Byte} {w : Nat} (he : e.bytes = l.flatMap record)
  (hw : ∀ x, (record x).length = w) {r : Nat} (hr : r < l.length) {o n : Nat} (ho : o + n ≤ w)
include he hw hr ho

theorem readBytes_record (s : State) :
    readBytes (completeOk e s) (e.base + w * r + o) n = ((record l[r]).drop o).take n := by
  have hblock : w * (r + 1) ≤ w * l.length := Nat.mul_le_mul_left w hr
  rw [add_assoc, readBytes_completeOk_inside e s, he, take_drop_flatMap hw hr ho]
  rw [he, length_flatMap_of_length_eq hw]
  linarith

theorem memRead_record {v : Nat} (hv : ((record l[r]).drop o).take n = leBytes n v) (s : State) :
    memRead (completeOk e s) (e.base + w * r + o) n = v % 256 ^ n := by
  rw [memRead, readBytes_record he hw hr ho, hv, leNat_leBytes]

end

/-- Stream bits of packed bits anywhere in LDM (spec/20_memory.md R63). -/
theorem bitRead_of_readBytes {s : State} {a n i : Nat} {bits : List Bool} (h : readBytes s a n = packBits n bits)
    (hi : i < 8 * n) : bitRead s a i = bits.getD i false := by
  have hbyte : readByte s (a + i / 8) = (readBytes s a n).getD (i / 8) 0 := by
    simp [readBytes, show i / 8 < n by omega]
  rw [bitRead, hbyte, h, byteBit_packBits _ hi]

theorem readBits_of_readBytes {s : State} {a n m : Nat} {bits : List Bool} (h : readBytes s a n = packBits n bits)
    (hlen : bits.length = m) (hm : m ≤ 8 * n) : readBits s a m = bits := by
  refine eq_of_getD_eq (by rw [length_readBits, hlen]) fun k hk => ?_
  rw [length_readBits] at hk
  rw [getD_readBits _ _ hk, bitRead_of_readBytes h (by omega)]

/-- Nspsym of a legal TSYM is shown whole in NSPSYM (spec/43_modulator.md R186). -/
theorem toNat_toWord_nspsymOf {i : Instr} {s : State} (h : LegalParam i s .tsym) :
    (toWord (nspsymOf s)).toNat = nspsymOf s := by
  obtain ⟨-, hpos, -, hhi⟩ := h
  rw [exactNspsym_eq hpos] at hhi
  exact (BitVec.toNat_ofNat _ _).trans (Nat.mod_eq_of_lt (by omega))

end Sys2Proof.Machine
end

section
/-! PROOFS. SPECTROGRAM (spec/44_demodulator.md R210 to R214): the waterfall element by element, and silence. -/

namespace Sys2Proof.Machine

/-! ### The waterfall, element by element -/

/-- The sum of a column from +0.0, row by row. -/
def columnSum (rows : Nat) (g : Nat → F32) : F32 := (List.range rows).foldl (fun acc q => fadd acc (g q)) fZero

/-- mu of a column (spec/44_demodulator.md R213). -/
def columnMean (rows : Nat) (y : Nat → F32) : F32 := fdiv (columnSum rows y) (fofNat rows)

/-- sigma of a column (spec/44_demodulator.md R213). -/
def columnSigma (rows : Nat) (y : Nat → F32) : F32 :=
  fsqrt (fdiv (columnSum rows fun q => fmul (fsub (y q) (columnMean rows y)) (fsub (y q) (columnMean rows y))) (fofNat rows))

/-- Element r of a standardised column, by the two branches of spec/44_demodulator.md R213. -/
theorem getElem?_standardise (y : Nat → F32) {rows r : Nat} (hr : r < rows) :
    (standardise ((List.range rows).map y))[r]? =
      some (if ((List.range rows).all fun q => feq (y q) (y 0)) || feq (columnSigma rows y) fZero then fZero
        else fdiv (fsub (y r) (columnMean rows y)) (columnSigma rows y)) := by
  have hhead : ((List.range rows).map y).headD fZero = y 0 := by
    obtain ⟨rows, rfl⟩ := Nat.exists_eq_add_of_lt (Nat.zero_lt_of_lt hr)
    simp [List.range_succ_eq_map]
  have hmean : fdiv (fsum ((List.range rows).map y)) (fofNat rows) = columnMean rows y := by
    rw [fsum, List.foldl_map]
    rfl
  have hsigma : fsqrt (fdiv
      (((List.range rows).map y).foldl
        (fun acc z => fadd acc (fmul (fsub z (columnMean rows y)) (fsub z (columnMean rows y)))) fZero)
      (fofNat rows)) = columnSigma rows y := by
    rw [List.foldl_map]
    rfl
  simp only [standardise, hhead, List.length_map, List.length_range, hmean, hsigma, List.all_map, Function.comp_def]
  cases (List.range rows).all fun q => feq (y q) (y 0) <;> cases feq (columnSigma rows y) fZero <;> simp [hr]

section
variable (nm : Num) (nfft hop : Nat) (smp : List F32)

/-- The waterfall is row-major by time (spec/44_demodulator.md R214). -/
theorem getElem?_waterfall {r f : Nat} (hr : r < frameCount smp.length hop) (hf : f < binCount nfft) :
    (waterfall nm nfft hop smp)[binCount nfft * r + f]? =
      (standardise ((List.range (frameCount smp.length hop)).map fun q =>
        logPower nm (frame nm nfft hop smp q) f))[r]? := by
  have hcol (ys : List F32) (hys : r < ys.length) : some (ys.getD r fZero) = ys[r]? := by simp [hys]
  rw [waterfall, getElem?_flatMap (fun _ => by simp) (by simpa using hr) hf]
  simp only [waterfallColumns, List.map_map, List.getElem_range, List.getElem?_map, List.getElem?_range hf, Option.map_some,
    Function.comp_apply]
  refine hcol _ ?_
  have := getElem?_standardise (fun q => logPower nm (frame nm nfft hop smp q) f) hr
  exact (List.getElem?_eq_some_iff.mp this).1

end

/-! ### SPECTROGRAM -/

/-- What SPECTROGRAM collects. -/
def spectrogramEffect (nm : Num) (s : State) : Effect :=
  { base := dst s, bytes := f32Bytes (waterfall nm (nfft s) (nstep s) (f32Array s (src s) (len s)))
    result0 := some (toWord (frameCount (len s) (nstep s))), result1 := some (toWord (binCount (nfft s)))
    wf := some
      { addr := s.csr.dstAddr, t := toWord (frameCount (len s) (nstep s)), f := toWord (binCount (nfft s))
        binhz := fdiv (fofNat (fs s)) (fofNat (nfft s)), steps := fdiv (fofNat (nstep s)) (fofNat (fs s)) } }

theorem cmdSpectrogram_body_eq {nm : Num} {s : State} (h : ∀ k < len s, isFinite (f32Read s (src s + 4 * k)) = true) :
    (cmdSpectrogram nm).body s = .ok (spectrogramEffect nm s) := by
  have hnone : firstIndex (fun x => !isFinite x) (f32Array s (src s) (len s)) = none :=
    firstIndex_map_range fun k hk => by simpa using h k hk
  simp only [cmdSpectrogram, hnone]
  rfl

/-- Frame r of the samples in LDM (spec/44_demodulator.md R211). -/
theorem frame_f32Array (nm : Num) (s : State) (r : Nat) :
    frame nm (nfft s) (nstep s) (f32Array s (src s) (len s)) r = (List.range (nfft s)).map fun n =>
      if r * nstep s + n < len s then fmul (hann nm (nfft s) n) (f32Read s (src s + 4 * (r * nstep s + n))) else fZero := by
  refine List.map_congr_left fun n _ => ?_
  rw [length_f32Array]
  split
  · next hn => simp [f32Array, hn]
  · rfl

/-- An effect that writes the registers of SPECTROGRAM's row (spec/30_encoding.md R100). -/
theorem applyCsrs_of_wf {e : Effect} {c : Csrs} {r0 r1 a t f : Word} {bin step : F32} (h0 : e.result0 = some r0)
    (h1 : e.result1 = some r1) (hn : e.nspsym = none) (hw : e.wf = some ⟨a, t, f, bin, step⟩) :
    e.applyCsrs c =
      { c with result0 := r0, result1 := r1, wfAddr := a, wfT := t, wfF := f, binhz := bin, steps := step } := by
  simp [Effect.applyCsrs, h0, h1, hn, hw]

/-- The element of the waterfall at row r and bin f, read back (spec/44_demodulator.md R213, R214). -/
theorem memRead_spectrogram (nm : Num) (s : State) {r f : Nat} (hr : r < frameCount (len s) (nstep s))
    (hf : f < binCount (nfft s)) {y : Nat → F32}
    (hy : ∀ q, y q = logPower nm (frame nm (nfft s) (nstep s) (f32Array s (src s) (len s)) q) f) :
    memRead (completeOk (spectrogramEffect nm s) s) (dst s + 4 * (r * binCount (nfft s) + f)) 4 =
      BitVec.toNat
        (if ((List.range (frameCount (len s) (nstep s))).all fun q => feq (y q) (y 0))
            || feq (columnSigma (frameCount (len s) (nstep s)) y) fZero then fZero
          else fdiv (fsub (y r) (columnMean (frameCount (len s) (nstep s)) y))
            (columnSigma (frameCount (len s) (nstep s)) y)) := by
  have helem := getElem?_waterfall nm (nfft s) (nstep s) (f32Array s (src s) (len s)) (r := r) (f := f)
    (by rwa [length_f32Array]) hf
  simp only [length_f32Array, ← hy] at helem
  rw [mul_comm (binCount _), getElem?_standardise y hr] at helem
  refine (memRead_completeOk_f32Bytes (e := spectrogramEffect nm s) rfl s (List.getElem?_eq_some_iff.mp helem).1).trans ?_
  rw [List.getD_eq_getElem?_getD, helem, Option.getD_some]

/-- Settles O48: the bytes are the waterfall, whose columns are standardised log powers of the frames. -/
theorem spectrogramCommand : Obligations.SpectrogramCommand := by
  intro s hparams haddr hdata rows cols smp window x y
  have hbody : (commandOf .spectrogram).body s = .ok (spectrogramEffect NUM s) :=
    cmdSpectrogram_body_eq fun k hk => by simpa [BadDatum, hk] using hdata k
  have hpower (q f : Nat) :
      y q f = logPower NUM (frame NUM (nfft s) (nstep s) (f32Array s (src s) (len s)) q) f := by
    simp only [logPower, frame_f32Array, hann, y, x, window, smp]
  have hkept := ldmKept_completeOk hbody
  rw [writtenSize, mul_assoc] at hkept
  exact ⟨_, exec_eq_completeOk_of_legal hparams haddr hbody, completes_completeOk _ s, hkept,
    fun r f hr hf => memRead_spectrogram NUM s hr hf fun q => hpower q f,
    applyCsrs_of_wf (e := spectrogramEffect NUM s) rfl rfl rfl rfl⟩

/-! ### Silence -/

theorem fmul_fZero_of_nonneg {x : F32} (hx : isFinite x = true) (hs : signBit x = false) : fmul x fZero = fZero := by
  rw [fmul_of_finite hx rfl, hs, show scaledMag (magBits fZero) = 0 by decide, Nat.mul_zero, roundMag_zero]
  rfl

theorem fmul_self_of_isZero {x : F32} (hx : isZero x = true) : fmul x x = fZero := by
  have hfin := isFinite_of_isZero hx
  rw [fmul_of_finite hfin hfin, bne_self_eq_false, isZero_iff.mp hx, scaledMag_zero, Nat.zero_mul, roundMag_zero]
  rfl

/-- A square of a finite value has no sign. -/
theorem signBit_fmul_self {x : F32} (hx : isFinite x = true) : signBit (fmul x x) = false := by
  rw [fmul_of_finite hx hx, bne_self_eq_false]
  exact signBit_mkF32 _ ((roundMag_le _ _).trans_lt (by decide))

section
variable {nm : Num} (hnm : NumProps nm)
include hnm

theorem fmul_hann_fZero (nfft n : Nat) : fmul (hann nm nfft n) fZero = fZero :=
  have hsin := hnm.p3_sin (fdiv (fmul PI32 (fofNat n)) (fofNat nfft))
  fmul_fZero_of_nonneg (isFinite_of_unitBounded (unitBounded_fmul hsin hsin))
    (signBit_fmul_self (isFinite_of_unitBounded hsin))

theorem eq_fZero_of_mem_frame_silence {nfft hop count t : Nat} :
    ∀ x ∈ frame nm nfft hop (List.replicate count fZero) t, x = fZero := by
  intro x hx
  obtain ⟨n, -, rfl⟩ := List.mem_map.mp hx
  split
  · next h =>
    rw [List.length_replicate] at h
    rw [List.getD_replicate _ h, fmul_hann_fZero hnm]
  · rfl

/-- The log power of a frame of +0.0 is that of EPS6, by P4. -/
theorem logPower_of_zeros {x : List F32} (hx : ∀ z ∈ x, z = fZero) (f : Nat) : logPower nm x f = nm.log10 EPS6 := by
  obtain ⟨hre, him⟩ := hnm.p4_fft x hx f
  rw [logPower, fmul_self_of_isZero hre, fmul_self_of_isZero him, show fadd (fadd fZero fZero) EPS6 = EPS6 by decide]

end

theorem feq_self {x : F32} (h : isNaN x = false) : feq x x = true := by simp [feq, h]

/-- A column of one number throughout is standardised to +0.0 (spec/44_demodulator.md R213). -/
theorem standardise_of_constant {ys : List F32} {c : F32} (hc : isNaN c = false) (h : ∀ y ∈ ys, y = c) :
    ∀ z ∈ standardise ys, z = fZero := by
  have hall : (ys.all fun y => feq y (ys.headD fZero)) = true := by
    cases ys with
    | nil => rfl
    | cons a ys =>
      rw [List.all_eq_true]
      intro y hy
      rw [h y hy, List.headD_cons, h a List.mem_cons_self, feq_self hc]
  rw [standardise, if_pos hall]
  simp

/-- Settles O49: every frame of silence is a frame of +0.0, so that every column is one number throughout. -/
theorem silenceGivesAZeroWaterfall : Obligations.SilenceGivesAZeroWaterfall := by
  intro nm nfftLen hop count hnm hlog v hv
  obtain ⟨t, -, hv⟩ := List.mem_flatMap.mp hv
  obtain ⟨col, hcol, rfl⟩ := List.mem_map.mp hv
  obtain ⟨f, -, rfl⟩ := List.mem_map.mp hcol
  rcases getD_eq_default_or_mem (standardise _) t fZero with h | h
  · exact h
  · refine standardise_of_constant hlog (fun y hy => ?_) _ h
    simp only [List.mem_map] at hy
    obtain ⟨x, ⟨q, -, rfl⟩, rfl⟩ := hy
    exact logPower_of_zeros hnm (eq_fZero_of_mem_frame_silence hnm) f

end Sys2Proof.Machine
end

section
/-! PROOFS. The search grid (spec/44_demodulator.md R215 to R217): the model's integer quotients are the rounded ratios and
bounds of the rules. -/

namespace Sys2Proof.Machine

/-! ### Quotients on exact rationals -/

theorem floor_div_add_half (a : Nat) {b : Nat} (hb : 1 ≤ b) : ⌊(a : ℚ) / b + 1 / 2⌋ = ((2 * a + b) / (2 * b) : ℕ) := by
  have hb' : (b : ℚ) ≠ 0 := Nat.cast_ne_zero.mpr (by omega)
  have hsum : (a : ℚ) / b + 1 / 2 = ((2 * a + b : ℕ) : ℚ) / (2 * b : ℕ) := by
    push_cast
    field_simp
  rw [hsum, Rat.floor_natCast_div_natCast]
  rfl

theorem timeIndex_eq_floor {g : Grid} (h : 1 ≤ g.nstep) (u : Nat) :
    (timeIndex g u : ℤ) = ⌊(u * g.n : ℚ) / g.nstep + 1 / 2⌋ := by
  rw [timeIndex, mul_assoc, ← floor_div_add_half _ h, Nat.cast_mul]

theorem binOffset_eq_floor {g : Grid} (h : 1 ≤ g.n) (k : Nat) :
    (binOffset g k : ℤ) = ⌊(k * g.nfft : ℚ) / g.n + 1 / 2⌋ := by
  rw [binOffset, mul_assoc, ← floor_div_add_half _ h, Nat.cast_mul]

theorem ceilQuotient_le_iff {a b c : Nat} (hb : 1 ≤ b) : (a + b - 1) / b ≤ c ↔ ⌈(a : ℚ) / b⌉ ≤ (c : ℤ) := by
  have hb' : (0 : ℚ) < b := Nat.cast_pos.mpr hb
  rw [← Nat.ceilDiv_eq_add_pred_div, ceilDiv_le_iff_le_mul hb, Int.ceil_le, div_le_iff₀ hb', mul_comm b]
  norm_cast

/-! ### Membership -/

/-- The rows below T are those of the symbols R217 counts. -/
theorem lt_symbolsInside_iff {g : Grid} (hn : 1 ≤ g.n) (hstep : 1 ≤ g.nstep) (ht : 1 ≤ g.t) {u : Nat} :
    u < symbolsInside g ↔ timeIndex g u < g.t := by
  refine ⟨timeIndex_lt_of_lt_symbolsInside, fun h => ?_⟩
  rw [symbolsInside, Nat.lt_iff_add_one_le, Nat.le_div_iff_mul_le (by omega)]
  obtain ⟨t, ht⟩ := Nat.exists_eq_add_of_le' ht
  rw [timeIndex, Nat.div_lt_iff_lt_mul (by omega), ht] at h
  rw [ht, show 2 * (t + 1) - 1 = 2 * t + 1 by omega]
  have hsplit : (t + 1) * (2 * g.nstep) = g.nstep * (2 * t + 1) + g.nstep := by ring
  have hnext : (u + 1) * (2 * g.n) = 2 * u * g.n + 2 * g.n := by ring
  omega

theorem mem_gridPoints_iff {g : Grid} {md : Mode} {rate fmin fmax n f0 : Nat} :
    (n, f0) ∈ gridPoints g md rate fmin fmax ↔
      n + symbols md - 1 < symbolsInside g ∧ lowBin g rate fmin ≤ f0 ∧ f0 < highBin g md rate fmax := by
  have hsymbols : 1 ≤ symbols md := by cases md <;> decide
  simp only [gridPoints, timeOrigins, List.mem_flatMap, List.mem_map, List.mem_range, List.mem_range'_1, Prod.mk.injEq]
  constructor
  · rintro ⟨n, hn, f0, hf0, rfl, rfl⟩
    omega
  · intro h
    exact ⟨n, by omega, f0, by omega, rfl, rfl⟩

theorem lowBin_le_iff {g : Grid} {rate fmin f0 : Nat} (hrate : 1 ≤ rate) :
    lowBin g rate fmin ≤ f0 ↔ max 2 ⌈(fmin * g.nfft : ℚ) / rate⌉ ≤ (f0 : ℤ) := by
  rw [lowBin, max_le_iff, max_le_iff, ceilQuotient_le_iff hrate, Nat.cast_mul, Nat.ofNat_le_cast]

theorem lt_highBin_iff {g : Grid} {md : Mode} {rate fmax f0 : Nat} :
    f0 < highBin g md rate fmax ↔
      (f0 : ℤ) ≤ min ((g.f : ℤ) - 3 - binOffset g (toneCount md - 1))
        (⌊(fmax * g.nfft : ℚ) / rate⌋ - binOffset g (toneCount md - 1)) := by
  have hfloor : ⌊(fmax * g.nfft : ℚ) / rate⌋ = ((fmax * g.nfft / rate : ℕ) : ℤ) := by
    rw [← Nat.cast_mul, Rat.floor_natCast_div_natCast]
    rfl
  rw [highBin, lt_min_iff, le_min_iff, hfloor]
  omega

/-! ### Order -/

/-- (n, f0) stands before another pair in lexicographic order. -/
def LexBefore (a b : Nat × Nat) : Prop := a.1 < b.1 ∨ a.1 = b.1 ∧ a.2 < b.2

theorem pairwise_gridPoints (g : Grid) (md : Mode) (rate fmin fmax : Nat) :
    (gridPoints g md rate fmin fmax).Pairwise LexBefore := by
  refine List.pairwise_flatMap.mpr ⟨fun n _ => ?_, List.pairwise_lt_range.imp fun hlt a ha b hb => ?_⟩
  · exact List.pairwise_map.mpr ((List.pairwise_lt_range' _).imp fun hlt => .inr ⟨rfl, hlt⟩)
  · obtain ⟨_, -, rfl⟩ := List.mem_map.mp ha
    obtain ⟨_, -, rfl⟩ := List.mem_map.mp hb
    exact .inl hlt

/-- Settles O50: membership is three bounds, each of them one of the rule. -/
theorem searchGrid : Obligations.SearchGrid := by
  intro g md rate fmin fmax hn hstep ht hrate
  refine ⟨timeIndex_eq_floor hstep, binOffset_eq_floor hn, fun n f0 => ?_, pairwise_gridPoints g md rate fmin fmax,
    fun p hp => validCandidate_iff.mp (validCandidate_of_mem_gridPoints hp)⟩
  rw [mem_gridPoints_iff, lt_symbolsInside_iff hn hstep ht, lowBin_le_iff hrate, lt_highBin_iff, Int.le_sub_one_iff,
    Nat.cast_lt]

end Sys2Proof.Machine
end

section
/-! PROOFS. The candidates of SYNC_SEARCH (spec/44_demodulator.md R218 to R220): the sorted list holds the kept points of
the grid, and the score is the sum of the rule. -/

namespace Sys2Proof.Machine

/-! ### The order of the list -/

/-- a stands before b in the list, in the words of spec/44_demodulator.md R220. -/
def Listed (a b : Scored) : Prop :=
  fgt a.score b.score = true ∨ feq a.score b.score = true ∧ (a.n < b.n ∨ a.n = b.n ∧ a.f0 < b.f0)

theorem listedBefore_iff {a b : Scored} : listedBefore a b = true ↔ Listed a b := by
  simp [listedBefore, lexBefore, Listed]

/-- The order compares numbers, by the keys of the scores and then by position. -/
theorem listed_iff {a b : Scored} :
    Listed a b ↔ (isNaN a.score = false ∧ isNaN b.score = false)
      ∧ (orderKey b.score < orderKey a.score
        ∨ orderKey a.score = orderKey b.score ∧ (a.n < b.n ∨ a.n = b.n ∧ a.f0 < b.f0)) := by
  cases ha : isNaN a.score <;> cases hb : isNaN b.score <;> simp [Listed, fgt, flt, feq, ha, hb]

theorem Listed.trans {a b c : Scored} (hab : Listed a b) (hbc : Listed b c) : Listed a c := by
  rw [listed_iff] at *
  obtain ⟨⟨ha, -⟩, hab⟩ := hab
  obtain ⟨⟨-, hc⟩, hbc⟩ := hbc
  exact ⟨⟨ha, hc⟩, by omega⟩

/-- Numbers at different positions are listed one way or the other. -/
theorem listed_or_listed {a b : Scored} (ha : isNaN a.score = false) (hb : isNaN b.score = false)
    (hne : LexBefore (a.n, a.f0) (b.n, b.f0)) : Listed a b ∨ Listed b a := by
  rw [listed_iff, listed_iff]
  simp only [ha, hb, true_and]
  unfold LexBefore at hne
  omega

/-! ### Insertion sort -/

theorem insertCandidate_perm (a : Scored) (l : List Scored) : (insertCandidate a l).Perm (a :: l) := by
  induction l with
  | nil => exact .refl _
  | cons b l ih =>
    rw [insertCandidate]
    split
    · exact .refl _
    · exact (ih.cons b).trans (.swap a b l)

theorem sortCandidates_perm (l : List Scored) : (sortCandidates l).Perm l := by
  induction l with
  | nil => exact .refl _
  | cons a l ih => exact (insertCandidate_perm a _).trans (ih.cons a)

theorem pairwise_insertCandidate {a : Scored} {l : List Scored} (hl : l.Pairwise Listed)
    (htotal : ∀ b ∈ l, Listed a b ∨ Listed b a) : (insertCandidate a l).Pairwise Listed := by
  induction l with
  | nil => exact List.pairwise_singleton _ _
  | cons b l ih =>
    obtain ⟨hb, hl'⟩ := List.pairwise_cons.mp hl
    rw [List.forall_mem_cons] at htotal
    by_cases hab : Listed a b
    · rw [insertCandidate, if_pos (listedBefore_iff.mpr hab)]
      exact List.pairwise_cons.mpr ⟨List.forall_mem_cons.mpr ⟨hab, fun c hc => hab.trans (hb c hc)⟩, hl⟩
    · rw [insertCandidate, if_neg (mt listedBefore_iff.mp hab)]
      refine List.pairwise_cons.mpr ⟨fun c hc => ?_, ih hl' htotal.2⟩
      rcases List.mem_cons.mp ((insertCandidate_perm a l).mem_iff.mp hc) with rfl | hc
      · exact htotal.1.resolve_left hab
      · exact hb c hc

theorem pairwise_sortCandidates {l : List Scored} (htotal : l.Pairwise fun a b => Listed a b ∨ Listed b a) :
    (sortCandidates l).Pairwise Listed := by
  induction l with
  | nil => exact .nil
  | cons a l ih =>
    obtain ⟨ha, hl⟩ := List.pairwise_cons.mp htotal
    exact pairwise_insertCandidate (ih hl) fun b hb => ha b ((sortCandidates_perm l).mem_iff.mp hb)

/-! ### The kept points -/

theorem kept_iff {thresh : F32} {all : List Scored} {a : Scored} :
    kept thresh all a = true ↔ fgt a.score thresh = true
      ∧ ∀ b ∈ all, (b.n, b.f0) ≠ (a.n, a.f0) → b.n ≤ a.n + 1 → a.n ≤ b.n + 1 → b.f0 ≤ a.f0 + 1 → a.f0 ≤ b.f0 + 1 →
          fgt b.score a.score = false ∧ (feq b.score a.score = true → ¬(b.n < a.n ∨ b.n = a.n ∧ b.f0 < a.f0)) := by
  have hbeats (b : Scored) : beats b a = true ↔
      ¬(fgt b.score a.score = false ∧ (feq b.score a.score = true → ¬(b.n < a.n ∨ b.n = a.n ∧ b.f0 < a.f0))) := by
    rw [beats, lexBefore, Bool.or_eq_true, Bool.and_eq_true, decide_eq_true_eq, ← Bool.not_eq_true]
    tauto
  have hnear (b : Scored) : neighbours b a = true ↔ (b.n, b.f0) ≠ (a.n, a.f0)
      ∧ b.n ≤ a.n + 1 ∧ a.n ≤ b.n + 1 ∧ b.f0 ≤ a.f0 + 1 ∧ a.f0 ≤ b.f0 + 1 := by
    simp only [neighbours, decide_eq_true_eq, ne_eq, Prod.mk.injEq]
    omega
  rw [kept, Bool.and_eq_true, Bool.not_eq_true', List.any_eq_false]
  refine and_congr_right fun _ => forall₂_congr fun b _ => ?_
  rw [Bool.and_eq_true, hnear, hbeats, not_and_not_right]
  tauto

section
variable {md : Mode} {s : State}

theorem mem_keptCandidates_iff {a : Scored} :
    a ∈ keptCandidates md s ↔ a ∈ scoredGrid md s ∧ kept s.csr.syncThresh (scoredGrid md s) a = true :=
  (sortCandidates_perm _).mem_iff.trans List.mem_filter

/-- A score above a threshold is a number, and grid points stand at different positions. -/
theorem pairwise_keptCandidates (md : Mode) (s : State) : (keptCandidates md s).Pairwise Listed := by
  refine pairwise_sortCandidates ?_
  have hgrid : (scoredGrid md s).Pairwise fun a b => LexBefore (a.n, a.f0) (b.n, b.f0) :=
    List.pairwise_map.mpr (pairwise_gridPoints _ _ _ _ _)
  have hnum {a : Scored} (ha : a ∈ (scoredGrid md s).filter (kept s.csr.syncThresh (scoredGrid md s))) :
      isNaN a.score = false := by
    obtain ⟨habove, -⟩ := kept_iff.mp (List.mem_filter.mp ha).2
    by_contra hnan
    rw [fgt, flt_of_isNaN (.inr (Bool.not_eq_false _ ▸ hnan))] at habove
    cases habove
  exact (hgrid.filter _).imp_of_mem fun ha hb hlex => listed_or_listed (hnum ha) (hnum hb) hlex

end

/-! ### The score -/

theorem mapIdx_eq_map_range {α : Type} (l : List Nat) (f : Nat → Nat → α) :
    l.mapIdx f = (List.range l.length).map fun k => f k (l.getD k 0) :=
  List.ext_getElem (by simp) fun k hk _ => by
    rw [List.length_mapIdx] at hk
    simp [hk]

/-- The sync symbols of a frame are those of its blocks, in order (spec/44_demodulator.md R218). -/
theorem foldl_syncSymbols {α : Type} (tb : Tables) (md : Mode) (f : α → Nat → Nat → α) (a : α) :
    (syncSymbols tb md).foldl (fun acc uc => f acc uc.1 uc.2) a =
      (syncBlocks tb md).foldl
        (fun acc b => (List.range b.2.length).foldl (fun acc k => f acc (b.1 + k) (b.2.getD k 0)) acc) a := by
  simp only [syncSymbols, List.foldl_flatMap, mapIdx_eq_map_range, List.foldl_map]

theorem syncScore_eq (g : Grid) (md : Mode) (tb : Tables) (mag : Nat → Nat → F32) (p : Nat × Nat) :
    syncScore g md tb mag p =
      fdiv
        ((syncBlocks tb md).foldl
          (fun acc b => (List.range b.2.length).foldl
            (fun acc k => fadd acc (syncTerm g md mag p.2 (timeIndex g (p.1 + (b.1 + k))) (b.2.getD k 0))) acc)
          fZero)
        (fofNat (syncCount md)) :=
  congrArg (fdiv · _) (foldl_syncSymbols tb md (fun acc u c => fadd acc (syncTerm g md mag p.2 (timeIndex g (p.1 + u)) c)) _)

/-- The blocks of FT4 have the tones of legal tables (spec/43_modulator.md R181). -/
theorem syncBlocks_ft4 {tb : Tables} (htb : Ft4Legal tb) :
    syncBlocks tb .ft4 = (List.range 4).map fun b => (1 + 33 * b, tb.ft4Costas.getD b []) := by
  refine Eq.trans (b := (List.range 4).map fun b => (1 + 33 * b, ft4Costas tb b)) rfl (List.map_congr_left fun b hb => ?_)
  rw [ft4Costas_eq_getD htb (List.mem_range.mp hb)]

/-- The sum over the other tones skips the symbol's own (spec/44_demodulator.md R218). -/
theorem syncTerm_eq (g : Grid) (md : Mode) (mag : Nat → Nat → F32) (f0 t c : Nat) :
    syncTerm g md mag f0 t c =
      fsub (mag t (f0 + binOffset g c))
        (fdiv
          (((List.range (toneCount md)).filter fun k => k ≠ c).foldl
            (fun off k => fadd off (mag t (f0 + binOffset g k))) fZero)
          (fofNat (toneCount md - 1))) := by
  have hskip : (fun (off : F32) k => if k = c then off else fadd off (mag t (f0 + binOffset g k))) =
      fun off k => if decide (k ≠ c) = true then fadd off (mag t (f0 + binOffset g k)) else off := by
    funext off k
    by_cases h : k = c <;> simp [h]
  simp only [syncTerm, binIndex, List.foldl_filter, hskip]

/-- Settles O51: the list is a sorted permutation of the kept points, and scores are sums over blocks. -/
theorem keptCandidatesAreTheLocalMaxima : Obligations.KeptCandidatesAreTheLocalMaxima := by
  refine fun md s => ⟨fun a => mem_keptCandidates_iff.trans (and_congr_right fun _ => kept_iff), pairwise_keptCandidates md s,
    fun htb => ?_⟩
  simp only [scoredGrid, syncScore_eq, syncTerm_eq]
  cases md with
  | ft8 => rfl
  | ft4 =>
    rw [syncBlocks_ft4 (htb rfl)]
    rfl

end Sys2Proof.Machine
end

section
/-! PROOFS. SYNC_SEARCH (spec/44_demodulator.md R221): the records written are those of the first kept points. -/

namespace Sys2Proof.Machine

/-- An effect that writes no waterfall register changes RESULT0, RESULT1 and NSPSYM at most. -/
theorem applyCsrs_of_no_wf {e : Effect} (h : e.wf = none) (c : Csrs) :
    e.applyCsrs c =
      { c with
        result0 := (e.applyCsrs c).result0, result1 := (e.applyCsrs c).result1, nspsym := (e.applyCsrs c).nspsym } := by
  simp [Effect.applyCsrs, h]

/-- What SYNC_SEARCH collects. -/
def syncSearchEffect (md : Mode) (s : State) : Effect :=
  { base := dst s, bytes := ((keptCandidates md s).take (maxCand s)).flatMap (candidateRecord (gridOf s))
    result0 := some (toWord ((keptCandidates md s).take (maxCand s)).length)
    result1 := some (toWord (keptCandidates md s).length), nspsym := some (toWord (nspsymOf s)) }

section
variable {md : Mode} {s : State}

theorem body_syncSearch (md : Mode) (s : State) :
    (commandOf (syncSearchOf md)).body s = .ok (syncSearchEffect md s) := by
  cases md <;> rfl

theorem length_bytes_syncSearch :
    (syncSearchEffect md s).bytes.length = 16 * min (keptCandidates md s).length (maxCand s) := by
  rw [syncSearchEffect, length_flatMap_of_length_eq (length_candidateRecord _), List.length_take, min_comm]

/-- A kept point is a valid candidate of a waterfall whose width is a register, so that its bin fits a word. -/
theorem f0_lt_of_mem_keptCandidates {a : Scored} (ha : a ∈ keptCandidates md s) : a.f0 < 2 ^ 32 := by
  obtain ⟨p, hp, rfl⟩ := List.mem_map.mp (mem_keptCandidates_iff.mp ha).1
  have hbin := binIndex_lt_of_valid (validCandidate_of_mem_gridPoints hp) (toneCount_pos md)
  have hwidth : (gridOf s).f < 2 ^ 32 := s.csr.wfF.isLt
  simp only [binIndex] at hbin
  dsimp only
  omega

/-- Record r holds the fields of kept point r (spec/20_memory.md R69). -/
theorem memRead_syncSearch {r : Nat} {a : Scored} (hr : r < min (keptCandidates md s).length (maxCand s))
    (ha : (keptCandidates md s)[r]? = some a) {o v : Nat} (ho : o + 4 ≤ 16)
    (hv : ((candidateRecord (gridOf s) a).drop o).take 4 = leBytes 4 v) :
    memRead (completeOk (syncSearchEffect md s) s) (dst s + 16 * r + o) 4 = v % 2 ^ 32 := by
  obtain ⟨hlt, rfl⟩ := List.getElem?_eq_some_iff.mp ha
  have hlen : r < ((keptCandidates md s).take (maxCand s)).length := by rwa [List.length_take, min_comm]
  exact memRead_record (e := syncSearchEffect md s) rfl (length_candidateRecord _) hlen ho (by rwa [List.getElem_take]) s

end

/-- Settles O52: the bytes are the records of the listed points, each of 16 bytes. -/
theorem syncSearchCommand : Obligations.SyncSearchCommand := by
  intro md s hparams haddr kept count
  have hkept := ldmKept_completeOk_block (syncSearchEffect md s) s
  rw [length_bytes_syncSearch] at hkept
  have hmax : LegalParam (syncSearchOf md) s .maxCand := hparams _ (by cases md <;> decide)
  have htsym : LegalParam (syncSearchOf md) s .tsym := hparams _ (by cases md <;> decide)
  have hcount : (toWord (kept.take (maxCand s)).length).toNat = count := by
    rw [List.length_take, min_comm]
    exact (BitVec.toNat_ofNat _ _).trans (Nat.mod_eq_of_lt ((min_le_right _ _).trans_lt (hmax.2.trans_lt (by decide))))
  refine ⟨_, exec_eq_completeOk_of_legal hparams haddr (body_syncSearch md s), completes_completeOk _ s, hkept,
    applyCsrs_of_no_wf rfl s.csr, hcount, rfl, toNat_toWord_nspsymOf htsym, fun r a hr ha => ⟨?_, ?_, ?_, ?_⟩⟩
  · exact memRead_syncSearch (o := 0) hr ha (by decide) rfl
  · exact memRead_syncSearch hr ha (by decide) rfl
  · rw [memRead_syncSearch (o := 8) hr ha (by decide) rfl]
    exact Nat.mod_eq_of_lt (f0_lt_of_mem_keptCandidates (List.mem_of_getElem? ha))
  · rw [memRead_syncSearch (o := 12) hr ha (by decide) rfl]
    exact Nat.mod_eq_of_lt a.score.isLt

end Sys2Proof.Machine
end

section
/-! PROOFS. Soft LLRs (spec/44_demodulator.md R222 to R225): bit by bit the metric of the rule, for LLR_EXTRACT and for
DECODE, and what an isolated tone gives. -/

namespace Sys2Proof.Machine

/-! ### One bit -/

/-- The LLR of a bit position of a symbol value, from the magnitude y(v) of each value's tone, as spec/44_demodulator.md
R222 to R224 write it. -/
def ruleBitLlr (nm : Num) (md : Mode) (mt : Metric) (sc : F32) (y : Nat → F32) (bit : Nat) : F32 :=
  let z := fun v => fmul sc (y v)
  let v0 := (List.range (toneCount md)).filter fun v => v / 2 ^ bit % 2 = 0
  let v1 := (List.range (toneCount md)).filter fun v => v / 2 ^ bit % 2 = 1
  let total := fun vs : List Nat => vs.foldl (fun acc v => fadd acc (nm.exp (fsub (z v) (seqmax (vs.map z))))) fZero
  match mt with
  | .lse => fsub (fadd (seqmax (v0.map z)) (nm.log (total v0))) (fadd (seqmax (v1.map z)) (nm.log (total v1)))
  | .max => fmul sc (fsub (seqmax (v0.map y)) (seqmax (v1.map y)))

theorem valuesWithBit_false (md : Mode) (b : Nat) :
    valuesWithBit md b false =
      (List.range (toneCount md)).filter fun v => v / 2 ^ (bitsPerSymbol md - 1 - b) % 2 = 0 := by
  refine List.filter_congr fun v _ => ?_
  rw [Nat.testBit_eq_decide_div_mod_eq, Bool.eq_iff_iff]
  simp

theorem valuesWithBit_true (md : Mode) (b : Nat) :
    valuesWithBit md b true =
      (List.range (toneCount md)).filter fun v => v / 2 ^ (bitsPerSymbol md - 1 - b) % 2 = 1 := by
  refine List.filter_congr fun v _ => ?_
  rw [Nat.testBit_eq_decide_div_mod_eq, beq_true]

theorem bitLlr_eq_rule (nm : Num) (md : Mode) (mt : Metric) (sc : F32) (y : Nat → F32) (b : Nat) :
    bitLlr nm md mt sc y b = ruleBitLlr nm md mt sc (fun v => y (gray md v)) (bitsPerSymbol md - 1 - b) := by
  cases mt <;>
    simp only [bitLlr, ruleBitLlr, logSumExp, List.foldl_map, valuesWithBit_false, valuesWithBit_true]

/-! ### The 174 LLRs of a candidate -/

section
variable {md : Mode} {d b : Nat} (hd : d < dataSymbols md) (hb : b < bitsPerSymbol md)
include hd hb

/-- Bit b of data symbol d is codeword bit BPS·d + b. -/
theorem codewordBit_lt : bitsPerSymbol md * d + b < 174 := by
  cases md <;> simp only [dataSymbols, bitsPerSymbol] at hd hb ⊢ <;> omega

theorem getElem?_candidateLlrs (nm : Num) (g : Grid) (mt : Metric) (sc : F32) (mag : Nat → Nat → F32) (c : Nat × Nat) :
    (candidateLlrs nm g md mt sc mag c)[bitsPerSymbol md * d + b]? =
      some (ruleBitLlr nm md mt sc
        (fun v => mag (timeIndex g (c.1 + dataPos md d)) (c.2 + binOffset g (gray md v))) (bitsPerSymbol md - 1 - b)) := by
  rw [candidateLlrs, getElem?_flatMap (fun _ => by simp [symbolLlrs]) (by rwa [List.length_range]) hb, List.getElem_range,
    symbolLlrs, List.getElem?_map, List.getElem?_range hb, Option.map_some, bitLlr_eq_rule]
  rfl

end

/-- The LLRs of a candidate are those of the rules (spec/44_demodulator.md R222 to R224). -/
theorem candidateLlrs_eq_ruleLlrs (nm : Num) (md : Mode) (mt : Metric) (s : State) (c : Nat × Nat) :
    candidateLlrs nm (gridOf s) md mt s.csr.llrScale (magAt s) c = ruleLlrs nm md mt s c.1 c.2 := by
  have hbps : 0 < bitsPerSymbol md := by cases md <;> decide
  have hsize : dataSymbols md * bitsPerSymbol md = 174 := by cases md <;> rfl
  refine List.ext_getElem? fun j => ?_
  by_cases hj : j < 174
  · have hd : j / bitsPerSymbol md < dataSymbols md := (Nat.div_lt_iff_lt_mul hbps).mpr (hsize ▸ hj)
    have hllr := getElem?_candidateLlrs hd (Nat.mod_lt j hbps) nm (gridOf s) mt s.csr.llrScale (magAt s) c
    rw [Nat.div_add_mod] at hllr
    rw [hllr, ruleLlrs, List.getElem?_map, List.getElem?_range hj]
    rfl
  · rw [List.getElem?_eq_none (by rw [length_candidateLlrs]; omega), List.getElem?_eq_none (by simp [ruleLlrs]; omega)]

/-! ### LLR_EXTRACT -/

/-- What LLR_EXTRACT collects. -/
def llrExtractEffect (nm : Num) (md : Mode) (mt : Metric) (s : State) : Effect :=
  { base := dst s
    bytes := f32Bytes (candidateLlrs nm (gridOf s) md mt s.csr.llrScale (magAt s) (candidateAt s (src s)))
    nspsym := some (toWord (nspsymOf s)) }

theorem body_llrExtract {md : Mode} {mt : Metric} {s : State} (h : DataLegal (llrExtractOf md mt) s) :
    (commandOf (llrExtractOf md mt)).body s = .ok (llrExtractEffect NUM md mt s) := by
  have hvalid : ValidRecord md s 0 := by
    by_contra hbad
    cases md <;> cases mt <;> exact h 0 ⟨rfl, hbad⟩
  cases md <;> cases mt <;> exact if_pos (validRecord_iff.mpr hvalid)

/-- Settles O53: the bytes are the 174 LLRs, each of them the metric of its bit. -/
theorem llrExtractCommand : Obligations.LlrExtractCommand := by
  intro md mt s hparams haddr hdata n f0 sc
  have hbody := body_llrExtract hdata
  have hkept := ldmKept_completeOk hbody
  rw [show writtenSize (llrExtractOf md mt) s = 696 by cases md <;> cases mt <;> rfl] at hkept
  refine ⟨_, exec_eq_completeOk_of_legal hparams haddr hbody, completes_completeOk _ s, hkept, rfl, fun d b hd hb => ?_⟩
  have hllr := getElem?_candidateLlrs hd hb NUM (gridOf s) mt sc (magAt s) (candidateAt s (src s))
  refine (memRead_completeOk_f32Bytes (e := llrExtractEffect NUM md mt s) rfl s
    (List.getElem?_eq_some_iff.mp hllr).1).trans (congrArg BitVec.toNat ?_)
  rw [List.getD_eq_getElem?_getD, hllr, Option.getD_some]
  rfl

/-! ### An isolated tone -/

theorem roundMag_scaledMag_mul {m q : Nat} (hm : m ≤ infBits) (hq : 0 < q) : roundMag (scaledMag m * q) q = m :=
  le_antisymm (roundMag_le_of_le hq le_rfl) (le_roundMag_of_le hq hm le_rfl)

section
variable {x z : F32} (hx : isFinite x = true)
include hx

theorem fmul_fOne_left : fmul fOne x = x := by
  have hmag := (isFinite_iff.mp hx).le
  rw [fmul_of_finite rfl hx, scaledMag_fOne, mul_comm, roundMag_scaledMag_mul hmag (by positivity),
    show signBit fOne = false by decide, Bool.false_bne, mkF32_signBit_magBits]

variable (hnz : exact x ≠ 0) (hz : isZero z = true)
include hnz hz

/-- A sum with a zero is the other value. -/
theorem fadd_isZero_right : fadd x z = x := by
  have hscaled : scaled x ≠ 0 := fun h => hnz (by rw [exact, h, Int.cast_zero, zero_div])
  have hsign : decide (scaled x < 0) = signBit x := by
    rw [signBit_eq_of_exact_ne_zero hnz, decide_eq_decide, exact, div_lt_iff₀ (by positivity), zero_mul, Int.cast_lt_zero]
  have hmag := roundMag_scaledMag_mul (isFinite_iff.mp hx).le one_pos
  rw [mul_one] at hmag
  rw [fadd_of_finite hx (isFinite_of_isZero hz), show scaled z = 0 by simp [scaled, isZero_iff.mp hz], add_zero,
    if_neg hscaled, hsign, natAbs_scaled, hmag, mkF32_signBit_magBits]

theorem fadd_isZero_left : fadd z x = x := by
  have hcomm : fadd z x = fadd x z := by
    rw [fadd_of_finite hx (isFinite_of_isZero hz), fadd_of_finite (isFinite_of_isZero hz) hx, add_comm (scaled z),
      Bool.and_comm]
  rw [hcomm, fadd_isZero_right hx hnz hz]

end

section
variable {h : F32} (hgt : fgt h fZero = true)
include hgt

/-- The larger of two values that are h or +0.0 is h when one of them is. -/
theorem ite_fgt_isolated (p q : Prop) [Decidable p] [Decidable q] :
    (if fgt (if q then h else fZero) (if p then h else fZero) = true then (if q then h else fZero)
      else if p then h else fZero) = if p ∨ q then h else fZero := by
  have hself (x : F32) : fgt x x = false := by simp [fgt, flt]
  have hlt : fgt fZero h = false := by
    simp only [fgt, flt, Bool.and_eq_true, decide_eq_true_eq] at hgt
    simp only [fgt, flt, Bool.and_eq_false_imp, decide_eq_false_iff_not]
    omega
  by_cases hp : p <;> by_cases hq : q <;> simp [hp, hq, hself, hlt, hgt]

/-- The largest of values that are h at v and +0.0 elsewhere (spec/44_demodulator.md R223, `seqmax`). -/
theorem seqmax_isolated {v : Nat} {vs : List Nat} (hvs : vs ≠ []) :
    seqmax (vs.map fun u => if u = v then h else fZero) = if v ∈ vs then h else fZero := by
  have hfold (l : List Nat) (p : Prop) [Decidable p] :
      (l.map fun u => if u = v then h else fZero).foldl (fun acc y => if fgt y acc then y else acc) (if p then h else fZero) =
        if p ∨ v ∈ l then h else fZero := by
    induction l generalizing p with
    | nil => simp
    | cons u l ih =>
      rw [List.map_cons, List.foldl_cons, ite_fgt_isolated hgt, ih]
      simp only [or_assoc, List.mem_cons, eq_comm]
  obtain ⟨u, vs, rfl⟩ := List.exists_cons_of_ne_nil hvs
  rw [List.map_cons, seqmax, hfold]
  simp only [List.mem_cons, eq_comm]

end

theorem gray_injective {md : Mode} {u v : Nat} (hu : u < toneCount md) (hv : v < toneCount md) (h : gray md u = gray md v) :
    u = v := by
  have h8 : ∀ u < 8, ∀ v < 8, gray .ft8 u = gray .ft8 v → u = v := by decide
  have h4 : ∀ u < 4, ∀ v < 4, gray .ft4 u = gray .ft4 v → u = v := by decide
  cases md
  · exact h8 u hu v hv h
  · exact h4 u hu v hv h

/-- Both values of a bit occur among the tones. -/
theorem valuesWithBit_ne_nil {md : Mode} {b : Nat} (hb : b < bitsPerSymbol md) (one : Bool) :
    valuesWithBit md b one ≠ [] := by
  have h8 : ∀ b < 3, ∀ one, valuesWithBit .ft8 b one ≠ [] := by decide
  have h4 : ∀ b < 2, ∀ one, valuesWithBit .ft4 b one ≠ [] := by decide
  cases md
  · exact h8 b hb one
  · exact h4 b hb one

/-- Settles O54: the maximum over the values with the tone's own bit is its height, over the others +0.0. -/
theorem isolatedToneFixesTheSigns : Obligations.IsolatedToneFixesTheSigns := by
  intro nm md v b h hv hb hfin hpos
  have hnan := not_isNaN_of_finite hfin
  have hgt : fgt h fZero = true := by
    rw [fgt, flt_of_not_isNaN rfl hnan, decide_eq_true_eq]
    exact orderKey_pos_iff.mpr hpos
  have hmax (one : Bool) :
      seqmax ((valuesWithBit md b one).map fun u => if gray md u = gray md v then h else fZero) =
        if (decide (v / 2 ^ (bitsPerSymbol md - 1 - b) % 2 = 1)) = one then h else fZero := by
    have hmap : ((valuesWithBit md b one).map fun u => if gray md u = gray md v then h else fZero) =
        (valuesWithBit md b one).map fun u => if u = v then h else fZero := by
      refine List.map_congr_left fun u hu => ?_
      have hu := List.mem_range.mp (List.mem_filter.mp hu).1
      exact if_congr ⟨gray_injective hu hv, congrArg _⟩ rfl rfl
    rw [hmap, seqmax_isolated hgt (valuesWithBit_ne_nil hb one)]
    refine if_congr ?_ rfl rfl
    rw [valuesWithBit, List.mem_filter, List.mem_range, beq_iff_eq, Nat.testBit_eq_decide_div_mod_eq]
    exact and_iff_right hv
  simp only [bitLlr, hmax]
  rcases Nat.mod_two_eq_zero_or_one (v / 2 ^ (bitsPerSymbol md - 1 - b)) with hbit | hbit <;> rw [hbit]
  · have hsub : fsub h fZero = h := fadd_isZero_right hfin hpos.ne' (by decide)
    simp [hsub, fmul_fOne_left hfin]
  · have hneg := isFinite_fneg hfin
    have hne : exact (fneg h) ≠ 0 := exact_fneg hnan ▸ neg_ne_zero.mpr hpos.ne'
    have hsub : fsub fZero h = fneg h := fadd_isZero_left hneg hne rfl
    simp [hsub, fmul_fOne_left hneg]

end Sys2Proof.Machine
end

section
/-! PROOFS. One candidate of DECODE (spec/44_demodulator.md R226 to R228): its verdict, payload and SNR are those of the
rules. -/

namespace Sys2Proof.Machine

/-! ### Codewords -/

theorem getD_rulePayload (tb : Tables) (md : Mode) (c : List Bool) {j : Nat} (hj : j < 77) :
    (rulePayload tb md c).getD j false =
      (c.getD j false ^^ (md == .ft4 && (tb.ft4XorMask.getD (j / 8) 0).getLsbD (7 - j % 8))) := getD_map_range _ hj

theorem length_rulePayload (tb : Tables) (md : Mode) (c : List Bool) : (rulePayload tb md c).length = 77 := by
  simp [rulePayload]

/-- The decoder answers a codeword of 174 bits (spec/42_ldpc_decode.md R163). -/
theorem length_bp_best (nm : Num) (tb : Tables) (llr : List F32) {cap : Nat} (hcap : 1 ≤ cap) :
    (bp nm tb llr cap).best.length = 174 := by
  obtain ⟨k, -, hbest, -⟩ := (runResult_bp cap).exists_best (nm := nm) (tb := tb) (llr := llr) hcap
  rw [hbest, decisionAt, hardDecision, List.length_map, List.length_range]

section
variable {c : List Bool} (hc : c.length = 174)
include hc

theorem carriedCrc_eq_iff {r : BitVec 14} :
    carriedCrc c = r.toNat ↔ ∀ q, q < 14 → c.getD (77 + q) false = r.getLsbD (13 - q) := by
  have hlen : ((c.take 91).drop 77).length = 14 := by simp [hc]
  rw [carriedCrc, bitsToNat_eq_toNat_iff hlen, eq_crcBits_iff hlen]
  refine forall₂_congr fun q hq => ?_
  rw [List.getD_eq_getElem?_getD, List.getElem?_drop, List.getElem?_take_of_lt (by omega), ← List.getD_eq_getElem?_getD]

/-- The payload of a codeword, its mask taken off (spec/44_demodulator.md R228). -/
theorem maskFor_take_eq_rulePayload (tb : Tables) (md : Mode) : maskFor tb md (c.take 77) = rulePayload tb md c := by
  have hlen : (c.take 77).length = 77 := by simp [hc]
  have htake {j : Nat} (hj : j < 77) : (c.take 77).getD j false = c.getD j false := by
    rw [List.getD_eq_getElem?_getD, List.getElem?_take_of_lt hj, ← List.getD_eq_getElem?_getD]
  have hmask : (maskFor tb md (c.take 77)).length = 77 := by
    cases md
    · exact hlen
    · exact length_mask4 hlen
  refine eq_of_getD_eq (hmask.trans (length_rulePayload tb md c).symm) fun j hj => ?_
  rw [hmask] at hj
  rw [getD_rulePayload tb md c hj]
  cases md with
  | ft8 => exact (htake hj).trans (Bool.xor_false _).symm
  | ft4 =>
    rw [maskFor, getD_mask4 hlen hj, htake hj]
    rfl

/-- Masking a payload again gives the bits the code carries (spec/41_channel_codec.md R135). -/
theorem maskFor_rulePayload (tb : Tables) (md : Mode) : maskFor tb md (rulePayload tb md c) = c.take 77 := by
  rw [← maskFor_take_eq_rulePayload hc]
  cases md
  · rfl
  · exact mask4_mask4 (by simp [hc])

end

/-! ### Verdict and SNR -/

section
variable {nm : Num} {md : Mode} {mt : Metric} {cap : Nat} {s : State} {n f0 : Nat}

theorem length_ruleFate_codeword (hcap : 1 ≤ cap) : (ruleFate nm md mt cap s n f0).codeword.length = 174 :=
  length_bp_best nm s.params.tables _ hcap

theorem crcOk_ruleFate_iff (hcap : 1 ≤ cap) :
    (ruleFate nm md mt cap s n f0).crcOk = true ↔
      carriedCrc (ruleFate nm md mt cap s n f0).codeword =
        (crc77 ((ruleFate nm md mt cap s n f0).codeword.take 77)).toNat := by
  rw [carriedCrc_eq_iff (length_ruleFate_codeword hcap)]
  simp [ruleFate]

/-- The outcome the model gives a fate (spec/44_demodulator.md R227). -/
def CandidateFate.outcome (f : CandidateFate) : CandOutcome :=
  if f.ldpcOk then if f.crcOk then .crcOk f.codeword (carriedCrc f.codeword) else .crcFail else .ldpcFail

theorem candidateOutcome_eq (hcap : 1 ≤ cap) :
    candidateOutcome nm s.params.tables cap (ruleLlrs nm md mt s n f0) = (ruleFate nm md mt cap s n f0).outcome := by
  have hldpc : (ruleFate nm md mt cap s n f0).ldpcOk =
      (!(ruleLlrs nm md mt s n f0).any isNaN
        && (bp nm s.params.tables (ruleLlrs nm md mt s n f0) cap).minErr == 0) := by
    rw [List.not_any_eq_all_not]
    rfl
  have hcrc : (ruleFate nm md mt cap s n f0).crcOk =
      decide (carriedCrc (bp nm s.params.tables (ruleLlrs nm md mt s n f0) cap).best =
        (crc77 ((bp nm s.params.tables (ruleLlrs nm md mt s n f0) cap).best.take 77)).toNat) := by
    rw [Bool.eq_iff_iff, decide_eq_true_eq]
    exact crcOk_ruleFate_iff hcap
  have hcode : (ruleFate nm md mt cap s n f0).codeword = (bp nm s.params.tables (ruleLlrs nm md mt s n f0) cap).best := rfl
  rw [CandidateFate.outcome, candidateOutcome, hldpc, hcrc, hcode]
  generalize bp nm s.params.tables (ruleLlrs nm md mt s n f0) cap = r
  cases (ruleLlrs nm md mt s n f0).any isNaN with
  | true => rfl
  | false =>
    by_cases herr : r.minErr = 0
    · by_cases hok : carriedCrc r.best = (crc77 (r.best.take 77)).toNat <;> simp [herr, hok]
    · simp [herr]

theorem snr_eq_ruleSnr (nm : Num) (md : Mode) (s : State) (p : Nat × Nat) (c : List Bool) :
    snr nm (gridOf s) md s.params.tables (magAt s) p c = ruleSnr nm md s p.1 p.2 c := by
  have hneg : fneg fTwentyFour = 0xC1C00000 := by decide
  simp only [snr, fclamp, hneg]
  rfl

theorem exact_fTwentyFour : exact fTwentyFour = 24 := by
  rw [exact, show scaled fTwentyFour = 24 * 2 ^ 149 by decide]
  norm_num

/-- The SNR of a candidate is a number from −24 to 24 (spec/44_demodulator.md R226). -/
theorem ruleSnr_bounds (nm : Num) (md : Mode) (s : State) (n f0 : Nat) (c : List Bool) :
    isFinite (ruleSnr nm md s n f0 c) = true ∧ -24 ≤ exact (ruleSnr nm md s n f0 c)
      ∧ exact (ruleSnr nm md s n f0 c) ≤ 24 := by
  have hfin : isFinite fTwentyFour = true := by decide
  rw [← snr_eq_ruleSnr nm md s (n, f0) c, snr, ← exact_fTwentyFour]
  split
  · rw [exact_fneg (by decide), exact_fTwentyFour]
    exact ⟨isFinite_fneg hfin, by norm_num⟩
  · next hnan =>
    exact fclamp_bounds hfin (exact_fTwentyFour ▸ by norm_num) (Bool.not_eq_true _ ▸ hnan)

end

end Sys2Proof.Machine
end

section
/-! PROOFS. The candidate list of DECODE (spec/44_demodulator.md R228, R229): after k candidates the model holds the counts
of their failures and a record of the first candidate of each payload. -/

namespace Sys2Proof.Machine

/-! ### First occurrences -/

section
variable (good : Nat → Bool) (pay : Nat → List Bool)

/-- Candidate k is good and no good candidate before it has its payload (spec/44_demodulator.md R228). -/
def isFirst (k : Nat) : Bool := good k && (List.range k).all fun j => !(good j && pay j == pay k)

/-- The candidates below n that get a record. -/
def firstsBelow (n : Nat) : List Nat := (List.range n).filter (isFirst good pay)

variable {good pay}

theorem isFirst_iff {k : Nat} : isFirst good pay k = true ↔ good k = true ∧ ∀ j < k, good j = true → pay j ≠ pay k := by
  simp only [isFirst, Bool.and_eq_true, List.all_eq_true, List.mem_range, Bool.not_eq_true', Bool.and_eq_false_imp,
    beq_eq_false_iff_ne]

/-- A payload that is decoded at all is decoded first somewhere. -/
theorem exists_isFirst {j : Nat} (hj : good j = true) : ∃ i ≤ j, isFirst good pay i = true ∧ pay i = pay j := by
  induction j using Nat.strong_induction_on with
  | _ j ih =>
    by_cases hfirst : isFirst good pay j = true
    · exact ⟨j, le_rfl, hfirst, rfl⟩
    · rw [isFirst_iff] at hfirst
      push Not at hfirst
      obtain ⟨i, hij, hi, hpay⟩ := hfirst hj
      obtain ⟨i', hi', hfirst', hpay'⟩ := ih i hij hi
      exact ⟨i', hi'.trans hij.le, hfirst', hpay'.trans hpay⟩

theorem mem_firstsBelow_iff {n k : Nat} : k ∈ firstsBelow good pay n ↔ k < n ∧ isFirst good pay k = true := by
  rw [firstsBelow, List.mem_filter, List.mem_range]

/-- A good candidate is no first one exactly when its payload has a record. -/
theorem contains_firstsBelow {k : Nat} (hk : good k = true) :
    ((firstsBelow good pay k).map pay).contains (pay k) = !isFirst good pay k := by
  rw [Bool.eq_iff_iff, List.contains_iff_mem, List.mem_map, Bool.not_eq_true', ← Bool.not_eq_true, isFirst_iff]
  constructor
  · rintro ⟨j, hj, hpay⟩ ⟨-, hfirst⟩
    obtain ⟨hlt, hj⟩ := mem_firstsBelow_iff.mp hj
    exact hfirst j hlt (isFirst_iff.mp hj).1 hpay
  · intro hfirst
    push Not at hfirst
    obtain ⟨j, hlt, hj, hpay⟩ := hfirst hk
    obtain ⟨i, hij, hi, hpay'⟩ := exists_isFirst (pay := pay) hj
    exact ⟨i, mem_firstsBelow_iff.mpr ⟨hij.trans_lt hlt, hi⟩, hpay'.trans hpay⟩

theorem firstsBelow_succ (n : Nat) :
    firstsBelow good pay (n + 1) = firstsBelow good pay n ++ if isFirst good pay n then [n] else [] := by
  rw [firstsBelow, List.range_succ, List.filter_append, List.filter_singleton, Bool.cond_eq_ite]
  rfl

/-- The candidates with a record rise, and their payloads are all different. -/
theorem pairwise_firstsBelow (n : Nat) : (firstsBelow good pay n).Pairwise fun j k => j < k ∧ pay j ≠ pay k :=
  (List.pairwise_lt_range.filter _).imp_of_mem fun hj hk hlt => by
    obtain ⟨hgood, -⟩ := isFirst_iff.mp (List.mem_filter.mp hj).2
    obtain ⟨-, hnew⟩ := isFirst_iff.mp (List.mem_filter.mp hk).2
    exact ⟨hlt, hnew _ hlt hgood⟩

end

/-! ### After k candidates -/

section
variable (fate : Nat → CandidateFate) (pay : Nat → List Bool) (snrOf : Nat → F32)

/-- Candidate k is decoded, its payload new or not (spec/44_demodulator.md R227). -/
def isGood (k : Nat) : Bool := (fate k).ldpcOk && (fate k).crcOk

/-- The record of candidate k (spec/20_memory.md R70). -/
def fateRecord (k : Nat) : List Byte := resultRecord k (pay k) (carriedCrc (fate k).codeword) (snrOf k)

/-- What a DECODE has found after n candidates. -/
def decodeAfter (n : Nat) : DecodeAcc where
  ldpcFail := (List.range n).countP fun k => !(fate k).ldpcOk
  crcFail := (List.range n).countP fun k => (fate k).ldpcOk && !(fate k).crcOk
  seen := (firstsBelow (isGood fate) pay n).map pay
  records := (firstsBelow (isGood fate) pay n).map (fateRecord fate pay snrOf)

variable {fate pay snrOf}

theorem decodeAfter_succ (k : Nat) :
    decodeAfter fate pay snrOf (k + 1) =
      { ldpcFail := (decodeAfter fate pay snrOf k).ldpcFail + if (fate k).ldpcOk then 0 else 1
        crcFail := (decodeAfter fate pay snrOf k).crcFail + if (fate k).ldpcOk && !(fate k).crcOk then 1 else 0
        seen := (decodeAfter fate pay snrOf k).seen ++ if isFirst (isGood fate) pay k then [pay k] else []
        records := (decodeAfter fate pay snrOf k).records
          ++ if isFirst (isGood fate) pay k then [fateRecord fate pay snrOf k] else [] } := by
  cases hldpc : (fate k).ldpcOk <;> cases hfirst : isFirst (isGood fate) pay k <;>
    simp [decodeAfter, firstsBelow_succ, List.range_succ, List.countP_singleton, hldpc, hfirst]

/-- One more candidate: a failure is counted, a payload that is new gets a record (spec/44_demodulator.md R229). -/
theorem decodeOne_decodeAfter {tb : Tables} {md : Mode} {k : Nat} {snrAt : List Bool → F32}
    (hpay : maskFor tb md ((fate k).codeword.take 77) = pay k) (hsnr : snrAt (fate k).codeword = snrOf k) :
    decodeOne tb md snrAt k (fate k).outcome (decodeAfter fate pay snrOf k) = decodeAfter fate pay snrOf (k + 1) := by
  rw [decodeAfter_succ, CandidateFate.outcome]
  cases hgood : isGood fate k with
  | false =>
    have hnot : isFirst (isGood fate) pay k = false := by rw [isFirst, hgood, Bool.false_and]
    cases hldpc : (fate k).ldpcOk with
    | false => simp [decodeOne, hnot]
    | true =>
      have hcrc : (fate k).crcOk = false := by simpa [isGood, hldpc] using hgood
      simp [decodeOne, hnot, hcrc]
  | true =>
    obtain ⟨hldpc, hcrc⟩ := Bool.and_eq_true_iff.mp hgood
    have hseen : (decodeAfter fate pay snrOf k).seen.contains (pay k) = !isFirst (isGood fate) pay k :=
      contains_firstsBelow hgood
    simp only [hldpc, hcrc, if_true, decodeOne, hpay, hsnr, hseen]
    cases isFirst (isGood fate) pay k <;> simp [fateRecord]

/-- Every candidate is counted at most once (spec/44_demodulator.md R229). -/
theorem countP_add_countP_add_countP_le {α : Type} {p q r : α → Bool}
    (h : ∀ x, (p x).toNat + (q x).toNat + (r x).toNat ≤ 1) (l : List α) :
    l.countP p + l.countP q + l.countP r ≤ l.length := by
  have hcons (b : Bool) : (if b = true then 1 else 0) = b.toNat := by cases b <;> rfl
  induction l with
  | nil => exact le_rfl
  | cons x l ih =>
    have hx := h x
    simp only [List.countP_cons, List.length_cons, hcons]
    omega

theorem decodeAfter_counts_le (n : Nat) :
    (firstsBelow (isGood fate) pay n).length + (decodeAfter fate pay snrOf n).ldpcFail
      + (decodeAfter fate pay snrOf n).crcFail ≤ n := by
  have hle := countP_add_countP_add_countP_le (p := isFirst (isGood fate) pay) (q := fun k => !(fate k).ldpcOk)
    (r := fun k => (fate k).ldpcOk && !(fate k).crcOk) (fun k => ?_) (List.range n)
  · rwa [List.length_range, List.countP_eq_length_filter] at hle
  · rw [isFirst, isGood]
    cases (fate k).ldpcOk <;> cases (fate k).crcOk <;> simp
    exact Bool.toNat_le _

end

/-! ### The candidates in LDM -/

section
variable (nm : Num) (md : Mode) (mt : Metric) (cap : Nat) (s : State)

/-- The fate of record k of the list at SRC_ADDR. -/
def fateAt (k : Nat) : CandidateFate :=
  ruleFate nm md mt cap s (memRead s (src s + 16 * k) 4) (memRead s (src s + 16 * k + 8) 4)

/-- The payload of record k. -/
def payloadAt (k : Nat) : List Bool := rulePayload s.params.tables md (fateAt nm md mt cap s k).codeword

/-- The SNR of record k. -/
def snrAt (k : Nat) : F32 :=
  ruleSnr nm md s (memRead s (src s + 16 * k) 4) (memRead s (src s + 16 * k + 8) 4) (fateAt nm md mt cap s k).codeword

/-- What a DECODE has found after n candidates of the list. -/
def decodedTo (n : Nat) : DecodeAcc :=
  decodeAfter (fateAt nm md mt cap s) (payloadAt nm md mt cap s) (snrAt nm md mt cap s) n

variable {nm md mt cap s} (hcap : 1 ≤ cap)
include hcap

theorem decodeFrom_decodedTo (k m : Nat) :
    decodeFrom nm md mt cap s k ((List.range' k m).map fun j => candidateAt s (src s + 16 * j)) (decodedTo nm md mt cap s k) =
      decodedTo nm md mt cap s (k + m) := by
  induction m generalizing k with
  | zero => rfl
  | succ m ih =>
    have hstep := decodeOne_decodeAfter (fate := fateAt nm md mt cap s) (pay := payloadAt nm md mt cap s)
      (snrOf := snrAt nm md mt cap s) (tb := s.params.tables) (md := md) (k := k)
      (snrAt := snr nm (gridOf s) md s.params.tables (magAt s) (candidateAt s (src s + 16 * k)))
      (maskFor_take_eq_rulePayload (length_ruleFate_codeword hcap) s.params.tables md) (snr_eq_ruleSnr nm md s _ _)
    rw [List.range'_succ, List.map_cons, decodeFrom, candidateLlrs_eq_ruleLlrs, candidateOutcome_eq hcap]
    exact (congrArg _ hstep).trans ((ih (k + 1)).trans (congrArg _ (by omega)))

theorem decodeFrom_decodeCandidates :
    decodeFrom nm md mt cap s 0 (decodeCandidates s) ⟨0, 0, [], []⟩ = decodedTo nm md mt cap s (len s) := by
  have h := decodeFrom_decodedTo (nm := nm) (md := md) (mt := mt) (s := s) hcap 0 (len s)
  rwa [← List.range_eq_range', Nat.zero_add] at h

end

end Sys2Proof.Machine
end

section
/-! PROOFS. DECODE (spec/44_demodulator.md R229): it completes with the counts and records of its candidates, and what the
records have in common. -/

namespace Sys2Proof.Machine

/-! ### The command -/

/-- What DECODE collects. -/
def decodeEffect (s : State) (r : DecodeAcc) : Effect :=
  { base := dst s, bytes := r.records.flatten, result0 := some (toWord r.records.length)
    result1 := some (toWord (r.ldpcFail + r.crcFail * 2 ^ 16)), nspsym := some (toWord (nspsymOf s)) }

section
variable {md : Mode} {mt : Metric} {iter : Nat} {s : State}

theorem body_decode (h : DataLegal (decodeOf md mt iter) s) :
    (commandOf (decodeOf md mt iter)).body s = .ok (decodeEffect s (decodedTo NUM md mt (maxIter iter) s (len s))) := by
  have hvalid : ∀ k < len s, ValidRecord md s k := by
    intro k hk
    by_contra hbad
    cases md <;> cases mt <;> exact h k ⟨hk, hbad⟩
  have hnone : firstIndex (fun c => !validCandidate (gridOf s) md c) (decodeCandidates s) = none :=
    firstIndex_map_range fun k hk => by simpa using validRecord_iff.mpr (hvalid k hk)
  have hbody : (cmdDecode NUM md mt iter).body s =
      .ok (decodeEffect s (decodedTo NUM md mt (maxIter iter) s (len s))) := by
    rw [← decodeFrom_decodeCandidates (one_le_maxIter iter)]
    simp only [cmdDecode, hnone]
    rfl
  cases md <;> cases mt <;> exact hbody

theorem paramChecks_decode (md : Mode) (mt : Metric) (iter : Nat) :
    paramChecks (decodeOf md mt iter) = [.fsHz, .tsym, .nfft, .nstep, .wfT, .wfF, .llrScale, .len] := by
  cases md <;> cases mt <;> rfl

theorem len_le_of_paramsLegal_decode (h : ParamsLegal (decodeOf md mt iter) s) : len s ≤ 65535 := by
  have hlen := h .len (by simp [paramChecks_decode])
  cases md <;> cases mt <;> exact hlen

end

/-! ### Records read back -/

theorem bitsToNat_lt (l : List Bool) : bitsToNat l < 2 ^ l.length := by
  induction l using List.reverseRecOn with
  | nil => decide
  | append_singleton l b ih =>
    have := b.toNat_lt
    rw [bitsToNat_concat, List.length_append, List.length_singleton, Nat.pow_succ]
    omega

theorem carriedCrc_lt (c : List Bool) : carriedCrc c < 2 ^ 14 :=
  (bitsToNat_lt _).trans_le (Nat.pow_le_pow_right two_pos (by simp))

section
variable (nm : Num) (md : Mode) (mt : Metric) (cap : Nat) (s : State)

/-- The candidates below n of the list at SRC_ADDR that get a record. -/
def decodedBelow (n : Nat) : List Nat := firstsBelow (isGood (fateAt nm md mt cap s)) (payloadAt nm md mt cap s) n

/-- Record r at DST_ADDR, read in t, is the record of candidate k of s (spec/20_memory.md R70). -/
structure HoldsRecord (t : State) (r k : Nat) : Prop where
  index : memRead t (dst s + 20 * r) 4 = k
  payload : readBits t (dst s + 20 * r + 4) 77 = payloadAt nm md mt cap s k
  pad : ∀ j, 77 ≤ j → j < 80 → bitRead t (dst s + 20 * r + 4) j = false
  crc : memRead t (dst s + 20 * r + 14) 2 = carriedCrc (fateAt nm md mt cap s k).codeword
  snr : memRead t (dst s + 20 * r + 16) 4 = (snrAt nm md mt cap s k).toNat

variable {nm md mt cap s} {n : Nat}

theorem bytes_decode :
    (decodeEffect s (decodedTo nm md mt cap s n)).bytes =
      (decodedBelow nm md mt cap s n).flatMap
        (fateRecord (fateAt nm md mt cap s) (payloadAt nm md mt cap s) (snrAt nm md mt cap s)) := List.flatMap_def.symm

theorem length_fateRecord (fate : Nat → CandidateFate) (pay : Nat → List Bool) (snrOf : Nat → F32) (k : Nat) :
    (fateRecord fate pay snrOf k).length = 20 := length_resultRecord ..

theorem length_payloadAt (k : Nat) : (payloadAt nm md mt cap s k).length = 77 := length_rulePayload ..

theorem length_bytes_decode :
    (decodeEffect s (decodedTo nm md mt cap s n)).bytes.length = 20 * (decodedBelow nm md mt cap s n).length := by
  rw [bytes_decode, length_flatMap_of_length_eq (length_fateRecord _ _ _)]

theorem holdsRecord_decode (hn : n ≤ 65535) {r k : Nat} (hk : (decodedBelow nm md mt cap s n)[r]? = some k) :
    HoldsRecord nm md mt cap s (completeOk (decodeEffect s (decodedTo nm md mt cap s n)) s) r k := by
  obtain ⟨hr, rfl⟩ := List.getElem?_eq_some_iff.mp hk
  have hword {o m v : Nat} := memRead_record (e := decodeEffect s (decodedTo nm md mt cap s n)) bytes_decode
    (length_fateRecord _ _ _) hr (o := o) (n := m) (v := v)
  have hpay : readBytes _ _ 10 = packBits 10 (payloadAt nm md mt cap s (decodedBelow nm md mt cap s n)[r]) :=
    readBytes_record (e := decodeEffect s (decodedTo nm md mt cap s n)) (o := 4) bytes_decode (length_fateRecord _ _ _) hr
      (by decide) s
  have hindex := (mem_firstsBelow_iff.mp (List.mem_of_getElem? hk)).1
  exact {
    index := (hword (o := 0) (by decide) rfl s).trans (Nat.mod_eq_of_lt (by omega))
    payload := readBits_of_readBytes hpay (length_payloadAt _) (by decide)
    pad j hlo hhi := (bitRead_of_readBytes hpay hhi).trans (List.getD_eq_default _ _ (length_payloadAt _ ▸ hlo))
    crc := (hword (o := 14) (by decide) rfl s).trans (Nat.mod_eq_of_lt ((carriedCrc_lt _).trans (by decide)))
    snr := (hword (o := 16) (by decide) rfl s).trans (Nat.mod_eq_of_lt (snrAt nm md mt cap s _).isLt) }

/-- RESULT0 shows the number of records. -/
theorem toNat_result0_decode (hn : n ≤ 65535) :
    (completeOk (decodeEffect s (decodedTo nm md mt cap s n)) s).csr.result0.toNat =
      (decodedBelow nm md mt cap s n).length := by
  have hle := decodeAfter_counts_le (fate := fateAt nm md mt cap s) (pay := payloadAt nm md mt cap s)
    (snrOf := snrAt nm md mt cap s) n
  have hlen : (decodedTo nm md mt cap s n).records.length = (decodedBelow nm md mt cap s n).length := List.length_map _
  have hlt : (decodedBelow nm md mt cap s n).length ≤ n := by
    rw [decodedBelow]
    omega
  refine (BitVec.toNat_ofNat _ _).trans ?_
  rw [hlen, Nat.mod_eq_of_lt (by omega)]

end

/-- Settles O55: the registers show what the list has come to, the bytes are the records of the first candidates. -/
theorem decodeCommand : Obligations.DecodeCommand := by
  intro md mt iter s hparams haddr hdata cap n f0 fate good pay decoded ldpcFail crcFail
  have hlen := len_le_of_paramsLegal_decode hparams
  have hcounts : decoded.length + ldpcFail + crcFail ≤ len s :=
    decodeAfter_counts_le (fate := fate) (pay := pay) (snrOf := snrAt NUM md mt cap s) (len s)
  have hresult0 : _ = decoded.length := toNat_result0_decode (nm := NUM) (md := md) (mt := mt) (cap := cap) hlen
  have hresult1 : (toWord (ldpcFail + crcFail * 2 ^ 16)).toNat = ldpcFail + crcFail * 2 ^ 16 :=
    (BitVec.toNat_ofNat _ _).trans (Nat.mod_eq_of_lt (by omega))
  have hkept := ldmKept_completeOk_block (decodeEffect s (decodedTo NUM md mt cap s (len s))) s
  rw [length_bytes_decode] at hkept
  refine ⟨_, exec_eq_completeOk_of_legal hparams haddr (body_decode hdata), completes_completeOk _ s, hkept,
    applyCsrs_of_no_wf rfl s.csr, hresult0, hresult1,
    toNat_toWord_nspsymOf (hparams .tsym (by simp [paramChecks_decode])), fun r k hk => ?_, hcounts, fun hzero => ⟨?_, ?_⟩⟩
  · obtain ⟨hindex, hpayload, hpad, hcrc, hsnr⟩ := holdsRecord_decode (nm := NUM) (cap := cap) hlen hk
    exact ⟨hindex, hpayload, hpad, hcrc, hsnr⟩
  · exact BitVec.eq_of_toNat_eq (hresult0.trans (show decoded.length = 0 by omega))
  · exact BitVec.eq_of_toNat_eq (hresult1.trans (show ldpcFail + crcFail * 2 ^ 16 = 0 by omega))

/-! ### What records have in common -/

/-- A value whose bits stand in LDM is read as it is, unless it is a NaN. -/
theorem f32Read_of_memRead {s : State} {a : Nat} {x : F32} (h : memRead s a 4 = x.toNat) (hx : isFinite x = true) :
    f32Read s a = x := by
  rw [f32Read, h, BitVec.ofNat_toNat, BitVec.setWidth_eq, canon_of_not_nan (not_isNaN_of_finite hx)]

/-- The CRC in the record of a good candidate is that of its payload as the code carries it (spec/44_demodulator.md R227). -/
theorem carriedCrc_of_isGood {nm : Num} {md : Mode} {mt : Metric} {cap : Nat} {s : State} {k : Nat} (hcap : 1 ≤ cap)
    (h : isGood (fateAt nm md mt cap s) k = true) :
    carriedCrc (fateAt nm md mt cap s k).codeword =
      (crc77 (maskFor s.params.tables md (payloadAt nm md mt cap s k))).toNat := by
  have hcode : (fateAt nm md mt cap s k).codeword.length = 174 := length_ruleFate_codeword hcap
  rw [payloadAt, maskFor_rulePayload hcode]
  exact (crcOk_ruleFate_iff hcap).mp (Bool.and_eq_true_iff.mp h).2

/-- Settles O56: a record is that of a first candidate, and first candidates rise and differ. -/
theorem decodedRecordsAreDistinctAndChecked : Obligations.DecodedRecordsAreDistinctAndChecked := by
  intro md mt iter s t hparams haddr hdata hexec index payload snr r hr
  have hlen := len_le_of_paramsLegal_decode hparams
  obtain rfl := eq_completeOk_of_next (exec_eq_completeOk_of_legal hparams haddr (body_decode hdata)) hexec
  rw [toNat_result0_decode hlen] at hr
  have hrecord := holdsRecord_decode hlen (List.getElem?_eq_getElem hr)
  obtain ⟨hlt, hfirst⟩ := mem_firstsBelow_iff.mp (List.getElem_mem hr)
  obtain ⟨hfin, hlo, hhi⟩ : isFinite (snrAt NUM md mt (maxIter iter) s _) = true ∧ _ := ruleSnr_bounds NUM md s _ _ _
  have hsnr : snr r = _ := f32Read_of_memRead hrecord.snr hfin
  refine ⟨hrecord.index.trans_lt hlt, ?_, hrecord.pad, hsnr ▸ hfin, hsnr ▸ hlo, hsnr ▸ hhi, fun j hj => ?_⟩
  · rw [show payload r = _ from hrecord.payload, ← carriedCrc_of_isGood (one_le_maxIter iter) (isFirst_iff.mp hfirst).1]
    exact hrecord.crc
  · have hrecord' := holdsRecord_decode hlen (List.getElem?_eq_getElem (hj.trans hr))
    obtain ⟨hrise, hdiffer⟩ := List.pairwise_iff_getElem.mp (pairwise_firstsBelow (len s)) j r (hj.trans hr) hr hj
    exact ⟨(hrecord'.index.trans_lt hrise).trans_eq hrecord.index.symm,
      fun h => hdiffer (hrecord'.payload.symm.trans (h.trans hrecord.payload))⟩

end Sys2Proof.Machine
end

section
/-! PROOFS. The interrupt output (spec/60_exceptions.md R274) and IRQ_EN (spec/10_state.md R27). -/

namespace Sys2Proof.Machine

section
variable (s : State)

/-- IRQ_EN from its most significant bit down (spec/10_state.md R27): two enables below 30 reserved bits. -/
theorem irqEnWord_eq_concat : irqEnWord s = ((0#30).concat s.irqEn.errIe).concat s.irqEn.doneIe := by
  cases hdone : s.irqEn.doneIe <;> cases herr : s.irqEn.errIe <;> simp only [irqEnWord, hdone, herr] <;> rfl

@[simp] theorem irqEnWord_doneIe : (irqEnWord s)[0] = s.irqEn.doneIe := by simp [irqEnWord_eq_concat]
@[simp] theorem irqEnWord_errIe : (irqEnWord s)[1] = s.irqEn.errIe := by simp [irqEnWord_eq_concat]

/-- IRQ_EN keeps the two enables of a word written to it. -/
theorem irqEnWord_writeIrqEn (w : Word) : irqEnWord (writeIrqEn w s) = w &&& 3 := by
  have hdone : (w.getLsbD 0).toNat = w.toNat / 2 ^ 0 % 2 := Nat.toNat_testBit w.toNat 0
  have herr : (w.getLsbD 1).toNat = w.toNat / 2 ^ 1 % 2 := Nat.toNat_testBit w.toNat 1
  have hmask : (w &&& 3).toNat = w.toNat % 2 ^ 2 := Nat.and_two_pow_sub_one_eq_mod w.toNat 2
  apply BitVec.eq_of_toNat_eq
  rw [hmask, irqEnWord, writeIrqEn_irqEn, BitVec.toNat_ofNat, hdone, herr]
  omega

end

/-- Settles O9: the bits of STATUS and IRQ_EN are the fields the interrupt level is made of. -/
theorem interruptLevelAndEnable : Obligations.InterruptLevelAndEnable := by
  refine ⟨rfl, fun s => ?_, ?_⟩
  · simp [irq, readCsr]
  · intro s w t
    have ht : t = { writeIrqEn w s with resp := .ack } := busWrite_csrOffset .irqEn w s
    rw [ht]
    exact ⟨irqEnWord_writeIrqEn s w, rfl⟩

end Sys2Proof.Machine
end

section
/-! PROOFS. The completion of a step, before the host's access or after it (spec/60_exceptions.md R268; log entry 8): what word it
completes, and the fault of a word that is no legal command (spec/60_exceptions.md R261, R262, R269, R270). -/

namespace Sys2Proof.Machine

/-! ### The word stays latched -/

/-- While BUSY a write of a register is a reset or leaves the latched word. -/
theorem writeCsr_busy_cmd {s : State} (hs : isBusy s = true) (r : Csr) (w : Word) :
    (writeCsr r w s).eng = .idle ∨ (writeCsr r w s).csr.cmd = s.csr.cmd := by
  rcases writeCsr_cases r w s with ⟨-, -, e⟩ | ⟨-, e⟩ | ⟨-, e⟩ | ⟨-, -, e⟩ | ⟨-, hidle, -⟩ | ⟨-, -, e⟩ | ⟨-, hidle, -⟩
    | ⟨-, -, -, -, -, e⟩
  · exact .inl (by rw [e]; cases abandonedSpan s <;> rfl)
  · exact .inr (by rw [e, writeStatus_csr])
  · exact .inr (by rw [e, writeIrqEn_csr])
  · exact .inr (by rw [e, setOverrun_csr])
  · exact absurd hidle (by simp [hs])
  · exact .inr (by rw [e, setViolation_csr])
  · exact absurd hidle (by simp [hs])
  · exact .inr (by rw [e])

/-- While BUSY a host step is a reset or leaves the latched word. -/
theorem hostStep_busy_cmd {s : State} (hs : isBusy s = true) :
    (hostStep s).eng = .idle ∨ (hostStep s).csr.cmd = s.csr.cmd := by
  rcases hostStep_cases s with ⟨-, e⟩ | ⟨a, rest, -, e⟩ <;> rw [e]
  · exact .inr rfl
  cases a with
  | wait => exact .inr rfl
  | read addr bytes => exact .inr (by rw [perform, busRead_csr])
  | poll => exact .inr (by rw [perform_poll])
  | powerOn => exact .inl rfl
  | write addr bytes w =>
    rw [perform]
    rcases busWrite_cases addr.toNat bytes w { s with bus := rest } with
      ⟨_, -, -, e⟩ | ⟨_, r, -, -, e⟩ | ⟨_, -, e⟩ | ⟨-, e⟩ <;> rw [e]
    · exact .inr rfl
    · exact writeCsr_busy_cmd (s := { s with bus := rest }) hs r w
    · rw [writeLdm, if_pos (show isBusy { s with bus := rest } = true from hs)]
      exact .inr rfl
    · exact .inr rfl

/-! ### The completion of a step -/

section
variable {s : State} {o : CompletionOrder} (heng : s.eng = .busy 0 o) (hat : (atCompletion o s).eng = .busy 0 o)
include heng hat

/-- No access before a completion changes the word it completes, unless it abandons it. -/
theorem cmd_atCompletion : (atCompletion o s).csr.cmd = s.csr.cmd := by
  cases o with
  | beforeAccess => rfl
  | afterAccess =>
    refine (hostStep_busy_cmd (by rw [isBusy, heng])).resolve_left fun hidle => ?_
    exact Eng.noConfusion (hidle.symm.trans hat)

/-- A step whose delay has passed completes the command in the order drawn for it. -/
theorem step_of_completion {t : State} (ht : completion (atCompletion o s) = .next t) :
    step s = .next (afterCompletion o t) := by
  cases o with
  | afterAccess =>
    have hbusy : isBusy (hostStep s) = true := by rw [isBusy, show (hostStep s).eng = _ from hat]
    simp only [step, heng, if_pos hbusy]
    exact ht
  | beforeAccess =>
    have ht : completion s = .next t := ht
    simp only [step, heng, ht]
    rfl

end

/-! ### Faults -/

/-- Taking a fault changes STATUS, ERRINFO and the engine alone. -/
theorem faults_takeFault (f : CmdFault) (s : State) :
    Faults (faultNumber f.code) (BitVec.ofNat 32 f.info) s (takeFault f s) :=
  ⟨rfl, rfl, rfl, rfl, rfl, rfl, rfl, rfl, rfl, readByte_takeFault f s, rfl, rfl, rfl, rfl⟩

/-- The information of an illegal word's fault is the word (spec/60_exceptions.md R261, R262). -/
theorem info_decodeFault (e : DecodeError) (w : Word) : BitVec.ofNat 32 (decodeFault e w).info = w := by
  cases e <;> exact (BitVec.ofNat_toNat 32 w).trans (BitVec.setWidth_eq w)

theorem completion_of_decode_error {s : State} {e : DecodeError} (h : decode s.csr.cmd = .error e) :
    completion s = .next (takeFault (decodeFault e s.csr.cmd) s) := by
  simp only [completion, h]

/-- A word that is no legal command completes with its fault. -/
theorem step_illegalWord {s : State} {o : CompletionOrder} {e : DecodeError} (heng : s.eng = .busy 0 o)
    (hat : (atCompletion o s).eng = .busy 0 o) (hword : decode s.csr.cmd = .error e) :
    ∃ t, step s = .next (afterCompletion o t)
      ∧ Faults (faultNumber (decodeFault e s.csr.cmd).code) s.csr.cmd (atCompletion o s) t := by
  have hfaults := faults_takeFault (decodeFault e s.csr.cmd) (atCompletion o s)
  rw [info_decodeFault] at hfaults
  rw [← cmd_atCompletion heng hat] at hword hfaults ⊢
  exact ⟨_, step_of_completion heng hat (completion_of_decode_error hword), hfaults⟩

/-- Settles O18: the two kinds of illegal words are the two errors of decoding. -/
theorem illegalWordsFault : Obligations.IllegalWordsFault := by
  refine ⟨fun s o heng hat => ?_, rfl, rfl⟩
  obtain ⟨hopcode, hreserved, -, -⟩ := decodeOrder s.csr.cmd
  exact ⟨fun hopc => step_illegalWord heng hat (hopcode hopc),
    fun hopc hfields => step_illegalWord heng hat (hreserved hopc hfields)⟩

/-- Settles O19: every fault of a command or of a word that is none is taken by `takeFault`. -/
theorem faultsArePrecise : Obligations.FaultsArePrecise :=
  ⟨fun _ _ _ hfault => exec_faults hfault, fun _ _ _ heng hat hword => step_illegalWord heng hat hword⟩

end Sys2Proof.Machine
end

section
/-! PROOFS. The host-access events of spec/60_exceptions.md R272: an ignored write sets its flag and changes nothing else, and in the
step of a completion the flag is set beside the completion (R268). -/

namespace Sys2Proof.Machine

/-! ### Events -/

/-- The events of spec/60_exceptions.md R272. -/
inductive Event where
  | overrun
  | violation

/-- STATUS with the event's flag set. -/
def Event.flag (v : Event) (st : Status) : Status :=
  match v with
  | .overrun => { st with overrun := true }
  | .violation => { st with violation := true }

/-- The state after a write that is ignored with the event. -/
def Event.mark (v : Event) (s : State) : State := { s with status := v.flag s.status, resp := .ack }

@[simp] theorem mark_eng (v : Event) (s : State) : (v.mark s).eng = s.eng := rfl

/-! ### The writes that are ignored while BUSY -/

section
variable {s : State} (hs : isBusy s = true) (w : Word)
include hs

theorem busWrite_busy_cmd : busWrite (csrOffset .cmd) 4 w s = Event.overrun.mark s := by
  rw [busWrite_csrOffset, writeCsr, if_pos hs]
  rfl

theorem busWrite_busy_operand {r : Csr} (hr : isOperand r = true) :
    busWrite (csrOffset r) 4 w s = Event.violation.mark s := by
  have hwrite : writeCsr r w s = setViolation s := by cases r <;> cases hr <;> simp [writeCsr, isOperand, hs]
  rw [busWrite_csrOffset, hwrite]
  rfl

theorem busWrite_busy_ldm {addr bytes : Nat} (h : LdmAccess s.params.ldmSize addr bytes) :
    busWrite addr bytes w s = Event.violation.mark s := by
  simp only [busWrite, target_of_ldmAccess h, writeLdm, if_pos hs]
  rfl

end

/-! ### Events beside a completion -/

section
variable (v : Event) (s : State)

theorem rowView_mark (i : Instr) : rowView i (v.mark s) = rowView i s := by
  cases i <;> rfl

/-- No outcome depends on an event (spec/40_control.md R125). -/
theorem evaluate_mark (i : Instr) : evaluate (commandOf i) (v.mark s) = evaluate (commandOf i) s := by
  rw [← evaluate_rowView i (v.mark s), rowView_mark, evaluate_rowView]

theorem finish_mark (r : Except CmdFault Effect) : finish r (v.mark s) = v.mark (finish r s) := by
  cases v <;> cases r <;> rfl

theorem takeFault_mark (f : CmdFault) : takeFault f (v.mark s) = v.mark (takeFault f s) := finish_mark v s (.error f)

variable {s}

theorem completion_mark {u : State} (hu : completion s = .next u) : completion (v.mark s) = .next (v.mark u) := by
  have hword : (v.mark s).csr.cmd = s.csr.cmd := rfl
  cases hdec : decode s.csr.cmd with
  | ok i =>
    simp only [completion, hword, hdec, exec_eq_finish, evaluate_mark, finish_mark] at hu ⊢
    cases hu
    rfl
  | error e =>
    simp only [completion, hword, hdec, takeFault_mark] at hu ⊢
    cases hu
    rfl

end

theorem idle_and_done_of_completion {s u : State} (hu : completion s = .next u) : u.eng = .idle ∧ u.status.done = true := by
  rcases completion_cases s with ⟨i, -, h⟩ | ⟨e, -, h⟩ <;> obtain rfl := Host.Outcome.next.inj (h.symm.trans hu)
  · obtain ⟨-, -, heng, -, -, -, -, hdone, -⟩ := finish_frame (evaluate (commandOf i) s) s
    exact ⟨heng, hdone⟩
  · exact ⟨rfl, rfl⟩

/-- An access that is ignored with an event sets its flag beside the completion of its step (spec/60_exceptions.md R268). -/
theorem step_mark {s u : State} {v : Event} {a : HostStep} {rest : List HostStep} (heng : s.eng = .busy 0 .afterAccess)
    (hu : completion { s with bus := rest } = .next u)
    (ha : perform a { s with bus := rest } = v.mark { s with bus := rest }) :
    step { s with bus := a :: rest } = .next (v.mark u) := by
  have hat : atCompletion .afterAccess { s with bus := a :: rest } = v.mark { s with bus := rest } := ha
  have hcompletion : completion (atCompletion .afterAccess { s with bus := a :: rest }) = .next (v.mark u) := by
    rw [hat]
    exact completion_mark v hu
  exact step_of_completion (s := { s with bus := a :: rest }) heng (hat ▸ heng) hcompletion

theorem toNat_csrAddress (r : Csr) : (csrAddress r).toNat = csrOffset r := by cases r <;> rfl

/-- Settles O10: each of the writes is ignored with its event, and a completion commutes with events. -/
theorem writesWhileBusyAreFlagged : Obligations.WritesWhileBusyAreFlagged := by
  intro s w hs
  refine ⟨busWrite_busy_cmd hs w, fun r hr => busWrite_busy_operand hs w hr,
    fun off n hn halign hfits => busWrite_busy_ldm hs w (ldmAccess_offset hn halign hfits), ?_, ?_, fun rest heng => ?_⟩
  · rw [show 0x00C = csrOffset .status from rfl, busWrite_csrOffset]
    simp [writeCsr]
  · rw [show 0x00C = csrOffset .status from rfl, busWrite_csrOffset]
    simp [writeCsr]
  · obtain ⟨u, hu⟩ := exists_completion { s with bus := rest }
    obtain ⟨hidle, hdone⟩ := idle_and_done_of_completion hu
    have hs : isBusy { s with bus := rest } = true := hs
    refine ⟨u, step_of_completion (s := { s with bus := .wait :: rest }) heng heng hu, hidle, hdone, ?_, fun r hr => ?_,
      fun a n hn hlo halign hfits => ?_⟩
    · exact step_mark (v := .overrun) heng hu (busWrite_busy_cmd hs w)
    · refine step_mark (v := .violation) heng hu ?_
      rw [perform, toNat_csrAddress]
      exact busWrite_busy_operand hs w hr
    · exact step_mark (v := .violation) heng hu (busWrite_busy_ldm hs w ⟨hlo, hn, halign, hfits⟩)

end Sys2Proof.Machine
end

section
/-! PROOFS. The faults of operands: the first illegal register in the order of the command's rule (spec/60_exceptions.md R265), and
the least offending datum of its input (R266). -/

namespace Sys2Proof.Machine

/-! ### INVALID_PARAM -/

/-- The first check that fails names its register. -/
theorem firstBadParam_append {before after : List (Bool × Csr)} {r : Csr} (h : ∀ c ∈ before, c.1 = true) :
    firstBadParam (before ++ (false, r) :: after) = some ⟨.invalidParam, csrOffset r⟩ := by
  induction before with
  | nil => rfl
  | cons c before ih =>
    obtain ⟨hc, hbefore⟩ := List.forall_mem_cons.mp h
    rw [List.cons_append, firstBadParam, if_pos hc, ih hbefore]

/-- TSYM is checked before F0_HZ, whose rule divides by Nspsym (spec/43_modulator.md R191). -/
theorem tsym_mem_of_prefix {i : Instr} {l : List Csr} (hl : l <+: paramChecks i) (h : .f0Hz ∈ l) : .tsym ∈ l := by
  have hmem := hl.subset h
  cases i
  case gfskSynth =>
    have hall : ∀ l ∈ (paramChecks .gfskSynth).inits, Csr.f0Hz ∈ l → Csr.tsym ∈ l := by decide
    exact hall l ((List.mem_inits _ _).mpr hl) h
  all_goals simp [paramChecks] at hmem

section
variable {i : Instr} {s : State} {before after : List Csr} {r : Csr} (hchecks : paramChecks i = before ++ r :: after)
include hchecks

theorem tsym_mem_of_checks (h : .f0Hz ∈ before ∨ r = .f0Hz) : .tsym ∈ before := by
  rcases h with h | rfl
  · exact tsym_mem_of_prefix (hchecks ▸ List.prefix_append ..) h
  · have hprefix : before ++ [.f0Hz] <+: paramChecks i := ⟨after, by simp [hchecks]⟩
    simpa using tsym_mem_of_prefix hprefix (by simp)

variable (hbefore : ∀ q ∈ before, LegalParam i s q)
include hbefore

/-- Up to the first illegal register the checks are the legal values. -/
theorem paramOk_iff_of_checked {q : Csr} (hq : q ∈ before ∨ r = q) : paramOk i s q = true ↔ LegalParam i s q :=
  paramOk_iff fun hf0 => tsymOk_iff.mpr (hbefore .tsym (tsym_mem_of_checks hchecks (hf0 ▸ hq)))

theorem evaluate_invalidParam (hr : ¬LegalParam i s r) :
    evaluate (commandOf i) s = .error ⟨.invalidParam, csrOffset r⟩ := by
  obtain ⟨p, hp⟩ := exists_plan_guarded i s
  have hfails : paramOk i s r = false :=
    Bool.eq_false_iff.mpr (mt (paramOk_iff_of_checked hchecks hbefore (.inr rfl)).mp hr)
  have hfirst : firstBadParam ((paramChecks i).map fun q => (paramOk i s q, q)) = some ⟨.invalidParam, csrOffset r⟩ := by
    rw [hchecks, List.map_append, List.map_cons, hfails]
    refine firstBadParam_append fun c hc => ?_
    obtain ⟨q, hq, rfl⟩ := List.mem_map.mp hc
    exact (paramOk_iff_of_checked hchecks hbefore (.inl hq)).mpr (hbefore q hq)
  simp only [evaluate, hp, guarded, hfirst]

end

/-- Settles O20: the checks before the illegal register pass, its own names it. -/
theorem invalidParamNamesTheFirstBadRegister : Obligations.InvalidParamNamesTheFirstBadRegister :=
  fun _ _ _ _ _ hchecks hbefore hr => exec_faults (evaluate_invalidParam hchecks hbefore hr)

/-! ### INVALID_VALUE -/

theorem firstIndex_eq_findIdx? {α : Type} (p : α → Bool) (l : List α) : firstIndex p l = l.findIdx? p := by
  induction l with
  | nil => rfl
  | cons x l ih => cases hx : p x <;> simp [firstIndex, hx, ih, List.findIdx?_cons]

/-- A list read element by element offends first at its least offending index. -/
theorem firstIndex_map_range_eq_some {α : Type} {p : α → Bool} {f : Nat → α} {n k : Nat} (hk : k < n) (hp : p (f k) = true)
    (hleast : ∀ j < k, p (f j) = false) : firstIndex p ((List.range n).map f) = some k := by
  rw [firstIndex_eq_findIdx?, List.findIdx?_eq_some_iff_getElem]
  exact ⟨by simpa using hk, by simpa using hp, fun j hj => by simpa using hleast j hj⟩

section
variable {s : State} {nm : Num} {md : Mode} {mt : Metric} {iter k : Nat}

theorem cmdLdpcDecode_faults (hk : k < 174) (hbad : isNaN (f32Read s (src s + 4 * k)) = true)
    (hleast : ∀ j < k, isNaN (f32Read s (src s + 4 * j)) = false) :
    (cmdLdpcDecode nm iter).body s = .error ⟨.invalidValue, k⟩ := by
  have hfirst : firstIndex isNaN (f32Array s (src s) 174) = some k := firstIndex_map_range_eq_some hk hbad hleast
  simp only [cmdLdpcDecode, hfirst]

theorem cmdGfskSynth_faults (hk : k < len s) (hbad : 7 < (readByte s (src s + k)).toNat)
    (hleast : ∀ j < k, (readByte s (src s + j)).toNat ≤ 7) : (cmdGfskSynth nm).body s = .error ⟨.invalidValue, k⟩ := by
  have hfirst : firstIndex (fun t => decide (7 < t)) (synthTones s) = some k := by
    rw [synthTones, readBytes, List.map_map]
    exact firstIndex_map_range_eq_some hk (decide_eq_true hbad) fun j hj => by simpa using hleast j hj
  simp only [cmdGfskSynth, hfirst]

theorem cmdSpectrogram_faults (hk : k < len s) (hbad : isFinite (f32Read s (src s + 4 * k)) = false)
    (hleast : ∀ j < k, isFinite (f32Read s (src s + 4 * j)) = true) :
    (cmdSpectrogram nm).body s = .error ⟨.invalidValue, k⟩ := by
  have hfirst : firstIndex (fun x => !isFinite x) (f32Array s (src s) (len s)) = some k :=
    firstIndex_map_range_eq_some hk (by simpa using hbad) fun j hj => by simpa using hleast j hj
  simp only [cmdSpectrogram, hfirst]

theorem cmdLlrExtract_faults (hbad : ¬ValidRecord md s 0) : (cmdLlrExtract nm md mt).body s = .error ⟨.invalidValue, 0⟩ :=
  if_neg (validRecord_iff.not.mpr hbad)

theorem cmdDecode_faults (hk : k < len s) (hbad : ¬ValidRecord md s k) (hleast : ∀ j < k, ValidRecord md s j) :
    (cmdDecode nm md mt iter).body s = .error ⟨.invalidValue, k⟩ := by
  have hfirst : firstIndex (fun c => !validCandidate (gridOf s) md c) (decodeCandidates s) = some k :=
    firstIndex_map_range_eq_some hk (by simpa using validRecord_iff.not.mpr hbad)
      fun j hj => by simpa using validRecord_iff.mpr (hleast j hj)
  simp only [cmdDecode, hfirst]

end

/-- The body of a command names the least datum outside its legal values. -/
theorem body_of_badDatum {i : Instr} {s : State} {k : Nat} (hbad : BadDatum i s k) (hleast : ∀ j < k, ¬BadDatum i s j) :
    (commandOf i).body s = .error ⟨.invalidValue, k⟩ := by
  cases i
  case ldpcDecode =>
    obtain ⟨hk, hbad⟩ := hbad
    exact cmdLdpcDecode_faults hk hbad fun j hj => by simpa [BadDatum, hj.trans hk] using hleast j hj
  case gfskSynth =>
    obtain ⟨hk, hbad⟩ := hbad
    exact cmdGfskSynth_faults hk hbad fun j hj => by simpa [BadDatum, hj.trans hk] using hleast j hj
  case spectrogram =>
    obtain ⟨hk, hbad⟩ := hbad
    exact cmdSpectrogram_faults hk hbad fun j hj => by simpa [BadDatum, hj.trans hk] using hleast j hj
  case llrExtractFt8Lse | llrExtractFt4Lse | llrExtractFt8Max | llrExtractFt4Max =>
    obtain ⟨rfl, hbad⟩ := hbad
    exact cmdLlrExtract_faults hbad
  case decodeFt8Lse | decodeFt4Lse | decodeFt8Max | decodeFt4Max =>
    obtain ⟨hk, hbad⟩ := hbad
    exact cmdDecode_faults hk hbad fun j hj => not_not.mp fun hinvalid => hleast j hj ⟨hj.trans hk, hinvalid⟩
  all_goals exact hbad.elim

/-- Settles O22: legal parameters and regions leave the outcome to the body, which names the least offending datum. -/
theorem invalidValueNamesTheLeastIndex : Obligations.InvalidValueNamesTheLeastIndex :=
  fun _ _ _ hparams haddr hbad hleast =>
    exec_faults ((evaluate_eq_body hparams haddr).trans (body_of_badDatum hbad hleast))

end Sys2Proof.Machine
end

section
/-! PROOFS. The two resets (spec/70_reset_and_hazards.md R290, R291): what every CSR reads after them, and what LDM holds
after the soft reset of a running command, whose destination has the size of its row of spec/30_encoding.md R100. -/

namespace Sys2Proof.Machine

/-! ### Power-on reset -/

/-- Settles O1: every register of `State.resetWith` has its reset value, and no byte of LDM is written or drawn again. -/
theorem powerOnResetState : Obligations.PowerOnResetState := by
  intro p s
  refine ⟨?csrs, rfl, rfl, fun _ => rfl, rfl⟩
  case csrs => and_intros <;> rfl

/-! ### The registers after a reset -/

/-- After a reset of the registers every CSR reads as after power-on, whatever the rest of the state is. -/
theorem readCsr_resetRegisters (q : Csr) (s : State) (p : Params) :
    readCsr q (resetRegisters s) = readCsr q (State.resetWith p) := by
  cases q <;> rfl

theorem softReset_registers (r : Option Span) (s : State) :
    (∀ q, readCsr q (softReset r s) = readCsr q (State.resetWith s.params)) ∧ (softReset r s).eng = .idle
      ∧ irq (softReset r s) = false ∧ (softReset r s).params = s.params := by
  cases r <;> exact ⟨fun q => readCsr_resetRegisters q _ _, rfl, rfl, rfl⟩

/-- A write of CTRL with SRST set is the soft reset (spec/10_state.md R25). -/
theorem busWrite_ctrl_srst {w : Word} (hw : w.getLsbD 0 = true) (s : State) :
    busWrite (csrOffset .ctrl) 4 w s = { softReset (abandonedSpan s) s with resp := .ack } := by
  rw [busWrite_csrOffset, writeCsr, if_pos hw]

/-- With SRST clear a write of CTRL is ignored (spec/10_state.md R25). -/
theorem busWrite_ctrl_clear {w : Word} (hw : w.getLsbD 0 = false) (s : State) :
    busWrite (csrOffset .ctrl) 4 w s = { s with resp := .ack } := by
  rw [busWrite_csrOffset, writeCsr, hw, if_neg Bool.false_ne_true]

/-! ### LDM after a soft reset -/

section
variable {s : State} (a : Nat)

/-- The bytes of a forgotten span hold the next draw, the other bytes keep their values. -/
theorem readByte_forgetSpan (r : Span) (s : State) :
    readByte (forgetSpan r s) a =
      if r.base ≤ a ∧ a < r.base + r.size then Config.freeByte (s.redraws.length + 1) a else readByte s a := by
  by_cases h : r.base ≤ a ∧ a < r.base + r.size
  · simp [readByte, byteAt_forget, drawAt, Span.covers, h]
  · simp only [readByte, forgetSpan_ldm, forgetSpan_redraws, byteAt_forget, drawAt, Span.covers, h, if_false, decide_false,
      Bool.false_eq_true]

theorem readByte_softReset_idle (hs : isBusy s = false) : readByte (softReset (abandonedSpan s) s) a = readByte s a := by
  rw [abandonedSpan, if_neg (by simp [hs])]
  rfl

/-- A word that is no legal command has no destination (spec/30_encoding.md R97). -/
theorem readByte_softReset_illegalWord {e : DecodeError} (he : decode s.csr.cmd = .error e) :
    readByte (softReset (abandonedSpan s) s) a = readByte s a := by
  have hspan : abandonedSpan s = none := by simp [abandonedSpan, he]
  rw [hspan]
  rfl

/-- A running command leaves its destination unspecified, if it has one. -/
theorem readByte_softReset_running {i : Instr} (hi : decode s.csr.cmd = .ok i) (hs : isBusy s = true) :
    readByte (softReset (abandonedSpan s) s) a =
      if writesLdm i = true ∧ dst s ≤ a ∧ a < dst s + abandonedSize i s then Config.freeByte (s.redraws.length + 1) a
      else readByte s a := by
  have hspan : abandonedSpan s = destination i s := by simp [abandonedSpan, hi, hs]
  rw [hspan, destination]
  cases writesLdm i
  · simp only [Bool.false_eq_true, false_and, if_false]
    rfl
  · simp only [if_true, true_and]
    exact readByte_forgetSpan a ⟨dst s, abandonedSize i s⟩ s

end

/-! ### The size of an abandoned destination -/

section
variable {i : Instr} {s : State}

/-- The numbers in the row's size have a value: N where TSYM is finite, T' where NSTEP is not 0 (log entry 4). -/
def HasRowSize (i : Instr) (s : State) : Prop :=
  len s = 0 ∨ (i = .gfskSynth → isFinite s.csr.tsym = true) ∧ (i = .spectrogram → 1 ≤ nstep s)

/-- The size in bytes of the row's destination on exact rationals (spec/30_encoding.md R100). -/
def rowSize (i : Instr) (s : State) : Nat :=
  if i = .gfskSynth then 4 * len s * (exactNspsym s).toNat
  else if i = .spectrogram then 2 * ((len s + nstep s - 1) / nstep s) * (nfft s + 2)
  else writtenSize i s

/-- The model's Nspsym is the rule's for a TSYM above 0; for another one no sample is left (spec/43_modulator.md R186). -/
theorem toNat_exactNspsym (s : State) : (exactNspsym s).toNat = if signBit s.csr.tsym then 0 else nspsymOf s := by
  rcases lt_trichotomy (exact s.csr.tsym) 0 with hneg | hzero | hpos
  · have hprod : (fs s : ℚ) * exact s.csr.tsym ≤ 0 := mul_nonpos_of_nonneg_of_nonpos (Nat.cast_nonneg _) hneg.le
    have hfloor : exactNspsym s < 1 := Int.floor_lt.mpr (by push_cast; linarith)
    rw [signBit_eq_of_exact_ne_zero hneg.ne, decide_eq_true hneg, if_pos rfl]
    omega
  · have hn : nspsymOf s = 0 := by simp [nspsymOf, roundProduct, exact_eq_zero_iff.mp hzero]
    rw [hn, ite_self, exactNspsym, hzero]
    norm_num
  · rw [signBit_eq_of_exact_ne_zero hpos.ne', decide_eq_false hpos.not_gt, if_neg Bool.false_ne_true, exactNspsym_eq hpos,
      Int.toNat_natCast]

theorem abandonedSize_eq_rowSize (h : HasRowSize i s) : abandonedSize i s = rowSize i s := by
  cases i
  case gfskSynth =>
    rw [rowSize, if_pos rfl, toNat_exactNspsym]
    rcases h with hlen | ⟨hfin, -⟩
    · simp [abandonedSize, writtenSize, hlen]
    · rw [abandonedSize, if_pos (hfin rfl), mul_ite, mul_zero]
      rfl
  case spectrogram =>
    rw [rowSize, if_neg (by decide), if_pos rfl, abandonedSize]
    by_cases hlen : len s = 0
    · have hframes : (nstep s - 1) / nstep s = 0 := Nat.div_eq_zero_iff.mpr (by omega)
      simp [hlen, hframes]
    · have hnstep : 1 ≤ nstep s := (h.resolve_left hlen).2 rfl
      rw [if_neg hlen, if_neg (by omega)]
  all_goals rfl

theorem abandonedSize_eq_rest (h : ¬HasRowSize i s) : abandonedSize i s = s.params.ldmSize - dst s := by
  obtain ⟨hlen, hvalue⟩ := not_or.mp h
  cases i
  case gfskSynth =>
    have hfin : ¬isFinite s.csr.tsym = true := fun hfin => hvalue ⟨fun _ => hfin, nofun⟩
    rw [abandonedSize, if_neg hfin, if_neg hlen]
  case spectrogram =>
    have hnstep : nstep s = 0 := by_contra fun hnstep => hvalue ⟨nofun, fun _ => Nat.pos_of_ne_zero hnstep⟩
    rw [abandonedSize, if_neg hlen, if_pos hnstep]
  all_goals exact absurd ⟨nofun, nofun⟩ hvalue

end

/-- Settles O11: a write of CTRL is the soft reset or nothing, and a soft reset forgets the destination of its row alone. -/
theorem softResetAndCtrl : Obligations.SoftReset := by
  refine ⟨fun s => ⟨rfl, busRead_csrOffset .ctrl s⟩, fun s w hw => busWrite_ctrl_clear hw s, ?_⟩
  intro s w hw
  rw [show busWrite 0x008 4 w s = _ from busWrite_ctrl_srst hw s]
  intro t
  obtain ⟨hcsrs, heng, hirq, hparams⟩ := softReset_registers (abandonedSpan s) s
  refine ⟨hcsrs, heng, hirq, hparams, rfl, fun hs a => readByte_softReset_idle a hs,
    fun e he a => readByte_softReset_illegalWord a he, ?_⟩
  intro i hi hs sized size
  have hread (a : Nat) : readByte t a = _ := readByte_softReset_running a hi hs
  refine ⟨fun hnone a => ?_, fun a ha => ?_, fun hwrites hsized => ⟨fun a ha => ?_, fun a hlo hhi => ?_⟩,
    fun hwrites hsized a hlo hhi => ?_⟩
  · exact (hread a).trans (if_neg fun h => by simp [hnone] at h)
  · exact (hread a).trans (if_neg fun h => by omega)
  · rw [hread, abandonedSize_eq_rowSize hsized]
    exact if_neg fun h => ha h.2
  · rw [hread, abandonedSize_eq_rowSize hsized]
    exact if_pos ⟨hwrites, hlo, hhi⟩
  · rw [hread, abandonedSize_eq_rest hsized]
    exact if_pos ⟨hwrites, hlo, by omega⟩

end Sys2Proof.Machine
end

section
/-! PROOFS. What one step is (spec/70_reset_and_hazards.md R298): the next access of the host, which leaves a running command
undisturbed unless it is a reset (spec/20_memory.md R74, R75), and the completion of the latched word. -/

namespace Sys2Proof.Machine

/-! ### What an access leaves to a running command -/

/-- t has all that the outcome of a command running in s depends on and changes: STATUS, IRQ_EN and ERRINFO apart, the host
cannot write it while BUSY (spec/20_memory.md R74). -/
structure SameOperands (s t : State) : Prop where
  params : t.params = s.params
  csr : ∃ errinfo, t.csr = { s.csr with errinfo := errinfo }
  ldm : t.ldm = s.ldm
  redraws : t.redraws = s.redraws

/-- The command runs on in t with the operands it has in s, and the host has no access to come that it had not in s. -/
structure Undisturbed (s t : State) : Prop extends SameOperands s t where
  eng : t.eng = s.eng
  bus : t.bus ⊆ s.bus

theorem SameOperands.trans {s t u : State} (hst : SameOperands s t) (htu : SameOperands t u) : SameOperands s u where
  params := htu.params.trans hst.params
  csr := by
    obtain ⟨x, hx⟩ := hst.csr
    obtain ⟨y, hy⟩ := htu.csr
    exact ⟨y, by rw [hy, hx]⟩
  ldm := htu.ldm.trans hst.ldm
  redraws := htu.redraws.trans hst.redraws

theorem Undisturbed.trans {s t u : State} (hst : Undisturbed s t) (htu : Undisturbed t u) : Undisturbed s u where
  toSameOperands := hst.toSameOperands.trans htu.toSameOperands
  eng := htu.eng.trans hst.eng
  bus := List.Subset.trans htu.bus hst.bus

/-- A change of ERRINFO, STATUS, IRQ_EN, the draw counter and the answer alone disturbs no command. -/
theorem Undisturbed.of_eq {s t : State}
    (h : t = { s with
      csr := { s.csr with errinfo := t.csr.errinfo }, status := t.status, irqEn := t.irqEn, draws := t.draws
      resp := t.resp } := by rfl) : Undisturbed s t := by
  rw [h]
  exact ⟨⟨rfl, ⟨_, rfl⟩, rfl, rfl⟩, rfl, List.Subset.refl _⟩

theorem undisturbed_tail {s : State} {a : HostStep} {rest : List HostStep} (hbus : s.bus = a :: rest) :
    Undisturbed s { s with bus := rest } :=
  ⟨⟨rfl, ⟨_, rfl⟩, rfl, rfl⟩, rfl, hbus ▸ List.subset_cons_self a rest⟩

/-! ### Accesses while BUSY -/

/-- The write of a reset is the one of CTRL with SRST set (spec/10_state.md R25). -/
theorem keepsRunning_write_eq_false {addr w : Word} {bytes : Nat} :
    (HostStep.write addr bytes w).keepsRunning = false ↔ addr = csrAddress .ctrl ∧ bytes = 4 ∧ w.getLsbD 0 = true := by
  simp [HostStep.keepsRunning, and_assoc]

/-- The bus map reaches an offset of the CSR window at its own address only, with 32 bits (spec/20_memory.md R60, R71). -/
theorem eq_of_target_csr {ldmSize addr bytes off : Nat} (h : target ldmSize addr bytes = .csr off) :
    addr = off ∧ bytes = 4 := by
  by_cases hcsr : CsrAccess addr bytes
  · rw [target_of_csrAccess hcsr] at h
    exact ⟨Target.csr.inj h, hcsr.2.1⟩
  by_cases hldm : LdmAccess ldmSize addr bytes
  · rw [target_of_ldmAccess hldm] at h
    cases h
  · rw [target_of_noAccess hcsr hldm] at h
    cases h

theorem busRead_undisturbed (addr bytes : Nat) (s : State) : Undisturbed s (busRead addr bytes s) := by
  rw [busRead_eq]
  exact .of_eq

theorem hostStep_nil {s : State} (hbus : s.bus = []) : hostStep s = s := by simp only [hostStep, hbus]

theorem hostStep_cons {s : State} {a : HostStep} {rest : List HostStep} (hbus : s.bus = a :: rest) :
    hostStep s = perform a { s with bus := rest } := by
  simp only [hostStep, hbus]

section
variable {s : State} (hs : isBusy s = true)
include hs

theorem writeCsr_undisturbed {r : Csr} {w : Word} (hr : r = .ctrl → ¬w.getLsbD 0 = true) :
    Undisturbed s (writeCsr r w s) := by
  rcases writeCsr_cases r w s with ⟨hctrl, hw, -⟩ | ⟨-, e⟩ | ⟨-, e⟩ | ⟨-, -, e⟩ | ⟨-, hidle, -⟩ | ⟨-, -, e⟩ | ⟨-, hidle, -⟩
    | ⟨-, -, -, -, -, e⟩
  case inl => exact absurd hw (hr hctrl)
  case inr.inr.inr.inr.inl | inr.inr.inr.inr.inr.inr.inl => exact absurd hidle (by simp [hs])
  all_goals
    rw [e]
    exact .of_eq

theorem busWrite_undisturbed {addr : Word} {bytes : Nat} {w : Word} (h : (HostStep.write addr bytes w).keepsRunning = true) :
    Undisturbed s (busWrite addr.toNat bytes w s) := by
  rcases busWrite_cases addr.toNat bytes w s with ⟨_, -, -, e⟩ | ⟨off, r, htarget, hr, e⟩ | ⟨_, -, e⟩ | ⟨-, e⟩ <;> rw [e]
  · exact .of_eq
  · refine (writeCsr_undisturbed hs ?_).trans .of_eq
    rintro rfl hw
    obtain ⟨haddr, rfl⟩ := eq_of_target_csr htarget
    obtain rfl : addr = csrAddress .ctrl :=
      BitVec.eq_of_toNat_eq (by rw [haddr, toNat_csrAddress, csrOffset_of_csrAt hr])
    exact Bool.noConfusion (h.symm.trans (keepsRunning_write_eq_false.mpr ⟨rfl, rfl, hw⟩))
  · rw [writeLdm, if_pos hs]
    exact .of_eq
  · exact .of_eq

/-- An access that is no reset leaves the running command undisturbed. -/
theorem hostStep_undisturbed {a : HostStep} {rest : List HostStep} (hbus : s.bus = a :: rest) (ha : a.keepsRunning = true) :
    Undisturbed s (hostStep s) := by
  have htail := undisturbed_tail hbus
  rw [hostStep_cons hbus]
  cases a with
  | wait => exact htail
  | read addr bytes => exact htail.trans (busRead_undisturbed _ _ _)
  | write addr bytes w => exact htail.trans (busWrite_undisturbed (s := { s with bus := rest }) hs ha)
  | poll =>
    rw [perform_poll, if_pos (show isBusy { s with bus := rest } = true from hs), ← hbus]
    exact .of_eq
  | powerOn => cases ha

end

/-- A reset leaves no command running. -/
theorem hostStep_reset_eng {s : State} {a : HostStep} {rest : List HostStep} (hbus : s.bus = a :: rest)
    (ha : a.keepsRunning = false) : (hostStep s).eng = .idle := by
  rw [hostStep_cons hbus]
  cases a with
  | wait | read _ _ | poll => cases ha
  | powerOn => rfl
  | write addr bytes w =>
    obtain ⟨rfl, rfl, hw⟩ := keepsRunning_write_eq_false.mp ha
    obtain ⟨-, heng, -⟩ := softReset_registers (abandonedSpan { s with bus := rest }) { s with bus := rest }
    rw [perform, toNat_csrAddress, busWrite_ctrl_srst hw]
    exact heng

theorem hostStep_eng {s : State} {a : HostStep} {rest : List HostStep} (hs : isBusy s = true) (hbus : s.bus = a :: rest) :
    (hostStep s).eng = if a.keepsRunning then s.eng else .idle := by
  cases ha : a.keepsRunning
  · exact hostStep_reset_eng hbus ha
  · exact (hostStep_undisturbed hs hbus ha).eng

theorem readCsr_powerOnReset (q : Csr) (s : State) : readCsr q (powerOnReset s) = readCsr q (State.resetWith s.params) :=
  readCsr_resetRegisters q _ _

/-- A power-on reset leaves every byte of LDM unspecified (spec/70_reset_and_hazards.md R290). -/
theorem readByte_powerOnReset {s : State} {a : Nat} (ha : a < s.params.ldmSize) :
    readByte (powerOnReset s) a = Config.freeByte (s.redraws.length + 1) a := by
  simp [readByte, drawAt, Span.covers, ha]

/-! ### The completion of a step -/

theorem completion_of_decode_ok {s : State} {i : Instr} (h : decode s.csr.cmd = .ok i) : completion s = exec i s := by
  simp only [completion, h]

/-- A completion after the access of its step is of the state that the access leaves. -/
theorem step_afterAccess {s : State} (heng : s.eng = .busy 0 .afterAccess) (hat : (hostStep s).eng = .busy 0 .afterAccess) :
    step s = completion (hostStep s) := by
  obtain ⟨t, ht⟩ := exists_completion (hostStep s)
  exact (step_of_completion heng hat ht).trans ht.symm

/-- An access before the completion of its step can be a reset, and then there is nothing left to complete. -/
theorem step_abandoned {s : State} (heng : s.eng = .busy 0 .afterAccess) (hat : (hostStep s).eng ≠ .busy 0 .afterAccess) :
    step s = .next (hostStep s) := by
  have hidle : (hostStep s).eng = .idle := (hostStep_busy heng).resolve_right hat
  simp [step, heng, isBusy, hidle]

theorem step_delayed {s : State} {n : Nat} {o : CompletionOrder} (heng : s.eng = .busy (n + 1) o) :
    step s = .next (hostStep { s with eng := .busy n o }) := by
  simp only [step, heng]

/-- A placed command word decodes to its command. -/
theorem decode_withFetchWord_encode (s : State) {i : Instr} (hi : i.wellFormed = true) :
    decode (s.withFetchWord 32 (encode i).toNat).csr.cmd = .ok i := by
  have hword : BitVec.ofNat 32 ((encode i).toNat % 2 ^ 32) = encode i := by
    rw [Nat.mod_eq_of_lt (encode i).isLt, BitVec.ofNat_toNat, BitVec.setWidth_eq]
  rw [withFetchWord_csr, hword, decode_encode hi]

/-- Settles O17: each clause is one case of `step` or of `hostStep`. -/
theorem stepRunsTheDecodedCommand : Obligations.StepRunsTheDecodedCommand := by
  refine ⟨fun s i heng hat hi => ?afterAccess, fun s => step_abandoned, fun s i heng hi => ?beforeAccess,
    fun s n o => step_delayed, fun s heng => by simp only [step, heng], fun s => hostStep_nil, fun s h rest hbus => ?access,
    fun s i hi => ?placed⟩
  case afterAccess =>
    have hcmd : (hostStep s).csr.cmd = s.csr.cmd := cmd_atCompletion heng hat
    rw [step_afterAccess heng hat, completion_of_decode_ok (hcmd ▸ hi)]
  case beforeAccess =>
    have hexec := exec_eq_finish i s
    have hcompletion := (completion_of_decode_ok hi).trans hexec
    obtain ⟨hidle, -⟩ := idle_and_done_of_completion hcompletion
    exact ⟨_, hexec, hidle, step_of_completion heng heng hcompletion⟩
  case access =>
    refine ⟨fun hs => hostStep_eng hs hbus, ?_⟩
    rw [hostStep_cons hbus]
    refine ⟨by rintro rfl; rfl, by rintro _ _ rfl; rfl, by rintro _ _ _ rfl; rfl, by rintro rfl; exact perform_poll _, ?_⟩
    rintro rfl
    exact ⟨fun r => readCsr_powerOnReset r { s with bus := rest }, rfl, rfl, rfl, rfl, rfl,
      fun a ha => readByte_powerOnReset (s := { s with bus := rest }) ha⟩
  case placed =>
    have hdecode := decode_withFetchWord_encode s hi
    exact (step_withFetchWord s 32 _).trans
      (completion_of_decode_ok (s := { s.withFetchWord 32 (encode i).toNat with bus := s.bus }) hdecode)

end Sys2Proof.Machine
end

section
/-! PROOFS. A started command completes with the outcome of its start, whatever the host does short of a reset
(spec/70_reset_and_hazards.md R294, R298; spec/20_memory.md R76). -/

namespace Sys2Proof.Machine

/-! ### The outcome of the operands -/

section
variable {s t : State}

/-- STATUS, IRQ_EN and ERRINFO apart, a register reads what the stored CSRs hold. -/
theorem readCsr_of_csr {c : Csrs} (h : ∃ errinfo, t.csr = { c with errinfo := errinfo }) {r : Csr} (hstatus : r ≠ .status)
    (hirqEn : r ≠ .irqEn) (herrinfo : r ≠ .errinfo) : readCsr r t = readCsr r { s with csr := c } := by
  obtain ⟨x, hx⟩ := h
  cases r
  case status => exact absurd rfl hstatus
  case irqEn => exact absurd rfl hirqEn
  case errinfo => exact absurd rfl herrinfo
  all_goals simp only [readCsr, hx]

/-- No row reads a register the host may write while BUSY (spec/30_encoding.md R100, spec/20_memory.md R74). -/
theorem ne_of_mem_csrsRead {i : Instr} {r : Csr} (h : r ∈ csrsRead i) : r ≠ .status ∧ r ≠ .irqEn ∧ r ≠ .errinfo := by
  refine ⟨?_, ?_, ?_⟩ <;> rintro rfl <;> cases i <;> simp [csrsRead] at h

variable (h : SameOperands s t)
include h

theorem SameOperands.cmd_eq : t.csr.cmd = s.csr.cmd := by
  obtain ⟨x, hx⟩ := h.csr
  rw [hx]

theorem SameOperands.readByte_eq (a : Nat) : readByte t a = readByte s a := readByte_congr h.ldm h.redraws a

theorem SameOperands.readCsr_eq {r : Csr} (hstatus : r ≠ .status) (hirqEn : r ≠ .irqEn) (herrinfo : r ≠ .errinfo) :
    readCsr r t = readCsr r s :=
  readCsr_of_csr h.csr hstatus hirqEn herrinfo

/-- The same operands give the same outcome (spec/20_memory.md R76). -/
theorem SameOperands.evaluate_eq (i : Instr) : evaluate (commandOf i) t = evaluate (commandOf i) s := by
  have hcsrs : ∀ r ∈ csrsRead i, readCsr r t = readCsr r s := fun r hr => by
    obtain ⟨hstatus, hirqEn, herrinfo⟩ := ne_of_mem_csrsRead hr
    exact h.readCsr_eq hstatus hirqEn herrinfo
  have hview : rowView i t = rowView i s := by
    rw [rowView_eq_withLdm h.params hcsrs, h.ldm, h.redraws]
    rfl
  rw [← evaluate_rowView i t, hview, evaluate_rowView]

end

/-! ### The run to the completion -/

section
variable {s : State} {o : CompletionOrder} (hbus : ∀ a ∈ s.bus, a.keepsRunning = true)
include hbus

theorem hostStep_undisturbed_of_list (hs : isBusy s = true) : Undisturbed s (hostStep s) := by
  cases hlist : s.bus with
  | nil =>
    rw [hostStep_nil hlist]
    exact .of_eq
  | cons a rest => exact hostStep_undisturbed hs hlist (hbus a (by simp [hlist]))

theorem atCompletion_undisturbed (hs : isBusy s = true) : Undisturbed s (atCompletion o s) := by
  cases o with
  | afterAccess => exact hostStep_undisturbed_of_list hbus hs
  | beforeAccess => exact .of_eq

/-- The delay runs down while the host's accesses leave the operands alone, and the command completes in the last step. -/
theorem run_to_completion {n : Nat} (heng : s.eng = .busy n o) :
    ∃ u t, SameOperands s u ∧ completion u = .next t
      ∧ Host.Core.run core (n + 1) s = .next (afterCompletion o t) := by
  induction n generalizing s with
  | zero =>
    have hkept : Undisturbed s (atCompletion o s) := atCompletion_undisturbed hbus (by rw [isBusy, heng])
    obtain ⟨t, ht⟩ := exists_completion (atCompletion o s)
    exact ⟨_, t, hkept.toSameOperands, ht, run_succ (step_of_completion heng (hkept.eng.trans heng) ht) 0⟩
  | succ n ih =>
    have hkept : Undisturbed { s with eng := .busy n o } (hostStep { s with eng := .busy n o }) :=
      hostStep_undisturbed_of_list (s := { s with eng := .busy n o }) hbus rfl
    obtain ⟨u, t, hsame, ht, hrun⟩ := ih (fun a ha => hbus a (hkept.bus ha)) hkept.eng
    have hcount : SameOperands s { s with eng := .busy n o } := ⟨rfl, ⟨_, rfl⟩, rfl, rfl⟩
    exact ⟨u, t, (hcount.trans hkept.toSameOperands).trans hsame, ht, (run_succ (step_delayed heng) (n + 1)).trans hrun⟩

end

/-! ### What the completion leaves -/

section
variable {s u : State} (h : SameOperands s u)
include h

theorem SameOperands.after_fault (f : CmdFault) : SameOperands s (takeFault f u) where
  params := h.params
  csr := by
    obtain ⟨x, hx⟩ := h.csr
    exact ⟨_, by rw [takeFault_csr, hx]⟩
  ldm := h.ldm
  redraws := h.redraws

/-- A fault leaves ERR set, and LDM and the registers as they were at the start (spec/60_exceptions.md R269). -/
theorem SameOperands.faulted (f : CmdFault) :
    (takeFault f u).params = s.params ∧ (takeFault f u).status.err = true
      ∧ (∀ a, readByte (takeFault f u) a = readByte s a)
      ∧ ∀ r, r ≠ .status → r ≠ .irqEn → r ≠ .errinfo → readCsr r (takeFault f u) = readCsr r s :=
  ⟨h.params, rfl, (h.after_fault f).readByte_eq, fun _ => (h.after_fault f).readCsr_eq⟩

/-- The collected writes are made to LDM and the registers of the start (spec/40_control.md R122). -/
theorem SameOperands.completed (e : Effect) :
    (completeOk e u).params = s.params
      ∧ (∀ a, readByte (completeOk e u) a =
          if e.base ≤ a ∧ a < e.base + e.bytes.length then e.bytes.getD (a - e.base) 0 else readByte s a)
      ∧ ∀ r, r ≠ .status → r ≠ .irqEn → r ≠ .errinfo →
          readCsr r (completeOk e u) = readCsr r { s with csr := e.applyCsrs s.csr } := by
  have hcsr : ∃ errinfo, (completeOk e u).csr = { e.applyCsrs s.csr with errinfo := errinfo } := by
    obtain ⟨x, hx⟩ := h.csr
    exact ⟨x, by rw [completeOk_csr, hx]; rfl⟩
  exact ⟨h.params, fun a => by rw [readByte_completeOk, h.readByte_eq], fun _ => readCsr_of_csr hcsr⟩

end

/-- Settles O25: the run completes a state with the operands of the start, and so with the outcome of the start. -/
theorem runningCommandIsUndisturbed : Obligations.RunningCommandIsUndisturbed := by
  intro n o s heng hbus
  obtain ⟨u, t, hsame, ht, hrun⟩ := run_to_completion hbus heng
  obtain ⟨hidle, hdone⟩ := idle_and_done_of_completion ht
  refine ⟨t, hrun, hidle, hdone, ?_⟩
  rw [← hsame.cmd_eq]
  rcases completion_cases u with ⟨i, hi, hfin⟩ | ⟨d, hd, hfin⟩
  · rw [hsame.evaluate_eq i, ht] at hfin
    obtain rfl := Host.Outcome.next.inj hfin
    simp only [hi]
    cases evaluate (commandOf i) s with
    | ok e => exact hsame.completed e
    | error f => exact hsame.faulted f
  · obtain rfl := Host.Outcome.next.inj (ht.symm.trans hfin)
    simp only [hd]
    exact hsame.faulted _

end Sys2Proof.Machine
end
